-- ==== Sys2Proof/Word.lean ====
section
/-! DEFINITION. The word types of the SOLAR 16 (00_scope.md R5, R6). Bit 0 of the manual is the leftmost,
most significant bit; `BitVec` numbers from the right, so manual bit `i` of a word is `BitVec` bit `15 - i`. -/

namespace Sys2Proof

/-- A 16-bit memory word or register (R5). -/
abbrev Word := BitVec 16

/-- Half a word (R5). -/
abbrev Byte := BitVec 8

/-- A 20-bit physical word address (R5); without DRPS only the 16 low bits are used. -/
abbrev PAddr := BitVec 20

end Sys2Proof
end

