-- ==== Sys2Proof/Machine/Bits.lean ====
section
/-! DEFINITION. Bit fields, sign extension and halves of words, in the manual's numbering
(00_scope.md R6 and section 4.2). -/

namespace Sys2Proof

/-- `v[i]`, manual bit `i` of a word (0 = leftmost); false for `i > 15`. -/
def bit (v : Word) (i : Nat) : Bool := if i < 16 then v.getLsbD (15 - i) else false

/-- The word whose only 1 is manual bit `i`; zero for `i > 15`. -/
def bitMask (i : Nat) : Word := if i < 16 then (1#16) <<< (15 - i) else 0#16

/-- `v[i] <- b`. -/
def setBit (v : Word) (i : Nat) (b : Bool) : Word :=
  if b then v ||| bitMask i else v &&& ~~~ bitMask i

/-- The left byte `v[0:7]`. -/
def hi (v : Word) : Byte := v.extractLsb' 8 8

/-- The right byte `v[8:15]`. -/
def lo (v : Word) : Byte := v.extractLsb' 0 8

/-- The word with the given left and right bytes. -/
def ofBytes (l r : Byte) : Word := l ++ r

/-- The word with the same unsigned value as a byte (`zext_8`). -/
def zext8 (b : Byte) : Word := b.setWidth 16

/-- The word with the same signed value as a byte (`sext_8`). -/
def sext8 (b : Byte) : Word := b.signExtend 16

/-- `s16(v)`, the signed reading of a word. -/
def s16 (v : Word) : Int := v.toInt

/-- The word congruent to an integer (`u16`). -/
def u16 (n : Int) : Word := BitVec.ofInt 16 n

/-- `floor(s16(x) / 2)` as a word: one arithmetic shift to the right (R103). -/
def half (x : Word) : Word := x.sshiftRight 1

/-- Rank of the leftmost 1 bit of a word, or 16 when the word is zero. -/
def leftmost (v : Word) : Nat := if v = 0 then 16 else 15 - v.toNat.log2

/-- A Boolean as a word, 0 or 1. -/
def ofBit (b : Bool) : Word := if b then 1#16 else 0#16

end Sys2Proof
end

