-- ==== Sys2Proof/Machine/Flags.lean ====
section
/-! DEFINITION. Every computation of V and Cf (41_arithmetic_compare.md R170 to R172, R180, 42_logic_shift_bit.md R212), each as
the pair (V, Cf), with the results of the shifts. -/

namespace Sys2Proof.Machine

/-- `AddFlags(a, b)` (R170): V is signed overflow, Cf the carry out. -/
def addFlags (a b : Word) : Bool × Bool :=
  (bit a 0 == bit b 0 && bit (a + b) 0 != bit a 0, decide (a.toNat + b.toNat ≥ 65536))

/-- `SubFlags(a, b)` (R171): V is signed overflow, Cf the borrow. -/
def subFlags (a b : Word) : Bool × Bool :=
  (bit a 0 != bit b 0 && bit (a - b) 0 != bit a 0, decide (a.toNat < b.toNat))

/-- `CompareFlags(x, y)` (R172), on integers: (0,1) less, (1,0) equal, (0,0) greater. -/
def compareInts (x y : Int) : Bool × Bool := if x < y then (false, true) else if x = y then (true, false) else (false, false)

/-- `CompareFlags(x, y)` (R172) on words read as signed numbers. -/
def compareFlags (x y : Word) : Bool × Bool := compareInts (s16 x) (s16 y)

/-- The flags of NGR (R180). -/
def negFlags (s : Word) : Bool × Bool :=
  if s = 0x8000#16 then (true, true) else if s = 0#16 then (false, false) else (false, true)

/-- The parity of a byte: true when the number of its 1 bits is odd (43_byte_misc.md R245). -/
def oddParity (b : Byte) : Bool := (List.range 8).foldl (fun acc i => acc ^^ b.getLsbD i) false

/-- Manual bit i of a pair A::B. -/
def pairBit (d : BitVec 32) (i : Nat) : Bool := if i < 32 then d.getLsbD (31 - i) else false

/-- The pair whose only 1 is manual bit i. -/
def pairMask (i : Nat) : BitVec 32 := if i < 32 then (1#32) <<< (31 - i) else 0#32

/-! Each shift of p positions: the result and Cf (42_logic_shift_bit.md R215 to R224). -/

/-- SLRS (R215). -/
def shiftSlrs (a : Word) (p : Nat) : Word × Bool :=
  if p = 0 then (a, false) else if p ≤ 16 then (a >>> p, bit a (16 - p)) else (0#16, false)

/-- SLRD (R216). -/
def shiftSlrd (d : BitVec 32) (p : Nat) : BitVec 32 × Bool :=
  if p = 0 then (d, false) else (d >>> p, pairBit d (32 - p))

/-- SLLS (R217). -/
def shiftSlls (a : Word) (p : Nat) : Word × Bool :=
  if p = 0 then (a, false) else if p ≤ 16 then (a <<< p, bit a (p - 1)) else (0#16, false)

/-- SLLD (R218). -/
def shiftSlld (d : BitVec 32) (p : Nat) : BitVec 32 × Bool :=
  if p = 0 then (d, false) else (d <<< p, pairBit d (p - 1))

/-- SCRS (R219): a rotation to the right by p mod 16; Cf is the new bit 0. -/
def shiftScrs (a : Word) (p : Nat) : Word × Bool :=
  (a.rotateRight (p % 16), if p = 0 then false else bit (a.rotateRight (p % 16)) 0)

/-- SCRD (R220). -/
def shiftScrd (d : BitVec 32) (p : Nat) : BitVec 32 × Bool :=
  (d.rotateRight p, if p = 0 then false else pairBit (d.rotateRight p) 0)

/-- SCLS (R221): a rotation to the left by p mod 16; Cf is the new bit 15. -/
def shiftScls (a : Word) (p : Nat) : Word × Bool :=
  (a.rotateLeft (p % 16), if p = 0 then false else bit (a.rotateLeft (p % 16)) 15)

/-- SCLD (R222). -/
def shiftScld (d : BitVec 32) (p : Nat) : BitVec 32 × Bool :=
  (d.rotateLeft p, if p = 0 then false else pairBit (d.rotateLeft p) 31)

/-- SARS (R223). -/
def shiftSars (a : Word) (p : Nat) : Word × Bool :=
  (a.sshiftRight (min p 15), if p = 0 then false else if p ≤ 16 then bit a (16 - p) else bit a 0)

/-- SARD (R224). -/
def shiftSard (d : BitVec 32) (p : Nat) : BitVec 32 × Bool :=
  (d.sshiftRight p, if p = 0 then false else pairBit d (32 - p))

end Sys2Proof.Machine
end

