-- ==== Sys2Proof/Config.lean ====
section
/-! DEFINITION. What an implementation of the SOLAR 16 fixes (00_scope.md R4), as plain data that `State` carries
unchanged, and the free values. Which option is present on which model (R2) is computed from these fields in
Machine/Presence.lean, so that every value of `Config` describes a machine the options table allows. -/

namespace Sys2Proof

/-- The processor models (00_scope.md R1). -/
inductive Model where
  | m04 | m05 | m30 | m35 | m40 | m65 | m70 | m75
deriving DecidableEq, Repr

/-- The 21 ISP16 instructions (49_isp16.md section 5). -/
inductive IspOp where
  | bla | bsta | bxm | bdld | bdst | blby | bstby | bmove | brbtm | bsbtm | bdbtm
  | cla | csta | cxm | cdld | cdst | clby | cstby
  | xent | xsor | xctx
deriving DecidableEq, Repr

/-- Where a based ISP16 instruction has its parameters (49_isp16.md R411). The CDA forms and XENT, XSOR, XCTX
have one form only and use `registers` in a row of the coding. -/
inductive IspForm where
  | registers
  | memory
deriving DecidableEq, Repr

/-- One row of `ISP_CODE` (30_encoding.md R116): the low byte of the first word, with bit 11 (the index flag)
taken as 0, of one instruction in one form. -/
structure IspRow where
  code : Byte
  op   : IspOp
  form : IspForm
deriving DecidableEq, Repr

/-- The two pointer formats `ISP_PTR` may have (30_encoding.md R116): the word is the address itself, or it is in the
memory-reference format of R101. The figure is lost; 92_eei_decisions.md D21 leaves it open. -/
inductive IspPtr where
  | direct
  | memoryReference
deriving DecidableEq, Repr

/-- `ISP_CODE`, `ISP_REGS` and `ISP_PTR` (30_encoding.md R116, 92_eei_decisions.md D21: OPEN). `r1At` and `r2At` are the
leftmost manual bits of the two 3-bit register fields of word 2. -/
structure IspCoding where
  rows : List IspRow
  r1At : Nat
  r2At : Nat
  ptr  : IspPtr
deriving DecidableEq, Repr

/-- `CCB_LAYOUT` (61_io_debug.md R522, 92_eei_decisions.md D50: OPEN): the leftmost manual bit of each field of CCB0
(DG, CS, SP, DK, BY one bit each, MAE four bits) and of CCB1 (CT two bits, ITN six bits, CCN four bits); `scAt` is that of
the eight bits of SC in CCB3 of an extended stop-code exchange (R531; lost, 91_not_in_source.md N36). -/
structure CcbLayout where
  dgAt : Nat
  csAt : Nat
  spAt : Nat
  dkAt : Nat
  byAt : Nat
  maeAt : Nat
  ctAt : Nat
  itnAt : Nat
  ccnAt : Nat
  scAt : Nat
deriving DecidableEq, Repr

/-- The parameters of 00_scope.md R4. Fields that R2 fixes for some models are read only where R2 leaves them free
(Machine/Presence.lean). -/
structure Config where
  /-- `MODEL`. -/
  model : Model
  /-- A 65P or 75P processor (R4 `HAS_XMR`); read on models 65 and 75 only. -/
  pVariant : Bool
  /-- DRPS ordered as an option; read on model 40 only. -/
  drpsOption : Bool
  /-- MTS16 ordered as an option; read on models 04, 05, 40 only. -/
  schedOption : Bool
  /-- FFP16 ordered as an option; not read on models 04, 05. -/
  ffpOption : Bool
  /-- `FFP_PARTIAL_UCODE`; read on models 40 and 65 only. -/
  ffpPartialUcode : Bool
  /-- `FFP_UNNORM_SVC`. -/
  ffpUnnormSvc : Bool
  /-- `HAS_ROMB_UCODE`. -/
  rombUcode : Bool
  /-- `MEM_WORDS`: the physical word addresses that exist, as inclusive ranges. R4 bounds the number of words of the model;
  that no word exists at or above that number as an address, whatever stands here, is the model's reading (DESIGN CHOICE,
  log 4). -/
  memRanges : List (Nat × Nat)
  /-- `HAS_PARITY`. -/
  parity : Bool
  /-- `PROC_ID`. -/
  procId : Nat
  /-- `PROC_IDWORD`. -/
  procIdWord : Word
  /-- `OTHER_PROCESSORS`: how many other processors receive an IPI. -/
  otherProcessors : Nat
  /-- `ST_LCM` and the six following: manual bit positions in ST (10_state.md R21). -/
  stLcm : Nat
  stIpm : Nat
  stIom : Nat
  stMaint : Nat
  stSched : Nat
  stStop : Nat
  stPop : Nat
  /-- `ISP_CODE`, `ISP_REGS`, `ISP_PTR`. -/
  isp : IspCoding
  /-- `CCB_LAYOUT`. -/
  ccb : CcbLayout
  /-- The standard coupler command "fin de bloc", whose code is lost (61_io_debug.md R518, R524). -/
  endOfBlock : Word
  /-- `STOP_LATENCY` (70_reset_and_hazards.md R558). -/
  stopLatency : Nat
  /-- How many words an LDC working zone takes (61_io_debug.md R527; the size is lost, log 42). -/
  ldcZoneWords : Nat
deriving DecidableEq, Repr

/-- A value the manual leaves open (93_implementation_defined.md U2, U8, U11, U14): the n-th free value of a run. It has
no body, so that nothing can be proved of it (log 9). -/
opaque Config.freeWord : Nat → Word

/-- The coding of ISP16 that the reset configuration carries: the order of the opcode table, the form in bit 10, pointers
in the memory-reference format. DESIGN CHOICE, unsafe: the real coding is lost (log 6). -/
def IspCoding.placeholder : IspCoding where
  rows :=
    [⟨0x00#8, .bla, .registers⟩, ⟨0x20#8, .bla, .memory⟩, ⟨0x01#8, .bsta, .registers⟩, ⟨0x21#8, .bsta, .memory⟩,
     ⟨0x02#8, .bxm, .registers⟩, ⟨0x22#8, .bxm, .memory⟩, ⟨0x03#8, .bdld, .registers⟩, ⟨0x23#8, .bdld, .memory⟩,
     ⟨0x04#8, .bdst, .registers⟩, ⟨0x24#8, .bdst, .memory⟩, ⟨0x05#8, .blby, .registers⟩, ⟨0x25#8, .blby, .memory⟩,
     ⟨0x06#8, .bstby, .registers⟩, ⟨0x26#8, .bstby, .memory⟩, ⟨0x07#8, .bmove, .registers⟩,
     ⟨0x27#8, .bmove, .memory⟩, ⟨0x08#8, .brbtm, .registers⟩, ⟨0x28#8, .brbtm, .memory⟩,
     ⟨0x09#8, .bsbtm, .registers⟩, ⟨0x29#8, .bsbtm, .memory⟩, ⟨0x0A#8, .bdbtm, .registers⟩,
     ⟨0x2A#8, .bdbtm, .memory⟩] ++
    [⟨0x40#8, .cla, .registers⟩, ⟨0x41#8, .csta, .registers⟩, ⟨0x42#8, .cxm, .registers⟩,
     ⟨0x43#8, .cdld, .registers⟩, ⟨0x44#8, .cdst, .registers⟩, ⟨0x45#8, .clby, .registers⟩,
     ⟨0x46#8, .cstby, .registers⟩, ⟨0x60#8, .xent, .registers⟩, ⟨0x61#8, .xsor, .registers⟩,
     ⟨0x62#8, .xctx, .registers⟩]
  r1At := 10
  r2At := 13
  ptr := .memoryReference

/-- The layout of the CCB that the reset configuration carries: the fields in the order the text names them
(61_io_debug.md R522). '4000 and '8000 as first words are no CCB. DESIGN CHOICE, unsafe (log 7). -/
def CcbLayout.placeholder : CcbLayout where
  dgAt := 2
  csAt := 3
  spAt := 4
  dkAt := 5
  byAt := 6
  maeAt := 12
  ctAt := 0
  itnAt := 2
  ccnAt := 12
  scAt := 0

/-- The configuration `State.reset` carries: a 16-70 with every option, 1024K words with parity, alone on its bus.
DESIGN CHOICE (log 4); the seven positions in ST are arbitrary (log 5). -/
def Config.standard : Config where
  model := .m70
  pVariant := false
  drpsOption := true
  schedOption := true
  ffpOption := true
  ffpPartialUcode := false
  ffpUnnormSvc := false
  rombUcode := false
  memRanges := [(0, 0xFFFFF)]
  parity := true
  procId := 0
  procIdWord := 0#16
  otherProcessors := 0
  stLcm := 9
  stIpm := 10
  stIom := 11
  stMaint := 12
  stSched := 13
  stStop := 14
  stPop := 15
  isp := .placeholder
  ccb := .placeholder
  endOfBlock := 0#16
  stopLatency := 0
  ldcZoneWords := 16

end Sys2Proof
end

