-- ==== Sys2Proof/Syntax.lean ====
section
/-! DEFINITION. The instructions of the SOLAR 16, one constructor for each row of the opcode table (30_encoding.md R119 to
R122, R114 to R118). Fields the decoder ignores are no part of the syntax. -/

namespace Sys2Proof

/-- A base register of the memory-reference format (30_encoding.md R101: 01 = C, 10 = L, 11 = W). -/
inductive Base where
  | c | l | w
deriving DecidableEq, Repr

/-- The eight registers of the register-register format, codes 0 to 7 (30_encoding.md R106). -/
inductive Reg where
  | a | b | x | y | c | l | w | k
deriving DecidableEq, Repr

/-- A memory operand (30_encoding.md R101): base, indirect flag, signed 8-bit displacement. -/
structure MemRef where
  base : Base
  ind  : Bool
  d    : Byte
deriving DecidableEq, Repr

/-- A count or bit number (30_encoding.md R108): index flag and 5-bit number. -/
structure Count where
  ix : Bool
  n  : BitVec 5
deriving DecidableEq, Repr

/-- A 9-bit immediate (30_encoding.md R105): sign bit and low byte. -/
structure Imm9 where
  sign : Bool
  n    : Byte
deriving DecidableEq, Repr

/-- The parameters of a based ISP16 instruction (30_encoding.md R116): registers named by word 2, or memory words
designated by words 2 and 3. -/
inductive IspArgs where
  | regs (w2 : Word)
  | mem  (w2 w3 : Word)
deriving DecidableEq, Repr

/-- The instructions, in the order of the opcode table. -/
inductive Instr where
  -- Memory-reference instructions (30_encoding.md R101, R122), in the order of their operation codes '00 to '1F.
  | lby (m : MemRef)
  | stby (m : MemRef)
  | cpby (m : MemRef)
  | xm (m : MemRef)
  | cpz (m : MemRef)
  | br (m : MemRef)
  | bsr (m : MemRef)
  | sio (m : MemRef)
  | sb (m : MemRef)
  | ad (m : MemRef)
  | sty (m : MemRef)
  | stx (m : MemRef)
  | stb (m : MemRef)
  | sta (m : MemRef)
  | mp (m : MemRef)
  | dv (m : MemRef)
  | la (m : MemRef)
  | lx (m : MemRef)
  | or (m : MemRef)
  | and (m : MemRef)
  | eor (m : MemRef)
  | cp (m : MemRef)
  | ly (m : MemRef)
  | lb (m : MemRef)
  | ic (m : MemRef)
  | dc (m : MemRef)
  | rqst (m : MemRef)
  | rlse (m : MemRef)
  | act (m : MemRef)
  | lad (m : MemRef)
  | stz (m : MemRef)
  | wait (m : MemRef)
  -- Jumps relative to P (30_encoding.md R104, R119); NOP ignores its displacement.
  | jmp (d : Byte)
  | nop
  | jnc (d : Byte)
  | jnv (d : Byte)
  | jncv (d : Byte)
  | jc (d : Byte)
  | jv (d : Byte)
  | jcv (d : Byte)
  | jage (d : Byte)
  | jane (d : Byte)
  | jag (d : Byte)
  | jal (d : Byte)
  | jae (d : Byte)
  | jale (d : Byte)
  | jix (d : Byte)
  | jdx (d : Byte)
  -- Immediates of 8 bits (R107) and 9 bits (R105).
  | adri (r : Reg) (n : Byte)
  | lai (n : Imm9)
  | lxi (n : Imm9)
  | ori (n : Imm9)
  | andi (n : Imm9)
  | eori (n : Imm9)
  | cpi (n : Imm9)
  | lyi (n : Imm9)
  | lbi (n : Imm9)
  -- Private formats (R110 to R112): a register mask, a request number, a task number with its index flag.
  | psr (mask : Byte)
  | plr (mask : Byte)
  | svc (n : Byte)
  | lrm (mask : Byte)
  | arm (ix : Bool) (n : BitVec 7)
  -- The functions of first byte '1E (R109, R120), in the order of their codes.
  | acq
  | halt
  | rsr
  | dbt
  | step
  | actd
  | quit
  | pty
  | scy
  | move
  | sbs
  | push
  | pull
  | ack
  | rsv
  | romb
  | dbp
  | sbp
  | rbp
  | dit
  | eit
  | sst
  | rst
  | rdhv
  | ipi
  | rdsi
  | lar
  | rdoe
  | mvtm
  | star
  | woe
  | mvts
  -- Shifts and bit operations (R108).
  | rbt (c : Count)
  | sbt (c : Count)
  | ibt (c : Count)
  | tbt (c : Count)
  | slrs (c : Count)
  | slrd (c : Count)
  | slls (c : Count)
  | slld (c : Count)
  | scrs (c : Count)
  | scrd (c : Count)
  | scls (c : Count)
  | scld (c : Count)
  | sars (c : Count)
  | sard (c : Count)
  -- Register-register instructions (R106); an ignored source or destination field is no part of the instruction.
  | xr (rs : Reg) (rd : Reg)
  | lr (rs : Reg) (rd : Reg)
  | adr (rs : Reg) (rd : Reg)
  | sbr (rs : Reg) (rd : Reg)
  | orr (rs : Reg) (rd : Reg)
  | eorr (rs : Reg) (rd : Reg)
  | andr (rs : Reg) (rd : Reg)
  | clsr (rs : Reg) (rd : Reg)
  | adcr (rd : Reg)
  | sbcr (rd : Reg)
  | ngr (rs : Reg) (rd : Reg)
  | cpzr (rd : Reg)
  | cmr (rs : Reg) (rd : Reg)
  | cpr (rs : Reg) (rd : Reg)
  | swbr (rs : Reg) (rd : Reg)
  | ximr (rd : Reg)
  | adrp (rs : Reg)
  | lrp (rd : Reg)
  -- Floating point FFP16 (R114): on registers, and with a memory operand.
  | fneg
  | fabs
  | fix
  | flt
  | norm
  | fcaz
  | fld (m : MemRef)
  | fad (m : MemRef)
  | fmp (m : MemRef)
  | fdv (m : MemRef)
  | fst (m : MemRef)
  | fsb (m : MemRef)
  | fcmz (m : MemRef)
  | fcam (m : MemRef)
  -- CDA16 (R115).
  | rcda
  | wcda
  | drbm
  | insq
  | supq
  | sfq
  | slq
  | sbtm (ix : Bool) (n : BitVec 15)
  | rbtm (ix : Bool) (n : BitVec 15)
  -- XMR (R117).
  | xmr
  -- ISP16 (R116): based instructions with their two parameters, CDA instructions with their pointer word, and XENT, XSOR,
  -- XCTX, whose second word stands for operands the source does not give. `ix` is bit 11 of the first word.
  | bla (ix : Bool) (o : IspArgs)
  | bsta (ix : Bool) (o : IspArgs)
  | bxm (ix : Bool) (o : IspArgs)
  | bdld (ix : Bool) (o : IspArgs)
  | bdst (ix : Bool) (o : IspArgs)
  | blby (ix : Bool) (o : IspArgs)
  | bstby (ix : Bool) (o : IspArgs)
  | bmove (ix : Bool) (o : IspArgs)
  | brbtm (ix : Bool) (o : IspArgs)
  | bsbtm (ix : Bool) (o : IspArgs)
  | bdbtm (ix : Bool) (o : IspArgs)
  | cla (ix : Bool) (w2 : Word)
  | csta (ix : Bool) (w2 : Word)
  | cxm (ix : Bool) (w2 : Word)
  | cdld (ix : Bool) (w2 : Word)
  | cdst (ix : Bool) (w2 : Word)
  | clby (ix : Bool) (w2 : Word)
  | cstby (ix : Bool) (w2 : Word)
  | xent (ix : Bool) (w2 : Word)
  | xsor (ix : Bool) (w2 : Word)
  | xctx (ix : Bool) (w2 : Word)
  -- The option families the manual does not describe (R113, R118): first bytes '39, '3A and '3D, always absent. `sub` is the
  -- right byte of the first word.
  | dap16 (sub : Byte) (w2 : Word)
  | vss16 (sub : Byte) (w2 : Word)
  | ffm16 (sub : Byte) (w2 : Word)
deriving DecidableEq, Repr

end Sys2Proof
end

