-- ==== Sys2Proof/WellFormed.lean ====
section
/-! DEFINITION. Which terms of `Instr` an encoding exists for. Every field has exactly the width its encoding gives it, so
the one check is that the ISP16 coding of the configuration (30_encoding.md R116) supplies the instruction in its form. -/

namespace Sys2Proof

/-- The form a based instruction's parameters have. -/
def IspArgs.form : IspArgs → IspForm
  | .regs _ => .registers
  | .mem _ _ => .memory

/-- The ISP16 coding supplies a code for this instruction and form. -/
def IspCoding.has (k : IspCoding) (op : IspOp) (form : IspForm) : Bool :=
  k.rows.any fun r => r.op = op && r.form = form

/-- The instruction and form under which the ISP16 coding must list a term; none for every other instruction. -/
def Instr.ispKey : Instr → Option (IspOp × IspForm)
  | .bla _ o => some (.bla, o.form)
  | .bsta _ o => some (.bsta, o.form)
  | .bxm _ o => some (.bxm, o.form)
  | .bdld _ o => some (.bdld, o.form)
  | .bdst _ o => some (.bdst, o.form)
  | .blby _ o => some (.blby, o.form)
  | .bstby _ o => some (.bstby, o.form)
  | .bmove _ o => some (.bmove, o.form)
  | .brbtm _ o => some (.brbtm, o.form)
  | .bsbtm _ o => some (.bsbtm, o.form)
  | .bdbtm _ o => some (.bdbtm, o.form)
  | .cla _ _ => some (.cla, .registers)
  | .csta _ _ => some (.csta, .registers)
  | .cxm _ _ => some (.cxm, .registers)
  | .cdld _ _ => some (.cdld, .registers)
  | .cdst _ _ => some (.cdst, .registers)
  | .clby _ _ => some (.clby, .registers)
  | .cstby _ _ => some (.cstby, .registers)
  | .xent _ _ => some (.xent, .registers)
  | .xsor _ _ => some (.xsor, .registers)
  | .xctx _ _ => some (.xctx, .registers)
  | .lby _ | .stby _ | .cpby _ | .xm _ | .cpz _ | .br _ | .bsr _ | .sio _ | .sb _ | .ad _ | .sty _ | .stx _
  | .stb _ | .sta _ | .mp _ | .dv _ | .la _ | .lx _ | .or _ | .and _ | .eor _ | .cp _ | .ly _ | .lb _ | .ic _
  | .dc _ | .rqst _ | .rlse _ | .act _ | .lad _ | .stz _ | .wait _ | .jmp _ | .nop | .jnc _ | .jnv _ | .jncv _
  | .jc _ | .jv _ | .jcv _ | .jage _ | .jane _ | .jag _ | .jal _ | .jae _ | .jale _ | .jix _ | .jdx _
  | .adri _ _ | .lai _ | .lxi _ | .ori _ | .andi _ | .eori _ | .cpi _ | .lyi _ | .lbi _ | .psr _ | .plr _
  | .svc _ | .lrm _ | .arm _ _ | .acq | .halt | .rsr | .dbt | .step | .actd | .quit | .pty | .scy | .move
  | .sbs | .push | .pull | .ack | .rsv | .romb | .dbp | .sbp | .rbp | .dit | .eit | .sst | .rst | .rdhv | .ipi
  | .rdsi | .lar | .rdoe | .mvtm | .star | .woe | .mvts | .rbt _ | .sbt _ | .ibt _ | .tbt _ | .slrs _ | .slrd _
  | .slls _ | .slld _ | .scrs _ | .scrd _ | .scls _ | .scld _ | .sars _ | .sard _ | .xr _ _ | .lr _ _
  | .adr _ _ | .sbr _ _ | .orr _ _ | .eorr _ _ | .andr _ _ | .clsr _ _ | .adcr _ | .sbcr _ | .ngr _ _ | .cpzr _
  | .cmr _ _ | .cpr _ _ | .swbr _ _ | .ximr _ | .adrp _ | .lrp _ | .fneg | .fabs | .fix | .flt | .norm | .fcaz
  | .fld _ | .fad _ | .fmp _ | .fdv _ | .fst _ | .fsb _ | .fcmz _ | .fcam _ | .rcda | .wcda | .drbm | .insq
  | .supq | .sfq | .slq | .sbtm _ _ | .rbtm _ _ | .xmr | .dap16 _ _ | .vss16 _ _ | .ffm16 _ _ => none

/-- A term of `Instr` is well formed when the coding of ISP16 in force gives it an encoding. -/
def Instr.wf (k : IspCoding) (i : Instr) : Bool :=
  match i.ispKey with
  | some (op, form) => k.has op form
  | none => true

end Sys2Proof
end

