-- ==== Sys2Proof/Decode.lean ====
section
/-! DEFINITION. The decoder (30_encoding.md R125), total on any bytes, and after it the encoder, written from the same
tables. A byte string is read as words, left byte first (20_memory.md R61). -/

namespace Sys2Proof

/-- What the decoder answers: an instruction and the words after it; no instruction has this encoding, with the number of
the extension family when the first word is '38 to '3F (30_encoding.md R113, R123); or the words end too early. -/
inductive Decoded where
  | instr (i : Instr) (rest : List Word)
  | unassigned (family : Option (BitVec 3))
  | tooShort
deriving DecidableEq, Repr

/-- Base codes (R101); 00 names no base. -/
def baseOf (v : BitVec 2) : Option Base :=
  match v.toNat with
  | 1 => some .c
  | 2 => some .l
  | 3 => some .w
  | _ => none

/-- Register codes (R106). -/
def regOf (v : BitVec 3) : Reg :=
  match v.toNat with
  | 0 => .a
  | 1 => .b
  | 2 => .x
  | 3 => .y
  | 4 => .c
  | 5 => .l
  | 6 => .w
  | _ => .k

/-- The memory operand of a word in the memory-reference format (R101); none when bits 0-1 are 00. -/
def memRefOf (w : Word) : Option MemRef :=
  match baseOf (w.extractLsb' 14 2) with
  | some b => some ⟨b, w.getLsbD 13, lo w⟩
  | none => none

/-- The operation code `w[3:7]` (R101). -/
def opField (w : Word) : BitVec 5 := w.extractLsb' 8 5

/-- The 9-bit immediate of a word (R105). -/
def imm9Of (w : Word) : Imm9 := ⟨w.getLsbD 13, lo w⟩

/-- The count field of a shift or bit operation (R108). -/
def countOf (w : Word) : Count := ⟨w.getLsbD 5, w.extractLsb' 0 5⟩

/-- The source field `w[10:12]` (R106). -/
def rsOf (w : Word) : Reg := regOf (w.extractLsb' 3 3)

/-- The destination field `w[13:15]` (R106). -/
def rdOf (w : Word) : Reg := regOf (w.extractLsb' 0 3)

/-- The memory-reference instructions by operation code (R122). -/
def memInstr (op : BitVec 5) (m : MemRef) : Instr :=
  match op.toNat with
  | 0x00 => .lby m
  | 0x01 => .stby m
  | 0x02 => .cpby m
  | 0x03 => .xm m
  | 0x04 => .cpz m
  | 0x05 => .br m
  | 0x06 => .bsr m
  | 0x07 => .sio m
  | 0x08 => .sb m
  | 0x09 => .ad m
  | 0x0A => .sty m
  | 0x0B => .stx m
  | 0x0C => .stb m
  | 0x0D => .sta m
  | 0x0E => .mp m
  | 0x0F => .dv m
  | 0x10 => .la m
  | 0x11 => .lx m
  | 0x12 => .or m
  | 0x13 => .and m
  | 0x14 => .eor m
  | 0x15 => .cp m
  | 0x16 => .ly m
  | 0x17 => .lb m
  | 0x18 => .ic m
  | 0x19 => .dc m
  | 0x1A => .rqst m
  | 0x1B => .rlse m
  | 0x1C => .act m
  | 0x1D => .lad m
  | 0x1E => .stz m
  | _ => .wait m

/-- The functions of first byte '1E (R120). -/
def funInstr (n : Byte) : Option Instr :=
  match n.toNat with
  | 0x00 => some .acq
  | 0x01 => some .halt
  | 0x02 => some .rsr
  | 0x03 => some .dbt
  | 0x04 => some .step
  | 0x05 => some .actd
  | 0x06 => some .quit
  | 0x07 => some .pty
  | 0x08 => some .scy
  | 0x09 => some .move
  | 0x0A => some .sbs
  | 0x0B => some .push
  | 0x0C => some .pull
  | 0x0D => some .ack
  | 0x0E => some .rsv
  | 0x0F => some .romb
  | 0x10 => some .dbp
  | 0x11 => some .sbp
  | 0x12 => some .rbp
  | 0x13 => some .dit
  | 0x14 => some .eit
  | 0x15 => some .sst
  | 0x16 => some .rst
  | 0x17 => some .rdhv
  | 0x18 => some .ipi
  | 0x19 => some .rdsi
  | 0x1A => some .lar
  | 0x1B => some .rdoe
  | 0x1C => some .mvtm
  | 0x1D => some .star
  | 0x1E => some .woe
  | 0x1F => some .mvts
  | _ => none

/-- The shifts, bit operations and register-register instructions by first byte '28 to '2F and `w[8:9]` (R121); `key` is
four times the three low bits of the first byte, plus `w[8:9]`. -/
def regInstr (key : BitVec 5) (w : Word) : Instr :=
  match key.toNat with
  | 0x00 => .rbt (countOf w)
  | 0x01 => .sbt (countOf w)
  | 0x02 => .ibt (countOf w)
  | 0x03 => .tbt (countOf w)
  | 0x04 => .slrs (countOf w)
  | 0x05 => .slrd (countOf w)
  | 0x06 => .slls (countOf w)
  | 0x07 => .slld (countOf w)
  | 0x08 => .scrs (countOf w)
  | 0x09 => .scrd (countOf w)
  | 0x0A => .scls (countOf w)
  | 0x0B => .scld (countOf w)
  | 0x0C => .sars (countOf w)
  | 0x0D => .sard (countOf w)
  | 0x0E => .xr (rsOf w) (rdOf w)
  | 0x0F => .lr (rsOf w) (rdOf w)
  | 0x10 => .adr (rsOf w) (rdOf w)
  | 0x11 => .sbr (rsOf w) (rdOf w)
  | 0x12 => .orr (rsOf w) (rdOf w)
  | 0x13 => .eorr (rsOf w) (rdOf w)
  | 0x14 => .andr (rsOf w) (rdOf w)
  | 0x15 => .clsr (rsOf w) (rdOf w)
  | 0x16 => .adcr (rdOf w)
  | 0x17 => .sbcr (rdOf w)
  | 0x18 => .ngr (rsOf w) (rdOf w)
  | 0x19 => .cpzr (rdOf w)
  | 0x1A => .cmr (rsOf w) (rdOf w)
  | 0x1B => .cpr (rsOf w) (rdOf w)
  | 0x1C => .swbr (rsOf w) (rdOf w)
  | 0x1D => .ximr (rdOf w)
  | 0x1E => .adrp (rsOf w)
  | _ => .lrp (rdOf w)

/-- The floating-point instruction of a second word (R114); the first word is '3800. -/
def floatInstr (w2 : Word) : Option Instr :=
  match memRefOf w2 with
  | none =>
    match w2.toNat with
    | 0x0000 => some .fneg
    | 0x0800 => some .fabs
    | 0x1000 => some .fix
    | 0x1800 => some .flt
    | 0x2000 => some .norm
    | 0x2800 => some .fcaz
    | _ => none
  | some m =>
    match (opField w2).toNat with
    | 0x00 => some (.fld m)
    | 0x02 => some (.fad m)
    | 0x04 => some (.fmp m)
    | 0x06 => some (.fdv m)
    | 0x08 => some (.fst m)
    | 0x0A => some (.fsb m)
    | 0x0C => some (.fcmz m)
    | 0x0E => some (.fcam m)
    | _ => none

/-- The CDA16 instruction of the right byte of the first word and the second word (R115). -/
def cdaInstr (n : Byte) (w2 : Word) : Option Instr :=
  match n.toNat with
  | 0x00 => if w2 = 0x0000#16 then some .rcda else if w2 = 0x0001#16 then some .wcda else none
  | 0x01 => if w2 = 0x0000#16 then some .drbm else none
  | 0x02 => some (.sbtm (w2.getLsbD 15) (w2.extractLsb' 0 15))
  | 0x03 => some (.rbtm (w2.getLsbD 15) (w2.extractLsb' 0 15))
  | 0x04 => if w2 = 0x0000#16 then some .insq else none
  | 0x05 => if w2 = 0x0000#16 then some .supq else none
  | 0x06 => if w2 = 0x0000#16 then some .sfq else none
  | 0x07 => if w2 = 0x0000#16 then some .slq else none
  | _ => none

/-- A based ISP16 instruction from its two parameters (R116); none for the other ISP16 instructions. -/
def basedInstr (op : IspOp) (ix : Bool) (o : IspArgs) : Option Instr :=
  match op with
  | .bla => some (.bla ix o)
  | .bsta => some (.bsta ix o)
  | .bxm => some (.bxm ix o)
  | .bdld => some (.bdld ix o)
  | .bdst => some (.bdst ix o)
  | .blby => some (.blby ix o)
  | .bstby => some (.bstby ix o)
  | .bmove => some (.bmove ix o)
  | .brbtm => some (.brbtm ix o)
  | .bsbtm => some (.bsbtm ix o)
  | .bdbtm => some (.bdbtm ix o)
  | .cla | .csta | .cxm | .cdld | .cdst | .clby | .cstby | .xent | .xsor | .xctx => none

/-- An ISP16 instruction with one operand word (R116); none for the based instructions. -/
def pointerInstr (op : IspOp) (ix : Bool) (w2 : Word) : Option Instr :=
  match op with
  | .cla => some (.cla ix w2)
  | .csta => some (.csta ix w2)
  | .cxm => some (.cxm ix w2)
  | .cdld => some (.cdld ix w2)
  | .cdst => some (.cdst ix w2)
  | .clby => some (.clby ix w2)
  | .cstby => some (.cstby ix w2)
  | .xent => some (.xent ix w2)
  | .xsor => some (.xsor ix w2)
  | .xctx => some (.xctx ix w2)
  | .bla | .bsta | .bxm | .bdld | .bdst | .blby | .bstby | .bmove | .brbtm | .bsbtm | .bdbtm => none

/-- The row of `ISP_CODE` for the right byte of a first word, bit 11 left out (R116). A form that allows no index is the same
instruction with that bit at 1 (DESIGN CHOICE, log 6). -/
def IspCoding.find (k : IspCoding) (low : Byte) : Option IspRow :=
  k.rows.find? fun r => r.code = low &&& 0xEF#8

/-- An ISP16 instruction (R116): the right byte of the first word, then one or two operand words. -/
def decodeIsp (k : IspCoding) (low : Byte) (rest : List Word) : Decoded :=
  match k.find low with
  | none => .unassigned (some 4#3)
  | some r =>
    match rest with
    | [] => .tooShort
    | w2 :: rest2 =>
      match pointerInstr r.op (low.getLsbD 4) w2 with
      | some i => .instr i rest2
      | none =>
        match r.form with
        | .registers =>
          match basedInstr r.op (low.getLsbD 4) (.regs w2) with
          | some i => .instr i rest2
          | none => .unassigned (some 4#3)
        | .memory =>
          match rest2 with
          | [] => .tooShort
          | w3 :: rest3 =>
            match basedInstr r.op (low.getLsbD 4) (.mem w2 w3) with
            | some i => .instr i rest3
            | none => .unassigned (some 4#3)

/-- The extension families (R113): family number, right byte of the first word, the words after it. '3E58 is XMR and one
word (R117). -/
def decodeExtension (k : IspCoding) (n : BitVec 3) (low : Byte) (rest : List Word) : Decoded :=
  if n = 4#3 then decodeIsp k low rest
  else if n = 6#3 then (if low = 0x58#8 then .instr .xmr rest else .unassigned (some 6#3))
  else
    match rest with
    | [] => .tooShort
    | w2 :: rest2 =>
      match n.toNat with
      | 0 =>
        match (if low = 0#8 then floatInstr w2 else none) with
        | some i => .instr i rest2
        | none => .unassigned (some 0#3)
      | 1 => .instr (.dap16 low w2) rest2
      | 2 => .instr (.vss16 low w2) rest2
      | 5 => .instr (.ffm16 low w2) rest2
      | 7 =>
        match cdaInstr low w2 with
        | some i => .instr i rest2
        | none => .unassigned (some 7#3)
      | _ => .unassigned (some n)

/-- The one-word instructions with bits 0-1 = 00 and first byte below '38 (R119, R120, R121). -/
def decodeShort (w : Word) : Option Instr :=
  match (hi w).toNat with
  | 0x00 | 0x20 => some (.jmp (lo w))
  | 0x01 => some (.jnc (lo w))
  | 0x02 => some (.jnv (lo w))
  | 0x03 => some (.jncv (lo w))
  | 0x04 | 0x24 => some .nop
  | 0x05 => some (.jc (lo w))
  | 0x06 => some (.jv (lo w))
  | 0x07 => some (.jcv (lo w))
  | 0x08 | 0x09 | 0x0A | 0x0B | 0x0C | 0x0D | 0x0E | 0x0F => some (.adri (regOf (w.extractLsb' 8 3)) (lo w))
  | 0x10 | 0x30 => some (.lai (imm9Of w))
  | 0x11 | 0x31 => some (.lxi (imm9Of w))
  | 0x12 | 0x32 => some (.ori (imm9Of w))
  | 0x13 | 0x33 => some (.andi (imm9Of w))
  | 0x14 | 0x34 => some (.eori (imm9Of w))
  | 0x15 | 0x35 => some (.cpi (imm9Of w))
  | 0x16 | 0x36 => some (.lyi (imm9Of w))
  | 0x17 | 0x37 => some (.lbi (imm9Of w))
  | 0x18 => some (.jix (lo w))
  | 0x19 => some (.jdx (lo w))
  | 0x1A => some (.psr (lo w))
  | 0x1B => some (.plr (lo w))
  | 0x1C => some (.svc (lo w))
  | 0x1D => some (.lrm (lo w))
  | 0x1E => funInstr (lo w)
  | 0x1F => some (.arm (w.getLsbD 7) (w.extractLsb' 0 7))
  | 0x21 => some (.jage (lo w))
  | 0x22 => some (.jane (lo w))
  | 0x23 => some (.jag (lo w))
  | 0x25 => some (.jal (lo w))
  | 0x26 => some (.jae (lo w))
  | 0x27 => some (.jale (lo w))
  | 0x28 | 0x29 | 0x2A | 0x2B | 0x2C | 0x2D | 0x2E | 0x2F => some (regInstr (w.extractLsb' 6 5) w)
  | _ => none

/-- The decoder (R125) on words. -/
def decodeWords (k : IspCoding) : List Word → Decoded
  | [] => .tooShort
  | w :: rest =>
    match memRefOf w with
    | some m => .instr (memInstr (opField w) m) rest
    | none =>
      if w.extractLsb' 11 5 = 0b00111#5 then decodeExtension k (w.extractLsb' 8 3) (lo w) rest
      else
        match decodeShort w with
        | some i => .instr i rest
        | none => .unassigned none

/-- The words of a byte string, the left byte first (20_memory.md R61); a last odd byte is no word. -/
def wordsOf : List Byte → List Word
  | l :: r :: rest => ofBytes l r :: wordsOf rest
  | _ => []

/-- The decoder on any bytes. -/
def decode (k : IspCoding) (bytes : List Byte) : Decoded := decodeWords k (wordsOf bytes)

/-- How many words the instruction whose first word is `w` has (R125), the inline data of LRM not counted. `xmr` says
whether the processor has XMR: without it '3E58 is a two-word word of family 6 (R117, R118). -/
def wordCount (xmr : Bool) (k : IspCoding) (w : Word) : Nat :=
  if w.extractLsb' 11 5 = 0b00111#5 then
    if w = 0x3E58#16 && xmr then 1
    else if w.extractLsb' 8 3 = 4#3 then
      match k.find (lo w) with
      | some r => if r.form = .memory && (basedInstr r.op false (.regs 0#16)).isSome then 3 else 2
      | none => 2
    else 2
  else 1

/-! The encoder. -/

/-- The code of a base register (R101). -/
def Base.code : Base → BitVec 2
  | .c => 1#2
  | .l => 2#2
  | .w => 3#2

/-- The code of a register (R106). -/
def Reg.code : Reg → BitVec 3
  | .a => 0#3
  | .b => 1#3
  | .x => 2#3
  | .y => 3#3
  | .c => 4#3
  | .l => 5#3
  | .w => 6#3
  | .k => 7#3

/-- A word in the memory-reference format (R101). -/
def memWord (op : BitVec 5) (m : MemRef) : Word := m.base.code ++ (BitVec.ofBool m.ind ++ (op ++ m.d))

/-- A first byte and a right byte. -/
def byteWord (op n : Byte) : Word := op ++ n

/-- A word in the 9-bit immediate format (R105). -/
def imm9Word (op : BitVec 5) (n : Imm9) : Word := 0#2 ++ (BitVec.ofBool n.sign ++ (op ++ n.n))

/-- A shift or bit operation (R108, R121): the key of `regInstr`, the index flag, the number. -/
def countWord (key : BitVec 5) (c : Count) : Word := 0b00101#5 ++ (key ++ (BitVec.ofBool c.ix ++ c.n))

/-- A register-register instruction (R106, R121). -/
def regWord (key : BitVec 5) (rs rd : Reg) : Word := 0b00101#5 ++ (key ++ (rs.code ++ rd.code))

/-- The code of an ISP16 instruction in a form (R116). -/
def IspCoding.codeOf (k : IspCoding) (op : IspOp) (form : IspForm) : Option Byte :=
  (k.rows.find? fun r => r.op = op && r.form = form).map (·.code)

/-- The first word of an ISP16 instruction. -/
def ispWord (code : Byte) (ix : Bool) : Word := 0x3C#8 ++ (code ||| (if ix then 0x10#8 else 0x00#8))

/-- A based ISP16 instruction; no words when the coding does not supply it. -/
def basedWords (k : IspCoding) (op : IspOp) (ix : Bool) (o : IspArgs) : List Word :=
  match k.codeOf op o.form, o with
  | some c, .regs w2 => [ispWord c ix, w2]
  | some c, .mem w2 w3 => [ispWord c ix, w2, w3]
  | none, _ => []

/-- An ISP16 instruction with one operand word; no words when the coding does not supply it. -/
def pointerWords (k : IspCoding) (op : IspOp) (ix : Bool) (w2 : Word) : List Word :=
  match k.codeOf op .registers with
  | some c => [ispWord c ix, w2]
  | none => []

/-- The words of an instruction (R101 to R117), ignored fields zero, the first of two codes for JMP and NOP. LRM's inline
data are data, not part of its word. -/
def encodeWords (k : IspCoding) : Instr → List Word
  | .lby m => [memWord 0x00#5 m]
  | .stby m => [memWord 0x01#5 m]
  | .cpby m => [memWord 0x02#5 m]
  | .xm m => [memWord 0x03#5 m]
  | .cpz m => [memWord 0x04#5 m]
  | .br m => [memWord 0x05#5 m]
  | .bsr m => [memWord 0x06#5 m]
  | .sio m => [memWord 0x07#5 m]
  | .sb m => [memWord 0x08#5 m]
  | .ad m => [memWord 0x09#5 m]
  | .sty m => [memWord 0x0A#5 m]
  | .stx m => [memWord 0x0B#5 m]
  | .stb m => [memWord 0x0C#5 m]
  | .sta m => [memWord 0x0D#5 m]
  | .mp m => [memWord 0x0E#5 m]
  | .dv m => [memWord 0x0F#5 m]
  | .la m => [memWord 0x10#5 m]
  | .lx m => [memWord 0x11#5 m]
  | .or m => [memWord 0x12#5 m]
  | .and m => [memWord 0x13#5 m]
  | .eor m => [memWord 0x14#5 m]
  | .cp m => [memWord 0x15#5 m]
  | .ly m => [memWord 0x16#5 m]
  | .lb m => [memWord 0x17#5 m]
  | .ic m => [memWord 0x18#5 m]
  | .dc m => [memWord 0x19#5 m]
  | .rqst m => [memWord 0x1A#5 m]
  | .rlse m => [memWord 0x1B#5 m]
  | .act m => [memWord 0x1C#5 m]
  | .lad m => [memWord 0x1D#5 m]
  | .stz m => [memWord 0x1E#5 m]
  | .wait m => [memWord 0x1F#5 m]
  | .jmp d => [byteWord 0x00#8 d]
  | .nop => [0x0400#16]
  | .jnc d => [byteWord 0x01#8 d]
  | .jnv d => [byteWord 0x02#8 d]
  | .jncv d => [byteWord 0x03#8 d]
  | .jc d => [byteWord 0x05#8 d]
  | .jv d => [byteWord 0x06#8 d]
  | .jcv d => [byteWord 0x07#8 d]
  | .jage d => [byteWord 0x21#8 d]
  | .jane d => [byteWord 0x22#8 d]
  | .jag d => [byteWord 0x23#8 d]
  | .jal d => [byteWord 0x25#8 d]
  | .jae d => [byteWord 0x26#8 d]
  | .jale d => [byteWord 0x27#8 d]
  | .jix d => [byteWord 0x18#8 d]
  | .jdx d => [byteWord 0x19#8 d]
  | .adri r n => [0b00001#5 ++ (r.code ++ n)]
  | .lai n => [imm9Word 0x10#5 n]
  | .lxi n => [imm9Word 0x11#5 n]
  | .ori n => [imm9Word 0x12#5 n]
  | .andi n => [imm9Word 0x13#5 n]
  | .eori n => [imm9Word 0x14#5 n]
  | .cpi n => [imm9Word 0x15#5 n]
  | .lyi n => [imm9Word 0x16#5 n]
  | .lbi n => [imm9Word 0x17#5 n]
  | .psr mask => [byteWord 0x1A#8 mask]
  | .plr mask => [byteWord 0x1B#8 mask]
  | .svc n => [byteWord 0x1C#8 n]
  | .lrm mask => [byteWord 0x1D#8 mask]
  | .arm ix n => [0x1F#8 ++ (BitVec.ofBool ix ++ n)]
  | .acq => [0x1E00#16]
  | .halt => [0x1E01#16]
  | .rsr => [0x1E02#16]
  | .dbt => [0x1E03#16]
  | .step => [0x1E04#16]
  | .actd => [0x1E05#16]
  | .quit => [0x1E06#16]
  | .pty => [0x1E07#16]
  | .scy => [0x1E08#16]
  | .move => [0x1E09#16]
  | .sbs => [0x1E0A#16]
  | .push => [0x1E0B#16]
  | .pull => [0x1E0C#16]
  | .ack => [0x1E0D#16]
  | .rsv => [0x1E0E#16]
  | .romb => [0x1E0F#16]
  | .dbp => [0x1E10#16]
  | .sbp => [0x1E11#16]
  | .rbp => [0x1E12#16]
  | .dit => [0x1E13#16]
  | .eit => [0x1E14#16]
  | .sst => [0x1E15#16]
  | .rst => [0x1E16#16]
  | .rdhv => [0x1E17#16]
  | .ipi => [0x1E18#16]
  | .rdsi => [0x1E19#16]
  | .lar => [0x1E1A#16]
  | .rdoe => [0x1E1B#16]
  | .mvtm => [0x1E1C#16]
  | .star => [0x1E1D#16]
  | .woe => [0x1E1E#16]
  | .mvts => [0x1E1F#16]
  | .rbt c => [countWord 0x00#5 c]
  | .sbt c => [countWord 0x01#5 c]
  | .ibt c => [countWord 0x02#5 c]
  | .tbt c => [countWord 0x03#5 c]
  | .slrs c => [countWord 0x04#5 c]
  | .slrd c => [countWord 0x05#5 c]
  | .slls c => [countWord 0x06#5 c]
  | .slld c => [countWord 0x07#5 c]
  | .scrs c => [countWord 0x08#5 c]
  | .scrd c => [countWord 0x09#5 c]
  | .scls c => [countWord 0x0A#5 c]
  | .scld c => [countWord 0x0B#5 c]
  | .sars c => [countWord 0x0C#5 c]
  | .sard c => [countWord 0x0D#5 c]
  | .xr rs rd => [regWord 0x0E#5 rs rd]
  | .lr rs rd => [regWord 0x0F#5 rs rd]
  | .adr rs rd => [regWord 0x10#5 rs rd]
  | .sbr rs rd => [regWord 0x11#5 rs rd]
  | .orr rs rd => [regWord 0x12#5 rs rd]
  | .eorr rs rd => [regWord 0x13#5 rs rd]
  | .andr rs rd => [regWord 0x14#5 rs rd]
  | .clsr rs rd => [regWord 0x15#5 rs rd]
  | .adcr rd => [regWord 0x16#5 .a rd]
  | .sbcr rd => [regWord 0x17#5 .a rd]
  | .ngr rs rd => [regWord 0x18#5 rs rd]
  | .cpzr rd => [regWord 0x19#5 .a rd]
  | .cmr rs rd => [regWord 0x1A#5 rs rd]
  | .cpr rs rd => [regWord 0x1B#5 rs rd]
  | .swbr rs rd => [regWord 0x1C#5 rs rd]
  | .ximr rd => [regWord 0x1D#5 .a rd]
  | .adrp rs => [regWord 0x1E#5 rs .a]
  | .lrp rd => [regWord 0x1F#5 .a rd]
  | .fneg => [0x3800#16, 0x0000#16]
  | .fabs => [0x3800#16, 0x0800#16]
  | .fix => [0x3800#16, 0x1000#16]
  | .flt => [0x3800#16, 0x1800#16]
  | .norm => [0x3800#16, 0x2000#16]
  | .fcaz => [0x3800#16, 0x2800#16]
  | .fld m => [0x3800#16, memWord 0x00#5 m]
  | .fad m => [0x3800#16, memWord 0x02#5 m]
  | .fmp m => [0x3800#16, memWord 0x04#5 m]
  | .fdv m => [0x3800#16, memWord 0x06#5 m]
  | .fst m => [0x3800#16, memWord 0x08#5 m]
  | .fsb m => [0x3800#16, memWord 0x0A#5 m]
  | .fcmz m => [0x3800#16, memWord 0x0C#5 m]
  | .fcam m => [0x3800#16, memWord 0x0E#5 m]
  | .rcda => [0x3F00#16, 0x0000#16]
  | .wcda => [0x3F00#16, 0x0001#16]
  | .drbm => [0x3F01#16, 0x0000#16]
  | .insq => [0x3F04#16, 0x0000#16]
  | .supq => [0x3F05#16, 0x0000#16]
  | .sfq => [0x3F06#16, 0x0000#16]
  | .slq => [0x3F07#16, 0x0000#16]
  | .sbtm ix n => [0x3F02#16, BitVec.ofBool ix ++ n]
  | .rbtm ix n => [0x3F03#16, BitVec.ofBool ix ++ n]
  | .xmr => [0x3E58#16]
  | .bla ix o => basedWords k .bla ix o
  | .bsta ix o => basedWords k .bsta ix o
  | .bxm ix o => basedWords k .bxm ix o
  | .bdld ix o => basedWords k .bdld ix o
  | .bdst ix o => basedWords k .bdst ix o
  | .blby ix o => basedWords k .blby ix o
  | .bstby ix o => basedWords k .bstby ix o
  | .bmove ix o => basedWords k .bmove ix o
  | .brbtm ix o => basedWords k .brbtm ix o
  | .bsbtm ix o => basedWords k .bsbtm ix o
  | .bdbtm ix o => basedWords k .bdbtm ix o
  | .cla ix w2 => pointerWords k .cla ix w2
  | .csta ix w2 => pointerWords k .csta ix w2
  | .cxm ix w2 => pointerWords k .cxm ix w2
  | .cdld ix w2 => pointerWords k .cdld ix w2
  | .cdst ix w2 => pointerWords k .cdst ix w2
  | .clby ix w2 => pointerWords k .clby ix w2
  | .cstby ix w2 => pointerWords k .cstby ix w2
  | .xent ix w2 => pointerWords k .xent ix w2
  | .xsor ix w2 => pointerWords k .xsor ix w2
  | .xctx ix w2 => pointerWords k .xctx ix w2
  | .dap16 sub w2 => [byteWord 0x39#8 sub, w2]
  | .vss16 sub w2 => [byteWord 0x3A#8 sub, w2]
  | .ffm16 sub w2 => [byteWord 0x3D#8 sub, w2]

/-- The bytes of words, the left byte first. -/
def bytesOf : List Word → List Byte
  | [] => []
  | w :: rest => hi w :: lo w :: bytesOf rest

/-- The encoder: the bytes of a well-formed instruction as they stand in memory. -/
def encode (k : IspCoding) (i : Instr) : List Byte := bytesOf (encodeWords k i)

/-- The `n` words of a number whose bits 15..0 are the first word, bits 31..16 the second, and so on. -/
def tableWords : Nat → Nat → List Word
  | 0, _ => []
  | n + 1, w => BitVec.ofNat 16 w :: tableWords n (w / 65536)

/-- The instruction the decoder reads from a row of the opcode table: the first word is bits 15..0 of `w`, the second bits
31..16, everything above `nbits` zero. The coding of ISP16 is that of the reset configuration. -/
def decodeTableWord (nbits w : Nat) : Option Instr :=
  match decode Config.standard.isp (bytesOf (tableWords 9 (w % 2 ^ nbits))) with
  | .instr i _ => some i
  | .unassigned _ => none
  | .tooShort => none

end Sys2Proof
end

