-- ==== Sys2Proof/Machine/State.lean ====
section
/-! DEFINITION. The state of one central unit with its memory, couplers and channels, as plain data; the reasons a step can
stop; the state after power-on (10_state.md, 70_reset_and_hazards.md R550). -/

namespace Sys2Proof.Machine

/-- The eight general registers (10_state.md R11 to R15). -/
structure Regs where
  A : Word
  B : Word
  X : Word
  Y : Word
  C : Word
  L : Word
  W : Word
  K : Word
deriving DecidableEq, Repr

/-- The bits of ST, each a separate Boolean (10_state.md R21, R22). `Cf` is the carry indicator C. MS, SVCS, PR, V and Cf
form S. The unexplained bits are not stored: they read 0 (45_system.md R321, log 16). -/
structure Status where
  MS : Bool
  SVCS : Bool
  PR : Bool
  V : Bool
  Cf : Bool
  DEBUG : Bool
  LCM : Bool
  IPM : Bool
  IOM : Bool
  MAINT : Bool
  SCHED : Bool
  STOP : Bool
  POP : Bool
deriving DecidableEq, Repr

/-- A coupler on the I/O bus (61_io_debug.md R512). A register the coupler lacks is none (R517). -/
structure Coupler where
  /-- Bits 0-13 of its SIO operands (R511). -/
  key : BitVec 14
  /-- Its useful information is a byte (R513). -/
  isByte : Bool
  dataIn : Option Word
  dataOut : Option Word
  statusIn : Option Word
  command : Option Word
  /-- The interrupt level it is wired to; 1 to 15 for program interrupts. -/
  level : BitVec 4
  /-- The sub-level of a pending normal request. -/
  normalPending : Option (Fin 16)
  /-- The sub-level of a pending exception request. -/
  exceptionPending : Option (Fin 48)
  /-- Its normal requests go to a channel (R521). -/
  toChannel : Bool
  /-- It is an HDC coupler (R523: on a 40 it takes the sixth MDC set). -/
  hdc : Bool
  /-- The byte address AO it gives at its next call of a byte direct memory access (R532). -/
  byteOffset : Word
  /-- The direction it gives at that call: a byte goes from memory to its DataOut, else from its DataIn to memory (R532). -/
  dmaOut : Bool
deriving DecidableEq, Repr

/-- The kinds of channel (61_io_debug.md R521). -/
inductive ChannelKind where
  | hdc | mdc | ldc
deriving DecidableEq, Repr

/-- What runs an exchange (61_io_debug.md R522, R530, R531, R532): the standard channel, or one of the three special
microprograms the manual describes. -/
inductive Microprogram where
  | standard
  /-- At most 255 bytes are input, up to the stop code (R530). -/
  | stopCode (sc : Byte)
  /-- Bytes are input up to the stop code, without limit (R531). -/
  | extendedStop (sc : Byte)
  /-- One byte a call, at the address and in the direction the coupler gives (R532). -/
  | byteAccess
deriving DecidableEq, Repr

/-- One channel register set (10_state.md R35 item 8, 61_io_debug.md R524). -/
structure Channel where
  kind : ChannelKind
  /-- Which set of its kind: CCN, or ITN where CCN is implicit (R523). -/
  set : Nat
  active : Bool
  addr : PAddr
  /-- In an exchange of bytes: the next byte is the right byte of the word at `addr`. -/
  rightNext : Bool
  /-- The 16 low bits of `addr` have passed 'FFFF (U22). -/
  crossed : Bool
  /-- The units left to exchange; on an extended stop code the bytes exchanged (R531). -/
  count : Word
  da : Word
  /-- Field BY: bytes are exchanged. -/
  isByte : Bool
  dk : Bool
  sp : Bool
  ci : Word
  itn : Nat
  /-- The datum an input holds back (R524). -/
  buffered : Option Word
  micro : Microprogram
  /-- "Fin de bloc" was sent: the exchange is over and waits for its report (R524, R530). -/
  ended : Bool
deriving DecidableEq, Repr

/-- The three events that initialise the computer (70_reset_and_hazards.md R550). -/
inductive InitKind where
  | powerOn | manual | autoRestart
deriving DecidableEq, Repr

/-- What the console can load when the machine is stopped (61_io_debug.md R541, which says "registers"): that HV is not among them
is a DESIGN CHOICE (log 23). -/
inductive ConsoleReg where
  | general (r : Reg)
  | p
  | st
  | slo
  | sle
  | im
deriving DecidableEq, Repr

/-- An event of the outside world (log 22). -/
inductive Input where
  /-- The processor takes its step. -/
  | cpu
  /-- A device connects, changes its own registers, or raises or drops a request (R512, R514). -/
  | device (c : Coupler)
  /-- The mains have failed for 20 to 40 ms (60_exceptions.md R475). -/
  | powerFail
  /-- The computer is initialised (70_reset_and_hazards.md R550). -/
  | initialise (kind : InitKind)
  /-- Another agent stores a word (20_memory.md R80). -/
  | otherWrite (pa : PAddr) (v : Word)
  /-- Another processor executes IPI (45_system.md R303). -/
  | otherIpi
  /-- Another processor takes the request this unit's IPI raised in it. -/
  | otherServes (q : Nat)
  /-- A channel takes its step (61_io_debug.md R524). -/
  | channel (kind : ChannelKind) (set : Nat)
  /-- Console RUN (70_reset_and_hazards.md R554). -/
  | consoleRun
  /-- Console stop. -/
  | consoleStop
  /-- The console loads a register. -/
  | consoleLoad (r : ConsoleReg) (v : Word)
  /-- The console displays a memory word (61_io_debug.md R541). -/
  | consoleRead (a : Word)
  /-- The console stores a memory word. -/
  | consoleWrite (a : Word) (v : Word)
  /-- Key DB: a breakpoint; the first one sets DEBUG and POP (61_io_debug.md R541). -/
  | consoleDB (a : Word)
  /-- Key RB: the breakpoint is removed. -/
  | consoleRB (a : Word)
  /-- Key REC: out of the DEBUG mode. -/
  | consoleREC
deriving DecidableEq, Repr

/-- What the last execution of an instruction came to (the model's own, log 19). -/
inductive Phase where
  /-- The instruction completed. -/
  | completed
  /-- A long instruction stands at an interruption point; P is still its address. -/
  | interrupted
  /-- The instruction was abandoned on an alarm, or an election it made met one. -/
  | abandoned
deriving DecidableEq, Repr

/-- Main memory by bytes: byte `2·pa` is the left byte of the word at physical address `pa`, byte `2·pa + 1` its right
byte. Addresses strictly rising, no entry equal to what an unlisted byte reads as (Machine/Memory.lean). -/
abbrev Memory := List Host.Cell

/-- The state of the machine: everything the spec gives it (INVENTORY.md), as plain data. -/
structure State where
  /-- The implementation parameters; no step changes them. -/
  cfg : Config
  r : Regs
  P : Word
  st : Status
  SLO : Word
  SLE : Word
  IM : Word
  HV : Word
  mem : Memory
  /-- The physical addresses of the words in bad parity, strictly rising (10_state.md R35 item 4). -/
  badParity : List Nat
  ipiRequest : Bool
  /-- The other processors in which this unit's IPI stands unserved, strictly rising. -/
  othersIpi : List Nat
  powerFailPending : Bool
  powerFailActive : Bool
  stepArmed : Bool
  alarmStop : Bool
  autoRestartInhibited : Bool
  breakSeen : Bool
  /-- The HALT period counter: 0 when no HALT is in progress, else the periods left (45_system.md R306). -/
  haltLeft : Nat
  /-- The words of the long instruction in progress, first word first: uninterrupted, it goes on without a new fetch
  (70_reset_and_hazards.md R556); empty when none is. -/
  held : List Word
  /-- The operands that instruction has read once and for all: the parameters of BMOVE and BDBTM (49_isp16.md R411), the limits
  of RCDA and WCDA (48_cda_lists.md R398). -/
  heldOperands : Option (Word × Word)
  /-- The steps left before a STOP set by SST acts (70_reset_and_hazards.md R558). -/
  stopDelay : Nat
  couplers : List Coupler
  channels : List Channel
  /-- The outside events still to come, the next one first (the model's own, log 22). -/
  inputs : List Input
  /-- How many free values were used (the model's own, log 9). -/
  freeCount : Nat
  /-- The model's own (log 19). -/
  phase : Phase
deriving DecidableEq, Repr

/-- Why the machine is stuck. -/
inductive Fault where
  /-- No deferred task is armed and unmasked (47_scheduler.md R371, R384; U13: stuck). Raised by `reschedule`. Safe: the
  manual says software must keep an idle task, and gives no behaviour. -/
  | noElectableTask
deriving DecidableEq, Repr

/-- Why a step has no meaning in the model. -/
inductive Refusal where
  /-- An instruction without a meaning yet. Safe. -/
  | notModelled (mnemonic : String)
  /-- No instruction has this encoding and its family is present (30_encoding.md R123, U1). Raised by the fetch. Safe. -/
  | unassignedEncoding
  /-- A '3C word for which `ISP_CODE` lists nothing, ISP16 present (30_encoding.md R116, U1). Raised by the fetch. Safe. -/
  | ispCodeNotSupplied
  /-- SBS with X < 0 (43_byte_misc.md R244, U3). Safe. -/
  | sbsNegativeRank
  /-- ACQ or STEP where the page forbids it and says no effect: in a deferred task without the scheduler, in the power-fail
  task; STEP in a deferred task (45_system.md R302, R311, U4). Safe. -/
  | acquitForbidden
  /-- ROMB: the microprogram is described nowhere (45_system.md R312, U5). Safe. -/
  | rombMicroprogram
  /-- RLSE finds a counter that says a task waits and a queue without a bit (47_scheduler.md R376, U15). Safe. -/
  | rlseEmptyQueue
  /-- ACT on a call semaphore with Y[0] = 1 (47_scheduler.md R378, U16). Safe. -/
  | actRankOutOfRange
  /-- XENT or XSOR: the flowcharts are lost (49_isp16.md R431, R432, U17). Safe. -/
  | procedureFlowchartLost
  /-- XCTX: the manual has no page (49_isp16.md R433, U18). Safe. -/
  | xctxOperationLost
  /-- XCTX on a 35, where it does not exist (49_isp16.md R410, U1). Safe. -/
  | xctxAbsent
  /-- An immediate task context with MS = 0 (60_exceptions.md R456, U20). Safe. -/
  | immediateTaskNotMaster
  /-- A CCB whose buffer crosses a physical 64K boundary (61_io_debug.md R522, U22). Safe. -/
  | channelBufferCrosses64K
  /-- A '4000 table received by a compute processor (61_io_debug.md R528, U24). Safe. -/
  | powerFailNotice
  /-- Channel function 10, control read on disk (61_io_debug.md R524, U25). Safe. -/
  | channelControlRead
  /-- A CCB that names no channel of this model (61_io_debug.md R523). Safe. -/
  | channelNotPresent
  /-- A CCB with SP = 1 whose CCB5 is none of the microprograms of 61_io_debug.md R530 to R532 that the processor has: microcode,
  outside the scope (00_scope.md section 2). Safe. -/
  | channelMicroprogram
deriving DecidableEq, Repr

/-- The machine after power-on (70_reset_and_hazards.md R550): master mode, everything masked, stopped. P is the content of
word '0008, which is 0 because memory lists nothing. The general registers, SLO and SLE are 0 (DESIGN CHOICE, unsafe, log 1
and log 2); the configuration is `Config.standard` (log 4); no coupler and no channel (log 40). -/
def State.reset : State where
  cfg := Config.standard
  r := { A := 0#16, B := 0#16, X := 0#16, Y := 0#16, C := 0#16, L := 0#16, W := 0#16, K := 0#16 }
  P := 0#16
  st := { MS := true, SVCS := false, PR := false, V := false, Cf := false, DEBUG := false, LCM := true, IPM := true,
          IOM := true, MAINT := false, SCHED := false, STOP := true, POP := false }
  SLO := 0#16
  SLE := 0#16
  IM := 0#16
  HV := 0#16
  mem := []
  badParity := []
  ipiRequest := false
  othersIpi := []
  powerFailPending := false
  powerFailActive := false
  stepArmed := false
  alarmStop := false
  autoRestartInhibited := false
  breakSeen := false
  haltLeft := 0
  held := []
  heldOperands := none
  stopDelay := 0
  couplers := []
  channels := []
  inputs := []
  freeCount := 0
  phase := .completed

end Sys2Proof.Machine
end

