-- ==== Sys2Proof/Machine/Memory.lean ====
section
/-! DEFINITION. Main memory as a canonical list of bytes, and the set of words in bad parity (20_memory.md R60, R61, R73). -/

namespace Sys2Proof.Machine

/-- What an unlisted byte reads as: 0. DESIGN CHOICE, unsafe: the content of memory at power-on is not stated (log 3). -/
def blank : Byte := 0#8

/-- The byte at a byte address. -/
def readByte : Memory → Nat → Byte
  | [], _ => blank
  | (b, u) :: m, a => if b = a then u else readByte m a

/-- Stores a byte and keeps the canonical form: storing `blank` removes the entry. -/
def writeByte : Memory → Nat → Byte → Memory
  | [], a, v => if v = blank then [] else [(a, v)]
  | (b, u) :: m, a, v =>
    if a < b then (if v = blank then (b, u) :: m else (a, v) :: (b, u) :: m)
    else if a = b then (if v = blank then m else (a, v) :: m)
    else (b, u) :: writeByte m a v

/-- Addresses strictly rising from `n` on, no blank entry. -/
def Memory.wfFrom : Nat → Memory → Bool
  | _, [] => true
  | n, (a, v) :: m => n ≤ a && v ≠ blank && Memory.wfFrom (a + 1) m

/-- The canonical form. -/
def Memory.wf (m : Memory) : Bool := Memory.wfFrom 0 m

/-- The word at a physical word address: the left byte is the most significant half (20_memory.md R61). -/
def readWord (m : Memory) (pa : PAddr) : Word := ofBytes (readByte m (2 * pa.toNat)) (readByte m (2 * pa.toNat + 1))

/-- Stores a word. -/
def writeWord (m : Memory) (pa : PAddr) (v : Word) : Memory :=
  writeByte (writeByte m (2 * pa.toNat) (hi v)) (2 * pa.toNat + 1) (lo v)

/-- Adds a number to a strictly rising list. -/
def insertNat (n : Nat) : List Nat → List Nat
  | [] => [n]
  | m :: l => if n < m then n :: m :: l else if n = m then m :: l else m :: insertNat n l

/-- Takes a number out of a list. -/
def removeNat (n : Nat) : List Nat → List Nat
  | [] => []
  | m :: l => if n = m then removeNat n l else m :: removeNat n l

/-- The list rises strictly from `n` on. -/
def risingFrom : Nat → List Nat → Bool
  | _, [] => true
  | n, m :: l => n ≤ m && risingFrom (m + 1) l

end Sys2Proof.Machine
end

