-- ==== Sys2Proof/Machine/Presence.lean ====
section
/-! DEFINITION. Which options a configuration has (00_scope.md R2, R4), which addresses exist, and what a legal
configuration is. -/

namespace Sys2Proof

/-- Models 04 and 05. -/
def Config.is0405 (c : Config) : Bool := c.model = .m04 || c.model = .m05

/-- `HAS_DRPS` (R2: none on 04/05, option on 40, standard elsewhere). -/
def Config.hasDrps (c : Config) : Bool :=
  match c.model with
  | .m04 | .m05 => false
  | .m40 => c.drpsOption
  | .m30 | .m35 | .m65 | .m70 | .m75 => true

/-- `HAS_SCHED` (R2: option on 04/05 and 40, standard elsewhere). -/
def Config.hasSched (c : Config) : Bool :=
  match c.model with
  | .m04 | .m05 | .m40 => c.schedOption
  | .m30 | .m35 | .m65 | .m70 | .m75 => true

/-- `HAS_FFP16` (R2: none on 04/05, option elsewhere). -/
def Config.hasFfp16 (c : Config) : Bool := !c.is0405 && c.ffpOption

/-- `FFP_PARTIAL_UCODE`, meaningful on the 40 and 65 (R4). -/
def Config.hasFfpPartial (c : Config) : Bool := (c.model = .m40 || c.model = .m65) && c.ffpPartialUcode

/-- `HAS_CDA16` (R2: standard on 65, 70, 75). -/
def Config.hasCda16 (c : Config) : Bool := c.model = .m65 || c.model = .m70 || c.model = .m75

/-- `HAS_CDA_RW_ONLY` (R2: the 35). -/
def Config.hasCdaRwOnly (c : Config) : Bool := c.model = .m35

/-- `HAS_ISP16` (49_isp16.md R410: models 35 and 70). -/
def Config.hasIsp16 (c : Config) : Bool := c.model = .m35 || c.model = .m70

/-- `HAS_XCTX` (R4: ISP16 present and not the 35). -/
def Config.hasXctx (c : Config) : Bool := c.hasIsp16 && c.model ≠ .m35

/-- `HAS_PUSH_PULL_SBS` (R4: the scheduler option on 04/05, standard elsewhere). -/
def Config.hasPushPullSbs (c : Config) : Bool := if c.is0405 then c.hasSched else true

/-- `HAS_PRIV_MODE` (R3: the 16-70). -/
def Config.hasPrivMode (c : Config) : Bool := c.model = .m70

/-- `HAS_XMR` (R4: 65P and 75P). -/
def Config.hasXmr (c : Config) : Bool := c.pVariant && (c.model = .m65 || c.model = .m75)

/-- ST has the bit IPM (10_state.md R22: not on the 05, to which the 04 is identical, 00_scope.md R1). -/
def Config.hasIpm (c : Config) : Bool := !c.is0405

/-- The most words of main memory the model can have (20_memory.md R60). -/
def Config.maxWords (c : Config) : Nat :=
  if c.hasDrps then
    match c.model with
    | .m30 => 0x20000
    | .m35 => 0x40000
    | .m40 => 0x80000
    | .m04 | .m05 | .m65 | .m70 | .m75 => 0x100000
  else 0x10000

/-- `pa` is in `MEM_WORDS` (20_memory.md R60, R72). R60 bounds the number of words; that the bound holds of the addresses too
is the model's reading (DESIGN CHOICE, log 4). -/
def Config.exists (c : Config) (pa : PAddr) : Bool :=
  pa.toNat < c.maxWords && c.memRanges.any fun r => r.1 ≤ pa.toNat && pa.toNat ≤ r.2

/-- The seven parameter positions in ST (10_state.md R21). -/
def Config.stPositions (c : Config) : List Nat :=
  [c.stLcm, c.stIpm, c.stIom, c.stMaint, c.stSched, c.stStop, c.stPop]

/-- The mask of the ST bits SST and RST can change (45_system.md R321): MS, SVCS, PR, V, Cf, DEBUG, LCM, IPM where it
exists, IOM, MAINT, STOP, POP. -/
def Config.stWritable (c : Config) : Word :=
  bitMask 0 ||| bitMask 1 ||| bitMask 2 ||| bitMask 6 ||| bitMask 7 ||| bitMask 8
    ||| bitMask c.stLcm ||| (if c.hasIpm then bitMask c.stIpm else 0#16) ||| bitMask c.stIom ||| bitMask c.stMaint
    ||| bitMask c.stStop ||| bitMask c.stPop

/-- The ISP16 coding is usable: no two rows share a code or an instruction and form, bit 11 is no part of a code, the CDA
and miscellaneous instructions have one form, and the register fields lie in the word. -/
def IspCoding.wf (k : IspCoding) : Bool :=
  decide ((k.rows.map (·.code)).Nodup) && decide ((k.rows.map fun r => (r.op, r.form)).Nodup)
    && k.rows.all (fun r => !r.code.getLsbD 4) && decide (k.r1At ≤ 13) && decide (k.r2At ≤ 13)

/-- A legal configuration: the seven positions of ST are distinct and none of 0, 1, 2, 6, 7, 8 (10_state.md R21), and the
ISP16 coding is usable. -/
def Config.wf (c : Config) : Bool :=
  decide c.stPositions.Nodup
    && c.stPositions.all (fun p => p < 16 && p ≠ 0 && p ≠ 1 && p ≠ 2 && p ≠ 6 && p ≠ 7 && p ≠ 8)
    && c.isp.wf

end Sys2Proof
end

