-- ==== Sys2Proof/Machine/Ops.lean ====
section
/-! DEFINITION. The named operations over registers, status and memory, and taking and leaving an immediate task
(20_memory.md R64 to R73, 60_exceptions.md sections 1 to 6, 47_scheduler.md R371, R372). -/

namespace Sys2Proof.Machine

/-- The alarms and pseudo-alarms (60_exceptions.md R464). -/
inductive Alarm where
  | nonExistentMemory | memoryProtection | parityError | absentOption | privileged | forbiddenInImmediate
  | wakeUp | singleStep | breakpoint | actd
deriving DecidableEq, Repr

/-- The number of an alarm (R464). -/
def Alarm.number : Alarm → Byte
  | .nonExistentMemory => 0#8
  | .memoryProtection => 1#8
  | .parityError => 2#8
  | .absentOption => 3#8
  | .privileged => 4#8
  | .forbiddenInImmediate => 5#8
  | .wakeUp => 6#8
  | .singleStep => 7#8
  | .breakpoint => 8#8
  | .actd => 9#8

/-- The alarms of an instruction that is abandoned: the P saved is then the address of the instruction (R466; log 15). -/
def Alarm.abandons : Alarm → Bool
  | .nonExistentMemory | .memoryProtection | .parityError | .absentOption | .privileged | .forbiddenInImmediate => true
  | .wakeUp | .singleStep | .breakpoint | .actd => false

/-- What a part of an instruction comes to: a value and the state so far, an alarm with the state as it stands (log 15), a
refusal, or a stuck machine. -/
inductive Res (α : Type) where
  | ok (a : α) (s : State)
  | alarm (n : Alarm) (s : State)
  | refuse (why : Refusal)
  | stuck (why : Fault)
deriving Repr

/-- Goes on with the value and the state, unless the first part stopped. -/
def Res.bind {α β : Type} (m : Res α) (f : α → State → Res β) : Res β :=
  match m with
  | .ok a s => f a s
  | .alarm n s => .alarm n s
  | .refuse r => .refuse r
  | .stuck r => .stuck r

/-! Registers. -/

/-- `R[r]` (30_encoding.md R106). -/
def State.reg (s : State) : Reg → Word
  | .a => s.r.A
  | .b => s.r.B
  | .x => s.r.X
  | .y => s.r.Y
  | .c => s.r.C
  | .l => s.r.L
  | .w => s.r.W
  | .k => s.r.K

/-- `R[r] <- v`. -/
def State.setReg (s : State) (r : Reg) (v : Word) : State :=
  match r with
  | .a => { s with r := { s.r with A := v } }
  | .b => { s with r := { s.r with B := v } }
  | .x => { s with r := { s.r with X := v } }
  | .y => { s with r := { s.r with Y := v } }
  | .c => { s with r := { s.r with C := v } }
  | .l => { s with r := { s.r with L := v } }
  | .w => { s with r := { s.r with W := v } }
  | .k => { s with r := { s.r with K := v } }

/-- `A :: B`. -/
def State.ab (s : State) : BitVec 32 := s.r.A ++ s.r.B

/-- `A :: B <- v`. -/
def State.setAB (s : State) (v : BitVec 32) : State :=
  (s.setReg .a (v.extractLsb' 16 16)).setReg .b (v.extractLsb' 0 16)

/-- V and Cf, always written together (10_state.md R23). -/
def State.setVC (s : State) (v c : Bool) : State := { s with st := { s.st with V := v, Cf := c } }

/-- `P <- u16(P0 + n)`, the end of an instruction that does not transfer control (10_state.md R14). -/
def State.advance (s : State) (n : Nat) : State := { s with P := s.P + BitVec.ofNat 16 n }

/-- The next free value and the state that has used it (log 9). -/
def State.fresh (s : State) : Word × State := (Config.freeWord s.freeCount, { s with freeCount := s.freeCount + 1 })

/-- The running task is an immediate one (10_state.md R35 item 9). -/
def State.inImmediate (s : State) : Bool := s.HV ≠ 0#16 || s.powerFailActive

/-! Physical accesses (20_memory.md R65, R72, R73). -/

/-- The alarm task is in progress: HV[0] = 1. -/
def State.inAlarmTask (s : State) : Bool := bit s.HV 0

/-- The word is in bad parity and this matters: parity exists and MAINT = 0 (R73). -/
def State.badWord (s : State) (pa : PAddr) : Bool :=
  s.cfg.parity && s.badParity.contains pa.toNat && !s.st.MAINT

/-- A breakpoint on an operand: remembered until the instruction ends, ignored in the alarm task (60_exceptions.md R469). -/
def State.seeBreak (s : State) : State := if s.inAlarmTask then s else { s with breakSeen := true }

/-- Stores a word with correct parity, whatever the access rules say. -/
def State.store (s : State) (pa : PAddr) (v : Word) : State :=
  { s with mem := writeWord s.mem pa v, badParity := removeNat pa.toNat s.badParity }

/-- `PhysRead(pa)`: alarm 0 where no word exists, except on a 04/05, where the value is free (U8); then the parity. -/
def readAt (pa : PAddr) (s : State) : Res Word :=
  if !s.cfg.exists pa then
    if s.cfg.is0405 then .ok s.fresh.1 s.fresh.2 else .alarm .nonExistentMemory s
  else if s.badWord pa then
    if s.st.DEBUG then .ok (readWord s.mem pa) s.seeBreak else .alarm .parityError s
  else .ok (readWord s.mem pa) s

/-- `PhysWrite(pa, v)`: alarm 0 where no word exists, except on a 04/05, where the write is lost (U8). In DEBUG mode the
write is an exchange and meets the breakpoint it erases (R73). -/
def writeAt (pa : PAddr) (v : Word) (s : State) : Res Unit :=
  if !s.cfg.exists pa then
    if s.cfg.is0405 then .ok () s else .alarm .nonExistentMemory s
  else if s.badWord pa && s.st.DEBUG then .ok () (s.seeBreak.store pa v)
  else .ok () (s.store pa v)

/-- The absolute address of a 16-bit value: the first 64K words (20_memory.md R64). -/
def absolute (a : Word) : PAddr := a.setWidth 20

/-- `PhysRead` of a 16-bit address. -/
def physRead (a : Word) (s : State) : Res Word := readAt (absolute a) s

/-- `PhysWrite` of a 16-bit address. -/
def physWrite (a v : Word) (s : State) : Res Unit := writeAt (absolute a) v s

/-! Relocation and protection (20_memory.md R66 to R70). -/

/-- `Limit()`, the highest program address (R69). -/
def State.limit (s : State) : Nat := ((s.SLE - s.SLO).toNat % 4096) * 16 + 15

/-- `SLO·16 + a` modulo 2^20 (R66, D9). -/
def State.relocate (s : State) (a : Word) : PAddr := (s.SLO ++ 0#4) + a.setWidth 20

/-- `Translate(a)` (R66): alarm 1 beyond the limit. -/
def translate (a : Word) (s : State) : Res PAddr :=
  if a.toNat > s.limit then .alarm .memoryProtection s else .ok (s.relocate a) s

/-- The physical address of a program address, relocated and protected or absolute. -/
def resolve (relocated : Bool) (a : Word) (s : State) : Res PAddr :=
  if relocated then translate a s else .ok (absolute a) s

/-- Ordinary accesses are relocated: slave or privileged mode with DRPS (R64). -/
def State.relocated (s : State) : Bool := s.cfg.hasDrps && !s.st.MS

/-- K-stack accesses are relocated: not (MS = 1 and SVCS = 0), with DRPS (R68). -/
def State.stackRelocated (s : State) : Bool := s.cfg.hasDrps && !(s.st.MS && !s.st.SVCS)

/-- `MemRead(a, 1)` (R64). -/
def memRead (a : Word) (s : State) : Res Word := (resolve s.relocated a s).bind readAt

/-- `MemWrite(a, 1, v)` (R64). -/
def memWrite (a v : Word) (s : State) : Res Unit := (resolve s.relocated a s).bind fun pa s => writeAt pa v s

/-- `StackRead(k)` (R68). -/
def stackRead (k : Word) (s : State) : Res Word := (resolve s.stackRelocated k s).bind readAt

/-- `StackWrite(k, v)` (R68). -/
def stackWrite (k v : Word) (s : State) : Res Unit :=
  (resolve s.stackRelocated k s).bind fun pa s => writeAt pa v s

/-- `RelRead(a)` (R67). -/
def relRead (a : Word) (s : State) : Res Word := (resolve s.cfg.hasDrps a s).bind readAt

/-- `RelWrite(a, v)` (R67). -/
def relWrite (a v : Word) (s : State) : Res Unit := (resolve s.cfg.hasDrps a s).bind fun pa s => writeAt pa v s

/-- `K <- u16(K + 1)` then the store at K: one push on the K stack (10_state.md R15). -/
def push (v : Word) (s : State) : Res Unit :=
  stackWrite (s.r.K + 1#16) v (s.setReg .k (s.r.K + 1#16))

/-! The words S and ST (60_exceptions.md R455, 45_system.md R321). -/

/-- `SWord()`: MS, SVCS, PR, V, Cf at bits 0, 1, 2, 6, 7, every other bit 0 (R455; U19, log 16). -/
def Status.sWord (t : Status) : Word :=
  setBit (setBit (setBit (setBit (setBit 0#16 0 t.MS) 1 t.SVCS) 2 t.PR) 6 t.V) 7 t.Cf

/-- `LoadS(w)` (R455): the five bits of S and nothing else. -/
def Status.loadS (t : Status) (w : Word) : Status :=
  { t with MS := bit w 0, SVCS := bit w 1, PR := bit w 2, V := bit w 6, Cf := bit w 7 }

/-- The mask IPM, on the models that have it (10_state.md R22). -/
def State.ipm (s : State) : Bool := s.cfg.hasIpm && s.st.IPM

/-- `STword`, the 16-bit image of ST (45_system.md R321). -/
def State.stWord (s : State) : Word :=
  s.st.sWord ||| setBit 0#16 8 s.st.DEBUG ||| setBit 0#16 s.cfg.stLcm s.st.LCM ||| setBit 0#16 s.cfg.stIpm s.ipm
    ||| setBit 0#16 s.cfg.stIom s.st.IOM ||| setBit 0#16 s.cfg.stMaint s.st.MAINT
    ||| setBit 0#16 s.cfg.stSched s.st.SCHED ||| setBit 0#16 s.cfg.stStop s.st.STOP
    ||| setBit 0#16 s.cfg.stPop s.st.POP

/-- ST from its image: every explained bit but SCHED, which is the micromachine's (45_system.md R321, D23). A STOP that
goes from 0 to 1 acts after the latency of 70_reset_and_hazards.md R558, and not at all where an RST clears it before (DESIGN CHOICE,
log 21). -/
def State.loadST (s : State) (w : Word) : State :=
  { s with
    st := { s.st with
      MS := bit w 0, SVCS := bit w 1, PR := bit w 2, V := bit w 6, Cf := bit w 7, DEBUG := bit w 8
      LCM := bit w s.cfg.stLcm, IPM := s.cfg.hasIpm && bit w s.cfg.stIpm, IOM := bit w s.cfg.stIom
      MAINT := bit w s.cfg.stMaint, STOP := bit w s.cfg.stStop, POP := bit w s.cfg.stPop }
    stopDelay := if bit w s.cfg.stStop && !s.st.STOP then s.cfg.stopLatency else s.stopDelay }

/-! Contexts of immediate tasks (60_exceptions.md section 2). -/

/-- `PSTH(i)` (R455). -/
def psth (i : Nat) (s : State) : Res Word :=
  (physRead 0x0002#16 s).bind fun base s => .ok (base + BitVec.ofNat 16 (4 * i)) s

/-- The long instruction in progress, if any, is left: executed again, it is fetched again (70_reset_and_hazards.md R556). A
breakpoint it has met stays in `breakSeen` (DESIGN CHOICE where the console leaves it, log 23). -/
def State.released (s : State) : State := { s with held := [], heldOperands := none }

/-- `ExchangePartial(a)` (R455): C, K, P, S against the four words at `a`. The addresses a + 1 to a + 3 are taken modulo 2^16
(DESIGN CHOICE, log 12). The context taken starts with a fetch. -/
def exchangePartial (a : Word) (s : State) : Res Unit :=
  (physRead a s).bind fun c s =>
  (physRead (a + 1#16) s).bind fun k s =>
  (physRead (a + 2#16) s).bind fun p s =>
  (physRead (a + 3#16) s).bind fun w s =>
  (physWrite a s.r.C s).bind fun _ s =>
  (physWrite (a + 1#16) s.r.K s).bind fun _ s =>
  (physWrite (a + 2#16) s.P s).bind fun _ s =>
  (physWrite (a + 3#16) s.st.sWord s).bind fun _ s =>
  .ok () { s.released with r := { s.r with C := c, K := k }, P := p, st := s.st.loadS w }

/-- `Launch(j)` (R456): HV[j] <- 1, then the exchange with PSTH(j). A context with MS = 0 is outside the model (U20), save on
a 04/05, where MS has no effect (D7). -/
def launch (j : Nat) (s : State) : Res Unit :=
  (psth j { s with HV := setBit s.HV j true }).bind fun a s =>
  (exchangePartial a s).bind fun _ s =>
  if s.st.MS || s.cfg.is0405 then .ok () s else .refuse .immediateTaskNotMaster

/-- The machine stops until a console initialisation (R470). -/
def State.alarmHalt (s : State) : State :=
  { s with st := { s.st with STOP := true }, stopDelay := 0, alarmStop := true }

/-- Writes the alarm number in the right byte of the S word of PSTH(0) (R465), an address taken modulo 2^16 (log 12). -/
def writeAlarmNumber (n : Alarm) (s : State) : Res Unit :=
  (psth 0 s).bind fun a s =>
  (physRead (a + 3#16) s).bind fun w s =>
  physWrite (a + 3#16) (ofBytes (hi w) n.number) s

/-- An alarm met while the alarm task is being entered is an alarm in the alarm task (R465, R470). -/
def Res.alarmsHalt (m : Res Unit) : Res Unit :=
  match m with
  | .ok a s => .ok a s
  | .alarm _ s => .ok () s.alarmHalt
  | .refuse r => .refuse r
  | .stuck r => .stuck r

/-- `raise Alarm(n)` (R465): the one place where an alarm is taken. In the power-fail task the machine stops and the
automatic restart is inhibited; in the alarm task alarms 6 and 8 are ignored and the others stop the machine; else task 0
is launched and finds the number in the S word of its entry. A breakpoint met by an instruction that the alarm cuts is
forgotten (DESIGN CHOICE, log 15). -/
def raiseAlarm (n : Alarm) (s : State) : Res Unit :=
  if s.powerFailActive then .ok () { s.alarmHalt with autoRestartInhibited := true }
  else if s.inAlarmTask then
    if n = .wakeUp || n = .breakpoint then .ok () s else .ok () s.alarmHalt
  else ((launch 0 { s with breakSeen := false }).bind fun _ s => writeAlarmNumber n s).alarmsHalt

/-- The end of an immediate task i (45_system.md R302): HV[i] <- 0, then C, K, P, S are exchanged back with PSTH(i). -/
def leaveImmediate (i : Nat) (s : State) : Res Unit :=
  (psth i { s with HV := setBit s.HV i false }).bind exchangePartial

/-- `PowerFailSequence()` (R475). A context at word '6 with MS = 0 runs as it is given: U20 speaks of the entries of the PSTH
only (DESIGN CHOICE, log 35). -/
def powerFailSequence (s : State) : Res Unit :=
  (physRead 0x0006#16
    { s with powerFailPending := false, powerFailActive := true
             st := { s.st with IOM := true, IPM := s.cfg.hasIpm, LCM := true } }).bind exchangePartial

/-! Election of immediate tasks (60_exceptions.md R452, R453). -/

/-- What the processor would start now. -/
inductive Election where
  | idle
  | powerFail
  | ipi
  | level (j : Nat)
deriving DecidableEq, Repr

/-- A coupler asks for its level: a normal request not routed to a channel, or an exception request (61_io_debug.md R514). -/
def Coupler.asks (d : Coupler) : Bool := (d.normalPending.isSome && !d.toChannel) || d.exceptionPending.isSome

/-- `Pending(l)` (R452). -/
def State.pending (s : State) (l : Nat) : Bool := s.couplers.any fun d => d.level.toNat = l && d.asks

/-- The levels 1 to 15, the most prioritary first. -/
def levels : List Nat := [1, 2, 3, 4, 5, 6, 7, 8, 9, 10, 11, 12, 13, 14, 15]

/-- The least pending level that IM does not mask. -/
def State.wantedLevel (s : State) : Option Nat := levels.find? fun l => s.pending l && !bit s.IM l

/-- `Stopped()` (R454). -/
def State.stopped (s : State) : Bool := s.alarmStop || (s.st.STOP && s.stopDelay = 0)

/-- The program interrupts that can be taken: IOM = 0, and the level above the task in progress (R453). -/
def State.electLevel (s : State) : Election :=
  if s.st.IOM then .idle
  else
    match s.wantedLevel with
    | some j => if j < leftmost s.HV then .level j else .idle
    | none => .idle

/-- `Electable()` (R453). -/
def State.electable (s : State) : Election :=
  if s.stopped || s.powerFailActive then .idle
  else if s.powerFailPending && !s.st.IOM then .powerFail
  else if s.ipiRequest && !s.ipm then .ipi
  else s.electLevel

/-! The scheduler (47_scheduler.md R370 to R372). -/

/-- `NS()` (R379). -/
def readNS (s : State) : Res Nat := (physRead 0x0000#16 s).bind fun w s => .ok (w.toNat % 128) s

/-- The word of a bit string that starts at address `q` and holds bit `n` (R379). -/
def stringWord (q : Word) (n : Nat) : Word := q + BitVec.ofNat 16 (n / 16)

/-- `QSet(q, n, b)` (R379). -/
def qSet (q : Word) (n : Nat) (b : Bool) (s : State) : Res Unit :=
  (physRead (stringWord q n) s).bind fun w s => physWrite (stringWord q n) (setBit w (n % 16) b) s

/-- `QGet(q, n)` (R379). -/
def qGet (q : Word) (n : Nat) (s : State) : Res Bool :=
  (physRead (stringWord q n) s).bind fun w s => .ok (bit w (n % 16)) s

/-- The least task of word `k` of the queues whose bits in ASTF and ESTF, `a` and `e`, are 1 (R371). -/
def firstArmed (k : Nat) (a e : Word) : Option Nat := if a &&& e = 0#16 then none else some (16 * k + leftmost (a &&& e))

/-- The least n armed and unmasked (R371), from word `k` of the queues on, `left` words being left to look at and `found` the
task already found. The whole of ASTF and ESTF is scanned (D34); that word k of ASTF is read before word k of ESTF, k rising,
is the model's order (DESIGN CHOICE, log 44). -/
def electDeferred : Nat → Nat → Option Nat → State → Res Nat
  | 0, _, none, _ => .stuck .noElectableTask
  | 0, _, some n, s => .ok n s
  | left + 1, k, found, s =>
    (physRead (0x0020#16 + BitVec.ofNat 16 k) s).bind fun a s =>
    (physRead (0x0028#16 + BitVec.ofNat 16 k) s).bind fun e s =>
    electDeferred left (k + 1) (found.or (firstArmed k a e)) s

/-- `PSTSaddr(n)` (R370). -/
def pstsAddr (n : Nat) (s : State) : Res Word :=
  (physRead 0x0003#16 s).bind fun t s => physRead (t + BitVec.ofNat 16 n) s

/-- The first ten words of the full context, in order (R370). -/
def State.contextWords (s : State) : List Word :=
  [s.r.A, s.r.B, s.r.X, s.r.Y, s.r.C, s.r.L, s.r.W, s.r.K, s.P, s.st.sWord, s.SLO, s.SLE]

/-- Stores words at consecutive addresses (modulo 2^16). -/
def writeWords : Word → List Word → State → Res Unit
  | _, [], s => .ok () s
  | a, v :: vs, s => (physWrite a v s).bind fun _ s => writeWords (a + 1#16) vs s

/-- Loads the full context at address `b` (R372), in the order of the words. SLE takes the whole word: R69 and D10 keep it as
written, where R372 writes bits 4 to 15 (log 14). Without DRPS the last two words are read and ignored. -/
def loadContext (b : Word) (s : State) : Res Unit :=
  (physRead b s).bind fun v s => let s := s.setReg .a v
  (physRead (b + 1#16) s).bind fun v s => let s := s.setReg .b v
  (physRead (b + 2#16) s).bind fun v s => let s := s.setReg .x v
  (physRead (b + 3#16) s).bind fun v s => let s := s.setReg .y v
  (physRead (b + 4#16) s).bind fun v s => let s := s.setReg .c v
  (physRead (b + 5#16) s).bind fun v s => let s := s.setReg .l v
  (physRead (b + 6#16) s).bind fun v s => let s := s.setReg .w v
  (physRead (b + 7#16) s).bind fun v s => let s := s.setReg .k v
  (physRead (b + 8#16) s).bind fun v s => let s := { s with P := v }
  (physRead (b + 9#16) s).bind fun v s => let s := { s with st := s.st.loadS v }
  (physRead (b + 10#16) s).bind fun v s => let s := if s.cfg.hasDrps then { s with SLO := v } else s
  (physRead (b + 11#16) s).bind fun v s =>
  .ok () (if s.cfg.hasDrps then { s with SLE := v } else s)

/-- `FullSwitch(from, to)` (R372). -/
def fullSwitch (old new : Nat) (s : State) : Res Unit :=
  (pstsAddr old s).bind fun a s =>
  (writeWords a s.contextWords s).bind fun _ s =>
  (pstsAddr new s).bind fun b s =>
  (loadContext b s).bind fun _ s =>
  physWrite 0x0000#16 (BitVec.ofNat 16 new) s

/-- The launch of the elected task n in place of ns (R371): task n when its RSTF bit is 1, else task 0, armed, with NL <- n. -/
def launchDeferred (ns n : Nat) (s : State) : Res Unit :=
  (qGet 0x0030#16 n s).bind fun ready s =>
  if ready then fullSwitch ns n s
  else
    (qSet 0x0020#16 0 true s).bind fun _ s =>
    (physWrite 0x0001#16 (BitVec.ofNat 16 n) s).bind fun _ s =>
    fullSwitch ns 0 s

/-- `Reschedule()` (R371). -/
def reschedule (s : State) : Res Unit :=
  (readNS s).bind fun ns s =>
  (electDeferred 8 0 none s).bind fun n s =>
  if n = ns then .ok () s else launchDeferred ns n s

/-- WSCHED holds a free value after any passage in the scheduler (R379, U14), where the word exists. That the write of the
processor meets neither alarm 0 nor a breakpoint, and leaves the word in good parity, is a DESIGN CHOICE (log 44). -/
def State.scribbleWsched (s : State) : State :=
  if s.cfg.exists 0x0000F#20 then s.fresh.2.store 0x0000F#20 s.fresh.1 else s

/-! The frame of an execution. -/

/-- `PrivCheck()` (45_system.md R300). -/
def privCheck (s : State) : Res Unit :=
  if s.cfg.is0405 || s.st.MS || (s.cfg.hasPrivMode && s.st.PR) then .ok () s else .alarm .privileged s

/-- The outcome of a finished part of the machine. -/
def Res.outcome (m : Res Unit) : Host.Outcome State Fault Refusal :=
  match m with
  | .ok _ s => .next s
  | .alarm _ s => .next s
  | .refuse r => .refused r
  | .stuck r => .fault r

/-- Takes the alarm an instruction at `p0` ended in: the instruction is abandoned; alarms 0 to 5 save P = P0 (R466). A
breakpoint it met on an operand is forgotten, POP = 1 or not (DESIGN CHOICE, log 15). -/
def takeAlarm (p0 : Word) (n : Alarm) (s : State) : Res Unit :=
  raiseAlarm n { s with P := if n.abandons then p0 else s.P, phase := .abandoned, breakSeen := false }

/-- One execution of an instruction, or of one slice of a long one: the body, and the alarm it may end in. -/
def execute (body : State → Res Unit) (s : State) : Host.Outcome State Fault Refusal :=
  match body { s with phase := .completed } with
  | .ok _ s' => .next s'
  | .alarm n s' => (takeAlarm s.P n s').outcome
  | .refuse r => .refused r
  | .stuck r => .fault r

/-- An interruption point of a long instruction (70_reset_and_hazards.md R556): P stays at the instruction. -/
def State.pause (s : State) : State := { s with phase := .interrupted }

/-- The operands a long instruction reads once an execution (R556): those it holds, else those that `read` gives. -/
def heldOr (read : State → Res (Word × Word)) (s : State) : Res (Word × Word) :=
  match s.heldOperands with
  | some p => .ok p s
  | none => read s

/-- A slice that pauses holds the operands it was given; one that ends the instruction holds none. -/
def keeping (p : Word × Word) (m : Res Unit) : Res Unit :=
  m.bind fun _ s => .ok () { s with heldOperands := if s.phase = .interrupted then some p else none }

/-! The end of an instruction. -/

/-- The end of the stepped instruction: alarm 7 (45_system.md R311). `armed` says that STEP had armed it before the
instruction. -/
def endStep (armed : Bool) (s : State) : Res Unit :=
  if armed then raiseAlarm .singleStep { s with stepArmed := false } else .ok () s

/-- A breakpoint on an operand stops the machine when POP = 1, P being where it stands (R469). -/
def State.breakStop (s : State) : State :=
  { s.released with breakSeen := false, st := { s.st with STOP := true }, stopDelay := 0 }

/-- The end of a completed instruction: a breakpoint on an operand stops the machine when POP = 1, else raises alarm 8 in the
place of a pending alarm 7 (R469, D24). -/
def endCompleted (armed : Bool) (s : State) : Res Unit :=
  if !s.breakSeen then endStep armed s
  else if s.st.POP then endStep armed s.breakStop
  else raiseAlarm .breakpoint { s with breakSeen := false, stepArmed := s.stepArmed && !armed }

/-- The end of a HALT on an event: X <- the periods left (45_system.md R306). -/
def State.endHalt (s : State) : State :=
  if s.haltLeft = 0 then s else { s.setReg .x (BitVec.ofNat 16 s.haltLeft) with haltLeft := 0, phase := .completed }

/-- An event ends a HALT in progress, which is then a completed instruction (R306, R311). -/
def haltEnds (s : State) : Res Unit := if s.haltLeft = 0 then .ok () s else endCompleted s.stepArmed s.endHalt

/-- An alarm that comes from outside the instructions: a HALT in progress ends on it; where it cuts a HALT or another long
instruction that is being stepped, the pending alarm 7 is dropped (DESIGN CHOICE, log 39). -/
def raiseOutside (n : Alarm) (s : State) : Res Unit :=
  raiseAlarm n { s.endHalt with stepArmed := s.stepArmed && s.haltLeft = 0 && s.held.isEmpty }

/-- A breakpoint met by a long instruction at whose interruption point something is to be started, or by the start of a task, is
acted on at once (R467 (d), R469; DESIGN CHOICE, log 19): the machine stops, or alarm 8 is raised. -/
def actOnBreak (s : State) : Res Unit :=
  if !s.breakSeen then .ok () s
  else if s.st.POP then .ok () s.breakStop
  else raiseOutside .breakpoint { s with breakSeen := false }

end Sys2Proof.Machine
end

