-- ==== Sys2Proof/Machine/Operands.lean ====
section
/-! DEFINITION. Operand forms: effective addresses, bytes, counts, immediates, jump targets, bit strings, and the 20-bit
operands of ISP16 and CDA16 (30_encoding.md R102 to R108, 48_cda_lists.md R391, R398, 49_isp16.md R411, R412). -/

namespace Sys2Proof.Machine

/-- The value of a base register (30_encoding.md R101). -/
def State.base (s : State) : Base → Word
  | .c => s.r.C
  | .l => s.r.L
  | .w => s.r.W

/-- Base + displacement, modulo 65536 (R102, D5). -/
def State.direct (s : State) (m : MemRef) : Word := s.base m.base + sext8 m.d

/-- The address a relay designates (R102): its 15 low bits, plus X when its bit 0 is 1. -/
def relayAddress (relay x : Word) : Word :=
  if bit relay 0 then (relay &&& 0x7FFF#16) + x else relay &&& 0x7FFF#16

/-- `EAword(w)` (R102). -/
def eaWord (m : MemRef) (s : State) : Res Word :=
  if m.ind then (memRead (s.direct m) s).bind fun relay s => .ok (relayAddress relay s.r.X) s
  else .ok (s.direct m) s

/-- The byte a relay designates (R103): the left byte without index; with it, the byte of rank X from the relay address. -/
def relayByte (relay x : Word) : Word × Bool :=
  if bit relay 0 then ((relay &&& 0x7FFF#16) + half x, bit x 15) else (relay &&& 0x7FFF#16, false)

/-- `EAbyte(w)` (R103): the word address, and whether the byte is the right one. -/
def eaByte (m : MemRef) (s : State) : Res (Word × Bool) :=
  if m.ind then (memRead (s.direct m) s).bind fun relay s => .ok (relayByte relay s.r.X) s
  else .ok (s.direct m, false) s

/-- One byte of a word (20_memory.md R61). -/
def byteOf (w : Word) (right : Bool) : Byte := if right then lo w else hi w

/-- A word with one byte replaced (20_memory.md R63). -/
def withByte (w : Word) (right : Bool) (b : Byte) : Word := if right then ofBytes (hi w) b else ofBytes b (lo w)

/-- `ByteRead(wa, right)` (20_memory.md R63). -/
def byteRead (wa : Word) (right : Bool) (s : State) : Res Byte :=
  (memRead wa s).bind fun w s => .ok (byteOf w right) s

/-- `ByteWrite(wa, right, b)` (20_memory.md R63): the word is read, then written whole. -/
def byteWrite (wa : Word) (right : Bool) (b : Byte) (s : State) : Res Unit :=
  (memRead wa s).bind fun w s => memWrite wa (withByte w right b) s

/-- The operand word of a memory-reference instruction: `EA <- EAword(w); MemRead(EA, 1)`. -/
def readOperand (m : MemRef) (s : State) : Res Word := (eaWord m s).bind memRead

/-- The store of a memory-reference instruction: `EA <- EAword(w); MemWrite(EA, 1, v)`; `v` is a function of the state after
the address is formed. -/
def writeOperand (m : MemRef) (v : State → Word) (s : State) : Res Unit :=
  (eaWord m s).bind fun ea s => memWrite ea (v s) s

/-- `imm9(w)` (30_encoding.md R105). -/
def immValue (n : Imm9) : Word := ofBytes (if n.sign then 0xFF#8 else 0x00#8) n.n

/-- `count(w)` (30_encoding.md R108), 0 to 31. -/
def State.count (s : State) (c : Count) : Nat :=
  if c.ix then (c.n.toNat + s.r.X.toNat) % 32 else c.n.toNat

/-- The target of a jump relative to P (30_encoding.md R104). -/
def State.target (s : State) (d : Byte) : Word := s.P + sext8 d

/-- The registers in the order A, B, X, Y, C, L, W, K (43_byte_misc.md section 3). -/
def allRegs : List Reg := [.a, .b, .x, .y, .c, .l, .w, .k]

/-- `sel(r) = w[8 + r]` (30_encoding.md R110, D11). -/
def selected (mask : Byte) (r : Reg) : Bool := mask.getLsbD (7 - r.code.toNat)

/-- The selected registers in order. -/
def selectedRegs (mask : Byte) : List Reg := allRegs.filter (selected mask)

/-! Bit strings (48_cda_lists.md R391). -/

/-- `floor(r / 16)` of a rank, as a word offset. -/
def rankWord (r : Int) : Word := u16 (r / 16)

/-- `r mod 16`. -/
def rankBit (r : Int) : Nat := (r % 16).toNat

/-- `BitWord(A, r)`: the address of the word that holds rank r. -/
def bitWord (origin : Word) (r : Int) : Word := origin + rankWord r

/-- The leftmost bit at one of `v` among positions `i` to `j - 1`. -/
def firstOne (v : Word) (i j : Nat) : Option Nat := (List.range 16).find? fun p => i ≤ p && p < j && bit v p

/-! 20-bit operands. -/

/-- `(p1·16 + d) mod 2^20` (49_isp16.md R411). -/
def basedEA (p1 d : Word) : PAddr := (p1 ++ 0#4) + d.setWidth 20

/-- The limits OCDA and ECDA, read at each execution (48_cda_lists.md R398). -/
def cdaLimits (s : State) : Res (Word × Word) :=
  (physRead 0x0018#16 s).bind fun o s => (physRead 0x0019#16 s).bind fun e s => .ok (o, e) s

/-- `CDAok(d)` (48_cda_lists.md R398): integers, no wrap. -/
def cdaOk (lim : Word × Word) (d : Nat) : Bool := lim.1.toNat * 16 + d ≤ lim.2.toNat * 16 + 15

/-- `CDAaddr(d)` (48_cda_lists.md R398). -/
def cdaAddr (lim : Word × Word) (d : Word) : PAddr := basedEA lim.1 d

/-- `ISP_REGS(w2)` (30_encoding.md R116). -/
def ispRegs (k : IspCoding) (w2 : Word) : Reg × Reg :=
  (regOf (w2.extractLsb' (13 - k.r1At) 3), regOf (w2.extractLsb' (13 - k.r2At) 3))

/-- `ISP_PTR(w)` (30_encoding.md R116): the address a parameter word designates. In the memory-reference format bits 0-1 = 00
name no base; such a word is then the address itself (log 6). -/
def ispPointer (w : Word) (s : State) : Res Word :=
  match s.cfg.isp.ptr with
  | .direct => .ok w s
  | .memoryReference =>
    match memRefOf w with
    | some m => eaWord m s
    | none => .ok w s

/-- The parameters p1 and p2 of a based instruction (49_isp16.md R411). -/
def basedParams (o : IspArgs) (s : State) : Res (Word × Word) :=
  match o with
  | .regs w2 => .ok (s.reg (ispRegs s.cfg.isp w2).1, s.reg (ispRegs s.cfg.isp w2).2) s
  | .mem w2 w3 =>
    (ispPointer w2 s).bind fun a s => (memRead a s).bind fun p1 s =>
    (ispPointer w3 s).bind fun a s => (memRead a s).bind fun p2 s => .ok (p1, p2) s

/-- The number of words of a based instruction (49_isp16.md R410). -/
def paramWords : IspArgs → Nat
  | .regs _ => 2
  | .mem _ _ => 3

/-- A displacement with the index of a word operand (49_isp16.md R411, R412). -/
def State.indexed (s : State) (ix : Bool) (d : Word) : Word := if ix then d + s.r.X else d

end Sys2Proof.Machine
end

