-- ==== Sys2Proof/Machine/LoadStore.lean ====
section
/-! DEFINITION. Loads, stores and exchanges (40_load_store_exchange.md). None changes a flag. -/

namespace Sys2Proof.Machine

/-- The end of a one-word instruction that does not transfer control. -/
def finish (s : State) : Res Unit := .ok () (s.advance 1)

/-- A load of a register from the operand word. -/
def loadReg (r : Reg) (m : MemRef) (s : State) : Res Unit :=
  (readOperand m s).bind fun v s => finish (s.setReg r v)

/-- A load of a register with an immediate. -/
def loadImm (r : Reg) (n : Imm9) (s : State) : Res Unit := finish (s.setReg r (immValue n))

/-- A store of a register in the operand word. -/
def storeReg (r : Reg) (m : MemRef) (s : State) : Res Unit :=
  (writeOperand m (fun s => s.reg r) s).bind fun _ s => finish s

/-- An indivisible exchange of A with the word at a physical address. -/
def exchangeA (pa : PAddr) (s : State) : Res Unit :=
  (readAt pa s).bind fun t s => (writeAt pa s.r.A s).bind fun _ s => .ok () (s.setReg .a t)

/-- LA: A <- the operand word (R140). -/
def execLa (m : MemRef) (s : State) : Host.Outcome State Fault Refusal :=
  execute (loadReg .a m) s

/-- LB: B <- the operand word (R141). -/
def execLb (m : MemRef) (s : State) : Host.Outcome State Fault Refusal :=
  execute (loadReg .b m) s

/-- LX: X <- the operand word (R142). -/
def execLx (m : MemRef) (s : State) : Host.Outcome State Fault Refusal :=
  execute (loadReg .x m) s

/-- LY: Y <- the operand word (R143). -/
def execLy (m : MemRef) (s : State) : Host.Outcome State Fault Refusal :=
  execute (loadReg .y m) s

/-- LAI: A <- the 9-bit immediate (R144). -/
def execLai (n : Imm9) (s : State) : Host.Outcome State Fault Refusal :=
  execute (loadImm .a n) s

/-- LBI: B <- the 9-bit immediate (R145). -/
def execLbi (n : Imm9) (s : State) : Host.Outcome State Fault Refusal :=
  execute (loadImm .b n) s

/-- LXI: X <- the 9-bit immediate (R146). -/
def execLxi (n : Imm9) (s : State) : Host.Outcome State Fault Refusal :=
  execute (loadImm .x n) s

/-- LYI: Y <- the 9-bit immediate (R147). -/
def execLyi (n : Imm9) (s : State) : Host.Outcome State Fault Refusal :=
  execute (loadImm .y n) s

/-- LR: R[rd] <- R[rs] (R148). -/
def execLr (rs : Reg) (rd : Reg) (s : State) : Host.Outcome State Fault Refusal :=
  execute (fun s => finish (s.setReg rd (s.reg rs))) s

/-- LRP: R[rd] <- P0 (R149). -/
def execLrp (rd : Reg) (s : State) : Host.Outcome State Fault Refusal :=
  execute (fun s => finish (s.setReg rd s.P)) s

/-- STA: the operand word <- A (R150). -/
def execSta (m : MemRef) (s : State) : Host.Outcome State Fault Refusal :=
  execute (storeReg .a m) s

/-- STB: the operand word <- B (R151). -/
def execStb (m : MemRef) (s : State) : Host.Outcome State Fault Refusal :=
  execute (storeReg .b m) s

/-- STX: the operand word <- X (R152). -/
def execStx (m : MemRef) (s : State) : Host.Outcome State Fault Refusal :=
  execute (storeReg .x m) s

/-- STY: the operand word <- Y (R153). -/
def execSty (m : MemRef) (s : State) : Host.Outcome State Fault Refusal :=
  execute (storeReg .y m) s

/-- XM: A and the operand word are exchanged in one memory cycle (R155). -/
def execXm (m : MemRef) (s : State) : Host.Outcome State Fault Refusal :=
  execute (fun s => (eaWord m s).bind fun ea s => (resolve s.relocated ea s).bind fun pa s =>
    (exchangeA pa s).bind fun _ s => finish s) s

/-- XR: R[rs] and R[rd] are exchanged (R156). -/
def execXr (rs : Reg) (rd : Reg) (s : State) : Host.Outcome State Fault Refusal :=
  execute (fun s => finish ((s.setReg rd (s.reg rs)).setReg rs (s.reg rd))) s

end Sys2Proof.Machine
end

