-- ==== Sys2Proof/Machine/Arith.lean ====
section
/-! DEFINITION. Integer arithmetic and comparison (41_arithmetic_compare.md). -/

namespace Sys2Proof.Machine

/-- `R[r] <- AddFlags(R[r], b)` (R170). -/
def addTo (r : Reg) (b : Word) (s : State) : State :=
  (s.setReg r (s.reg r + b)).setVC (addFlags (s.reg r) b).1 (addFlags (s.reg r) b).2

/-- `R[r] <- SubFlags(R[r], b)` (R171). -/
def subFrom (r : Reg) (b : Word) (s : State) : State :=
  (s.setReg r (s.reg r - b)).setVC (subFlags (s.reg r) b).1 (subFlags (s.reg r) b).2

/-- `CompareFlags(x, y)` into V and Cf (R172). -/
def compare (x y : Word) (s : State) : State := s.setVC (compareFlags x y).1 (compareFlags x y).2

/-- The product of two signed words on 32 bits (R181). -/
def product (a b : Word) : BitVec 32 := BitVec.ofInt 32 (s16 a * s16 b)

/-- The quotient of a division, towards zero, when it can be expressed (R182). -/
def quotient (n : Int) (d : Int) : Option Int :=
  if d = 0 then none
  else if -32768 ≤ n.tdiv d ∧ n.tdiv d ≤ 32767 then some (n.tdiv d) else none

/-- DV on the operand word d (R182): the quotient in A and the remainder in B, or V = 1 and free values in both (U2). -/
def divide (d : Word) (s : State) : State :=
  match quotient s.ab.toInt (s16 d) with
  | some q => ((s.setReg .a (u16 q)).setReg .b (u16 (s.ab.toInt - q * s16 d))).setVC false false
  | none =>
    let (a, s) := s.fresh
    let (b, s) := s.fresh
    ((s.setReg .a a).setReg .b b).setVC true false

/-- AD: A <- A + the operand word (R173). -/
def execAd (m : MemRef) (s : State) : Host.Outcome State Fault Refusal :=
  execute (fun s => (readOperand m s).bind fun v s => finish (addTo .a v s)) s

/-- ADRI: R[r] <- R[r] + the 8-bit immediate (R174). -/
def execAdri (r : Reg) (n : Byte) (s : State) : Host.Outcome State Fault Refusal :=
  execute (fun s => finish (addTo r (sext8 n) s)) s

/-- ADR: R[rd] <- R[rd] + R[rs] (R175). -/
def execAdr (rs : Reg) (rd : Reg) (s : State) : Host.Outcome State Fault Refusal :=
  execute (fun s => finish (addTo rd (s.reg rs) s)) s

/-- ADCR: R[rd] <- R[rd] + Cf (R176). -/
def execAdcr (rd : Reg) (s : State) : Host.Outcome State Fault Refusal :=
  execute (fun s => finish (addTo rd (ofBit s.st.Cf) s)) s

/-- SB: A <- A - the operand word (R177). -/
def execSb (m : MemRef) (s : State) : Host.Outcome State Fault Refusal :=
  execute (fun s => (readOperand m s).bind fun v s => finish (subFrom .a v s)) s

/-- SBR: R[rd] <- R[rd] - R[rs] (R178). -/
def execSbr (rs : Reg) (rd : Reg) (s : State) : Host.Outcome State Fault Refusal :=
  execute (fun s => finish (subFrom rd (s.reg rs) s)) s

/-- SBCR: R[rd] <- R[rd] - Cf (R179). -/
def execSbcr (rd : Reg) (s : State) : Host.Outcome State Fault Refusal :=
  execute (fun s => finish (subFrom rd (ofBit s.st.Cf) s)) s

/-- NGR: R[rd] <- -R[rs] (R180). -/
def execNgr (rs : Reg) (rd : Reg) (s : State) : Host.Outcome State Fault Refusal :=
  execute (fun s => finish ((s.setReg rd (0#16 - s.reg rs)).setVC (negFlags (s.reg rs)).1 (negFlags (s.reg rs)).2)) s

/-- MP: A::B <- A times the operand word (R181). -/
def execMp (m : MemRef) (s : State) : Host.Outcome State Fault Refusal :=
  execute (fun s => (readOperand m s).bind fun v s => finish ((s.setAB (product s.r.A v)).setVC false false)) s

/-- DV: A::B divided by the operand word (R182). -/
def execDv (m : MemRef) (s : State) : Host.Outcome State Fault Refusal :=
  execute (fun s => (readOperand m s).bind fun v s => finish (divide v s)) s

/-- CP: A is compared with the operand word (R183). -/
def execCp (m : MemRef) (s : State) : Host.Outcome State Fault Refusal :=
  execute (fun s => (readOperand m s).bind fun v s => finish (compare s.r.A v s)) s

/-- CPI: A is compared with the immediate (R184). -/
def execCpi (n : Imm9) (s : State) : Host.Outcome State Fault Refusal :=
  execute (fun s => finish (compare s.r.A (immValue n) s)) s

/-- CPR: R[rd], the first term, is compared with R[rs] (R185). -/
def execCpr (rs : Reg) (rd : Reg) (s : State) : Host.Outcome State Fault Refusal :=
  execute (fun s => finish (compare (s.reg rd) (s.reg rs) s)) s

/-- CPZR: R[rd] is compared with zero (R186). -/
def execCpzr (rd : Reg) (s : State) : Host.Outcome State Fault Refusal :=
  execute (fun s => finish (compare (s.reg rd) 0#16 s)) s

/-- CPZ: the operand word is compared with zero (R187). -/
def execCpz (m : MemRef) (s : State) : Host.Outcome State Fault Refusal :=
  execute (fun s => (readOperand m s).bind fun v s => finish (compare v 0#16 s)) s

end Sys2Proof.Machine
end

