-- ==== Sys2Proof/Machine/Logic.lean ====
section
/-! DEFINITION. Logical operations, shifts and bit operations on registers (42_logic_shift_bit.md). -/

namespace Sys2Proof.Machine

/-- A logical operation of A with the operand word. -/
def logicMem (op : Word → Word → Word) (m : MemRef) (s : State) : Res Unit :=
  (readOperand m s).bind fun v s => finish (s.setReg .a (op s.r.A v))

/-- A logical operation of A with the immediate. -/
def logicImm (op : Word → Word → Word) (n : Imm9) (s : State) : Res Unit := finish (s.setReg .a (op s.r.A (immValue n)))

/-- A logical operation of R[rd] with R[rs]. -/
def logicReg (op : Word → Word → Word) (rs rd : Reg) (s : State) : Res Unit :=
  finish (s.setReg rd (op (s.reg rd) (s.reg rs)))

/-- A shift of A: V <- 0, Cf <- the last bit out (R211, R212). -/
def shiftSingle (op : Word → Nat → Word × Bool) (c : Count) (s : State) : Res Unit :=
  finish ((s.setReg .a (op s.r.A (s.count c)).1).setVC false (op s.r.A (s.count c)).2)

/-- A shift of A::B (R211, R212). -/
def shiftDouble (op : BitVec 32 → Nat → BitVec 32 × Bool) (c : Count) (s : State) : Res Unit :=
  finish ((s.setAB (op s.ab (s.count c)).1).setVC false (op s.ab (s.count c)).2)

/-- Rank of the leftmost 1 bit of a pair that is not zero. -/
def leftmostPair (d : BitVec 32) : Nat := 31 - d.toNat.log2

/-- AND: A <- A & the operand word (R200). -/
def execAnd (m : MemRef) (s : State) : Host.Outcome State Fault Refusal :=
  execute (logicMem (· &&& ·) m) s

/-- ANDI: A <- A & the immediate (R201). -/
def execAndi (n : Imm9) (s : State) : Host.Outcome State Fault Refusal :=
  execute (logicImm (· &&& ·) n) s

/-- ANDR: R[rd] <- R[rd] & R[rs] (R202). -/
def execAndr (rs : Reg) (rd : Reg) (s : State) : Host.Outcome State Fault Refusal :=
  execute (logicReg (· &&& ·) rs rd) s

/-- OR: A <- A | the operand word (R203). -/
def execOr (m : MemRef) (s : State) : Host.Outcome State Fault Refusal :=
  execute (logicMem (· ||| ·) m) s

/-- ORI: A <- A | the immediate (R204). -/
def execOri (n : Imm9) (s : State) : Host.Outcome State Fault Refusal :=
  execute (logicImm (· ||| ·) n) s

/-- ORR: R[rd] <- R[rd] | R[rs] (R205). -/
def execOrr (rs : Reg) (rd : Reg) (s : State) : Host.Outcome State Fault Refusal :=
  execute (logicReg (· ||| ·) rs rd) s

/-- EOR: A <- A exclusive-or the operand word (R206). -/
def execEor (m : MemRef) (s : State) : Host.Outcome State Fault Refusal :=
  execute (logicMem (· ^^^ ·) m) s

/-- EORI: A <- A exclusive-or the immediate (R207). -/
def execEori (n : Imm9) (s : State) : Host.Outcome State Fault Refusal :=
  execute (logicImm (· ^^^ ·) n) s

/-- EORR: R[rd] <- R[rd] exclusive-or R[rs] (R208). -/
def execEorr (rs : Reg) (rd : Reg) (s : State) : Host.Outcome State Fault Refusal :=
  execute (logicReg (· ^^^ ·) rs rd) s

/-- CLSR: R[rd] <- R[rd] & ~R[rs] (R209). -/
def execClsr (rs : Reg) (rd : Reg) (s : State) : Host.Outcome State Fault Refusal :=
  execute (logicReg (fun d v => d &&& ~~~ v) rs rd) s

/-- CMR: R[rd] <- ~R[rs] (R210). -/
def execCmr (rs : Reg) (rd : Reg) (s : State) : Host.Outcome State Fault Refusal :=
  execute (fun s => finish (s.setReg rd (~~~ s.reg rs))) s

/-- SLRS: shift logical right single (R215). -/
def execSlrs (c : Count) (s : State) : Host.Outcome State Fault Refusal :=
  execute (shiftSingle shiftSlrs c) s

/-- SLRD: shift logical right double (R216). -/
def execSlrd (c : Count) (s : State) : Host.Outcome State Fault Refusal :=
  execute (shiftDouble shiftSlrd c) s

/-- SLLS: shift logical left single (R217). -/
def execSlls (c : Count) (s : State) : Host.Outcome State Fault Refusal :=
  execute (shiftSingle shiftSlls c) s

/-- SLLD: shift logical left double (R218). -/
def execSlld (c : Count) (s : State) : Host.Outcome State Fault Refusal :=
  execute (shiftDouble shiftSlld c) s

/-- SCRS: shift circular right single (R219). -/
def execScrs (c : Count) (s : State) : Host.Outcome State Fault Refusal :=
  execute (shiftSingle shiftScrs c) s

/-- SCRD: shift circular right double (R220). -/
def execScrd (c : Count) (s : State) : Host.Outcome State Fault Refusal :=
  execute (shiftDouble shiftScrd c) s

/-- SCLS: shift circular left single (R221). -/
def execScls (c : Count) (s : State) : Host.Outcome State Fault Refusal :=
  execute (shiftSingle shiftScls c) s

/-- SCLD: shift circular left double (R222). -/
def execScld (c : Count) (s : State) : Host.Outcome State Fault Refusal :=
  execute (shiftDouble shiftScld c) s

/-- SARS: shift arithmetic right single (R223). -/
def execSars (c : Count) (s : State) : Host.Outcome State Fault Refusal :=
  execute (shiftSingle shiftSars c) s

/-- SARD: shift arithmetic right double (R224). -/
def execSard (c : Count) (s : State) : Host.Outcome State Fault Refusal :=
  execute (shiftDouble shiftSard c) s

/-- RBT: bit k of A::B <- 0 (R225). -/
def execRbt (c : Count) (s : State) : Host.Outcome State Fault Refusal :=
  execute (fun s => finish (s.setAB (s.ab &&& ~~~ pairMask (s.count c)))) s

/-- SBT: bit k of A::B <- 1 (R226). -/
def execSbt (c : Count) (s : State) : Host.Outcome State Fault Refusal :=
  execute (fun s => finish (s.setAB (s.ab ||| pairMask (s.count c)))) s

/-- IBT: bit k of A::B is inverted (R227). -/
def execIbt (c : Count) (s : State) : Host.Outcome State Fault Refusal :=
  execute (fun s => finish (s.setAB (s.ab ^^^ pairMask (s.count c)))) s

/-- TBT: Cf <- bit k of A::B (R228). -/
def execTbt (c : Count) (s : State) : Host.Outcome State Fault Refusal :=
  execute (fun s => finish (s.setVC false (pairBit s.ab (s.count c)))) s

/-- DBT: X <- the rank of the leftmost 1 bit of A::B, or Cf = 1 (R229). -/
def execDbt (s : State) : Host.Outcome State Fault Refusal :=
  execute (fun s => finish (if s.ab = 0#32 then s.setVC false true
    else (s.setReg .x (BitVec.ofNat 16 (leftmostPair s.ab))).setVC false false)) s

end Sys2Proof.Machine
end

