-- ==== Sys2Proof/Machine/ByteMisc.lean ====
section
/-! DEFINITION. Byte operations, one-word memory operations, stacks, block move and miscellaneous instructions
(43_byte_misc.md). -/

namespace Sys2Proof.Machine

/-- Presence of PUSH, PULL and SBS (R244, R254, R255): alarm 3 where they are absent. -/
def pushPullCheck (s : State) : Res Unit := if s.cfg.hasPushPullSbs then .ok () s else .alarm .absentOption s

/-- IC and DC (R247, R248): the word changes by d and is compared with zero. -/
def stepWord (d : Word) (m : MemRef) (s : State) : Res Unit :=
  (eaWord m s).bind fun ea s =>
  (memRead ea s).bind fun v s =>
  (memWrite ea (v + d) s).bind fun _ s => finish (compare (v + d) 0#16 s)

/-- The byte of rank X of the string at B (R244). -/
def sbsByte (s : State) : Res Byte := byteRead (s.r.B + half s.r.X) (bit s.r.X 15) s

/-- SBS after its checks (R244): one comparison; X moves to the next byte, and the instruction pauses while bytes are left. -/
def searchByte (s : State) : Res Unit :=
  if s16 s.r.X ≥ s16 s.r.Y then finish (s.setVC false true)
  else if s16 s.r.X < 0 then .refuse .sbsNegativeRank
  else
    (sbsByte s).bind fun b s =>
    if s.r.A = zext8 b then finish (s.setVC false false)
    else if s16 (s.r.X + 1#16) < s16 s.r.Y then .ok () (s.setReg .x (s.r.X + 1#16)).pause
    else finish ((s.setReg .x (s.r.X + 1#16)).setVC false true)

/-- PSR of the listed registers (R251): each store at K + 1, then K + 1. -/
def pushRegs : List Reg → State → Res Unit
  | [], s => .ok () s
  | r :: rest, s =>
    (stackWrite (s.r.K + 1#16) (s.reg r) s).bind fun _ s => pushRegs rest (s.setReg .k (s.r.K + 1#16))

/-- PLR of the listed registers (R252): K - 1, then the load from K + 1. -/
def pullRegs : List Reg → State → Res Unit
  | [], s => .ok () s
  | r :: rest, s =>
    let s := s.setReg .k (s.r.K - 1#16)
    (stackRead (s.r.K + 1#16) s).bind fun v s => pullRegs rest (s.setReg r v)

/-- LRM of the listed registers (R253) from the words at `a` on; P moves past the last one. -/
def loadInline : Word → List Reg → State → Res Unit
  | a, [], s => .ok () { s with P := a }
  | a, r :: rest, s => (memRead a s).bind fun v s => loadInline (a + 1#16) rest (s.setReg r v)

/-- PUSH after its check (R254); `h` is the header N :: n. -/
def pushOn (h : Word) (s : State) : Res Unit :=
  if (lo h).toNat ≥ (hi h).toNat then finish (s.setVC true false)
  else
    (memWrite s.r.Y (ofBytes (hi h) (lo h + 1#8)) s).bind fun _ s =>
    (memWrite (s.r.Y + zext8 (lo h + 1#8)) s.r.A s).bind fun _ s =>
    finish (s.setVC false (lo h + 1#8 = hi h))

/-- PULL after its check (R255). -/
def pullFrom (h : Word) (s : State) : Res Unit :=
  if lo h = 0#8 then finish (s.setVC true false)
  else
    (memRead (s.r.Y + zext8 (lo h)) s).bind fun v s =>
    (memWrite (s.setReg .a v).r.Y (ofBytes (hi h) (lo h - 1#8)) (s.setReg .a v)).bind fun _ s =>
    finish (s.setVC false (lo h - 1#8 = 0#8))

/-- One slice of a block move by decreasing addresses (R256; 45_system.md R326, 48_cda_lists.md R401, 49_isp16.md R420): with
x1 = X - 1, nothing is left when x1 is negative; else word x1 moves by `move`, X <- x1, and an interruption point follows, after
the last word too (70_reset_and_hazards.md R556). `len` is the length of the instruction. -/
def blockMove (len : Nat) (move : Word → State → Res Unit) (s : State) : Res Unit :=
  if bit (s.r.X - 1#16) 0 then .ok () (s.advance len)
  else (move (s.r.X - 1#16) s).bind fun _ s => .ok () (s.setReg .x (s.r.X - 1#16)).pause

/-- The transfer of MOVE (R256). -/
def moveWord (i : Word) (s : State) : Res Unit :=
  (memRead (s.r.A + i) s).bind fun v s => memWrite (s.r.B + i) v s

/-- LBY: A <- the addressed byte (R240). -/
def execLby (m : MemRef) (s : State) : Host.Outcome State Fault Refusal :=
  execute (fun s => (eaByte m s).bind fun p s => (byteRead p.1 p.2 s).bind fun b s =>
    finish (s.setReg .a (zext8 b))) s

/-- STBY: the addressed byte <- the right byte of A (R241). -/
def execStby (m : MemRef) (s : State) : Host.Outcome State Fault Refusal :=
  execute (fun s => (eaByte m s).bind fun p s => (byteWrite p.1 p.2 (lo s.r.A) s).bind fun _ s =>
    finish s) s

/-- CPBY: A is compared with the addressed byte (R242). -/
def execCpby (m : MemRef) (s : State) : Host.Outcome State Fault Refusal :=
  execute (fun s => (eaByte m s).bind fun p s => (byteRead p.1 p.2 s).bind fun b s =>
    finish (compare s.r.A (zext8 b) s)) s

/-- SWBR: R[rd] <- R[rs] with its bytes exchanged (R243). -/
def execSwbr (rs : Reg) (rd : Reg) (s : State) : Host.Outcome State Fault Refusal :=
  execute (fun s => finish (s.setReg rd (ofBytes (lo (s.reg rs)) (hi (s.reg rs))))) s

/-- SBS: the search of a byte in a string, one comparison an execution (R244). -/
def execSbs (s : State) : Host.Outcome State Fault Refusal :=
  execute (fun s => (pushPullCheck s).bind fun _ s => searchByte s) s

/-- PTY: Cf <- the parity of the right byte of A (R245). -/
def execPty (s : State) : Host.Outcome State Fault Refusal :=
  execute (fun s => finish (s.setVC false (oddParity (lo s.r.A)))) s

/-- STZ: the operand word <- 0 (R246). -/
def execStz (m : MemRef) (s : State) : Host.Outcome State Fault Refusal :=
  execute (fun s => (writeOperand m (fun _ => 0#16) s).bind fun _ s => finish s) s

/-- IC: the operand word is increased by 1 (R247). -/
def execIc (m : MemRef) (s : State) : Host.Outcome State Fault Refusal :=
  execute (stepWord 1#16 m) s

/-- DC: the operand word is decreased by 1 (R248). -/
def execDc (m : MemRef) (s : State) : Host.Outcome State Fault Refusal :=
  execute (stepWord 0xFFFF#16 m) s

/-- LAD: A <- the effective address (R249). -/
def execLad (m : MemRef) (s : State) : Host.Outcome State Fault Refusal :=
  execute (fun s => (eaWord m s).bind fun ea s => finish (s.setReg .a ea)) s

/-- ADRP: P <- P0 + R[rs] (R250). -/
def execAdrp (rs : Reg) (s : State) : Host.Outcome State Fault Refusal :=
  execute (fun s => .ok () { s with P := s.P + s.reg rs }) s

/-- PSR: the selected registers are pushed on the K stack (R251). -/
def execPsr (mask : Byte) (s : State) : Host.Outcome State Fault Refusal :=
  execute (fun s => (pushRegs (selectedRegs mask) s).bind fun _ s => finish s) s

/-- PLR: the selected registers are pulled from the K stack (R252). -/
def execPlr (mask : Byte) (s : State) : Host.Outcome State Fault Refusal :=
  execute (fun s => (pullRegs (selectedRegs mask).reverse s).bind fun _ s => finish s) s

/-- LRM: the selected registers <- the words after the instruction (R253). -/
def execLrm (mask : Byte) (s : State) : Host.Outcome State Fault Refusal :=
  execute (fun s => loadInline (s.P + 1#16) (selectedRegs mask) s) s

/-- PUSH: A is pushed on the stack at Y (R254). -/
def execPush (s : State) : Host.Outcome State Fault Refusal :=
  execute (fun s => (pushPullCheck s).bind fun _ s => (memRead s.r.Y s).bind pushOn) s

/-- PULL: A is pulled from the stack at Y (R255). -/
def execPull (s : State) : Host.Outcome State Fault Refusal :=
  execute (fun s => (pushPullCheck s).bind fun _ s => (memRead s.r.Y s).bind pullFrom) s

/-- MOVE: a block of words, one word an execution (R256). -/
def execMove (s : State) : Host.Outcome State Fault Refusal :=
  execute (blockMove 1 moveWord) s

/-- SCY: Cf <- 1, V unchanged (R258). -/
def execScy (s : State) : Host.Outcome State Fault Refusal :=
  execute (fun s => finish (s.setVC s.st.V true)) s

/-- NOP (R259). -/
def execNop (s : State) : Host.Outcome State Fault Refusal :=
  execute finish s

end Sys2Proof.Machine
end

