-- ==== Sys2Proof/Machine/Branch.lean ====
section
/-! DEFINITION. Branches, jumps, subroutines, the supervisor call and its simulation for an absent extension
(44_branch.md, 30_encoding.md R118). -/

namespace Sys2Proof.Machine

/-- A jump relative to P when the condition holds, else the next instruction (44_branch.md R280). -/
def jumpIf (cond : Bool) (d : Byte) (s : State) : Res Unit :=
  if cond then .ok () { s with P := s.target d } else finish s

/-- The end of SVC (R276): P <- the vector of the caller's mode. In slave or privileged mode MS and SVCS are set first. A
04/05 has the master branch only. -/
def enterSupervisor (s : State) : Res Unit :=
  if s.st.MS || s.cfg.is0405 then (physRead 0x0004#16 s).bind fun p s => .ok () { s with P := p }
  else
    (physRead (if s.cfg.hasPrivMode && s.st.PR then 0x001F#16 else 0x0005#16)
      { s with st := { s.st with MS := true, SVCS := true } }).bind fun p s => .ok () { s with P := p }

/-- The effect of SVC n with the given return address (R276): X <- n, the return address is pushed, P <- the vector. -/
def supervisorCall (n : Byte) (ret : Word) (s : State) : Res Unit :=
  (push ret (s.setReg .x (zext8 n))).bind fun _ s => enterSupervisor s

/-- `AbsentExtension(n)` (30_encoding.md R118): X is pushed, then SVC n with the address after two words. -/
def absentExtension (n : Byte) (s : State) : Res Unit :=
  (push s.r.X s).bind fun _ s => supervisorCall n (s.P + 2#16) s

/-- BR: P <- the operand word (R270). -/
def execBr (m : MemRef) (s : State) : Host.Outcome State Fault Refusal :=
  execute (fun s => (readOperand m s).bind fun v s => .ok () { s with P := v }) s

/-- JMP (R271). -/
def execJmp (d : Byte) (s : State) : Host.Outcome State Fault Refusal :=
  execute (jumpIf true d) s

/-- BSR: the return address is pushed, P <- the operand word (R273). -/
def execBsr (m : MemRef) (s : State) : Host.Outcome State Fault Refusal :=
  execute (fun s => (eaWord m s).bind fun ea s => (push (s.P + 1#16) s).bind fun _ s =>
    (memRead ea s).bind fun v s => .ok () { s with P := v }) s

/-- RSR: P is pulled from the K stack (R274). -/
def execRsr (s : State) : Host.Outcome State Fault Refusal :=
  execute (fun s => (stackRead s.r.K s).bind fun v s =>
    .ok () { s.setReg .k (s.r.K - 1#16) with P := v }) s

/-- SVC: the supervisor call (R276). -/
def execSvc (n : Byte) (s : State) : Host.Outcome State Fault Refusal :=
  execute (fun s => supervisorCall n (s.P + 1#16) s) s

/-- RSV: the return from the supervisor; alarm 3 on a 04/05 (R277). -/
def execRsv (s : State) : Host.Outcome State Fault Refusal :=
  execute (fun s => if s.cfg.is0405 then .alarm .absentOption s
    else (stackRead s.r.K s).bind fun v s =>
      .ok () { s.setReg .k (s.r.K - 1#16) with P := v, st := { s.st with MS := false, SVCS := false } }) s

/-- JIX: X <- X + 1, jump when negative (R278). -/
def execJix (d : Byte) (s : State) : Host.Outcome State Fault Refusal :=
  execute (fun s => jumpIf (decide (s16 (s.r.X + 1#16) < 0)) d (s.setReg .x (s.r.X + 1#16))) s

/-- JDX: X <- X - 1, jump when positive (R279). -/
def execJdx (d : Byte) (s : State) : Host.Outcome State Fault Refusal :=
  execute (fun s => jumpIf (decide (s16 (s.r.X - 1#16) > 0)) d (s.setReg .x (s.r.X - 1#16))) s

/-- JNC: jump when Cf = 0 (R281). -/
def execJnc (d : Byte) (s : State) : Host.Outcome State Fault Refusal :=
  execute (fun s => jumpIf (!s.st.Cf) d s) s

/-- JNV: jump when V = 0 (R282). -/
def execJnv (d : Byte) (s : State) : Host.Outcome State Fault Refusal :=
  execute (fun s => jumpIf (!s.st.V) d s) s

/-- JNCV: jump when Cf = 0 and V = 0 (R283). -/
def execJncv (d : Byte) (s : State) : Host.Outcome State Fault Refusal :=
  execute (fun s => jumpIf (!s.st.Cf && !s.st.V) d s) s

/-- JC: jump when Cf = 1 (R284). -/
def execJc (d : Byte) (s : State) : Host.Outcome State Fault Refusal :=
  execute (fun s => jumpIf (s.st.Cf) d s) s

/-- JV: jump when V = 1 (R285). -/
def execJv (d : Byte) (s : State) : Host.Outcome State Fault Refusal :=
  execute (fun s => jumpIf (s.st.V) d s) s

/-- JCV: jump when Cf = 1 or V = 1 (R286). -/
def execJcv (d : Byte) (s : State) : Host.Outcome State Fault Refusal :=
  execute (fun s => jumpIf (s.st.Cf || s.st.V) d s) s

/-- JAGE: jump when A ≥ 0 (R287). -/
def execJage (d : Byte) (s : State) : Host.Outcome State Fault Refusal :=
  execute (fun s => jumpIf (decide (s16 s.r.A ≥ 0)) d s) s

/-- JANE: jump when A ≠ 0 (R288). -/
def execJane (d : Byte) (s : State) : Host.Outcome State Fault Refusal :=
  execute (fun s => jumpIf (decide (s.r.A ≠ 0#16)) d s) s

/-- JAG: jump when A > 0 (R289). -/
def execJag (d : Byte) (s : State) : Host.Outcome State Fault Refusal :=
  execute (fun s => jumpIf (decide (s16 s.r.A > 0)) d s) s

/-- JAL: jump when A < 0 (R290). -/
def execJal (d : Byte) (s : State) : Host.Outcome State Fault Refusal :=
  execute (fun s => jumpIf (decide (s16 s.r.A < 0)) d s) s

/-- JAE: jump when A = 0 (R291). -/
def execJae (d : Byte) (s : State) : Host.Outcome State Fault Refusal :=
  execute (fun s => jumpIf (decide (s.r.A = 0#16)) d s) s

/-- JALE: jump when A ≤ 0 (R292). -/
def execJale (d : Byte) (s : State) : Host.Outcome State Fault Refusal :=
  execute (fun s => jumpIf (decide (s16 s.r.A ≤ 0)) d s) s

end Sys2Proof.Machine
end

