-- ==== Sys2Proof/Machine/AbsentFamilies.lean ====
section
/-! DEFINITION. The option families whose instructions the manual does not describe (30_encoding.md R113, R118): always
absent, each execution simulates SVC n. -/

namespace Sys2Proof.Machine

/-- A word of first byte '39: SVC 1 (30_encoding.md R118). -/
def execDap16 (_sub : Byte) (_w2 : Word) (s : State) : Host.Outcome State Fault Refusal :=
  execute (absentExtension 1#8) s

/-- A word of first byte '3A: SVC 2 (30_encoding.md R118). -/
def execVss16 (_sub : Byte) (_w2 : Word) (s : State) : Host.Outcome State Fault Refusal :=
  execute (absentExtension 2#8) s

/-- A word of first byte '3D: SVC 5 (30_encoding.md R118). -/
def execFfm16 (_sub : Byte) (_w2 : Word) (s : State) : Host.Outcome State Fault Refusal :=
  execute (absentExtension 5#8) s

end Sys2Proof.Machine
end

