-- ==== Sys2Proof/Machine/Channels.lean ====
section
/-! DEFINITION. Couplers, integrated channels, and the service of the inter-processor interrupt (61_io_debug.md sections 1, 2,
4, 45_system.md R303). -/

namespace Sys2Proof.Machine

/-! Couplers. -/

/-- The coupler that answers a key, if any (R511, R517). A coupler has one key, so that no two keys reach the same one (DESIGN
CHOICE, log 40). -/
def State.coupler? (s : State) (key : BitVec 14) : Option Coupler := s.couplers.find? fun d => d.key = key

/-- Puts a coupler in the place of the one with its key, or adds it. -/
def putCoupler (d : Coupler) : List Coupler → List Coupler
  | [] => [d]
  | e :: l => if e.key = d.key then d :: l else e :: putCoupler d l

/-- Changes the coupler with a key, if any. -/
def State.updateCoupler (s : State) (key : BitVec 14) (f : Coupler → Coupler) : State :=
  match s.coupler? key with
  | some d => { s with couplers := putCoupler (f d) s.couplers }
  | none => s

/-- The useful part of a word exchanged with a coupler: the right byte on a byte device (R513). -/
def Coupler.useful (d : Coupler) (v : Word) : Word := if d.isByte then zext8 (lo v) else v

/-- What an input register delivers; an absent register delivers 0 (R517). -/
def Coupler.delivers (d : Coupler) (register : Option Word) : Word :=
  match register with
  | some v => d.useful v
  | none => 0#16

/-- The operations of an SIO operand (R511). -/
inductive SioOp where
  | dataIn | dataOut | statusIn | commandOut
deriving DecidableEq, Repr

/-- `SIODecode(w)`: the operation of bits 14 and 15, the key of bits 0-13 (R511). -/
def sioDecode (w : Word) : SioOp × BitVec 14 :=
  (match (w.extractLsb' 0 2).toNat with
   | 0 => .dataIn
   | 1 => .dataOut
   | 2 => .statusIn
   | _ => .commandOut, w.extractLsb' 2 14)

/-- A coupler after a transfer with a data register: the normal request is acknowledged, unless the register does not exist
(R512, R517; that a read of an absent register acknowledges nothing is a DESIGN CHOICE, log 40). -/
def Coupler.served (d : Coupler) (register : Option Word) : Coupler :=
  { d with normalPending := if register.isSome then none else d.normalPending }

/-- `d.read(DataIn)`: it acknowledges the normal request (R512, R516). An absent device or register gives 0 (R517). -/
def readData (key : BitVec 14) (s : State) : Word × State :=
  match s.coupler? key with
  | some d => (d.delivers d.dataIn, s.updateCoupler key fun d => d.served d.dataIn)
  | none => (0#16, s)

/-- `d.read(StatusIn)`: it acknowledges the exception request, unless the register does not exist (R512, R516, R517; log 40).
A status word is read whole. -/
def readStatus (key : BitVec 14) (s : State) : Word × State :=
  match s.coupler? key with
  | some d =>
    (d.statusIn.getD 0#16, s.updateCoupler key fun d =>
      { d with exceptionPending := if d.statusIn.isSome then none else d.exceptionPending })
  | none => (0#16, s)

/-- `d.write(DataOut, v)`: it acknowledges the normal request (R512, R516); it does nothing where the coupler lacks the register
(R517). -/
def writeData (key : BitVec 14) (v : Word) (s : State) : State :=
  s.updateCoupler key fun d => { d.served d.dataOut with dataOut := d.dataOut.map fun _ => d.useful v }

/-- `d.write(CommandOut, v)` (R512, R518): no request is acknowledged. -/
def writeCommand (key : BitVec 14) (v : Word) (s : State) : State :=
  s.updateCoupler key fun d => { d with command := d.command.map fun _ => v }

/-! Channels. -/

/-- The field of `width` bits whose leftmost manual bit is `i` (00_scope.md section 4.2). -/
def fieldAt (w : Word) (i width : Nat) : Nat := w.toNat / 2 ^ (16 - i - width) % 2 ^ width

/-- The fields of CCB0 and CCB1 (R522). -/
structure Ccb where
  dg : Bool
  cs : Bool
  sp : Bool
  dk : Bool
  isByte : Bool
  mae : Nat
  ct : Nat
  itn : Nat
  ccn : Nat
deriving DecidableEq, Repr

/-- `CCB_LAYOUT(CCB0, CCB1)` (R522). R522 gives ITN at most six bits and CCN at most four; the model takes six and four (DESIGN
CHOICE, log 7). -/
def ccbFields (k : CcbLayout) (w0 w1 : Word) : Ccb where
  dg := bit w0 k.dgAt
  cs := bit w0 k.csAt
  sp := bit w0 k.spAt
  dk := bit w0 k.dkAt
  isByte := bit w0 k.byAt
  mae := fieldAt w0 k.maeAt 4
  ct := fieldAt w1 k.ctAt 2
  itn := fieldAt w1 k.itnAt 6
  ccn := fieldAt w1 k.ccnAt 4

/-- The register set of an HDC exchange, by the tables of R523. On a 40 ITN, "implicit (0 to 1)", is looked at: above 1 the CCB
names no channel (DESIGN CHOICE, log 41). -/
def hdcSet (m : Model) (itn ccn : Nat) : Option Nat :=
  match m with
  | .m04 | .m05 => none
  | .m40 => if itn ≤ 1 then some 0 else none
  | .m65 | .m75 => if itn ≤ 7 && ccn ≤ 1 then some ccn else none
  | .m30 | .m35 | .m70 => if itn ≤ 7 then some 0 else none

/-- The register set of an MDC exchange (R523); on a 40 the sixth one exists when no HDC coupler is connected. -/
def mdcSet (m : Model) (hdc : Bool) (itn ccn : Nat) : Option Nat :=
  match m with
  | .m40 => if itn ≤ (if hdc then 4 else 5) && ccn ≤ (if hdc then 4 else 5) then some ccn else none
  | .m30 | .m35 => if itn ≤ 2 && ccn ≤ 2 then some ccn else none
  | .m04 | .m05 | .m65 | .m70 | .m75 => none

/-- The register set of an LDC exchange: one per call number (R523). -/
def ldcSet (m : Model) (itn : Nat) : Option Nat :=
  match m with
  | .m04 | .m05 => if itn ≤ 15 then some itn else none
  | .m30 | .m35 | .m40 | .m65 | .m70 | .m75 => some itn

/-- `ChannelOf(CT, ITN, CCN)` (R523); CT = 01 names no channel. `hdc` says that an HDC coupler is connected. -/
def channelOf (m : Model) (hdc : Bool) (f : Ccb) : Option (ChannelKind × Nat) :=
  match f.ct with
  | 0 => (ldcSet m f.itn).map fun n => (.ldc, n)
  | 2 => (hdcSet m f.itn f.ccn).map fun n => (.hdc, n)
  | 3 => (mdcSet m hdc f.itn f.ccn).map fun n => (.mdc, n)
  | _ => none

/-- An HDC coupler is connected (R523). -/
def State.hdcConnected (s : State) : Bool := s.couplers.any (·.hdc)

/-- CCB5 of a stop-code exchange (R530): with the scheduler option on a 40; on a 04/05 the operator panel it comes with is taken
as present (DESIGN CHOICE, log 41). -/
def stopCodeEntry (c : Config) : Option Word :=
  match c.model with
  | .m65 | .m75 | .m70 => some 0x07F5#16
  | .m40 => if c.hasSched then some 0x0DC0#16 else none
  | .m30 | .m35 => some 0x0DC0#16
  | .m04 | .m05 => some 0x04DA#16

/-- CCB5 of an extended stop-code exchange (R531). -/
def extendedStopEntry (c : Config) : Option Word :=
  match c.model with
  | .m30 | .m35 => some 0x0AF0#16
  | .m70 => some 0x07EE#16
  | .m04 | .m05 | .m40 | .m65 | .m75 => none

/-- CCB5 of a byte direct memory access (R532). -/
def byteAccessEntry (c : Config) : Option Word :=
  match c.model with
  | .m30 | .m35 => some 0x0DFC#16
  | .m70 => some 0x07EB#16
  | .m04 | .m05 | .m40 | .m65 | .m75 => none

/-- The microprogram a CCB asks for, with the stop code of its CCB3 `w3` (R530, R531; the place of SC in R531 is `CCB_LAYOUT`'s,
log 7); none for an address `w5` the manual does not give for the processor. -/
def microprogramOf (c : Config) (f : Ccb) (w3 w5 : Word) : Option Microprogram :=
  if !f.sp then some .standard
  else if stopCodeEntry c = some w5 then some (.stopCode (hi w3))
  else if extendedStopEntry c = some w5 then some (.extendedStop (BitVec.ofNat 8 (fieldAt w3 c.ccb.scAt 8)))
  else if byteAccessEntry c = some w5 then some .byteAccess
  else none

/-- A channel set on which no exchange was ever started: inactive (D8), its registers 0 (DESIGN CHOICE, log 49). -/
def blankChannel (kind : ChannelKind) (set : Nat) : Channel where
  kind := kind
  set := set
  active := false
  addr := 0#20
  rightNext := false
  crossed := false
  count := 0#16
  da := 0#16
  isByte := false
  dk := false
  sp := false
  ci := 0#16
  itn := 0
  buffered := none
  micro := .standard
  ended := false

/-- The channel with a name; inactive and empty when no exchange was ever started on it. -/
def State.channel (s : State) (kind : ChannelKind) (set : Nat) : Channel :=
  (s.channels.find? fun c => c.kind = kind && c.set = set).getD (blankChannel kind set)

/-- Puts a channel in the place of the one with its name, or adds it. -/
def putChannel (c : Channel) : List Channel → List Channel
  | [] => [c]
  | e :: l => if e.kind = c.kind && e.set = c.set then c :: l else e :: putChannel c l

/-- Stores the registers of a channel. -/
def State.setChannel (s : State) (c : Channel) : State := { s with channels := putChannel c s.channels }

/-- The key of the coupler a channel serves: bits 0-13 of DA (R522). -/
def Channel.coupler (c : Channel) : BitVec 14 := (sioDecode c.da).2

/-- The count a started channel holds: CCB3, its right byte on a stop-code exchange (R530); the two other microprograms have no
count to exhaust (R531, R532). -/
def Microprogram.count (k : Microprogram) (w3 : Word) : Word :=
  match k with
  | .standard => w3
  | .stopCode _ => zext8 (lo w3)
  | .extendedStop _ | .byteAccess => 0#16

/-- The channel a CCB starts (R522, R530 to R532). A special microprogram exchanges bytes whatever the bit BY says (log 41). -/
def startedChannel (m : Model) (f : Ccb) (name : ChannelKind × Nat) (k : Microprogram) (w2 w3 w4 w5 : Word) : Channel where
  kind := name.1
  set := name.2
  active := true
  addr := BitVec.ofNat 4 (match m with | .m04 | .m05 => 0 | .m30 | .m35 | .m40 | .m65 | .m70 | .m75 => f.mae) ++ w2
  rightNext := false
  crossed := false
  count := k.count w3
  da := w4
  isByte := f.isByte || f.sp
  dk := f.dk
  sp := f.sp
  ci := w5
  itn := f.itn
  buffered := none
  micro := k
  ended := false

/-- How many words the buffer of an exchange takes, where the CCB says it (R522, R532). -/
def Channel.bufferWords (c : Channel) : Nat :=
  match c.micro with
  | .standard | .stopCode _ => if c.isByte then (c.count.toNat + 1) / 2 else c.count.toNat
  | .extendedStop _ => 0
  | .byteAccess => 32768

/-- `n` words from the absolute address `a` on take free values, where they exist. -/
def scribbleWords : Nat → Word → State → State
  | 0, _, s => s
  | n + 1, a, s =>
    scribbleWords n (a + 1#16) (if s.cfg.exists (absolute a) then s.fresh.2.store (absolute a) s.fresh.1 else s)

/-- The working zone of the LDC of this processor, at the address in word '14 + PROC_ID, holds any values once the LDC has worked
(R527, 20_memory.md R75, R76, U23); not on the 16-70. When the zone is written, and its length, are the model's choices
(log 42). -/
def State.scribbleZone (s : State) (kind : ChannelKind) : State :=
  if kind = .ldc && s.cfg.model ≠ .m70 && s.cfg.procId < 4 then
    scribbleWords s.cfg.ldcZoneWords (readWord s.mem (absolute (0x0014#16 + BitVec.ofNat 16 s.cfg.procId))) s
  else s

/-- The start of an exchange (R522). A buffer that crosses a physical 64K boundary is outside the model (U22). -/
def startChannel (c : Channel) (s : State) : Res Unit :=
  if (c.addr.extractLsb' 0 16).toNat + c.bufferWords > 65536 then .refuse .channelBufferCrosses64K
  else .ok () (((s.setChannel c).updateCoupler c.coupler fun d => { d with toChannel := true }).scribbleZone c.kind)

/-- The address after one datum: the next byte of the word, or the next word, on the 16 low bits (R522). -/
def Channel.advanced (c : Channel) : Channel :=
  if c.isByte && !c.rightNext then { c with rightNext := true }
  else
    { c with
      rightNext := false
      crossed := c.crossed || c.addr.extractLsb' 0 16 = 0xFFFF#16
      addr := (c.addr.extractLsb' 16 4 ++ (c.addr.extractLsb' 0 16 + 1#16) : BitVec 20) }

/-- The word a channel reads (R524, R529): alarm 0 where none exists, alarm 2 on bad parity outside DEBUG; the value goes on.
The alarm, if any, is answered beside the value. -/
def channelWord (pa : PAddr) (s : State) : Word × Option Alarm × State :=
  if !s.cfg.exists pa then (s.fresh.1, if s.cfg.is0405 then none else some .nonExistentMemory, s.fresh.2)
  else if s.badWord pa && !s.st.DEBUG then (readWord s.mem pa, some .parityError, s)
  else (readWord s.mem pa, none, s)

/-- The store of a datum by a channel (R524, R529, R543): correct parity, no protection; in an exchange of bytes one byte of
the word, with no alarm for a word that was in bad parity (DESIGN CHOICE, log 41). -/
def channelStore (c : Channel) (v : Word) (s : State) : Option Alarm × State :=
  if !s.cfg.exists c.addr then (if s.cfg.is0405 then none else some .nonExistentMemory, s)
  else if c.isByte then (none, s.store c.addr (withByte (readWord s.mem c.addr) c.rightNext (lo v)))
  else (none, s.store c.addr v)

/-- The channel holds a datum back for an address past a physical 64K boundary (U22). -/
def Channel.overruns (c : Channel) : Bool := c.crossed && c.buffered.isSome

/-- The datum the channel holds back is stored (R524, R525). -/
def flushBuffer (c : Channel) (s : State) : Channel × Option Alarm × State :=
  match c.buffered with
  | none => (c, none, s)
  | some u => ({ c.advanced with buffered := none }, channelStore c u s)

/-- What a report leaves in CCB3: the count left, with the stop code in its left byte on a stop-code exchange (R525, R530); the
count exchanged on an extended one (R531); a free value on a byte direct memory access, whose report gives no useful information
(R532). -/
def reportWord (c : Channel) (s : State) : Word × State :=
  match c.micro with
  | .standard | .extendedStop _ => (c.count, s)
  | .stopCode sc => (ofBytes sc (lo c.count), s)
  | .byteAccess => s.fresh

/-- Another active channel serves the coupler of `c`. -/
def State.servedElsewhere (s : State) (c : Channel) : Bool :=
  s.channels.any fun e => e.active && !(e.kind = c.kind && e.set = c.set) && e.coupler = c.coupler

/-- The normal requests of the coupler are no longer served by the channel that is freed (R525): they return to the program (log
41), unless the channel was serving none or another active channel serves them. -/
def State.unrouted (s : State) (c : Channel) : State :=
  if c.active && !s.servedElsewhere c then s.updateCoupler c.coupler fun d => { d with toChannel := false } else s

/-- `ChannelReport(ch, m)` (R525): the last datum is stored, CCB3 is reported, the channel is free and serves its coupler no more.
An alarm met at the store of the datum ends the report there: the datum is lost, CCB3 is not written and the channel is not freed
(DESIGN CHOICE, log 41). -/
def channelReport (c : Channel) (m : Word) (s : State) : Res Unit :=
  if c.overruns then .refuse .channelBufferCrosses64K
  else
    match flushBuffer c s with
    | (c', some n, s') => .alarm n (s'.setChannel c')
    | (c', none, s') =>
      (physWrite (m + 3#16) (reportWord c' s').1 (reportWord c' s').2).bind fun _ s =>
      .ok () (((s.unrouted c').setChannel { c' with active := false }).scribbleZone c'.kind)

/-- `ChannelCommand(m)` (R522); the addresses m + 1 to m + 5 are taken modulo 2^16 (DESIGN CHOICE, log 12). A special microprogram
the manual does not give is outside the model; one that it gives runs on a channel of any kind (DESIGN CHOICE, log 41). -/
def channelCommand (m : Word) (s : State) : Res Unit :=
  (physRead m s).bind fun w0 s =>
  (physRead (m + 1#16) s).bind fun w1 s =>
  (physRead (m + 2#16) s).bind fun w2 s =>
  (physRead (m + 3#16) s).bind fun w3 s =>
  (physRead (m + 4#16) s).bind fun w4 s =>
  (physRead (m + 5#16) s).bind fun w5 s =>
  if w0 = 0x4000#16 then .refuse .powerFailNotice
  else
    let f := ccbFields s.cfg.ccb w0 w1
    match channelOf s.cfg.model s.hdcConnected f with
    | none => .refuse .channelNotPresent
    | some name =>
      if f.cs then channelReport (s.channel name.1 name.2) m s
      else
        match microprogramOf s.cfg f w3 w5 with
        | none => .refuse .channelMicroprogram
        | some k => startChannel (startedChannel s.cfg.model f name k w2 w3 w4 w5) s

/-- The exchange has something left to do: it has not ended, and its count, if it has one, is not exhausted (R524, R530 to
R532). An exchange started with a count of 0 has nothing to do from its start (DESIGN CHOICE, log 41). -/
def Channel.unfinished (c : Channel) : Bool :=
  !c.ended && (match c.micro with
    | .standard | .stopCode _ => c.count ≠ 0#16
    | .extendedStop _ | .byteAccess => true)

/-- The channel may act (R524, D44): active, called by its coupler, no power-fail taken, for an LDC LCM = 0, and its exchange
not finished. -/
def State.channelReady (s : State) (c : Channel) : Bool :=
  c.active && !s.powerFailActive && !(c.kind = .ldc && s.st.LCM) && c.unfinished
    && (s.coupler? c.coupler).any fun d => d.toChannel && d.normalPending.isSome

/-- The count after one datum: down to 0, or up on an extended stop code (R524, R530, R531). -/
def Channel.counted (c : Channel) : Channel :=
  match c.micro with
  | .standard | .stopCode _ => { c with count := c.count - 1#16 }
  | .extendedStop _ => { c with count := c.count + 1#16 }
  | .byteAccess => c

/-- The datum `v` was the last one: the count is null, or `v` is the stop code (R524, R530, R531). `c` is the channel after the
count. -/
def Channel.endsOn (c : Channel) (v : Word) : Bool :=
  match c.micro with
  | .standard => c.count = 0#16
  | .stopCode sc => c.count = 0#16 || lo v = sc
  | .extendedStop sc => lo v = sc
  | .byteAccess => false

/-- The end of a channel step: the datum is counted; after the last one "fin de bloc" is sent and the exchange is over (R524,
R530, R531). -/
def countDatum (c : Channel) (v : Word) (s : State) : State :=
  if c.counted.endsOn v then writeCommand c.coupler s.cfg.endOfBlock (s.setChannel { c.counted with ended := true })
  else s.setChannel c.counted

/-- The input case of `ChannelStep` (R524). -/
def channelInput (c : Channel) (s : State) : Option Alarm × State :=
  let (v, s) := readData c.coupler s
  let (c', alarm, s) := flushBuffer c s
  (alarm, countDatum { c' with buffered := some v } v s)

/-- The datum an output takes from a word: the word, or the next byte (R524). -/
def Channel.takes (c : Channel) (w : Word) : Word := if c.isByte then zext8 (byteOf w c.rightNext) else w

/-- The output case of `ChannelStep` (R524). -/
def channelOutput (c : Channel) (s : State) : Option Alarm × State :=
  let (w, alarm, s) := channelWord c.addr s
  (alarm, countDatum c.advanced 0#16 (writeData c.coupler (c.takes w) s))

/-- The channel as it stands at byte offset `ao` of its buffer of 64K bytes (R532): word AO / 2, the right byte when AO is odd. -/
def Channel.atOffset (c : Channel) (ao : Word) : Channel :=
  { c with addr := c.addr + (ao >>> 1).setWidth 20, rightNext := ao.getLsbD 0 }

/-- One call of a byte direct memory access (R532): the coupler gives the byte offset and the direction. -/
def channelByte (c : Channel) (d : Coupler) (s : State) : Option Alarm × State :=
  let c := c.atOffset d.byteOffset
  if d.dmaOut then
    let (w, alarm, s) := channelWord c.addr s
    (alarm, writeData c.coupler (c.takes w) s)
  else
    let (v, s) := readData c.coupler s
    channelStore c v s

/-- The alarm a channel met is reflected to the alarm task; the channel goes on (R529). An LDC call ends a HALT in progress
(45_system.md R306). -/
def reflectAlarm (kind : ChannelKind) (r : Option Alarm × State) : Res Unit :=
  match r with
  | (none, s) => if kind = .ldc then haltEnds s else .ok () s
  | (some n, s) => raiseOutside n s

/-- What one call of a channel does (R524, R530 to R532): the microprogram, then the direction of DA; the stop-code exchanges are
input exchanges. Functions 10 and 11 of DA are outside the model (U25). -/
def channelServe (c : Channel) (d : Coupler) (s : State) : Res Unit :=
  match c.micro with
  | .byteAccess => reflectAlarm c.kind (channelByte c d s)
  | .stopCode _ | .extendedStop _ => reflectAlarm c.kind (channelInput c s)
  | .standard =>
    match (sioDecode c.da).1 with
    | .dataIn => reflectAlarm c.kind (channelInput c s)
    | .dataOut => reflectAlarm c.kind (channelOutput c s)
    | .statusIn | .commandOut => .refuse .channelControlRead

/-- `ChannelStep(ch)` (R524); nothing happens when the channel has nothing to do. -/
def channelStep (kind : ChannelKind) (set : Nat) (s : State) : Res Unit :=
  let c := s.channel kind set
  match s.coupler? c.coupler with
  | none => .ok () s
  | some d =>
    if !s.channelReady c then .ok () s
    else if c.overruns then .refuse .channelBufferCrosses64K
    else channelServe c d (s.scribbleZone kind)

/-! The inter-processor interrupt. -/

/-- The ABOX2 mechanism of the 65P and 75P (45_system.md R303): true when this processor is to be woken; its word is then
zeroed. The address of the word is taken modulo 2^20 (DESIGN CHOICE, log 12). -/
def serveAbox2 (s : State) : Res Bool :=
  if !s.cfg.hasXmr then .ok false s
  else
    (physRead 0x001E#16 s).bind fun b s =>
    if b = 0#16 then .ok false s
    else
      (readAt (basedEA b (BitVec.ofNat 16 s.cfg.procId)) s).bind fun v s =>
      if v = 0x8000#16 then
        (writeAt (basedEA b (BitVec.ofNat 16 s.cfg.procId)) 0#16 s).bind fun _ s => .ok true s
      else .ok false s

/-- The mailbox at `box` (45_system.md R303): a wake-up answers true, a CCB is executed; the word is then zeroed. -/
def serveBox (box : Word) (s : State) : Res Bool :=
  (physRead box s).bind fun m s =>
  if m = 0#16 then .ok false s
  else
    (physRead m s).bind fun t s =>
    if t = 0x8000#16 then (physWrite box 0#16 s).bind fun _ s => .ok true s
    else (channelCommand m s).bind fun _ s => (physWrite box 0#16 s).bind fun _ s => .ok false s

/-- The mailbox of this processor, in the table at word '000E (45_system.md R303). -/
def serveMailbox (s : State) : Res Bool :=
  (physRead 0x000E#16 s).bind fun base s => serveBox (base + BitVec.ofNat 16 s.cfg.procId) s

/-- `ServeIPI()` (45_system.md R303): a wake-up raises alarm 6, lost in the alarm task (60_exceptions.md R468) and inexistent
on a 04/05. -/
def serveIpi (s : State) : Res Unit :=
  (serveAbox2 { s with ipiRequest := false }).bind fun wake2 s =>
  (serveMailbox s).bind fun wake s =>
  if (wake2 || wake) && !s.inAlarmTask && !s.cfg.is0405 then .alarm .wakeUp s else .ok () s

end Sys2Proof.Machine
end

