-- ==== Sys2Proof/Machine/Scheduler.lean ====
section
/-! DEFINITION. The instructions of the scheduler option MTS16 (47_scheduler.md). Each is one step with the election and the
context switch it triggers (R385). -/

namespace Sys2Proof.Machine

/-- `SchedPrologue` (R383): alarm 3, then 4, then 5, before any other effect. -/
def schedPrologue (privileged deferredOnly : Bool) (s : State) : Res Unit :=
  if !s.cfg.hasSched then .alarm .absentOption s
  else
    (if privileged then privCheck s else .ok () s).bind fun _ s =>
    if deferredOnly && s.inImmediate then .alarm .forbiddenInImmediate s else .ok () s

/-- `SchedEpilogue` (R383): IOM and IPM <- 0, P <- P0 + 1, and the election when a deferred task runs. WSCHED is left with a
free value (R379, U14), but where an alarm cuts the passage, which leaves the word as it was (DESIGN CHOICE, log 44). -/
def schedEpilogue (s : State) : Res Unit :=
  let s := { s.advance 1 with st := { s.st with IOM := false, IPM := false } }
  (if s.inImmediate then .ok () s else reschedule s).bind fun _ s => .ok () s.scribbleWsched

/-- The counter of a semaphore after a change, as a byte; it is read as a signed number (R380 to R382, D31). -/
def counter (w : Word) (d : Byte) : Byte := lo w + d

/-- A bit of a queue at program addresses is set or cleared (R379). -/
def memQSet (q : Word) (n : Nat) (b : Bool) (s : State) : Res Unit :=
  (memRead (stringWord q n) s).bind fun w s => memWrite (stringWord q n) (setBit w (n % 16) b) s

/-- RQST after its checks (R375). -/
def request (m : MemRef) (s : State) : Res Unit :=
  (eaWord m s).bind fun ea s =>
  (memRead ea s).bind fun w s =>
  (memWrite ea (zext8 (counter w 0xFF#8)) s).bind fun _ s =>
  (if (counter w 0xFF#8).toInt < 0 then
    (readNS s).bind fun n s =>
    (memQSet (ea + 1#16) n true s).bind fun _ s => qSet 0x0028#16 n false s
  else .ok () s).bind fun _ s => schedEpilogue s

/-- The leftmost bit at one of the queue at `q` (R376), from word `k` on, `left` words being left; the word is rewritten
without it. -/
def takeWaiter (q : Word) : Nat → Nat → State → Res Nat
  | 0, _, _ => .refuse .rlseEmptyQueue
  | left + 1, k, s =>
    (memRead (q + BitVec.ofNat 16 k) s).bind fun w s =>
    if w = 0#16 then takeWaiter q left (k + 1) s
    else (memWrite (q + BitVec.ofNat 16 k) (setBit w (leftmost w) false) s).bind fun _ s => .ok (16 * k + leftmost w) s

/-- RLSE after its checks (R376). -/
def release (m : MemRef) (s : State) : Res Unit :=
  (eaWord m s).bind fun ea s =>
  (memRead ea s).bind fun w s =>
  (memWrite ea (zext8 (counter w 0x01#8)) s).bind fun _ s =>
  (if (counter w 0x01#8).toInt ≤ 0 then
    (takeWaiter (ea + 1#16) 8 0 s).bind fun n s => qSet 0x0028#16 n true s
  else .ok () s).bind fun _ s => schedEpilogue s

/-- The first word of a private semaphore after WAIT (R377): bit 0 kept, the task number, the counter. -/
def waitWord (w : Word) (n : Nat) : Word :=
  ofBytes (BitVec.ofBool (bit w 0) ++ BitVec.ofNat 7 n) (counter w 0xFF#8)

/-- WAIT after its checks (R377). -/
def waitFor (m : MemRef) (s : State) : Res Unit :=
  (eaWord m s).bind fun ea s =>
  (memRead ea s).bind fun w s =>
  (readNS s).bind fun n s =>
  (memWrite ea (waitWord w n) s).bind fun _ s =>
  (if (counter w 0xFF#8).toInt < 0 then qSet 0x0028#16 n false s else .ok () s).bind fun _ s => schedEpilogue s

/-- The parameter bit of ACT (R378): on a call semaphore the bit of rank Y of the queue at `q` is set; a rank beyond 32767 is
outside the model (U16). -/
def postParameter (w q : Word) (s : State) : Res Unit :=
  if bit w 0 then
    if bit s.r.Y 0 then .refuse .actRankOutOfRange else memQSet q s.r.Y.toNat true s
  else .ok () s

/-- ACT after its checks (R378). -/
def activate (m : MemRef) (s : State) : Res Unit :=
  (eaWord m s).bind fun ea s =>
  (memRead ea s).bind fun w s =>
  (postParameter w (ea + 1#16) s).bind fun _ s =>
  (memWrite ea (ofBytes (hi w) (counter w 0x01#8)) s).bind fun _ s =>
  (if (counter w 0x01#8).toInt ≤ 0 then qSet 0x0028#16 ((hi w).toNat % 128) true s else .ok () s).bind fun _ s =>
  schedEpilogue s

/-- ARM: the ASTF bit of a task <- 1 (R373). -/
def execArm (ix : Bool) (n : BitVec 7) (s : State) : Host.Outcome State Fault Refusal :=
  execute (fun s => (schedPrologue true false s).bind fun _ s =>
    (qSet 0x0020#16 ((if ix then n.toNat + s.r.X.toNat else n.toNat) % 128) true s).bind fun _ s => schedEpilogue s) s

/-- QUIT: the ASTF bit of the running task <- 0 (R374). -/
def execQuit (s : State) : Host.Outcome State Fault Refusal :=
  execute (fun s => (schedPrologue false true s).bind fun _ s => (readNS s).bind fun n s =>
    (qSet 0x0020#16 n false s).bind fun _ s => schedEpilogue s) s

/-- RQST: a request on a mutual-exclusion semaphore (R375). -/
def execRqst (m : MemRef) (s : State) : Host.Outcome State Fault Refusal :=
  execute (fun s => (schedPrologue true true s).bind fun _ s => request m s) s

/-- RLSE: a release of a mutual-exclusion semaphore (R376). -/
def execRlse (m : MemRef) (s : State) : Host.Outcome State Fault Refusal :=
  execute (fun s => (schedPrologue true false s).bind fun _ s => release m s) s

/-- WAIT on a private semaphore (R377). -/
def execWait (m : MemRef) (s : State) : Host.Outcome State Fault Refusal :=
  execute (fun s => (schedPrologue true true s).bind fun _ s => waitFor m s) s

/-- ACT through a private semaphore (R378). -/
def execAct (m : MemRef) (s : State) : Host.Outcome State Fault Refusal :=
  execute (fun s => (schedPrologue true false s).bind fun _ s => activate m s) s

end Sys2Proof.Machine
end

