-- ==== Sys2Proof/Machine/System.lean ====
section
/-! DEFINITION. Input/output, interrupt control, the access to ST, SLO and SLE, accesses relative to SLO, breakpoints and XMR
(45_system.md). -/

namespace Sys2Proof.Machine

/-- A privileged instruction: `PrivCheck()`, then its effect (R300). -/
def privileged (body : State → Res Unit) (s : State) : Res Unit := (privCheck s).bind fun _ s => body s

/-- The effect of SIO on the decoded operand (R301). -/
def sioTransfer (op : SioOp × BitVec 14) (s : State) : State :=
  match op.1 with
  | .dataIn => (readData op.2 s).2.setReg .a (readData op.2 s).1
  | .dataOut => writeData op.2 s.r.A s
  | .statusIn => (readStatus op.2 s).2.setReg .a (readStatus op.2 s).1
  | .commandOut => writeCommand op.2 s.r.A s

/-! The end of an immediate task. -/

/-- The service of an inter-processor interrupt at an election point (45_system.md R303): an alarm it meets, alarm 6 among
them, is taken there, and counts as an alarm of the instruction that made the election (D24, log 39). The P saved is that of
the task that the exchange has resumed, for the alarms 0 to 2 too (DESIGN CHOICE, log 15). The answer says whether an alarm was
met. -/
def takeIpi (s : State) : Res Bool :=
  match serveIpi s with
  | .ok _ s => .ok false s
  | .alarm n s => (raiseAlarm n { s with phase := .abandoned }).bind fun _ s => .ok true s
  | .refuse r => .refuse r
  | .stuck r => .stuck r

/-- The election of a deferred task when no immediate task runs and the scheduler is present (R302), and the trace it leaves in
WSCHED (47_scheduler.md R379). -/
def electAgain (s : State) : Res Unit :=
  if s.HV = 0#16 && s.cfg.hasSched then (reschedule s).bind fun _ s => .ok () s.scribbleWsched else .ok () s

/-- The levels in `ElectAfterAcq()`, then the deferred election (R302). -/
def electLevelAfterAcq (s : State) : Res Unit :=
  match s.electLevel with
  | .level j => launch j s
  | .idle | .powerFail | .ipi => electAgain s

/-- `ElectAfterAcq()` (R302). An inter-processor interrupt that raises no alarm starts no task: the election goes on after its
service (DESIGN CHOICE, log 44). -/
def electAfterAcq (s : State) : Res Unit :=
  if s.powerFailPending then powerFailSequence s
  else if s.ipiRequest then
    (takeIpi s).bind fun alarmed s => if alarmed then .ok () s else electLevelAfterAcq s
  else electLevelAfterAcq s

/-- The masks IOM and IPM are cleared (R302). -/
def State.unmask (s : State) : State := { s with st := { s.st with IOM := false, IPM := false } }

/-- ACQ in an immediate task (R302). -/
def acquit (s : State) : Res Unit :=
  (leaveImmediate (leftmost s.HV) (s.unmask.advance 1)).bind fun _ s => electAfterAcq s

/-- ACQ in a deferred task (R302): the election, with the scheduler; without it U4. -/
def acquitDeferred (s : State) : Res Unit :=
  if s.cfg.hasSched then (reschedule (s.unmask.advance 1)).bind fun _ s => .ok () s.scribbleWsched
  else .refuse .acquitForbidden

/-! Sub-levels. -/

/-- The pending normal sub-levels of a level that are not served by a channel (R304). -/
def State.normalSublevels (s : State) (i : Nat) : List Nat :=
  s.couplers.filterMap fun d => if d.level.toNat = i && !d.toChannel then d.normalPending.map (·.val) else none

/-- The pending exception sub-levels of a level (R304). -/
def State.exceptionSublevels (s : State) (i : Nat) : List Nat :=
  s.couplers.filterMap fun d => if d.level.toNat = i then d.exceptionPending.map (·.val) else none

/-- ACK on the level in progress (R304); level 0, the alarm task, has no sub-level (D27). -/
def acknowledge (i : Nat) (s : State) : State :=
  if i = 0 then s.setVC false false
  else
    match (s.normalSublevels i).min? with
    | some n => (s.setReg .x (BitVec.ofNat 16 n)).setVC true false
    | none =>
      match (s.exceptionSublevels i).min? with
      | some n => (s.setReg .x (BitVec.ofNat 16 n)).setVC false true
      | none => s.setVC false false

/-! Masks and status. -/

/-- DIT and EIT (R308, R309): IOM, and IPM on the 65P, 75P and 70. -/
def State.maskInterrupts (s : State) (b : Bool) : State :=
  { s with st := { s.st with IOM := b, IPM := if s.cfg.hasXmr || s.cfg.model = .m70 then b else s.st.IPM } }

/-- The end of SST and RST (R321, R322): ST takes the new image, and so does A. -/
def State.writeST (s : State) (w : Word) : State := (s.loadST w).setReg .a w

/-! Breakpoints. -/

/-- The read of the word SBP and RBP rewrite (R323, R324): alarm 0 where none exists; bad parity gives alarm 2 outside DEBUG and
is ignored in DEBUG. -/
def breakpointWord (pa : PAddr) (s : State) : Res Unit :=
  if !s.cfg.exists pa then (if s.cfg.is0405 then .ok () s else .alarm .nonExistentMemory s)
  else if s.badWord pa && !s.st.DEBUG then .alarm .parityError s
  else .ok () s

/-- The word is left in bad parity, or in good parity; nothing is recorded without `HAS_PARITY` or where no word exists. -/
def State.setParity (s : State) (pa : PAddr) (bad : Bool) : State :=
  if s.cfg.parity && s.cfg.exists pa then
    { s with badParity := if bad then insertNat pa.toNat s.badParity else removeNat pa.toNat s.badParity }
  else s

/-- SBP and RBP after the privilege check (R323, R324). -/
def rewriteParity (bad : Bool) (s : State) : Res Unit :=
  (resolve s.cfg.hasDrps s.r.Y s).bind fun pa s =>
  (breakpointWord pa s).bind fun _ s => finish (s.setParity pa bad)

/-- DBP after the privilege check (R325): one word an execution. -/
def discoverBreakpoint (s : State) : Res Unit :=
  (resolve s.cfg.hasDrps s.r.Y s).bind fun pa s =>
  if !s.cfg.exists pa && !s.cfg.is0405 then finish (s.setVC true false)
  else if s.cfg.parity && s.badParity.contains pa.toNat then
    if !s.st.DEBUG && !s.st.MAINT then .alarm .parityError s else finish (s.setVC false true)
  else if s.r.Y = 0#16 then finish (s.setVC false false)
  else .ok () (s.setReg .y (s.r.Y - 1#16)).pause

/-! The instructions. -/

/-- SIO: an exchange with a coupler (R301). -/
def execSio (m : MemRef) (s : State) : Host.Outcome State Fault Refusal :=
  execute (privileged fun s => (readOperand m s).bind fun w s => finish (sioTransfer (sioDecode w) s)) s

/-- ACQ: the end of an immediate task, or a deferred election (R302). -/
def execAcq (s : State) : Host.Outcome State Fault Refusal :=
  execute (privileged fun s =>
    if s.powerFailActive then .refuse .acquitForbidden
    else if s.HV = 0#16 then acquitDeferred s else acquit s) s

/-- HALT: the first period is over with this execution; the step function counts the others (R306). -/
def execHalt (s : State) : Host.Outcome State Fault Refusal :=
  execute (fun s =>
    if s.r.X = 1#16 then finish (s.setReg .x 0#16)
    else .ok () { s.advance 1 with
      haltLeft := if s.r.X = 0#16 then 65535 else s.r.X.toNat - 1, phase := .interrupted }) s

/-- STEP: ACQ, then one instruction and alarm 7 (R311). -/
def execStep (s : State) : Host.Outcome State Fault Refusal :=
  execute (privileged fun s =>
    if s.powerFailActive || s.HV = 0#16 then .refuse .acquitForbidden
    else (acquit s).bind fun _ s => .ok () { s with stepArmed := true }) s

/-- ACTD: alarm 9, P saved after the instruction (R310). -/
def execActd (s : State) : Host.Outcome State Fault Refusal :=
  execute (fun s => .alarm .actd (s.advance 1)) s

/-- ACK: the most prioritary pending sub-level of the level in progress (R304). -/
def execAck (s : State) : Host.Outcome State Fault Refusal :=
  execute (fun s => finish (if s.powerFailActive || s.HV = 0#16 then s.setVC false false
    else acknowledge (leftmost s.HV) s)) s

/-- ROMB: a microprogram that nothing describes, U5 (R312). -/
def execRomb (s : State) : Host.Outcome State Fault Refusal :=
  execute (privileged fun _ => .refuse .rombMicroprogram) s

/-- DBP: the next breakpoint below Y (R325). -/
def execDbp (s : State) : Host.Outcome State Fault Refusal :=
  execute (privileged discoverBreakpoint) s

/-- SBP: a breakpoint at Y (R323). -/
def execSbp (s : State) : Host.Outcome State Fault Refusal :=
  execute (privileged (rewriteParity true)) s

/-- RBP: no breakpoint at Y (R324). -/
def execRbp (s : State) : Host.Outcome State Fault Refusal :=
  execute (privileged (rewriteParity false)) s

/-- DIT: interrupts are disabled (R308). -/
def execDit (s : State) : Host.Outcome State Fault Refusal :=
  execute (privileged fun s => finish (s.maskInterrupts true)) s

/-- EIT: interrupts are enabled (R309); the election comes before the next instruction. -/
def execEit (s : State) : Host.Outcome State Fault Refusal :=
  execute (privileged fun s => finish (s.maskInterrupts false)) s

/-- SST: bits of ST <- 1 (R321). -/
def execSst (s : State) : Host.Outcome State Fault Refusal :=
  execute (privileged fun s => finish (s.writeST (s.stWord ||| (s.r.A &&& s.cfg.stWritable)))) s

/-- RST: bits of ST <- 0 (R322). -/
def execRst (s : State) : Host.Outcome State Fault Refusal :=
  execute (privileged fun s => finish (s.writeST (s.stWord &&& ~~~(s.r.A &&& s.cfg.stWritable)))) s

/-- RDHV: A <- HV (R307). -/
def execRdhv (s : State) : Host.Outcome State Fault Refusal :=
  execute (privileged fun s => finish (s.setReg .a s.HV)) s

/-- IPI: every processor of the configuration, this one too, has an inter-processor request (R303). -/
def execIpi (s : State) : Host.Outcome State Fault Refusal :=
  execute (privileged fun s =>
    finish { s with ipiRequest := true, othersIpi := List.range s.cfg.otherProcessors }) s

/-- RDSI: A <- the identity of the processor (R313). -/
def execRdsi (s : State) : Host.Outcome State Fault Refusal :=
  execute (privileged fun s => finish (s.setReg .a s.cfg.procIdWord)) s

/-- LAR: A <- the word at Y relative to SLO (R328). -/
def execLar (s : State) : Host.Outcome State Fault Refusal :=
  execute (privileged fun s => (relRead s.r.Y s).bind fun v s => finish (s.setReg .a v)) s

/-- RDOE: A, B <- SLO, SLE (R329). -/
def execRdoe (s : State) : Host.Outcome State Fault Refusal :=
  execute (privileged fun s =>
    finish (if s.cfg.hasDrps then (s.setReg .a s.SLO).setReg .b s.SLE else (s.setReg .a 0#16).setReg .b 0#16)) s

/-- MVTM: a block from addresses relative to SLO to absolute addresses, one word an execution (R326). -/
def execMvtm (s : State) : Host.Outcome State Fault Refusal :=
  execute (privileged (blockMove 1 fun i s =>
    (relRead (s.r.A + i) s).bind fun v s => physWrite (s.r.B + i) v s)) s

/-- STAR: the word at Y relative to SLO <- A (R331). -/
def execStar (s : State) : Host.Outcome State Fault Refusal :=
  execute (privileged fun s => (relWrite s.r.Y s.r.A s).bind fun _ s => finish s) s

/-- WOE: SLO, SLE <- A, B (R330); SLE is kept as written (D10). -/
def execWoe (s : State) : Host.Outcome State Fault Refusal :=
  execute (privileged fun s =>
    finish (if s.cfg.hasDrps then { s with SLO := s.r.A, SLE := s.r.B } else s)) s

/-- MVTS: a block from absolute addresses to addresses relative to SLO, one word an execution (R327). -/
def execMvts (s : State) : Host.Outcome State Fault Refusal :=
  execute (privileged (blockMove 1 fun i s =>
    (physRead (s.r.A + i) s).bind fun v s => relWrite (s.r.B + i) v s)) s

/-- XIMR: IM and R[rd] are exchanged (R305). -/
def execXimr (rd : Reg) (s : State) : Host.Outcome State Fault Refusal :=
  execute (privileged fun s => finish ({ s with IM := s.reg rd }.setReg rd s.IM)) s

/-- XMR: A and the word at Y relative to SLO are exchanged in one memory cycle (R335); SVC 6 where the instruction is absent
(30_encoding.md R118). -/
def execXmr (s : State) : Host.Outcome State Fault Refusal :=
  execute (fun s =>
    if !s.cfg.hasXmr then absentExtension 6#8 s
    else (resolve s.cfg.hasDrps s.r.Y s).bind fun pa s => (exchangeA pa s).bind fun _ s => finish s) s

end Sys2Proof.Machine
end

