-- ==== Sys2Proof/Machine/Events.lean ====
section
/-! DEFINITION. What the outside world does to the unit, one event a step: initialisation (70_reset_and_hazards.md R550), the
operator console (61_io_debug.md R541), devices, the mains, other processors, and the calls of the channels (log 22, log 23). -/

namespace Sys2Proof.Machine

/-! Initialisation. -/

/-- The general registers hold free values after an initialisation (R551), SLO and SLE 0 (D8). -/
def State.forgetRegisters (s : State) : State :=
  { s with
    r := { A := Config.freeWord s.freeCount, B := Config.freeWord (s.freeCount + 1)
           X := Config.freeWord (s.freeCount + 2), Y := Config.freeWord (s.freeCount + 3)
           C := Config.freeWord (s.freeCount + 4), L := Config.freeWord (s.freeCount + 5)
           W := Config.freeWord (s.freeCount + 6), K := Config.freeWord (s.freeCount + 7) }
    SLO := 0#16
    SLE := 0#16
    freeCount := s.freeCount + 8 }

/-- ST after an initialisation (R550; IPM where it exists, 10_state.md R22). -/
def initialStatus (c : Config) (kind : InitKind) : Status where
  MS := true
  SVCS := false
  PR := false
  V := false
  Cf := false
  DEBUG := false
  LCM := true
  IPM := c.hasIpm
  IOM := true
  MAINT := false
  SCHED := false
  STOP := kind ≠ .autoRestart
  POP := false

/-- The hidden state after an initialisation (R550, D8): nothing pending, no exchange active, no coupler request. The
registers of the couplers stay as they were (DESIGN CHOICE, log 49). -/
def State.clearHidden (s : State) : State :=
  { s with
    ipiRequest := false
    othersIpi := []
    powerFailPending := false
    powerFailActive := false
    stepArmed := false
    alarmStop := false
    autoRestartInhibited := false
    breakSeen := false
    haltLeft := 0
    held := []
    heldOperands := none
    stopDelay := 0
    couplers := s.couplers.map fun d => { d with normalPending := none, exceptionPending := none, toChannel := false }
    channels := s.channels.map fun c => { c with active := false }
    phase := .completed }

/-- Word '001E, ABOX2, is zeroed but on an automatic restart, where the processor has it (R550). -/
def clearAbox2 (kind : InitKind) (s : State) : Res Unit :=
  if kind ≠ .autoRestart && s.cfg.hasXmr then physWrite 0x001E#16 0#16 s else .ok () s

/-- The state an initialisation leaves before it reads word '0008 (R550); P is a free value until then. -/
def State.cleared (s : State) (kind : InitKind) : State :=
  { s.forgetRegisters.clearHidden with
    st := initialStatus s.cfg kind, IM := 0#16, HV := 0#16
    P := Config.freeWord (s.freeCount + 8), freeCount := s.freeCount + 9 }

/-- `Initialise(kind)` (R550): P is the content of word '0008, then ABOX2 is zeroed. An alarm one of the two accesses meets is
raised, and the initialisation goes no further (DESIGN CHOICE, log 49). -/
def initialise (kind : InitKind) (s : State) : Res Unit :=
  match (physRead 0x0008#16 (s.cleared kind)).bind fun p s => clearAbox2 kind { s with P := p } with
  | .ok _ s => .ok () s
  | .alarm n s => raiseAlarm n s
  | .refuse r => .refuse r
  | .stuck r => .stuck r

/-- An automatic restart takes place only where the machine was running and the restart is not inhibited
(60_exceptions.md R476). -/
def State.restarts (s : State) (kind : InitKind) : Bool :=
  !(kind = .autoRestart && (s.autoRestartInhibited || s.stopped))

/-! The console. -/

/-- The console is heard (R541): always when the machine is stopped, else when neither IOM nor IM[0] masks it. A key pressed
while it is masked is dropped, not kept (DESIGN CHOICE, log 23). -/
def State.consoleHeard (s : State) : Bool := s.stopped || (!s.st.IOM && !bit s.IM 0)

/-- The physical address of an address at the keys (R541): relative to SLO when the machine is stopped in slave mode, else
absolute. -/
def consoleAddress (a : Word) (s : State) : Res PAddr := resolve (s.relocated && s.stopped) a s

/-- The alarms of a console access (R541): alarms 0 and 2 are ignored in DEBUG mode. A write to a word in bad parity meets alarm 2 as
a display does, and stores nothing (DESIGN CHOICE, log 23). -/
def consoleAccess (pa : PAddr) (s : State) : Res Unit :=
  if s.st.DEBUG then .ok () s
  else if !s.cfg.exists pa then (if s.cfg.is0405 then .ok () s else .alarm .nonExistentMemory s)
  else if s.badWord pa then .alarm .parityError s
  else .ok () s

/-- A store from the console; nothing where no word exists. -/
def State.consoleStore (s : State) (pa : PAddr) (v : Word) : State := if s.cfg.exists pa then s.store pa v else s

/-- The first breakpoint set by key DB puts the machine in DEBUG mode, with POP = 1 (R541); a key DB at an address beyond SLE, or
where no word exists, does so too, and so does every later key DB (DESIGN CHOICES, log 23). -/
def State.consoleDebug (s : State) : State := { s with st := { s.st with DEBUG := true, POP := true } }

/-- A register loaded from the console while the machine is stopped; STOP is not among the bits of ST it loads
(70_reset_and_hazards.md R554: the ways out of the stop are RUN and the automatic restart). -/
def State.consoleSet (s : State) (r : ConsoleReg) (v : Word) : State :=
  match r with
  | .general r => s.setReg r v
  | .p => { s with P := v }
  | .st => { s.loadST v with st := { (s.loadST v).st with STOP := s.st.STOP }, stopDelay := s.stopDelay }
  | .slo => if s.cfg.hasDrps then { s with SLO := v } else s
  | .sle => if s.cfg.hasDrps then { s with SLE := v } else s
  | .im => { s with IM := v }

/-- The effect of a console key that touches memory; an alarm it meets starts the alarm task (R541). -/
def consoleKey (act : State → Res Unit) (s : State) : Res Unit :=
  if s.consoleHeard then
    match act s with
    | .alarm n s => raiseOutside n s
    | .ok _ s => .ok () s
    | .refuse r => .refuse r
    | .stuck r => .stuck r
  else .ok () s

/-! The event. -/

/-- A coupler as its device leaves it; the routing of its requests belongs to the channels (61_io_debug.md R512, R521). -/
def State.deviceActs (s : State) (d : Coupler) : State :=
  { s with couplers := putCoupler { d with toChannel := ((s.coupler? d.key).map (·.toChannel)).getD false } s.couplers }

/-- RUN (R554): a stop on an alarm in the alarm task is left by an initialisation only (60_exceptions.md R470). -/
def State.consoleRun (s : State) : State :=
  if s.consoleHeard && !s.alarmStop then { s.released with st := { s.st with STOP := false } } else s

/-- The stop key (R554). -/
def State.consoleStop (s : State) : State :=
  if s.consoleHeard then { s.released with st := { s.st with STOP := true }, stopDelay := 0 } else s

/-- One event of the outside world; `cpu` is no event. A console leaves the words '10 to '13 of memory alone (20_memory.md R75);
a manual initialisation is heard whatever masks the console, and REC leaves the breakpoints in memory (R541; DESIGN CHOICES, log
23). -/
def outsideEvent (e : Input) (s : State) : Res Unit :=
  match e with
  | .cpu => .ok () s
  | .device d => .ok () (s.deviceActs d)
  | .powerFail => .ok () { s with powerFailPending := true }
  | .initialise kind => if s.restarts kind then initialise kind s else .ok () s
  | .otherWrite pa v => .ok () (s.consoleStore pa v)
  | .otherIpi => .ok () { s with ipiRequest := true }
  | .otherServes q => .ok () { s with othersIpi := removeNat q s.othersIpi }
  | .channel kind set => channelStep kind set s
  | .consoleRun => .ok () s.consoleRun
  | .consoleStop => .ok () s.consoleStop
  | .consoleLoad r v => .ok () (if s.stopped then s.released.consoleSet r v else s)
  | .consoleRead a => consoleKey (fun s => (consoleAddress a s).bind consoleAccess) s
  | .consoleWrite a v =>
    consoleKey (fun s => (consoleAddress a s).bind fun pa s => (consoleAccess pa s).bind fun _ s =>
      .ok () (s.consoleStore pa v)) s
  | .consoleDB a =>
    consoleKey (fun s => (consoleAddress a s.consoleDebug).bind fun pa s => .ok () (s.setParity pa true)) s
  | .consoleRB a =>
    consoleKey (fun s => (consoleAddress a s).bind fun pa s => .ok () (s.setParity pa false)) s
  | .consoleREC => .ok () (if s.consoleHeard then { s with st := { s.st with DEBUG := false } } else s)

end Sys2Proof.Machine
end

