-- ==== Sys2Proof/Machine/Fetch.lean ====
section
/-! DEFINITION. Fetching an instruction, the end of an instruction, and one step of the processor (30_encoding.md R125,
60_exceptions.md R454, R465, R469, 45_system.md R306, R311). -/

namespace Sys2Proof.Machine

/-! The fetch. -/

/-- The fetch of the first word at P. A breakpoint on it, outside the alarm task, is answered as alarm 8: nothing is executed
(R469). -/
def fetchFirst (s : State) : Res Word :=
  (resolve s.relocated s.P s).bind fun pa s =>
  if s.cfg.exists pa && s.badWord pa && s.st.DEBUG && !s.inAlarmTask then .alarm .breakpoint s else readAt pa s

/-- The words that follow, as operands (R469, D41). -/
def fetchMore : Nat → Word → State → Res (List Word)
  | 0, _, s => .ok [] s
  | n + 1, a, s =>
    (memRead a s).bind fun w s => (fetchMore n (a + 1#16) s).bind fun ws s => .ok (w :: ws) s

/-- The alarm 4 of an ISP16 instruction comes after the fetch of its first word (49_isp16.md R410, 60_exceptions.md R467). -/
def fetchCheck (w : Word) (s : State) : Res Unit :=
  if hi w = 0x3C#8 && s.cfg.hasIsp16 then
    match s.cfg.isp.find (lo w) with
    | none => .ok () s
    | some r =>
      if r.op = .xctx then (if s.cfg.hasXctx && !s.st.MS then .alarm .privileged s else .ok () s)
      else if (basedInstr r.op false (.regs 0#16)).isSome then privCheck s
      else .ok () s
  else .ok () s

/-- How many words the unit reads: an absent ISP16 has two words whatever its form (30_encoding.md R118). -/
def fetchCount (c : Config) (w : Word) : Nat :=
  if hi w = 0x3C#8 && !c.hasIsp16 then 2 else wordCount c.hasXmr c.isp w

/-- The words of the instruction at P. -/
def fetchWords (s : State) : Res (List Word) :=
  (fetchFirst s).bind fun w s =>
  (fetchCheck w s).bind fun _ s =>
  (fetchMore (fetchCount s.cfg w - 1) (s.P + 1#16) s).bind fun ws s => .ok (w :: ws) s

/-- No unit executes the extension family n (30_encoding.md R113, R118): families 3 and 6 have no option. Family 0 counts as
absent where no operator is wired, whatever `FFP_PARTIAL_UCODE` says (DESIGN CHOICE, log 34). -/
def Config.lacksFamily (c : Config) (n : BitVec 3) : Bool :=
  match n.toNat with
  | 0 => !c.hasFfp16
  | 4 => !c.hasIsp16
  | 7 => !c.hasCda16
  | _ => true

/-- The words fetched are decoded and run. An encoding without an instruction is SVC n in a family that is absent (R118), and
without meaning elsewhere (R123, U1). On a 35, which has RCDA and WCDA, '3F00 with another second word is unassigned
(48_cda_lists.md R390), any other '3Fxx is SVC 7 (DESIGN CHOICE, log 34). -/
def runWords (run : Instr → State → Host.Outcome State Fault Refusal) (ws : List Word) (s : State) :
    Host.Outcome State Fault Refusal :=
  match decodeWords s.cfg.isp ws with
  | .instr i _ => run i s
  | .unassigned none => .refused .unassignedEncoding
  | .unassigned (some n) =>
    if Config.lacksFamily s.cfg n && !(s.cfg.hasCdaRwOnly && ws.head? = some 0x3F00#16) then execute (absentExtension (n.setWidth 8)) s
    else .refused (if n = 4#3 then .ispCodeNotSupplied else .unassignedEncoding)
  | .tooShort => execute (absentExtension 4#8) s

/-! The end of an instruction. -/

/-- The words of a long instruction that pauses are held for its next slice; after any other execution nothing is held
(70_reset_and_hazards.md R556). -/
def State.holding (s : State) (ws : List Word) : State :=
  if s.phase = .interrupted && s.haltLeft = 0 then { s with held := ws } else s.released

/-- The end of an execution of the words `ws` (R454): nothing at an interruption point; an alarm drops the alarm 7 that was
pending (D24), not one that the instruction itself, a STEP, has armed (log 39). -/
def endOfInstruction (armed : Bool) (ws : List Word) (o : Host.Outcome State Fault Refusal) :
    Host.Outcome State Fault Refusal :=
  match o with
  | .next s =>
    match s.phase with
    | .completed => (endCompleted armed (s.holding ws)).outcome
    | .interrupted => .next (s.holding ws)
    | .abandoned => .next { s.holding ws with stepArmed := s.stepArmed && !armed }
  | .fault r => .fault r
  | .refused r => .refused r

/-! One step. -/

/-- The instruction at P. -/
def fetchStep (run : Instr → State → Host.Outcome State Fault Refusal) (s : State) : Host.Outcome State Fault Refusal :=
  match fetchWords s with
  | .ok ws s' => endOfInstruction s.stepArmed ws (runWords run ws s')
  | .alarm n s' =>
    if n = .breakpoint && s.st.POP then .next s'.breakStop
    else endOfInstruction s.stepArmed [] (takeAlarm s.P n s').outcome
  | .refuse r => .refused r
  | .stuck r => .fault r

/-- The next slice of the long instruction in progress (R556), or the instruction at P. -/
def instructionStep (run : Instr → State → Host.Outcome State Fault Refusal) (s : State) :
    Host.Outcome State Fault Refusal :=
  match s.held with
  | [] => fetchStep run s
  | w :: ws => endOfInstruction s.stepArmed (w :: ws) (runWords run (w :: ws) s)

/-- One period of a HALT (45_system.md R306): X <- 0 when the count runs out. -/
def haltStep (s : State) : Host.Outcome State Fault Refusal :=
  if s.haltLeft = 1 then
    (endCompleted s.stepArmed { s.setReg .x 0#16 with haltLeft := 0, phase := .completed }).outcome
  else .next { s with haltLeft := s.haltLeft - 1 }

/-- What is elected starts; an alarm it meets is taken there (R464), and a breakpoint acted on. -/
def started (m : Res Unit) : Host.Outcome State Fault Refusal :=
  match m with
  | .ok _ s => (actOnBreak s).outcome
  | .alarm n s => (raiseAlarm n s).outcome
  | .refuse r => .refused r
  | .stuck r => .fault r

/-- A task is started at an election point. A HALT ends first, in a step of its own. -/
def startTask (start : State → Res Unit) (s : State) : Host.Outcome State Fault Refusal :=
  if s.haltLeft ≠ 0 then (haltEnds s).outcome else started (start s)

/-- The inter-processor interrupt is served at an election point (45_system.md R303). A HALT goes on after a service without an
alarm; before one with an alarm it ends, in a step of its own (D25, log 39). -/
def ipiStep (s : State) : Host.Outcome State Fault Refusal :=
  match serveIpi s with
  | .ok _ s => (actOnBreak s).outcome
  | .alarm n s' =>
    if s.haltLeft ≠ 0 then (haltEnds s).outcome
    else (raiseOutside n s').outcome
  | .refuse r => .refused r
  | .stuck r => .fault r

/-- `Step()` of a processor that is not stopped (60_exceptions.md R454). A breakpoint that a long instruction has met is acted on
before anything is started at its interruption point (log 19). -/
def runningStep (run : Instr → State → Host.Outcome State Fault Refusal) (s : State) :
    Host.Outcome State Fault Refusal :=
  match s.electable with
  | .powerFail => if s.breakSeen then (actOnBreak s).outcome else startTask powerFailSequence s
  | .ipi => if s.breakSeen then (actOnBreak s).outcome else ipiStep s
  | .level j => if s.breakSeen then (actOnBreak s).outcome else startTask (launch j) s
  | .idle => if s.haltLeft ≠ 0 then haltStep s else instructionStep run s

/-- One of the steps before a STOP set by SST acts is over (70_reset_and_hazards.md R558). -/
def State.tick (s : State) : State := { s with stopDelay := s.stopDelay - 1 }

/-- The outcome after the tick of the stop delay. -/
def tickOutcome (o : Host.Outcome State Fault Refusal) : Host.Outcome State Fault Refusal :=
  match o with
  | .next s => .next s.tick
  | .fault r => .fault r
  | .refused r => .refused r

/-- `Step()` (R454): a stopped processor does nothing. -/
def processorStep (run : Instr → State → Host.Outcome State Fault Refusal) (s : State) :
    Host.Outcome State Fault Refusal :=
  if s.stopped then .next s
  else if s.st.STOP then tickOutcome (runningStep run s)
  else runningStep run s

/-- One step of the machine: the next event of the outside world if there is one, else the processor (log 22). -/
def machineStep (run : Instr → State → Host.Outcome State Fault Refusal) (s : State) :
    Host.Outcome State Fault Refusal :=
  match s.inputs with
  | [] => processorStep run s
  | .cpu :: rest => processorStep run { s with inputs := rest }
  | e :: rest => (outsideEvent e { s with inputs := rest }).outcome

/-! Placing an instruction. -/

/-- The physical address of a program address, no check made. -/
def State.placeOf (s : State) (a : Word) : PAddr := if s.relocated then s.relocate a else absolute a

/-- Stores words at consecutive program addresses, no check made. -/
def placeWords : Word → List Word → State → State
  | _, [], s => s
  | a, w :: ws, s => placeWords (a + 1#16) ws (s.store (s.placeOf a) w)

/-- A program is loaded at P and run: nothing of the outside world comes before its first instruction, and no interruption is
taken there (log 8). -/
def State.readied (s : State) : State :=
  { s with st := { s.st with STOP := false, IOM := true, IPM := true }, alarmStop := false, haltLeft := 0, held := [], heldOperands := none
           inputs := [], breakSeen := false }

end Sys2Proof.Machine
end

