-- ==== Sys2Proof/Machine/Float.lean ====
section
/-! DEFINITION. Single-precision floating point FFP16 (46_float.md). A number is the pair of words of 10_state.md R32; results
are computed exactly on integers and rounded once (R341, D29). -/

namespace Sys2Proof.Machine

/-- `Mant(a, b)`, the 24-bit signed mantissa (R341). -/
def mant (a b : Word) : Int := (hi a ++ b).toInt

/-- `Exp(a)` (R341). -/
def expo (a : Word) : Int := (lo a).toInt

/-- `Pack(M, e)` (R341). -/
def pack (m e : Int) : Word × Word :=
  (ofBytes ((BitVec.ofInt 24 m).extractLsb' 16 8) (BitVec.ofInt 8 e), (BitVec.ofInt 24 m).extractLsb' 0 16)

/-- `FZERO` (R341). -/
def fzero : Word × Word := (0x0080#16, 0x0000#16)

/-- `Normalised(M, e)` (R341). -/
def normalised (m e : Int) : Bool :=
  (m = 0 && e = -128) || (2 ^ 22 ≤ m && m < 2 ^ 23) || (-(2 ^ 23) < m && m ≤ -(2 ^ 22))

/-- What an operation delivers (R341, R344, R351): a number, underflow, overflow, a division by zero, an impossible FIX. -/
inductive FloatResult where
  | value (words : Word × Word)
  | underflow
  | overflow
  | divideByZero
  | fixImpossible
deriving DecidableEq, Repr

/-- The number with mantissa m and exponent e, checked against the range of exponents (R341). -/
def boundExponent (m e : Int) : FloatResult :=
  if e > 127 then .overflow else if e < -128 then .underflow else .value (pack m e)

/-- A magnitude as a signed mantissa; a rounding that carries out of 23 bits takes the next exponent (R341). -/
def carryOut (neg : Bool) (m : Nat) (e : Int) : FloatResult :=
  if m < 2 ^ 23 then boundExponent (if neg then -(m : Int) else (m : Int)) e
  else boundExponent (if neg then -(2 ^ 22) else 2 ^ 22) (e + 1)

/-- A positive quotient n / d rounded to the nearest integer; a tie goes up for a positive number and down in magnitude for a
negative one, so always to the larger mantissa (R341, D29). -/
def roundQuotient (neg : Bool) (n d : Nat) : Nat := if neg then (2 * n + d - 1) / (2 * d) else (2 * n + d) / (2 * d)

/-- floor(log2(n / d)) for n, d > 0. -/
def logQuotient (n d : Nat) : Int :=
  let l : Int := (n.log2 : Int) - (d.log2 : Int)
  if (if 0 ≤ l then d * 2 ^ l.toNat ≤ n else d ≤ n * 2 ^ (-l).toNat) then l else l - 1

/-- `FResult((n / d) · 2^k)` (R341), d > 0. -/
def roundFloat (n : Int) (d : Nat) (k : Int) : FloatResult :=
  if n = 0 then .value fzero
  else
    let t : Int := 22 - logQuotient n.natAbs d
    carryOut (decide (n < 0))
      (roundQuotient (decide (n < 0)) (n.natAbs * 2 ^ t.toNat) (d * 2 ^ (-t).toNat)) (k - t + 23)

/-- The exact sum, in units of 2^k with k the lesser exponent less 23. -/
def floatSum (m1 e1 m2 e2 : Int) : FloatResult :=
  roundFloat (m1 * 2 ^ (e1 - min e1 e2).toNat + m2 * 2 ^ (e2 - min e1 e2).toNat) 1 (min e1 e2 - 23)

/-- A::B + (a, b) (R349). -/
def floatAdd (x y : Word × Word) : FloatResult := floatSum (mant x.1 x.2) (expo x.1) (mant y.1 y.2) (expo y.1)

/-- A::B - (a, b) (R353). -/
def floatSub (x y : Word × Word) : FloatResult := floatSum (mant x.1 x.2) (expo x.1) (-mant y.1 y.2) (expo y.1)

/-- A::B times (a, b) (R350). -/
def floatMul (x y : Word × Word) : FloatResult :=
  roundFloat (mant x.1 x.2 * mant y.1 y.2) 1 (expo x.1 + expo y.1 - 46)

/-- A::B divided by (a, b) (R351). -/
def floatDiv (x y : Word × Word) : FloatResult :=
  if mant y.1 y.2 = 0 then .divideByZero
  else
    roundFloat (if mant y.1 y.2 < 0 then -mant x.1 x.2 else mant x.1 x.2) (mant y.1 y.2).natAbs (expo x.1 - expo y.1)

/-- NORM (R346). -/
def floatNorm (x : Word × Word) : FloatResult := roundFloat (mant x.1 x.2) 1 (expo x.1 - 23)

/-- FLT (R345). -/
def floatOf (a : Word) : FloatResult := roundFloat (s16 a) 1 0

/-- The opposite (R342): the mantissa is negated on 24 bits, the exponent kept. -/
def floatNeg (x : Word × Word) : Word × Word := pack (-mant x.1 x.2) (expo x.1)

/-- FIX (R344): the bounds are taken on the floating value, then the fraction is dropped towards zero. The value is
n / 2^q with q = 23 - e, or the integer n·2^(e - 23). -/
def floatFix (x : Word × Word) : Option Word :=
  let m := mant x.1 x.2 * 2 ^ (expo x.1 - 23).toNat
  let d : Int := 2 ^ (23 - expo x.1).toNat
  if m < -32768 * d ∨ m > 32767 * d then none else some (u16 (m.tdiv d))

/-- The comparison of two numbers by value (R355). -/
def floatCompare (x y : Word × Word) : Bool × Bool :=
  let k := min (expo x.1) (expo y.1)
  compareInts (mant x.1 x.2 * 2 ^ (expo x.1 - k).toNat) (mant y.1 y.2 * 2 ^ (expo y.1 - k).toNat)

/-- The bits of the exception word CW that an event sets (R341). -/
def FloatResult.mask : FloatResult → Word
  | .value _ => 0x0000#16
  | .underflow => 0x8000#16
  | .overflow => 0x4000#16
  | .divideByZero => 0x2000#16
  | .fixImpossible => 0x1000#16

/-- The end of a floating-point instruction: two words. -/
def finish2 (s : State) : Res Unit := .ok () (s.advance 2)

/-- Sets bits of CW, the word at u16(C - 128) (R341): read, then written. -/
def recordEvent (mask : Word) (s : State) : Res Unit :=
  (memRead (s.r.C - 128#16) s).bind fun w s => memWrite (s.r.C - 128#16) (w ||| mask) s

/-- A and B take a pair of words. -/
def State.setPair (s : State) (x : Word × Word) : State := (s.setReg .a x.1).setReg .b x.2

/-- A and B take free values, V = 1, Cf = 0 (R341, U11). -/
def openResult (s : State) : State :=
  let (a, s) := s.fresh
  let (b, s) := s.fresh
  (s.setPair (a, b)).setVC true false

/-- A, B, V, Cf and CW after an operation (R341). -/
def deliver (x : FloatResult) (s : State) : Res Unit :=
  match x with
  | .value w => finish2 ((s.setPair w).setVC false false)
  | .underflow => (recordEvent x.mask ((s.setPair fzero).setVC false true)).bind fun _ s => finish2 s
  | .overflow | .divideByZero | .fixImpossible => (recordEvent x.mask (openResult s)).bind fun _ s => finish2 s

/-- `FloatDispatch` (R340): the rule of the instruction, or SVC 0. `ucode` says that the instruction is one of those the
partial microcode executes. -/
def floatDispatch (ucode : Bool) (body : State → Res Unit) (s : State) : Res Unit :=
  if s.cfg.hasFfp16 || (ucode && s.cfg.hasFfpPartial) then body s else absentExtension 0#8 s

/-- The two operand words (R348 to R355): one relay serves both. -/
def readPair (m : MemRef) (s : State) : Res (Word × Word) :=
  (eaWord m s).bind fun ea s =>
  (memRead ea s).bind fun a s =>
  (memRead (ea + 1#16) s).bind fun b s => .ok (a, b) s

/-- An instruction on A::B and a memory operand that the wired operator may hand to the software when an operand is not
normalised (R340, U10). The relay and the two operand words are read, with their alarms, before SVC 0 is called, even where A::B
alone decides (DESIGN CHOICE, log 27). -/
def floatBinary (op : Word × Word → Word × Word → State → Res Unit) (m : MemRef) (s : State) : Res Unit :=
  (readPair m s).bind fun y s =>
  if s.cfg.ffpUnnormSvc
      && !(normalised (mant s.r.A s.r.B) (expo s.r.A) && normalised (mant y.1 y.2) (expo y.1)) then
    absentExtension 0#8 s
  else op (s.r.A, s.r.B) y s

/-- The sign of a mantissa as comparison flags (R347). -/
def signFlags (m : Int) (s : State) : State := s.setVC (compareInts m 0).1 (compareInts m 0).2

/-- FLD (R348): A is loaded before the second word is read. -/
def floatLoad (m : MemRef) (s : State) : Res Unit :=
  (eaWord m s).bind fun ea s =>
  (memRead ea s).bind fun a s =>
  (memRead (ea + 1#16) (s.setReg .a a)).bind fun b s => finish2 ((s.setReg .b b).setVC false false)

/-- FST (R352). -/
def floatStore (m : MemRef) (s : State) : Res Unit :=
  (eaWord m s).bind fun ea s =>
  (memWrite ea s.r.A s).bind fun _ s =>
  (memWrite (ea + 1#16) s.r.B s).bind fun _ s => finish2 (s.setVC false false)

/-- FNEG: A::B is changed of sign (R342). -/
def execFneg (s : State) : Host.Outcome State Fault Refusal :=
  execute (floatDispatch true fun s => finish2 ((s.setPair (floatNeg (s.r.A, s.r.B))).setVC false false)) s

/-- FABS: A::B in absolute value (R343). -/
def execFabs (s : State) : Host.Outcome State Fault Refusal :=
  execute (floatDispatch true fun s =>
    finish2 ((if mant s.r.A s.r.B < 0 then s.setPair (floatNeg (s.r.A, s.r.B)) else s).setVC false false)) s

/-- FIX: A <- the integer part of A::B, B <- 0 (R344). -/
def execFix (s : State) : Host.Outcome State Fault Refusal :=
  execute (floatDispatch true fun s =>
    match floatFix (s.r.A, s.r.B) with
    | some w => finish2 ((s.setPair (w, 0#16)).setVC false false)
    | none => deliver .fixImpossible s) s

/-- FLT: A::B <- the integer A as a floating number (R345). -/
def execFlt (s : State) : Host.Outcome State Fault Refusal :=
  execute (floatDispatch false fun s => deliver (floatOf s.r.A) s) s

/-- NORM: A::B is normalised (R346). -/
def execNorm (s : State) : Host.Outcome State Fault Refusal :=
  execute (floatDispatch false fun s => deliver (floatNorm (s.r.A, s.r.B)) s) s

/-- FCAZ: A::B is compared with zero (R347). -/
def execFcaz (s : State) : Host.Outcome State Fault Refusal :=
  execute (floatDispatch true fun s => finish2 (signFlags (mant s.r.A s.r.B) s)) s

/-- FLD: A::B <- two memory words (R348). -/
def execFld (m : MemRef) (s : State) : Host.Outcome State Fault Refusal :=
  execute (floatDispatch true (floatLoad m)) s

/-- FST: two memory words <- A::B (R352). -/
def execFst (m : MemRef) (s : State) : Host.Outcome State Fault Refusal :=
  execute (floatDispatch true (floatStore m)) s

/-- FAD (R349). -/
def execFad (m : MemRef) (s : State) : Host.Outcome State Fault Refusal :=
  execute (floatDispatch false (floatBinary (fun x y s => deliver (floatAdd x y) s) m)) s

/-- FSB (R353). -/
def execFsb (m : MemRef) (s : State) : Host.Outcome State Fault Refusal :=
  execute (floatDispatch false (floatBinary (fun x y s => deliver (floatSub x y) s) m)) s

/-- FMP (R350). -/
def execFmp (m : MemRef) (s : State) : Host.Outcome State Fault Refusal :=
  execute (floatDispatch false (floatBinary (fun x y s => deliver (floatMul x y) s) m)) s

/-- FDV (R351). -/
def execFdv (m : MemRef) (s : State) : Host.Outcome State Fault Refusal :=
  execute (floatDispatch false (floatBinary (fun x y s => deliver (floatDiv x y) s) m)) s

/-- FCMZ: the memory number is compared with zero (R354). -/
def execFcmz (m : MemRef) (s : State) : Host.Outcome State Fault Refusal :=
  execute (floatDispatch true fun s => (readPair m s).bind fun y s => finish2 (signFlags (mant y.1 y.2) s)) s

/-- FCAM: A::B is compared with the memory number (R355). -/
def execFcam (m : MemRef) (s : State) : Host.Outcome State Fault Refusal :=
  execute (floatDispatch false (floatBinary (fun x y s =>
    finish2 (s.setVC (floatCompare x y).1 (floatCompare x y).2)) m)) s

end Sys2Proof.Machine
end

