-- ==== Sys2Proof/Machine/Cda.lean ====
section
/-! DEFINITION. The CDA16 instructions: common data area, bit strings in memory, doubly linked lists (48_cda_lists.md). -/

namespace Sys2Proof.Machine

/-- `CDADispatch` (R390): the rule, or SVC 7. `moves` says that the instruction is RCDA or WCDA, which a 35 has too. -/
def cdaDispatch (moves : Bool) (body : State → Res Unit) (s : State) : Res Unit :=
  if s.cfg.hasCda16 || (moves && s.cfg.hasCdaRwOnly) then body s else absentExtension 7#8 s

/-- `CDAlimits()` and the check of the whole zone from A on, made before the first word of an execution (R398, R401, R402). -/
def cdaZone (s : State) : Res (Word × Word) :=
  (cdaLimits s).bind fun lim s =>
  if cdaOk lim (s.r.A.toNat + (s.r.X - 1#16).toNat) then .ok lim s else .alarm .memoryProtection s

/-- RCDA and WCDA (R401, R402): the check of the whole zone, then one word at a time between the limits read with it. -/
def cdaMove (move : Word × Word → Word → State → Res Unit) (s : State) : Res Unit :=
  if bit (s.r.X - 1#16) 0 then finish2 { s with heldOperands := none }
  else (heldOr cdaZone s).bind fun lim s => keeping lim (blockMove 2 (move lim) s)

/-- The rank of SBTM and RBTM (R393): indexed, it is the 16-bit sum read as signed. -/
def bitRank (ix : Bool) (n : BitVec 15) (s : State) : Int :=
  if ix then s16 (n.setWidth 16 + s.r.X) else (n.toNat : Int)

/-- A bit of the string at A is written (R393, R394). -/
def writeBit (r : Int) (b : Bool) (s : State) : Res Unit :=
  (memRead (bitWord s.r.A r) s).bind fun v s =>
  (memWrite (bitWord s.r.A r) (setBit v (rankBit r) b) s).bind fun _ s => finish2 s

/-- The rank after the last one looked at in the word of rank r (R392). -/
def nextWordRank (r : Int) : Int := 16 * (r / 16) + 16

/-- The position of the first bit at one in `v`, the word of rank r, between r and `last` - 1 (R392). -/
def findBit (v : Word) (r last : Int) : Option Int :=
  (firstOne v (rankBit r) (min 16 (last - 16 * (r / 16))).toNat).map fun p => 16 * (r / 16) + (p : Int)

/-- A search that has found nothing: X <- Y, V = 0, Cf = 1 (R392). -/
def searchFailed (s : State) : State := (s.setReg .x s.r.Y).setVC false true

/-- DRBM (R392): one word of the string an execution. -/
def detectReset (s : State) : Res Unit :=
  if s16 s.r.X ≥ s16 s.r.Y then finish2 (searchFailed s)
  else
    (memRead (bitWord s.r.A (s16 s.r.X)) s).bind fun v s =>
    match findBit v (s16 s.r.X) (s16 s.r.Y) with
    | some q =>
      (memWrite (bitWord s.r.A q) (setBit v (rankBit q) false) s).bind fun _ s =>
      finish2 ((s.setReg .x (u16 q)).setVC false false)
    | none =>
      if nextWordRank (s16 s.r.X) ≥ s16 s.r.Y then finish2 (searchFailed s)
      else .ok () (s.setReg .x (u16 (nextWordRank (s16 s.r.X)))).pause

/-- INSQ (R396). -/
def insertElement (s : State) : Res Unit :=
  (memRead s.r.B s).bind fun n s =>
  (memWrite s.r.A n s).bind fun _ s =>
  (memWrite (s.r.A + 1#16) s.r.B s).bind fun _ s =>
  (memWrite s.r.B s.r.A s).bind fun _ s =>
  (memWrite (n + 1#16) s.r.A s).bind fun _ s => finish2 s

/-- SUPQ (R397). -/
def suppressElement (s : State) : Res Unit :=
  (memRead s.r.A s).bind fun n s =>
  (memRead (s.r.A + 1#16) s).bind fun p s =>
  if n = s.r.A then finish2 s
  else
    (memWrite p n s).bind fun _ s =>
    (memWrite (n + 1#16) p s).bind fun _ s => finish2 s

/-- SFQ (R399). -/
def suppressFirst (s : State) : Res Unit :=
  (memRead (s.r.A + 1#16) s).bind fun e s =>
  if e = s.r.A then finish2 s
  else
    (memRead (e + 1#16) s).bind fun p s =>
    (memWrite (s.r.A + 1#16) p s).bind fun _ s =>
    (memWrite p s.r.A s).bind fun _ s => finish2 (s.setReg .a e)

/-- SLQ (R400). -/
def suppressLast (s : State) : Res Unit :=
  (memRead s.r.A s).bind fun e s =>
  if e = s.r.A then finish2 s
  else
    (memRead e s).bind fun n s =>
    (memWrite s.r.A n s).bind fun _ s =>
    (memWrite (n + 1#16) s.r.A s).bind fun _ s => finish2 (s.setReg .a e)

/-- RCDA: a block of the CDA is read (R401). -/
def execRcda (s : State) : Host.Outcome State Fault Refusal :=
  execute (cdaDispatch true (cdaMove fun lim i s =>
    (readAt (cdaAddr lim (s.r.A + i)) s).bind fun v s => memWrite (s.r.B + i) v s)) s

/-- WCDA: a block of the CDA is written (R402). -/
def execWcda (s : State) : Host.Outcome State Fault Refusal :=
  execute (cdaDispatch true (cdaMove fun lim i s =>
    (memRead (s.r.B + i) s).bind fun v s => writeAt (cdaAddr lim (s.r.A + i)) v s)) s

/-- DRBM: the first bit at one is found and reset (R392). -/
def execDrbm (s : State) : Host.Outcome State Fault Refusal :=
  execute (cdaDispatch false detectReset) s

/-- INSQ: an element is inserted (R396). -/
def execInsq (s : State) : Host.Outcome State Fault Refusal :=
  execute (cdaDispatch false insertElement) s

/-- SUPQ: an element is suppressed (R397). -/
def execSupq (s : State) : Host.Outcome State Fault Refusal :=
  execute (cdaDispatch false suppressElement) s

/-- SFQ: the predecessor is suppressed (R399). -/
def execSfq (s : State) : Host.Outcome State Fault Refusal :=
  execute (cdaDispatch false suppressFirst) s

/-- SLQ: the successor is suppressed (R400). -/
def execSlq (s : State) : Host.Outcome State Fault Refusal :=
  execute (cdaDispatch false suppressLast) s

/-- SBTM: a bit of a string in memory <- 1 (R393). -/
def execSbtm (ix : Bool) (n : BitVec 15) (s : State) : Host.Outcome State Fault Refusal :=
  execute (cdaDispatch false fun s => writeBit (bitRank ix n s) true s) s

/-- RBTM: a bit of a string in memory <- 0 (R394). -/
def execRbtm (ix : Bool) (n : BitVec 15) (s : State) : Host.Outcome State Fault Refusal :=
  execute (cdaDispatch false fun s => writeBit (bitRank ix n s) false s) s

end Sys2Proof.Machine
end

