-- ==== Sys2Proof/Machine/Isp.lean ====
section
/-! DEFINITION. The special instructions ISP16 on decoded operands (49_isp16.md). -/

namespace Sys2Proof.Machine

/-- `ISPDispatch` (R410) of the CDA instructions, XENT and XSOR: the rule, or SVC 4. -/
def ispDispatch (body : State → Res Unit) (s : State) : Res Unit :=
  if s.cfg.hasIsp16 then body s else absentExtension 4#8 s

/-- `ISPDispatch` of a based instruction: SVC 4 where ISP16 is absent, then alarm 4 (R410), then the parameters (R411). -/
def basedDispatch (o : IspArgs) (body : Word → Word → State → Res Unit) (s : State) : Res Unit :=
  ispDispatch (fun s => (privCheck s).bind fun _ s => (basedParams o s).bind fun p s => body p.1 p.2 s) s

/-- `ISPDispatch` of BMOVE and BDBTM, which take their parameters once an execution (R411, R420, R423). -/
def longDispatch (o : IspArgs) (body : Word → Word → State → Res Unit) (s : State) : Res Unit :=
  ispDispatch (fun s => (privCheck s).bind fun _ s => (heldOr (basedParams o) s).bind fun p s =>
    keeping p (body p.1 p.2 s)) s

/-- The end of a based instruction (R410). -/
def finishBased (o : IspArgs) (s : State) : Res Unit := .ok () (s.advance (paramWords o))

/-- The displacement of the word that holds the byte of rank X (R411). -/
def State.byteDisp (s : State) (d : Word) : Word := d + half s.r.X

/-- The loads and stores on physical addresses: one word, two words, an exchange, one byte (R413 to R419, R424 to R430). -/
def loadAt (pa : PAddr) (s : State) : Res Unit := (readAt pa s).bind fun v s => .ok () (s.setReg .a v)

/-- A is stored at a physical address. -/
def storeAt (pa : PAddr) (s : State) : Res Unit := writeAt pa s.r.A s

/-- A and B are loaded from two physical addresses, A first (R416). -/
def loadPairAt (pa pb : PAddr) (s : State) : Res Unit :=
  (loadAt pa s).bind fun _ s => (readAt pb s).bind fun v s => .ok () (s.setReg .b v)

/-- A and B are stored at two physical addresses (R417). -/
def storePairAt (pa pb : PAddr) (s : State) : Res Unit :=
  (writeAt pa s.r.A s).bind fun _ s => writeAt pb s.r.B s

/-- A <- the byte that X selects in the word at a physical address (R418). -/
def loadByteAt (pa : PAddr) (s : State) : Res Unit :=
  (readAt pa s).bind fun w s => .ok () (s.setReg .a (zext8 (byteOf w (bit s.r.X 15))))

/-- The byte that X selects in the word at a physical address <- the right byte of A (R419). -/
def storeByteAt (pa : PAddr) (s : State) : Res Unit :=
  (readAt pa s).bind fun w s => writeAt pa (withByte w (bit s.r.X 15) (lo s.r.A)) s

/-- The word of a based bit string that holds rank X (R421). -/
def basedBitAddr (p1 p2 : Word) (r : Int) : PAddr := basedEA p1 (p2 + rankWord r)

/-- A bit of a based string is written (R421, R422). -/
def writeBasedBit (p1 p2 : Word) (b : Bool) (s : State) : Res Unit :=
  (readAt (basedBitAddr p1 p2 (s16 s.r.X)) s).bind fun v s =>
  writeAt (basedBitAddr p1 p2 (s16 s.r.X)) (setBit v (rankBit (s16 s.r.X)) b) s

/-- BDBTM (R423): one word of the string an execution; the bit found is not reset. -/
def discoverBit (o : IspArgs) (p1 p2 : Word) (s : State) : Res Unit :=
  if s16 s.r.X ≥ s16 s.r.Y then finishBased o (searchFailed s)
  else
    (readAt (basedBitAddr p1 p2 (s16 s.r.X)) s).bind fun v s =>
    match findBit v (s16 s.r.X) (s16 s.r.Y) with
    | some q => finishBased o ((s.setReg .x (u16 q)).setVC false false)
    | none =>
      if nextWordRank (s16 s.r.X) ≥ s16 s.r.Y then finishBased o (searchFailed s)
      else .ok () (s.setReg .x (u16 (nextWordRank (s16 s.r.X)))).pause

/-- The operand of a CDA instruction (R412): D16 is read through the pointer word; `disp` forms the displacement, which must
lie in the CDA. -/
def cdaOperand (w2 : Word) (disp : State → Word → Word) (s : State) : Res ((Word × Word) × Word) :=
  (ispPointer w2 s).bind fun a s =>
  (memRead a s).bind fun d16 s =>
  (cdaLimits s).bind fun lim s =>
  if cdaOk lim (disp s d16).toNat then .ok (lim, disp s d16) s else .alarm .memoryProtection s

/-- A CDA instruction on one word: the access at `CDAaddr(d)`, then the end of the instruction. -/
def cdaWord (ix : Bool) (w2 : Word) (act : PAddr → State → Res Unit) (s : State) : Res Unit :=
  ispDispatch (fun s => (cdaOperand w2 (fun s d => s.indexed ix d) s).bind fun o s =>
    (act (cdaAddr o.1 o.2) s).bind fun _ s => finish2 s) s

/-- A CDA instruction on one byte, always indexed by X. -/
def cdaByte (w2 : Word) (act : PAddr → State → Res Unit) (s : State) : Res Unit :=
  ispDispatch (fun s => (cdaOperand w2 (fun s d => s.byteDisp d) s).bind fun o s =>
    (act (cdaAddr o.1 o.2) s).bind fun _ s => finish2 s) s

/-- A CDA instruction on two words, both displacements checked first (R412, D38). -/
def cdaPair (ix : Bool) (w2 : Word) (act : PAddr → PAddr → State → Res Unit) (s : State) : Res Unit :=
  ispDispatch (fun s => (cdaOperand w2 (fun s d => s.indexed ix d) s).bind fun o s =>
    if cdaOk o.1 (o.2 + 1#16).toNat then
      (act (cdaAddr o.1 o.2) (cdaAddr o.1 (o.2 + 1#16)) s).bind fun _ s => finish2 s
    else .alarm .memoryProtection s) s

/-- BLA: A <- the based word (R413). -/
def execBla (ix : Bool) (o : IspArgs) (s : State) : Host.Outcome State Fault Refusal :=
  execute (basedDispatch o fun p1 p2 s =>
    (loadAt (basedEA p1 (s.indexed ix p2)) s).bind fun _ s => finishBased o s) s

/-- BSTA: the based word <- A (R414). -/
def execBsta (ix : Bool) (o : IspArgs) (s : State) : Host.Outcome State Fault Refusal :=
  execute (basedDispatch o fun p1 p2 s =>
    (storeAt (basedEA p1 (s.indexed ix p2)) s).bind fun _ s => finishBased o s) s

/-- BXM: A and the based word are exchanged in one memory cycle (R415). -/
def execBxm (ix : Bool) (o : IspArgs) (s : State) : Host.Outcome State Fault Refusal :=
  execute (basedDispatch o fun p1 p2 s =>
    (exchangeA (basedEA p1 (s.indexed ix p2)) s).bind fun _ s => finishBased o s) s

/-- BDLD: A, B <- two based words (R416). -/
def execBdld (ix : Bool) (o : IspArgs) (s : State) : Host.Outcome State Fault Refusal :=
  execute (basedDispatch o fun p1 p2 s =>
    (loadPairAt (basedEA p1 (s.indexed ix p2)) (basedEA p1 (s.indexed ix p2 + 1#16)) s).bind fun _ s => finishBased o s) s

/-- BDST: two based words <- A, B (R417). -/
def execBdst (ix : Bool) (o : IspArgs) (s : State) : Host.Outcome State Fault Refusal :=
  execute (basedDispatch o fun p1 p2 s =>
    (storePairAt (basedEA p1 (s.indexed ix p2)) (basedEA p1 (s.indexed ix p2 + 1#16)) s).bind fun _ s => finishBased o s) s

/-- BLBY: A <- the based byte, always indexed by X (R418). -/
def execBlby (_ix : Bool) (o : IspArgs) (s : State) : Host.Outcome State Fault Refusal :=
  execute (basedDispatch o fun p1 p2 s =>
    (loadByteAt (basedEA p1 (s.byteDisp p2)) s).bind fun _ s => finishBased o s) s

/-- BSTBY: the based byte <- the right byte of A (R419). -/
def execBstby (_ix : Bool) (o : IspArgs) (s : State) : Host.Outcome State Fault Refusal :=
  execute (basedDispatch o fun p1 p2 s =>
    (storeByteAt (basedEA p1 (s.byteDisp p2)) s).bind fun _ s => finishBased o s) s

/-- BMOVE: a block of words from page to page, one word an execution (R420). -/
def execBmove (_ix : Bool) (o : IspArgs) (s : State) : Host.Outcome State Fault Refusal :=
  execute (longDispatch o fun p1 p2 s => blockMove (paramWords o) (fun i s =>
    (readAt (basedEA p1 (s.r.A + i)) s).bind fun v s => writeAt (basedEA p2 (s.r.B + i)) v s) s) s

/-- BRBTM: the bit of rank X of a based string <- 0 (R421). -/
def execBrbtm (_ix : Bool) (o : IspArgs) (s : State) : Host.Outcome State Fault Refusal :=
  execute (basedDispatch o fun p1 p2 s => (writeBasedBit p1 p2 false s).bind fun _ s => finishBased o s) s

/-- BSBTM: the bit of rank X of a based string <- 1 (R422). -/
def execBsbtm (_ix : Bool) (o : IspArgs) (s : State) : Host.Outcome State Fault Refusal :=
  execute (basedDispatch o fun p1 p2 s => (writeBasedBit p1 p2 true s).bind fun _ s => finishBased o s) s

/-- BDBTM: the first bit at one of a based string (R423). -/
def execBdbtm (_ix : Bool) (o : IspArgs) (s : State) : Host.Outcome State Fault Refusal :=
  execute (longDispatch o fun p1 p2 s => discoverBit o p1 p2 s) s

/-- CLA: A <- the CDA word (R424). -/
def execCla (ix : Bool) (w2 : Word) (s : State) : Host.Outcome State Fault Refusal :=
  execute (cdaWord ix w2 loadAt) s

/-- CSTA: the CDA word <- A (R425). -/
def execCsta (ix : Bool) (w2 : Word) (s : State) : Host.Outcome State Fault Refusal :=
  execute (cdaWord ix w2 storeAt) s

/-- CXM: A and the CDA word are exchanged in one memory cycle (R426). -/
def execCxm (ix : Bool) (w2 : Word) (s : State) : Host.Outcome State Fault Refusal :=
  execute (cdaWord ix w2 exchangeA) s

/-- CDLD: A, B <- two CDA words (R427). -/
def execCdld (ix : Bool) (w2 : Word) (s : State) : Host.Outcome State Fault Refusal :=
  execute (cdaPair ix w2 loadPairAt) s

/-- CDST: two CDA words <- A, B (R428). -/
def execCdst (ix : Bool) (w2 : Word) (s : State) : Host.Outcome State Fault Refusal :=
  execute (cdaPair ix w2 storePairAt) s

/-- CLBY: A <- the CDA byte (R429). -/
def execClby (_ix : Bool) (w2 : Word) (s : State) : Host.Outcome State Fault Refusal :=
  execute (cdaByte w2 loadByteAt) s

/-- CSTBY: the CDA byte <- the right byte of A (R430). -/
def execCstby (_ix : Bool) (w2 : Word) (s : State) : Host.Outcome State Fault Refusal :=
  execute (cdaByte w2 storeByteAt) s

/-- XENT: SVC 4 where ISP16 is absent; where it is present its flowchart is lost, U17 (R431). -/
def execXent (_ix : Bool) (_w2 : Word) (s : State) : Host.Outcome State Fault Refusal :=
  execute (ispDispatch fun _ => .refuse .procedureFlowchartLost) s

/-- XSOR: as XENT, U17 (R432). -/
def execXsor (_ix : Bool) (_w2 : Word) (s : State) : Host.Outcome State Fault Refusal :=
  execute (ispDispatch fun _ => .refuse .procedureFlowchartLost) s

/-- XCTX: SVC 4 where ISP16 is absent, alarm 4 out of the master mode, else its operation is lost, U18 (R433). -/
def execXctx (_ix : Bool) (_w2 : Word) (s : State) : Host.Outcome State Fault Refusal :=
  execute (ispDispatch fun s =>
    if !s.cfg.hasXctx then .refuse .xctxAbsent
    else if !s.st.MS then .alarm .privileged s else .refuse .xctxOperationLost) s

end Sys2Proof.Machine
end

