-- ==== Sys2Proof/Machine/Dispatch.lean ====
section
/-! DEFINITION. The meaning of every instruction, one arm each. -/

namespace Sys2Proof.Machine

def exec (i : Instr) (s : State) : Host.Outcome State Fault Refusal :=
  match i with
  -- Memory-reference instructions
  | .lby m => Sys2Proof.Machine.execLby m s
  | .stby m => Sys2Proof.Machine.execStby m s
  | .cpby m => Sys2Proof.Machine.execCpby m s
  | .xm m => Sys2Proof.Machine.execXm m s
  | .cpz m => Sys2Proof.Machine.execCpz m s
  | .br m => Sys2Proof.Machine.execBr m s
  | .bsr m => Sys2Proof.Machine.execBsr m s
  | .sio m => Sys2Proof.Machine.execSio m s
  | .sb m => Sys2Proof.Machine.execSb m s
  | .ad m => Sys2Proof.Machine.execAd m s
  | .sty m => Sys2Proof.Machine.execSty m s
  | .stx m => Sys2Proof.Machine.execStx m s
  | .stb m => Sys2Proof.Machine.execStb m s
  | .sta m => Sys2Proof.Machine.execSta m s
  | .mp m => Sys2Proof.Machine.execMp m s
  | .dv m => Sys2Proof.Machine.execDv m s
  | .la m => Sys2Proof.Machine.execLa m s
  | .lx m => Sys2Proof.Machine.execLx m s
  | .or m => Sys2Proof.Machine.execOr m s
  | .and m => Sys2Proof.Machine.execAnd m s
  | .eor m => Sys2Proof.Machine.execEor m s
  | .cp m => Sys2Proof.Machine.execCp m s
  | .ly m => Sys2Proof.Machine.execLy m s
  | .lb m => Sys2Proof.Machine.execLb m s
  | .ic m => Sys2Proof.Machine.execIc m s
  | .dc m => Sys2Proof.Machine.execDc m s
  | .rqst m => Sys2Proof.Machine.execRqst m s
  | .rlse m => Sys2Proof.Machine.execRlse m s
  | .act m => Sys2Proof.Machine.execAct m s
  | .lad m => Sys2Proof.Machine.execLad m s
  | .stz m => Sys2Proof.Machine.execStz m s
  | .wait m => Sys2Proof.Machine.execWait m s
  -- Jumps relative to P
  | .jmp d => Sys2Proof.Machine.execJmp d s
  | .nop => Sys2Proof.Machine.execNop s
  | .jnc d => Sys2Proof.Machine.execJnc d s
  | .jnv d => Sys2Proof.Machine.execJnv d s
  | .jncv d => Sys2Proof.Machine.execJncv d s
  | .jc d => Sys2Proof.Machine.execJc d s
  | .jv d => Sys2Proof.Machine.execJv d s
  | .jcv d => Sys2Proof.Machine.execJcv d s
  | .jage d => Sys2Proof.Machine.execJage d s
  | .jane d => Sys2Proof.Machine.execJane d s
  | .jag d => Sys2Proof.Machine.execJag d s
  | .jal d => Sys2Proof.Machine.execJal d s
  | .jae d => Sys2Proof.Machine.execJae d s
  | .jale d => Sys2Proof.Machine.execJale d s
  | .jix d => Sys2Proof.Machine.execJix d s
  | .jdx d => Sys2Proof.Machine.execJdx d s
  -- Immediates of 8 bits
  | .adri r n => Sys2Proof.Machine.execAdri r n s
  | .lai n => Sys2Proof.Machine.execLai n s
  | .lxi n => Sys2Proof.Machine.execLxi n s
  | .ori n => Sys2Proof.Machine.execOri n s
  | .andi n => Sys2Proof.Machine.execAndi n s
  | .eori n => Sys2Proof.Machine.execEori n s
  | .cpi n => Sys2Proof.Machine.execCpi n s
  | .lyi n => Sys2Proof.Machine.execLyi n s
  | .lbi n => Sys2Proof.Machine.execLbi n s
  -- Private formats
  | .psr mask => Sys2Proof.Machine.execPsr mask s
  | .plr mask => Sys2Proof.Machine.execPlr mask s
  | .svc n => Sys2Proof.Machine.execSvc n s
  | .lrm mask => Sys2Proof.Machine.execLrm mask s
  | .arm ix n => Sys2Proof.Machine.execArm ix n s
  -- The functions of first byte '1E
  | .acq => Sys2Proof.Machine.execAcq s
  | .halt => Sys2Proof.Machine.execHalt s
  | .rsr => Sys2Proof.Machine.execRsr s
  | .dbt => Sys2Proof.Machine.execDbt s
  | .step => Sys2Proof.Machine.execStep s
  | .actd => Sys2Proof.Machine.execActd s
  | .quit => Sys2Proof.Machine.execQuit s
  | .pty => Sys2Proof.Machine.execPty s
  | .scy => Sys2Proof.Machine.execScy s
  | .move => Sys2Proof.Machine.execMove s
  | .sbs => Sys2Proof.Machine.execSbs s
  | .push => Sys2Proof.Machine.execPush s
  | .pull => Sys2Proof.Machine.execPull s
  | .ack => Sys2Proof.Machine.execAck s
  | .rsv => Sys2Proof.Machine.execRsv s
  | .romb => Sys2Proof.Machine.execRomb s
  | .dbp => Sys2Proof.Machine.execDbp s
  | .sbp => Sys2Proof.Machine.execSbp s
  | .rbp => Sys2Proof.Machine.execRbp s
  | .dit => Sys2Proof.Machine.execDit s
  | .eit => Sys2Proof.Machine.execEit s
  | .sst => Sys2Proof.Machine.execSst s
  | .rst => Sys2Proof.Machine.execRst s
  | .rdhv => Sys2Proof.Machine.execRdhv s
  | .ipi => Sys2Proof.Machine.execIpi s
  | .rdsi => Sys2Proof.Machine.execRdsi s
  | .lar => Sys2Proof.Machine.execLar s
  | .rdoe => Sys2Proof.Machine.execRdoe s
  | .mvtm => Sys2Proof.Machine.execMvtm s
  | .star => Sys2Proof.Machine.execStar s
  | .woe => Sys2Proof.Machine.execWoe s
  | .mvts => Sys2Proof.Machine.execMvts s
  -- Shifts and bit operations
  | .rbt c => Sys2Proof.Machine.execRbt c s
  | .sbt c => Sys2Proof.Machine.execSbt c s
  | .ibt c => Sys2Proof.Machine.execIbt c s
  | .tbt c => Sys2Proof.Machine.execTbt c s
  | .slrs c => Sys2Proof.Machine.execSlrs c s
  | .slrd c => Sys2Proof.Machine.execSlrd c s
  | .slls c => Sys2Proof.Machine.execSlls c s
  | .slld c => Sys2Proof.Machine.execSlld c s
  | .scrs c => Sys2Proof.Machine.execScrs c s
  | .scrd c => Sys2Proof.Machine.execScrd c s
  | .scls c => Sys2Proof.Machine.execScls c s
  | .scld c => Sys2Proof.Machine.execScld c s
  | .sars c => Sys2Proof.Machine.execSars c s
  | .sard c => Sys2Proof.Machine.execSard c s
  -- Register-register instructions
  | .xr rs rd => Sys2Proof.Machine.execXr rs rd s
  | .lr rs rd => Sys2Proof.Machine.execLr rs rd s
  | .adr rs rd => Sys2Proof.Machine.execAdr rs rd s
  | .sbr rs rd => Sys2Proof.Machine.execSbr rs rd s
  | .orr rs rd => Sys2Proof.Machine.execOrr rs rd s
  | .eorr rs rd => Sys2Proof.Machine.execEorr rs rd s
  | .andr rs rd => Sys2Proof.Machine.execAndr rs rd s
  | .clsr rs rd => Sys2Proof.Machine.execClsr rs rd s
  | .adcr rd => Sys2Proof.Machine.execAdcr rd s
  | .sbcr rd => Sys2Proof.Machine.execSbcr rd s
  | .ngr rs rd => Sys2Proof.Machine.execNgr rs rd s
  | .cpzr rd => Sys2Proof.Machine.execCpzr rd s
  | .cmr rs rd => Sys2Proof.Machine.execCmr rs rd s
  | .cpr rs rd => Sys2Proof.Machine.execCpr rs rd s
  | .swbr rs rd => Sys2Proof.Machine.execSwbr rs rd s
  | .ximr rd => Sys2Proof.Machine.execXimr rd s
  | .adrp rs => Sys2Proof.Machine.execAdrp rs s
  | .lrp rd => Sys2Proof.Machine.execLrp rd s
  -- Floating point FFP16
  | .fneg => Sys2Proof.Machine.execFneg s
  | .fabs => Sys2Proof.Machine.execFabs s
  | .fix => Sys2Proof.Machine.execFix s
  | .flt => Sys2Proof.Machine.execFlt s
  | .norm => Sys2Proof.Machine.execNorm s
  | .fcaz => Sys2Proof.Machine.execFcaz s
  | .fld m => Sys2Proof.Machine.execFld m s
  | .fad m => Sys2Proof.Machine.execFad m s
  | .fmp m => Sys2Proof.Machine.execFmp m s
  | .fdv m => Sys2Proof.Machine.execFdv m s
  | .fst m => Sys2Proof.Machine.execFst m s
  | .fsb m => Sys2Proof.Machine.execFsb m s
  | .fcmz m => Sys2Proof.Machine.execFcmz m s
  | .fcam m => Sys2Proof.Machine.execFcam m s
  -- CDA16
  | .rcda => Sys2Proof.Machine.execRcda s
  | .wcda => Sys2Proof.Machine.execWcda s
  | .drbm => Sys2Proof.Machine.execDrbm s
  | .insq => Sys2Proof.Machine.execInsq s
  | .supq => Sys2Proof.Machine.execSupq s
  | .sfq => Sys2Proof.Machine.execSfq s
  | .slq => Sys2Proof.Machine.execSlq s
  | .sbtm ix n => Sys2Proof.Machine.execSbtm ix n s
  | .rbtm ix n => Sys2Proof.Machine.execRbtm ix n s
  -- XMR
  | .xmr => Sys2Proof.Machine.execXmr s
  -- ISP16
  | .bla ix o => Sys2Proof.Machine.execBla ix o s
  | .bsta ix o => Sys2Proof.Machine.execBsta ix o s
  | .bxm ix o => Sys2Proof.Machine.execBxm ix o s
  | .bdld ix o => Sys2Proof.Machine.execBdld ix o s
  | .bdst ix o => Sys2Proof.Machine.execBdst ix o s
  | .blby ix o => Sys2Proof.Machine.execBlby ix o s
  | .bstby ix o => Sys2Proof.Machine.execBstby ix o s
  | .bmove ix o => Sys2Proof.Machine.execBmove ix o s
  | .brbtm ix o => Sys2Proof.Machine.execBrbtm ix o s
  | .bsbtm ix o => Sys2Proof.Machine.execBsbtm ix o s
  | .bdbtm ix o => Sys2Proof.Machine.execBdbtm ix o s
  | .cla ix w2 => Sys2Proof.Machine.execCla ix w2 s
  | .csta ix w2 => Sys2Proof.Machine.execCsta ix w2 s
  | .cxm ix w2 => Sys2Proof.Machine.execCxm ix w2 s
  | .cdld ix w2 => Sys2Proof.Machine.execCdld ix w2 s
  | .cdst ix w2 => Sys2Proof.Machine.execCdst ix w2 s
  | .clby ix w2 => Sys2Proof.Machine.execClby ix w2 s
  | .cstby ix w2 => Sys2Proof.Machine.execCstby ix w2 s
  | .xent ix w2 => Sys2Proof.Machine.execXent ix w2 s
  | .xsor ix w2 => Sys2Proof.Machine.execXsor ix w2 s
  | .xctx ix w2 => Sys2Proof.Machine.execXctx ix w2 s
  -- The option families the manual does not describe
  | .dap16 sub w2 => Sys2Proof.Machine.execDap16 sub w2 s
  | .vss16 sub w2 => Sys2Proof.Machine.execVss16 sub w2 s
  | .ffm16 sub w2 => Sys2Proof.Machine.execFfm16 sub w2 s

end Sys2Proof.Machine
end

