-- ==== Sys2Proof/Machine/Step.lean ====
section
/-! DEFINITION. One step of the machine, and the placing of an instruction where the next step fetches. -/

namespace Sys2Proof.Machine

/-- One step of the machine (60_exceptions.md R454; Machine/Fetch.lean). -/
def step (s : State) : Host.Outcome State Fault Refusal := machineStep exec s

/-- The state in which the next step fetches and runs the instruction whose bits are `w`, the first word in bits 15..0; every
bit above `nbits` is 0 (log 8). -/
def State.withFetchWord (s : State) (nbits w : Nat) : State :=
  placeWords s.P (tableWords 9 (w % 2 ^ nbits)) s.readied

end Sys2Proof.Machine
end

