-- ==== Sys2Proof/Safety.lean ====
section
/-! DEFINITION. The terms in which claims are stated: which words can be read and written without an alarm or a breakpoint, what
they hold, which instructions are privileged, and the invariant of the machine. Nothing here is used by the step function. -/

namespace Sys2Proof.Machine

/-! Accesses. -/

/-- The word exists and reading it gives its content with no parity error (20_memory.md R72, R73). -/
def State.sound (s : State) (pa : PAddr) : Bool := s.cfg.exists pa && !s.badWord pa

/-- The word exists and storing in it meets no breakpoint (20_memory.md R72, R73). -/
def State.storable (s : State) (pa : PAddr) : Bool := s.cfg.exists pa && !(s.badWord pa && s.st.DEBUG)

/-- The protection lets a program address through (20_memory.md R70). -/
def State.allowed (s : State) (relocated : Bool) (a : Word) : Bool := !relocated || decide (a.toNat ≤ s.limit)

/-- The physical address of a program address (20_memory.md R65, R66). -/
def State.place (s : State) (relocated : Bool) (a : Word) : PAddr := if relocated then s.relocate a else absolute a

/-- Reading the word at a program address raises nothing. -/
def State.canRead (s : State) (relocated : Bool) (a : Word) : Bool := s.allowed relocated a && s.sound (s.place relocated a)

/-- Storing in the word at a program address raises nothing. -/
def State.canWrite (s : State) (relocated : Bool) (a : Word) : Bool :=
  s.allowed relocated a && s.storable (s.place relocated a)

/-- The content of the word at a program address. -/
def State.wordAt (s : State) (relocated : Bool) (a : Word) : Word := readWord s.mem (s.place relocated a)

/-- The state after a store at a program address. -/
def State.put (s : State) (relocated : Bool) (a v : Word) : State := s.store (s.place relocated a) v

/-- The words at the listed absolute addresses can be read and written, and nothing is raised. -/
def State.calm (s : State) (l : List Word) : Prop := ∀ a ∈ l, s.sound (absolute a) = true

/-- `n` addresses from `a` on. -/
def wordsFrom (a : Word) (n : Nat) : List Word := (List.range n).map fun i => a + BitVec.ofNat 16 i

/-- The content of the word at an absolute address. -/
def State.abs (s : State) (a : Word) : Word := readWord s.mem (absolute a)

/-! Operands of memory-reference instructions. -/

/-- The effective address of a word operand (30_encoding.md R102). -/
def State.effective (s : State) (m : MemRef) : Word :=
  if m.ind then relayAddress (s.wordAt s.relocated (s.direct m)) s.r.X else s.direct m

/-- The effective address of a byte operand and the half it lies in (30_encoding.md R103). -/
def State.effectiveByte (s : State) (m : MemRef) : Word × Bool :=
  if m.ind then relayByte (s.wordAt s.relocated (s.direct m)) s.r.X else (s.direct m, false)

/-- The relay, if there is one, can be read. -/
def State.relayOk (s : State) (m : MemRef) : Bool := !m.ind || s.canRead s.relocated (s.direct m)

/-- The operand of a memory-reference instruction can be read. -/
def State.operandOk (s : State) (m : MemRef) : Bool := s.relayOk m && s.canRead s.relocated (s.effective m)

/-- The operand word of a memory-reference instruction. -/
def State.operand (s : State) (m : MemRef) : Word := s.wordAt s.relocated (s.effective m)

/-- The byte operand can be read. -/
def State.byteOk (s : State) (m : MemRef) : Bool := s.relayOk m && s.canRead s.relocated (s.effectiveByte m).1

/-- The byte operand. -/
def State.byteOperand (s : State) (m : MemRef) : Byte :=
  byteOf (s.wordAt s.relocated (s.effectiveByte m).1) (s.effectiveByte m).2

/-- `EAbyte` as a relation (30_encoding.md R103): `wa` and `right` are the word and the half a byte operand lies in, and the relay,
if there is one, can be read. -/
def State.byteTarget (s : State) (m : MemRef) (wa : Word) (right : Bool) : Prop :=
  (m.ind = false ∧ wa = s.direct m ∧ right = false)
    ∨ (m.ind = true ∧ s.canRead s.relocated (s.direct m) = true ∧ wa = s.wordAt s.relocated (s.direct m)
      ∧ wa.toNat < 32768 ∧ right = false)
    ∨ (m.ind = true ∧ s.canRead s.relocated (s.direct m) = true
      ∧ 32768 ≤ (s.wordAt s.relocated (s.direct m)).toNat
      ∧ (wa.toNat : Int) = ((s.wordAt s.relocated (s.direct m)).toNat - 32768 + s16 s.r.X / 2) % 65536
      ∧ (right = true ↔ s.r.X.toNat % 2 = 1))

/-! Outcomes. -/

/-- The state with the mark of a completed instruction. -/
def State.completed (s : State) : State := { s with phase := .completed }

/-- The end of an instruction of `n` words that does not transfer control: P moves past it (10_state.md R14). -/
def State.ends (s : State) (n : Nat) : State := (s.advance n).completed

/-- The end of an instruction that transfers control to `p`. -/
def State.goes (s : State) (p : Word) : State := { s with P := p, phase := .completed }

/-- The general registers, the status and the memory aside, nothing has changed but P, the mark of the execution, the memory of a
breakpoint met and the count of free values used. -/
def State.sameSystem (s t : State) : Prop :=
  t.cfg = s.cfg ∧ t.SLO = s.SLO ∧ t.SLE = s.SLE ∧ t.IM = s.IM ∧ t.HV = s.HV ∧ t.ipiRequest = s.ipiRequest
    ∧ t.othersIpi = s.othersIpi ∧ t.powerFailPending = s.powerFailPending ∧ t.powerFailActive = s.powerFailActive
    ∧ t.stepArmed = s.stepArmed ∧ t.alarmStop = s.alarmStop ∧ t.autoRestartInhibited = s.autoRestartInhibited
    ∧ t.haltLeft = s.haltLeft ∧ t.held = s.held ∧ t.heldOperands = s.heldOperands ∧ t.stopDelay = s.stopDelay
    ∧ t.couplers = s.couplers ∧ t.channels = s.channels ∧ t.inputs = s.inputs

/-- The bits of ST that are not V and Cf. -/
def State.sameModes (s t : State) : Prop := t.st = { s.st with V := t.st.V, Cf := t.st.Cf }

/-- Every byte of memory but those of the word at `pa` reads as before. -/
def State.memorySameBut (s t : State) (pa : PAddr) : Prop :=
  ∀ a : Nat, a ≠ 2 * pa.toNat → a ≠ 2 * pa.toNat + 1 → readByte t.mem a = readByte s.mem a

/-- Every byte of memory reads as before. -/
def State.memorySame (s t : State) : Prop := ∀ a : Nat, readByte t.mem a = readByte s.mem a

/-! Modes and privilege. -/

/-- Slave mode, where privileged instructions raise alarm 4 (45_system.md R300): MS = 0, on a machine that has the slave mode,
and not the privileged mode. -/
def State.slave (s : State) : Bool := !s.cfg.is0405 && !s.st.MS && !(s.cfg.hasPrivMode && s.st.PR)

/-- The privileged instructions (60_exceptions.md R490) whose option is present (XCTX is apart: master mode only). -/
def Instr.privileged (c : Config) : Instr → Bool
  | .acq | .dit | .eit | .ximr _ | .rdhv | .step | .sio _ | .ipi | .rdsi | .romb | .sst | .rst | .rdoe | .woe | .lar | .star
  | .mvtm | .mvts | .sbp | .rbp | .dbp => true
  | .arm _ _ | .rqst _ | .rlse _ | .wait _ | .act _ => c.hasSched
  | .bla _ _ | .bsta _ _ | .bxm _ _ | .bdld _ _ | .bdst _ _ | .blby _ _ | .bstby _ _ | .bmove _ _ | .brbtm _ _ | .bsbtm _ _
  | .bdbtm _ _ => c.hasIsp16
  | _ => false

/-- The instructions that address the common data area (48_cda_lists.md R398, 49_isp16.md R412). -/
def Instr.cdaStore : Instr → Bool
  | .wcda | .csta _ _ | .cxm _ _ | .cdst _ _ | .cstby _ _ => true
  | _ => false

/-! What an instruction may change. -/

/-- The registers an instruction may change, and whether it may change V and Cf, for the instructions that store nothing and leave
the system alone (40_load_store_exchange.md to 44_branch.md): the destination, X of JIX, JDX, SBS and DBT, K of RSR and PLR. -/
def Instr.frame : Instr → Option (List Reg × Bool)
  | .la _ | .lad _ | .lby _ | .lai _ | .or _ | .and _ | .eor _ | .ori _ | .andi _ | .eori _ => some ([.a], false)
  | .lb _ | .lbi _ => some ([.b], false)
  | .lx _ | .lxi _ | .jix _ | .jdx _ => some ([.x], false)
  | .ly _ | .lyi _ => some ([.y], false)
  | .ad _ | .sb _ | .slrs _ | .slls _ | .scrs _ | .scls _ | .sars _ => some ([.a], true)
  | .mp _ | .dv _ | .slrd _ | .slld _ | .scrd _ | .scld _ | .sard _ => some ([.a, .b], true)
  | .rbt _ | .sbt _ | .ibt _ => some ([.a, .b], false)
  | .cp _ | .cpz _ | .cpby _ | .cpi _ | .cpr _ _ | .cpzr _ | .pty | .scy | .tbt _ => some ([], true)
  | .dbt | .sbs => some ([.x], true)
  | .br _ | .jmp _ | .nop | .jnc _ | .jnv _ | .jncv _ | .jc _ | .jv _ | .jcv _ | .jage _ | .jane _ | .jag _ | .jal _ | .jae _
  | .jale _ | .adrp _ => some ([], false)
  | .lr _ rd | .orr _ rd | .eorr _ rd | .andr _ rd | .clsr _ rd | .cmr _ rd | .swbr _ rd | .lrp rd => some ([rd], false)
  | .adri rd _ | .adr _ rd | .sbr _ rd | .ngr _ rd | .adcr rd | .sbcr rd => some ([rd], true)
  | .xr rs rd => some ([rs, rd], false)
  | .lrm mask => some (selectedRegs mask, false)
  | .plr mask => some (.k :: selectedRegs mask, false)
  | .rsr => some ([.k], false)
  | _ => none

/-- The operand an instruction stores a word in, the registers it may change and whether it may change V and Cf
(40_load_store_exchange.md, 43_byte_misc.md). -/
def Instr.stores : Instr → Option (MemRef × List Reg × Bool)
  | .sta m | .stb m | .stx m | .sty m | .stz m => some (m, [], false)
  | .xm m => some (m, [.a], false)
  | .ic m | .dc m => some (m, [], true)
  | _ => none

/-- Nothing has changed but the registers `rs`, V and Cf if `flags`, memory, P and the marks of the model. -/
def State.onlyRegs (s t : State) (rs : List Reg) (flags : Bool) : Prop :=
  s.sameSystem t ∧ s.sameModes t ∧ (∀ r, r ∉ rs → t.reg r = s.reg r)
    ∧ (flags = false → t.st.V = s.st.V ∧ t.st.Cf = s.st.Cf)

/-! Calls of the supervisor and absent extensions (44_branch.md R276, 30_encoding.md R118). -/

/-- One push on the K stack. -/
def State.pushed (s : State) (v : Word) : State := (s.put s.stackRelocated (s.r.K + 1#16) v).setReg .k (s.r.K + 1#16)

/-- The address of the vector SVC takes in the mode in force. -/
def State.svcVector (s : State) : Word :=
  if s.st.MS || s.cfg.is0405 then 0x0004#16 else if s.cfg.hasPrivMode && s.st.PR then 0x001F#16 else 0x0005#16

/-- MS and SVCS as SVC leaves them. -/
def State.supervisor (s : State) : State :=
  if s.st.MS || s.cfg.is0405 then s else { s with st := { s.st with MS := true, SVCS := true } }

/-- The state after SVC n with the given return address. -/
def State.svcDone (s : State) (n : Byte) (ret : Word) : State :=
  ((s.setReg .x (zext8 n)).pushed ret).supervisor.goes (((s.setReg .x (zext8 n)).pushed ret).abs s.svcVector)

/-- SVC meets no alarm. -/
def State.svcOk (s : State) : Bool :=
  s.canWrite s.stackRelocated (s.r.K + 1#16) && s.sound (absolute s.svcVector)

/-- The state after an instruction of an absent extension family n. -/
def State.absentDone (s : State) (n : Byte) : State := (s.pushed s.r.X).svcDone n (s.P + 2#16)

/-- An instruction of an absent extension meets no alarm. -/
def State.absentOk (s : State) : Bool :=
  s.canWrite s.stackRelocated (s.r.K + 1#16) && s.canWrite s.stackRelocated (s.r.K + 2#16)
    && s.sound (absolute s.svcVector)

/-! Operands of ISP16 and CDA16. -/

/-- The address a parameter word designates (30_encoding.md R116). -/
def State.pointer (s : State) (w : Word) : Word :=
  match s.cfg.isp.ptr with
  | .direct => w
  | .memoryReference =>
    match memRefOf w with
    | some m => s.effective m
    | none => w

/-- The relay of a parameter word, if there is one, can be read. -/
def State.pointerOk (s : State) (w : Word) : Bool :=
  match s.cfg.isp.ptr with
  | .direct => true
  | .memoryReference =>
    match memRefOf w with
    | some m => s.relayOk m
    | none => true

/-- The parameters of a based instruction (49_isp16.md R411). -/
def State.params (s : State) : IspArgs → Word × Word
  | .regs w2 => (s.reg (ispRegs s.cfg.isp w2).1, s.reg (ispRegs s.cfg.isp w2).2)
  | .mem w2 w3 => (s.wordAt s.relocated (s.pointer w2), s.wordAt s.relocated (s.pointer w3))

/-- The parameters can be read. -/
def State.paramsOk (s : State) : IspArgs → Bool
  | .regs _ => true
  | .mem w2 w3 => s.pointerOk w2 && s.canRead s.relocated (s.pointer w2) && s.pointerOk w3
      && s.canRead s.relocated (s.pointer w3)

/-- A based instruction runs: ISP16 present, allowed in this mode, parameters readable. -/
def State.basedOk (s : State) (o : IspArgs) : Bool := s.cfg.hasIsp16 && !s.slave && s.paramsOk o

/-- OCDA and ECDA (48_cda_lists.md R398). -/
def State.cdaLim (s : State) : Word × Word := (s.abs 0x0018#16, s.abs 0x0019#16)

/-- OCDA and ECDA can be read. -/
def State.cdaReady (s : State) : Bool := s.sound (absolute 0x0018#16) && s.sound (absolute 0x0019#16)

/-- The displacement D16 of a CDA instruction (49_isp16.md R412). -/
def State.cdaD16 (s : State) (w2 : Word) : Word := s.wordAt s.relocated (s.pointer w2)

/-- A CDA instruction of ISP16 finds its displacement and the limits. -/
def State.cdaOperandOk (s : State) (w2 : Word) : Bool :=
  s.cfg.hasIsp16 && s.pointerOk w2 && s.canRead s.relocated (s.pointer w2) && s.cdaReady

/-! Long instructions. -/

/-- The end of a slice of a long instruction: P stays at the instruction (70_reset_and_hazards.md R556). -/
def State.paused (s : State) : State := { s with phase := .interrupted }

/-- The state after a block move has moved one word from `src` to `dst`: X counts down and the instruction pauses, after the last
word too (43_byte_misc.md R256, 70_reset_and_hazards.md R556). -/
def State.moved (s : State) (src dst : PAddr) : State :=
  ((s.store dst (readWord s.mem src)).setReg .x (s.r.X - 1#16)).paused

/-- The state of a long instruction that holds the operands it has read, or none when it has ended. -/
def State.keeps (s : State) (p : Option (Word × Word)) : State := { s with heldOperands := p }

/-- The parameters of BMOVE and BDBTM: those held, else those the instruction reads (49_isp16.md R411, R420, R423). -/
def State.paramsHeld (s : State) (o : IspArgs) : Word × Word := s.heldOperands.getD (s.params o)

/-- BMOVE or BDBTM runs, its parameters being held or readable. -/
def State.longOk (s : State) (o : IspArgs) : Bool :=
  s.cfg.hasIsp16 && !s.slave && (s.heldOperands.isSome || s.paramsOk o)

/-- The limits RCDA and WCDA work between (48_cda_lists.md R398, R401, R402): those held, else OCDA and ECDA, checked against the
zone of X words from A on. -/
def State.zoneOk (s : State) (lim : Word × Word) : Prop :=
  s.heldOperands = some lim
    ∨ (s.heldOperands = none ∧ s.cdaReady = true ∧ lim = s.cdaLim
      ∧ lim.1.toNat * 16 + (s.r.A.toNat + (s.r.X - 1#16).toNat) ≤ lim.2.toNat * 16 + 15)

/-! Contexts and alarms. -/

/-- The four words of the partial context at `a` (60_exceptions.md R455). -/
def contextAt (a : Word) : List Word := [a, a + 1#16, a + 2#16, a + 3#16]

/-- The registers C, K, P, S exchanged with the four words at `a` (60_exceptions.md R455); the context taken starts with a
fetch. -/
def State.exchanged (s : State) (a : Word) : State :=
  { ((((s.store (absolute a) s.r.C).store (absolute (a + 1#16)) s.r.K).store (absolute (a + 2#16)) s.P).store
      (absolute (a + 3#16)) s.st.sWord) with
    r := { s.r with C := s.abs a, K := s.abs (a + 1#16) }
    P := s.abs (a + 2#16)
    st := s.st.loadS (s.abs (a + 3#16))
    held := []
    heldOperands := none }

/-- `PSTH(i)` (60_exceptions.md R455). -/
def State.psthOf (s : State) (i : Nat) : Word := s.abs 0x0002#16 + BitVec.ofNat 16 (4 * i)

/-- The entry i of the PSTH does not hold word '0002, which points to the PSTH. -/
def State.psthApart (s : State) (i : Nat) : Prop :=
  s.psthOf i ≠ 0x0002#16 ∧ s.psthOf i + 1#16 ≠ 0x0002#16 ∧ s.psthOf i + 2#16 ≠ 0x0002#16 ∧ s.psthOf i + 3#16 ≠ 0x0002#16

/-- The entry i of the PSTH is the context of a task in master mode (60_exceptions.md R456). -/
def State.psthMaster (s : State) (i : Nat) : Prop := bit (s.abs (s.psthOf i + 3#16)) 0 = true ∨ s.cfg.is0405 = true

/-- An alarm is taken by the alarm task, and nothing is raised on the way (60_exceptions.md R465). -/
structure State.AlarmReady (s : State) : Prop where
  calm : s.calm (0x0002#16 :: contextAt (s.psthOf 0))
  canonical : Memory.wf s.mem = true
  running : s.powerFailActive = false ∧ s.inAlarmTask = false
  apart : s.psthApart 0
  master : s.psthMaster 0

/-- The state after alarm n (60_exceptions.md R465): HV[0] is 1, C, K, P, S are exchanged with PSTH(0), and the right byte of the
saved S word is the number of the alarm. -/
def State.alarmTaken (s : State) (n : Alarm) : State :=
  ({ s with HV := setBit s.HV 0 true, breakSeen := false }.exchanged (s.psthOf 0)).store (absolute (s.psthOf 0 + 3#16))
    (ofBytes (hi s.st.sWord) n.number)

/-- The state after an instruction that ends in alarm n, P being saved as `p`. -/
def State.abandonedBy (s : State) (n : Alarm) (p : Word) : State :=
  { s with P := p, phase := .abandoned, breakSeen := false }.alarmTaken n

/-! The scheduler. -/

/-- The bit of task n in the queue at `q` (47_scheduler.md R379). -/
def State.queueBit (s : State) (q : Word) (n : Nat) : Bool := bit (s.abs (stringWord q n)) (n % 16)

/-- The least task that is armed and unmasked (47_scheduler.md R371). -/
def State.electedTask (s : State) : Option Nat :=
  (List.range 128).find? fun n => s.queueBit 0x0020#16 n && s.queueBit 0x0028#16 n

/-- The number of the running deferred task (47_scheduler.md R379). -/
def State.runningTask (s : State) : Nat := (s.abs 0x0000#16).toNat % 128

/-- A bit of a queue at an absolute address is set or cleared. -/
def State.withQueueBit (s : State) (q : Word) (n : Nat) (b : Bool) : State :=
  s.store (absolute (stringWord q n)) (setBit (s.abs (stringWord q n)) (n % 16) b)

/-- `PSTSaddr(n)` (47_scheduler.md R370). -/
def State.pstsOf (s : State) (n : Nat) : Word := s.abs (s.abs 0x0003#16 + BitVec.ofNat 16 n)

/-- The state after words are stored at consecutive absolute addresses. -/
def State.saved (s : State) : Word → List Word → State
  | _, [] => s
  | a, v :: vs => (s.store (absolute a) v).saved (a + 1#16) vs

/-- The state with the full context at `b` loaded (47_scheduler.md R372), SLE as it was written (20_memory.md R69, log 14). -/
def State.loaded (s : State) (b : Word) : State :=
  { s with
    r := { A := s.abs b, B := s.abs (b + 1#16), X := s.abs (b + 2#16), Y := s.abs (b + 3#16), C := s.abs (b + 4#16)
           L := s.abs (b + 5#16), W := s.abs (b + 6#16), K := s.abs (b + 7#16) }
    P := s.abs (b + 8#16)
    st := s.st.loadS (s.abs (b + 9#16))
    SLO := if s.cfg.hasDrps then s.abs (b + 10#16) else s.SLO
    SLE := if s.cfg.hasDrps then s.abs (b + 11#16) else s.SLE }

/-- `FullSwitch(old, new)` (47_scheduler.md R372): the full context of the task left is saved, that of the task launched is
loaded, NS takes its number. -/
def State.switched (s : State) (old new : Nat) : State :=
  ((s.saved (s.pstsOf old) s.contextWords).loaded ((s.saved (s.pstsOf old) s.contextWords).pstsOf new)).store
    (absolute 0x0000#16) (BitVec.ofNat 16 new)

/-- `Reschedule()` (47_scheduler.md R371): nothing when the elected task runs; else it is launched, or task 0 in its place,
armed, with NL taking its number. -/
def State.elects (s : State) : State :=
  match s.electedTask with
  | none => s
  | some n =>
    if n = s.runningTask then s
    else if s.queueBit 0x0030#16 n then s.switched s.runningTask n
    else ((s.withQueueBit 0x0020#16 0 true).store (absolute 0x0001#16) (BitVec.ofNat 16 n)).switched s.runningTask 0

/-- The words `FullSwitch(old, new)` reads and writes (47_scheduler.md R370, R372): the address of the PSTS, the entry of each task
and the twelve words it designates, NS. -/
def State.switchWords (s : State) (old new : Nat) : List Word :=
  [0x0003#16, s.abs 0x0003#16 + BitVec.ofNat 16 old] ++ wordsFrom (s.pstsOf old) 12
    ++ ((s.saved (s.pstsOf old) s.contextWords).abs 0x0003#16 + BitVec.ofNat 16 new)
    :: wordsFrom ((s.saved (s.pstsOf old) s.contextWords).pstsOf new) 12 ++ [0x0000#16]

/-- The words `Reschedule()` reads and writes (47_scheduler.md R371): NS, the whole of ASTF and ESTF, and where another task is to
run its RSTF word, word 0 of ASTF and NL if task 0 takes its place, and the words of the switch. -/
def State.electWords (s : State) : List Word :=
  0x0000#16 :: wordsFrom 0x0020#16 16 ++
    match s.electedTask with
    | none => []
    | some n =>
      if n = s.runningTask then []
      else stringWord 0x0030#16 n :: (if s.queueBit 0x0030#16 n then s.switchWords s.runningTask n
        else [0x0020#16, 0x0001#16] ++ ((s.withQueueBit 0x0020#16 0 true).store (absolute 0x0001#16)
          (BitVec.ofNat 16 n)).switchWords s.runningTask 0)

/-- A deferred task can be elected: one is armed and unmasked (47_scheduler.md R384), and the election raises nothing. -/
def State.electionOk (s : State) : Prop := s.electedTask ≠ none ∧ s.calm s.electWords

/-- What a scheduler instruction leaves after its effect on the queues has given `s` (47_scheduler.md R379, R383): the masks IOM
and IPM cleared, P after the instruction, the election if a deferred task runs, any value `v` in WSCHED. -/
def State.epilogue (s : State) (v : Word) : State :=
  { (if s.inImmediate then s.unmask.ends 1 else (s.unmask.ends 1).elects).store 0x0000F#20 v with
    freeCount := s.freeCount + 1 }

/-- The epilogue is defined: word '000F exists, and an immediate task runs or a deferred one can be elected (47_scheduler.md R379,
R384). -/
def State.schedulable (s : State) : Prop :=
  s.cfg.exists 0x0000F#20 = true ∧ (s.inImmediate = true ∨ (s.unmask.ends 1).electionOk)

/-- Counter, signed, of a semaphore word after a change of d (47_scheduler.md R380 to R382). -/
def counted (w : Word) (d : Int) : Byte := BitVec.ofInt 8 (w.toNat + d)

/-- The bits of ST that SST and RST write, with their positions (45_system.md R321); IPM is not on a 04/05 (10_state.md R22). -/
def stBits (c : Config) : List (Nat × (Status → Bool)) :=
  [(0, Status.MS), (1, Status.SVCS), (2, Status.PR), (6, Status.V), (7, Status.Cf), (8, Status.DEBUG), (c.stLcm, Status.LCM),
   (c.stIom, Status.IOM), (c.stMaint, Status.MAINT), (c.stStop, Status.STOP), (c.stPop, Status.POP)]
    ++ if c.hasIpm then [(c.stIpm, Status.IPM)] else []

/-- `w` is the image of the status of `s` (45_system.md R321). -/
def State.imaged (s : State) (w : Word) : Prop :=
  (∀ b ∈ stBits s.cfg ++ [(s.cfg.stSched, Status.SCHED)], bit w b.1 = b.2 s.st)
    ∧ ∀ i, i ∉ (stBits s.cfg ++ [(s.cfg.stSched, Status.SCHED)]).map Prod.fst → bit w i = false

/-! Numbers. -/

/-- V and Cf of an addition: signed overflow and carry (41_arithmetic_compare.md R170). -/
def sumFlags (a b : Word) (v c : Bool) : Prop :=
  (v = true ↔ s16 a + s16 b < -32768 ∨ 32767 < s16 a + s16 b) ∧ (c = true ↔ 65536 ≤ a.toNat + b.toNat)

/-- V and Cf of a subtraction: signed overflow and borrow (41_arithmetic_compare.md R171). -/
def differenceFlags (a b : Word) (v c : Bool) : Prop :=
  (v = true ↔ s16 a - s16 b < -32768 ∨ 32767 < s16 a - s16 b) ∧ (c = true ↔ a.toNat < b.toNat)

/-- V and Cf of a comparison: equal, and less (41_arithmetic_compare.md R172). -/
def comparisonFlags (x y : Int) (v c : Bool) : Prop := (v = true ↔ x = y) ∧ (c = true ↔ x < y)

/-- The number of positions of a shift, or the rank of a bit operation (30_encoding.md R108). -/
def State.positions (s : State) (c : Count) : Nat := (c.n.toNat + (if c.ix then s.r.X.toNat else 0)) % 32

/-- The value of a floating-point number (46_float.md R341). -/
def floatValue (x : Word × Word) : ℚ := (mant x.1 x.2 : ℚ) * (2 : ℚ) ^ (expo x.1 - 23)

/-- V and Cf of a comparison of two floating-point values (46_float.md R347, R355). -/
def realFlags (x y : ℚ) (v c : Bool) : Prop := (v = true ↔ x = y) ∧ (c = true ↔ x < y)

/-- `FResult(x)` as a relation (46_float.md R341; the rounding is D29, log 25): zero gives FZERO; else x, of magnitude between
2^(e-1) and 2^e, is taken to the nearest multiple of 2^(e-23), a tie going up, and written with a normalised mantissa m and an
exponent f, or it is an overflow or an underflow by f. -/
def rounded (x : ℚ) (r : FloatResult) : Prop :=
  (x = 0 ∧ r = .value fzero)
    ∨ ∃ e f m : ℤ, (2 : ℚ) ^ (e - 1) ≤ |x| ∧ |x| < (2 : ℚ) ^ e
      ∧ (m : ℚ) * (2 : ℚ) ^ (f - 23) = (⌊x * (2 : ℚ) ^ (23 - e) + 1 / 2⌋ : ℚ) * (2 : ℚ) ^ (e - 23)
      ∧ (2 ^ 22 ≤ m.natAbs ∧ m.natAbs < 2 ^ 23)
      ∧ r = (if 127 < f then .overflow else if f < -128 then .underflow else .value (pack m f))

/-- The state after the bits `mask` are set in the exception word CW, at C - 128 (46_float.md R341). -/
def State.flagged (s : State) (mask : Word) : State :=
  s.put s.relocated (s.r.C - 128#16) (s.wordAt s.relocated (s.r.C - 128#16) ||| mask)

/-- An outcome with A and B meaningless, V = 1 and the event `mask` in CW (46_float.md R341, U11). -/
def State.meaningless (s : State) (mask : Word) (o : Host.Outcome State Fault Refusal) : Prop :=
  s.canRead s.relocated (s.r.C - 128#16) = true → ∃ (a b : Word) (n : Nat),
    o = .next ((({ (s.setPair (a, b)).setVC true false with freeCount := n } : State).flagged mask).ends 2)

/-- What an outcome is when the operation delivers r (46_float.md R341): A, B, V, Cf, and the event in CW. -/
def State.floated (s : State) (r : FloatResult) (o : Host.Outcome State Fault Refusal) : Prop :=
  match r with
  | .value w => o = .next (((s.setPair w).setVC false false).ends 2)
  | .underflow => s.canRead s.relocated (s.r.C - 128#16) = true →
    o = .next ((((s.setPair (0x0080#16, 0x0000#16)).setVC false true).flagged 0x8000#16).ends 2)
  | .overflow => s.meaningless 0x4000#16 o
  | .divideByZero => s.meaningless 0x2000#16 o
  | .fixImpossible => s.meaningless 0x1000#16 o

/-- The two words of a floating-point operand can be read (46_float.md R348). -/
def State.pairOk (s : State) (m : MemRef) : Bool :=
  s.operandOk m && s.canRead s.relocated (s.effective m + 1#16)

/-- The two words of a floating-point operand. -/
def State.pair (s : State) (m : MemRef) : Word × Word := (s.operand m, s.wordAt s.relocated (s.effective m + 1#16))

/-- The operator takes two operands (46_float.md R340, U10): it takes unnormalised ones, or both are normalised. -/
def State.operatorTakes (s : State) (m : MemRef) : Bool :=
  !s.cfg.ffpUnnormSvc
    || (normalised (mant s.r.A s.r.B) (expo s.r.A) && normalised (mant (s.pair m).1 (s.pair m).2) (expo (s.pair m).1))

/-- Executes an instruction n times, stopping at the first fault or refusal. -/
def repeated (i : Instr) : Nat → State → Host.Outcome State Fault Refusal
  | 0, s => .next s
  | n + 1, s =>
    match exec i s with
    | .next t => repeated i n t
    | .fault r => .fault r
    | .refused r => .refused r

/-- n steps of the machine, stopping at the first fault or refusal. -/
def steps : Nat → State → Host.Outcome State Fault Refusal
  | 0, s => .next s
  | n + 1, s =>
    match step s with
    | .next t => steps n t
    | .fault r => .fault r
    | .refused r => .refused r

/-! Steps. -/

/-- The next step executes an instruction, or goes on with a long one: no event is first, the machine runs, no HALT is in progress
and nothing is electable (60_exceptions.md R454). -/
def State.ready (s : State) : Prop :=
  s.inputs = [] ∧ s.stopped = false ∧ s.haltLeft = 0 ∧ s.electable = .idle

/-- The channel `t` stands after the datum `c` stood at (61_io_debug.md R522, R524): the right byte of the same word after a left
byte (D51), else the next word on the 16 low bits of the address. -/
def Channel.follows (c t : Channel) : Prop :=
  if c.isByte = true ∧ c.rightNext = false then t.addr = c.addr ∧ t.rightNext = true
  else t.rightNext = false
    ∧ t.addr.toNat = if c.addr.toNat % 65536 = 65535 then c.addr.toNat - 65535 else c.addr.toNat + 1

/-- `x` is the word `old` with the datum `w` put in it: whole, or as the right or the left byte (61_io_debug.md R524). -/
def putDatum (isByte right : Bool) (old w x : Word) : Prop :=
  if isByte = false then x = w
  else if right = true then hi x = hi old ∧ lo x = lo w
  else hi x = lo w ∧ lo x = lo old

/-- No unit executes the family n of the first word `w` (30_encoding.md R113, R118, R123, log 34); on a 35 the unit of RCDA and WCDA
takes '3F00. -/
def State.lacksUnit (s : State) (n : BitVec 3) (w : Word) : Prop :=
  (n = 0#3 → s.cfg.hasFfp16 = false) ∧ (n = 4#3 → s.cfg.hasIsp16 = false)
    ∧ (n = 7#3 → s.cfg.hasCda16 = false ∧ ¬(s.cfg.hasCdaRwOnly = true ∧ w = 0x3F00#16))

/-- The next step fetches: in addition no long instruction is in progress (70_reset_and_hazards.md R556). -/
def State.fetches (s : State) : Prop := s.ready ∧ s.held = []

/-- The invariant: memory has its canonical form and lists only bytes of words that exist; the words in bad parity exist and
rise; a HALT has less than 65536 periods left; only a long instruction in progress holds operands; SCHED is 0. -/
structure State.Inv (s : State) : Prop where
  canonical : Memory.wf s.mem = true
  inMemory : ∀ c ∈ s.mem, c.1 < 2 ^ 21 ∧ s.cfg.exists (BitVec.ofNat 20 (c.1 / 2)) = true
  parityRises : risingFrom 0 s.badParity = true
  parityExists : ∀ n ∈ s.badParity, n < 2 ^ 20 ∧ s.cfg.exists (BitVec.ofNat 20 n) = true
  haltFits : s.haltLeft < 65536
  operandsHeld : s.held = [] → s.heldOperands = none
  schedClear : s.st.SCHED = false

end Sys2Proof.Machine
end

