-- ==== Sys2Proof/Laws/State.lean ====
section
/-! SUPPORT. Reading a field after an update: one lemma per field per update (refs: no later proof unfolds an update). -/

namespace Sys2Proof.Machine

/-! `setVC`. -/

@[simp] theorem State.setVC_cfg (s : State) (v c : Bool) : (s.setVC v c).cfg = s.cfg := rfl
@[simp] theorem State.setVC_r (s : State) (v c : Bool) : (s.setVC v c).r = s.r := rfl
@[simp] theorem State.setVC_P (s : State) (v c : Bool) : (s.setVC v c).P = s.P := rfl
@[simp] theorem State.setVC_SLO (s : State) (v c : Bool) : (s.setVC v c).SLO = s.SLO := rfl
@[simp] theorem State.setVC_SLE (s : State) (v c : Bool) : (s.setVC v c).SLE = s.SLE := rfl
@[simp] theorem State.setVC_IM (s : State) (v c : Bool) : (s.setVC v c).IM = s.IM := rfl
@[simp] theorem State.setVC_HV (s : State) (v c : Bool) : (s.setVC v c).HV = s.HV := rfl
@[simp] theorem State.setVC_mem (s : State) (v c : Bool) : (s.setVC v c).mem = s.mem := rfl
@[simp] theorem State.setVC_badParity (s : State) (v c : Bool) : (s.setVC v c).badParity = s.badParity := rfl
@[simp] theorem State.setVC_ipiRequest (s : State) (v c : Bool) : (s.setVC v c).ipiRequest = s.ipiRequest := rfl
@[simp] theorem State.setVC_othersIpi (s : State) (v c : Bool) : (s.setVC v c).othersIpi = s.othersIpi := rfl
@[simp] theorem State.setVC_powerFailPending (s : State) (v c : Bool) : (s.setVC v c).powerFailPending = s.powerFailPending := rfl
@[simp] theorem State.setVC_powerFailActive (s : State) (v c : Bool) : (s.setVC v c).powerFailActive = s.powerFailActive := rfl
@[simp] theorem State.setVC_stepArmed (s : State) (v c : Bool) : (s.setVC v c).stepArmed = s.stepArmed := rfl
@[simp] theorem State.setVC_alarmStop (s : State) (v c : Bool) : (s.setVC v c).alarmStop = s.alarmStop := rfl
@[simp] theorem State.setVC_autoRestartInhibited (s : State) (v c : Bool) : (s.setVC v c).autoRestartInhibited = s.autoRestartInhibited := rfl
@[simp] theorem State.setVC_breakSeen (s : State) (v c : Bool) : (s.setVC v c).breakSeen = s.breakSeen := rfl
@[simp] theorem State.setVC_haltLeft (s : State) (v c : Bool) : (s.setVC v c).haltLeft = s.haltLeft := rfl
@[simp] theorem State.setVC_held (s : State) (v c : Bool) : (s.setVC v c).held = s.held := rfl
@[simp] theorem State.setVC_heldOperands (s : State) (v c : Bool) : (s.setVC v c).heldOperands = s.heldOperands := rfl
@[simp] theorem State.setVC_stopDelay (s : State) (v c : Bool) : (s.setVC v c).stopDelay = s.stopDelay := rfl
@[simp] theorem State.setVC_couplers (s : State) (v c : Bool) : (s.setVC v c).couplers = s.couplers := rfl
@[simp] theorem State.setVC_channels (s : State) (v c : Bool) : (s.setVC v c).channels = s.channels := rfl
@[simp] theorem State.setVC_inputs (s : State) (v c : Bool) : (s.setVC v c).inputs = s.inputs := rfl
@[simp] theorem State.setVC_freeCount (s : State) (v c : Bool) : (s.setVC v c).freeCount = s.freeCount := rfl
@[simp] theorem State.setVC_phase (s : State) (v c : Bool) : (s.setVC v c).phase = s.phase := rfl

/-! `advance`. -/

@[simp] theorem State.advance_cfg (s : State) (n : Nat) : (s.advance n).cfg = s.cfg := rfl
@[simp] theorem State.advance_r (s : State) (n : Nat) : (s.advance n).r = s.r := rfl
@[simp] theorem State.advance_st (s : State) (n : Nat) : (s.advance n).st = s.st := rfl
@[simp] theorem State.advance_SLO (s : State) (n : Nat) : (s.advance n).SLO = s.SLO := rfl
@[simp] theorem State.advance_SLE (s : State) (n : Nat) : (s.advance n).SLE = s.SLE := rfl
@[simp] theorem State.advance_IM (s : State) (n : Nat) : (s.advance n).IM = s.IM := rfl
@[simp] theorem State.advance_HV (s : State) (n : Nat) : (s.advance n).HV = s.HV := rfl
@[simp] theorem State.advance_mem (s : State) (n : Nat) : (s.advance n).mem = s.mem := rfl
@[simp] theorem State.advance_badParity (s : State) (n : Nat) : (s.advance n).badParity = s.badParity := rfl
@[simp] theorem State.advance_ipiRequest (s : State) (n : Nat) : (s.advance n).ipiRequest = s.ipiRequest := rfl
@[simp] theorem State.advance_othersIpi (s : State) (n : Nat) : (s.advance n).othersIpi = s.othersIpi := rfl
@[simp] theorem State.advance_powerFailPending (s : State) (n : Nat) : (s.advance n).powerFailPending = s.powerFailPending := rfl
@[simp] theorem State.advance_powerFailActive (s : State) (n : Nat) : (s.advance n).powerFailActive = s.powerFailActive := rfl
@[simp] theorem State.advance_stepArmed (s : State) (n : Nat) : (s.advance n).stepArmed = s.stepArmed := rfl
@[simp] theorem State.advance_alarmStop (s : State) (n : Nat) : (s.advance n).alarmStop = s.alarmStop := rfl
@[simp] theorem State.advance_autoRestartInhibited (s : State) (n : Nat) : (s.advance n).autoRestartInhibited = s.autoRestartInhibited := rfl
@[simp] theorem State.advance_breakSeen (s : State) (n : Nat) : (s.advance n).breakSeen = s.breakSeen := rfl
@[simp] theorem State.advance_haltLeft (s : State) (n : Nat) : (s.advance n).haltLeft = s.haltLeft := rfl
@[simp] theorem State.advance_held (s : State) (n : Nat) : (s.advance n).held = s.held := rfl
@[simp] theorem State.advance_heldOperands (s : State) (n : Nat) : (s.advance n).heldOperands = s.heldOperands := rfl
@[simp] theorem State.advance_stopDelay (s : State) (n : Nat) : (s.advance n).stopDelay = s.stopDelay := rfl
@[simp] theorem State.advance_couplers (s : State) (n : Nat) : (s.advance n).couplers = s.couplers := rfl
@[simp] theorem State.advance_channels (s : State) (n : Nat) : (s.advance n).channels = s.channels := rfl
@[simp] theorem State.advance_inputs (s : State) (n : Nat) : (s.advance n).inputs = s.inputs := rfl
@[simp] theorem State.advance_freeCount (s : State) (n : Nat) : (s.advance n).freeCount = s.freeCount := rfl
@[simp] theorem State.advance_phase (s : State) (n : Nat) : (s.advance n).phase = s.phase := rfl

/-! `pause`. -/

@[simp] theorem State.pause_cfg (s : State) : (s.pause).cfg = s.cfg := rfl
@[simp] theorem State.pause_r (s : State) : (s.pause).r = s.r := rfl
@[simp] theorem State.pause_P (s : State) : (s.pause).P = s.P := rfl
@[simp] theorem State.pause_st (s : State) : (s.pause).st = s.st := rfl
@[simp] theorem State.pause_SLO (s : State) : (s.pause).SLO = s.SLO := rfl
@[simp] theorem State.pause_SLE (s : State) : (s.pause).SLE = s.SLE := rfl
@[simp] theorem State.pause_IM (s : State) : (s.pause).IM = s.IM := rfl
@[simp] theorem State.pause_HV (s : State) : (s.pause).HV = s.HV := rfl
@[simp] theorem State.pause_mem (s : State) : (s.pause).mem = s.mem := rfl
@[simp] theorem State.pause_badParity (s : State) : (s.pause).badParity = s.badParity := rfl
@[simp] theorem State.pause_ipiRequest (s : State) : (s.pause).ipiRequest = s.ipiRequest := rfl
@[simp] theorem State.pause_othersIpi (s : State) : (s.pause).othersIpi = s.othersIpi := rfl
@[simp] theorem State.pause_powerFailPending (s : State) : (s.pause).powerFailPending = s.powerFailPending := rfl
@[simp] theorem State.pause_powerFailActive (s : State) : (s.pause).powerFailActive = s.powerFailActive := rfl
@[simp] theorem State.pause_stepArmed (s : State) : (s.pause).stepArmed = s.stepArmed := rfl
@[simp] theorem State.pause_alarmStop (s : State) : (s.pause).alarmStop = s.alarmStop := rfl
@[simp] theorem State.pause_autoRestartInhibited (s : State) : (s.pause).autoRestartInhibited = s.autoRestartInhibited := rfl
@[simp] theorem State.pause_breakSeen (s : State) : (s.pause).breakSeen = s.breakSeen := rfl
@[simp] theorem State.pause_haltLeft (s : State) : (s.pause).haltLeft = s.haltLeft := rfl
@[simp] theorem State.pause_held (s : State) : (s.pause).held = s.held := rfl
@[simp] theorem State.pause_heldOperands (s : State) : (s.pause).heldOperands = s.heldOperands := rfl
@[simp] theorem State.pause_stopDelay (s : State) : (s.pause).stopDelay = s.stopDelay := rfl
@[simp] theorem State.pause_couplers (s : State) : (s.pause).couplers = s.couplers := rfl
@[simp] theorem State.pause_channels (s : State) : (s.pause).channels = s.channels := rfl
@[simp] theorem State.pause_inputs (s : State) : (s.pause).inputs = s.inputs := rfl
@[simp] theorem State.pause_freeCount (s : State) : (s.pause).freeCount = s.freeCount := rfl

/-! `completed`. -/

@[simp] theorem State.completed_cfg (s : State) : (s.completed).cfg = s.cfg := rfl
@[simp] theorem State.completed_r (s : State) : (s.completed).r = s.r := rfl
@[simp] theorem State.completed_P (s : State) : (s.completed).P = s.P := rfl
@[simp] theorem State.completed_st (s : State) : (s.completed).st = s.st := rfl
@[simp] theorem State.completed_SLO (s : State) : (s.completed).SLO = s.SLO := rfl
@[simp] theorem State.completed_SLE (s : State) : (s.completed).SLE = s.SLE := rfl
@[simp] theorem State.completed_IM (s : State) : (s.completed).IM = s.IM := rfl
@[simp] theorem State.completed_HV (s : State) : (s.completed).HV = s.HV := rfl
@[simp] theorem State.completed_mem (s : State) : (s.completed).mem = s.mem := rfl
@[simp] theorem State.completed_badParity (s : State) : (s.completed).badParity = s.badParity := rfl
@[simp] theorem State.completed_ipiRequest (s : State) : (s.completed).ipiRequest = s.ipiRequest := rfl
@[simp] theorem State.completed_othersIpi (s : State) : (s.completed).othersIpi = s.othersIpi := rfl
@[simp] theorem State.completed_powerFailPending (s : State) : (s.completed).powerFailPending = s.powerFailPending := rfl
@[simp] theorem State.completed_powerFailActive (s : State) : (s.completed).powerFailActive = s.powerFailActive := rfl
@[simp] theorem State.completed_stepArmed (s : State) : (s.completed).stepArmed = s.stepArmed := rfl
@[simp] theorem State.completed_alarmStop (s : State) : (s.completed).alarmStop = s.alarmStop := rfl
@[simp] theorem State.completed_autoRestartInhibited (s : State) : (s.completed).autoRestartInhibited = s.autoRestartInhibited := rfl
@[simp] theorem State.completed_breakSeen (s : State) : (s.completed).breakSeen = s.breakSeen := rfl
@[simp] theorem State.completed_haltLeft (s : State) : (s.completed).haltLeft = s.haltLeft := rfl
@[simp] theorem State.completed_held (s : State) : (s.completed).held = s.held := rfl
@[simp] theorem State.completed_heldOperands (s : State) : (s.completed).heldOperands = s.heldOperands := rfl
@[simp] theorem State.completed_stopDelay (s : State) : (s.completed).stopDelay = s.stopDelay := rfl
@[simp] theorem State.completed_couplers (s : State) : (s.completed).couplers = s.couplers := rfl
@[simp] theorem State.completed_channels (s : State) : (s.completed).channels = s.channels := rfl
@[simp] theorem State.completed_inputs (s : State) : (s.completed).inputs = s.inputs := rfl
@[simp] theorem State.completed_freeCount (s : State) : (s.completed).freeCount = s.freeCount := rfl

/-! `store`. -/

@[simp] theorem State.store_cfg (s : State) (pa : PAddr) (v : Word) : (s.store pa v).cfg = s.cfg := rfl
@[simp] theorem State.store_r (s : State) (pa : PAddr) (v : Word) : (s.store pa v).r = s.r := rfl
@[simp] theorem State.store_P (s : State) (pa : PAddr) (v : Word) : (s.store pa v).P = s.P := rfl
@[simp] theorem State.store_st (s : State) (pa : PAddr) (v : Word) : (s.store pa v).st = s.st := rfl
@[simp] theorem State.store_SLO (s : State) (pa : PAddr) (v : Word) : (s.store pa v).SLO = s.SLO := rfl
@[simp] theorem State.store_SLE (s : State) (pa : PAddr) (v : Word) : (s.store pa v).SLE = s.SLE := rfl
@[simp] theorem State.store_IM (s : State) (pa : PAddr) (v : Word) : (s.store pa v).IM = s.IM := rfl
@[simp] theorem State.store_HV (s : State) (pa : PAddr) (v : Word) : (s.store pa v).HV = s.HV := rfl
@[simp] theorem State.store_ipiRequest (s : State) (pa : PAddr) (v : Word) : (s.store pa v).ipiRequest = s.ipiRequest := rfl
@[simp] theorem State.store_othersIpi (s : State) (pa : PAddr) (v : Word) : (s.store pa v).othersIpi = s.othersIpi := rfl
@[simp] theorem State.store_powerFailPending (s : State) (pa : PAddr) (v : Word) : (s.store pa v).powerFailPending = s.powerFailPending := rfl
@[simp] theorem State.store_powerFailActive (s : State) (pa : PAddr) (v : Word) : (s.store pa v).powerFailActive = s.powerFailActive := rfl
@[simp] theorem State.store_stepArmed (s : State) (pa : PAddr) (v : Word) : (s.store pa v).stepArmed = s.stepArmed := rfl
@[simp] theorem State.store_alarmStop (s : State) (pa : PAddr) (v : Word) : (s.store pa v).alarmStop = s.alarmStop := rfl
@[simp] theorem State.store_autoRestartInhibited (s : State) (pa : PAddr) (v : Word) : (s.store pa v).autoRestartInhibited = s.autoRestartInhibited := rfl
@[simp] theorem State.store_breakSeen (s : State) (pa : PAddr) (v : Word) : (s.store pa v).breakSeen = s.breakSeen := rfl
@[simp] theorem State.store_haltLeft (s : State) (pa : PAddr) (v : Word) : (s.store pa v).haltLeft = s.haltLeft := rfl
@[simp] theorem State.store_held (s : State) (pa : PAddr) (v : Word) : (s.store pa v).held = s.held := rfl
@[simp] theorem State.store_heldOperands (s : State) (pa : PAddr) (v : Word) : (s.store pa v).heldOperands = s.heldOperands := rfl
@[simp] theorem State.store_stopDelay (s : State) (pa : PAddr) (v : Word) : (s.store pa v).stopDelay = s.stopDelay := rfl
@[simp] theorem State.store_couplers (s : State) (pa : PAddr) (v : Word) : (s.store pa v).couplers = s.couplers := rfl
@[simp] theorem State.store_channels (s : State) (pa : PAddr) (v : Word) : (s.store pa v).channels = s.channels := rfl
@[simp] theorem State.store_inputs (s : State) (pa : PAddr) (v : Word) : (s.store pa v).inputs = s.inputs := rfl
@[simp] theorem State.store_freeCount (s : State) (pa : PAddr) (v : Word) : (s.store pa v).freeCount = s.freeCount := rfl
@[simp] theorem State.store_phase (s : State) (pa : PAddr) (v : Word) : (s.store pa v).phase = s.phase := rfl

/-! `setReg`. -/

@[simp] theorem State.setReg_cfg (s : State) (r : Reg) (v : Word) : (s.setReg r v).cfg = s.cfg := by cases r <;> rfl
@[simp] theorem State.setReg_P (s : State) (r : Reg) (v : Word) : (s.setReg r v).P = s.P := by cases r <;> rfl
@[simp] theorem State.setReg_st (s : State) (r : Reg) (v : Word) : (s.setReg r v).st = s.st := by cases r <;> rfl
@[simp] theorem State.setReg_SLO (s : State) (r : Reg) (v : Word) : (s.setReg r v).SLO = s.SLO := by cases r <;> rfl
@[simp] theorem State.setReg_SLE (s : State) (r : Reg) (v : Word) : (s.setReg r v).SLE = s.SLE := by cases r <;> rfl
@[simp] theorem State.setReg_IM (s : State) (r : Reg) (v : Word) : (s.setReg r v).IM = s.IM := by cases r <;> rfl
@[simp] theorem State.setReg_HV (s : State) (r : Reg) (v : Word) : (s.setReg r v).HV = s.HV := by cases r <;> rfl
@[simp] theorem State.setReg_mem (s : State) (r : Reg) (v : Word) : (s.setReg r v).mem = s.mem := by cases r <;> rfl
@[simp] theorem State.setReg_badParity (s : State) (r : Reg) (v : Word) : (s.setReg r v).badParity = s.badParity := by cases r <;> rfl
@[simp] theorem State.setReg_ipiRequest (s : State) (r : Reg) (v : Word) : (s.setReg r v).ipiRequest = s.ipiRequest := by cases r <;> rfl
@[simp] theorem State.setReg_othersIpi (s : State) (r : Reg) (v : Word) : (s.setReg r v).othersIpi = s.othersIpi := by cases r <;> rfl
@[simp] theorem State.setReg_powerFailPending (s : State) (r : Reg) (v : Word) : (s.setReg r v).powerFailPending = s.powerFailPending := by cases r <;> rfl
@[simp] theorem State.setReg_powerFailActive (s : State) (r : Reg) (v : Word) : (s.setReg r v).powerFailActive = s.powerFailActive := by cases r <;> rfl
@[simp] theorem State.setReg_stepArmed (s : State) (r : Reg) (v : Word) : (s.setReg r v).stepArmed = s.stepArmed := by cases r <;> rfl
@[simp] theorem State.setReg_alarmStop (s : State) (r : Reg) (v : Word) : (s.setReg r v).alarmStop = s.alarmStop := by cases r <;> rfl
@[simp] theorem State.setReg_autoRestartInhibited (s : State) (r : Reg) (v : Word) : (s.setReg r v).autoRestartInhibited = s.autoRestartInhibited := by cases r <;> rfl
@[simp] theorem State.setReg_breakSeen (s : State) (r : Reg) (v : Word) : (s.setReg r v).breakSeen = s.breakSeen := by cases r <;> rfl
@[simp] theorem State.setReg_haltLeft (s : State) (r : Reg) (v : Word) : (s.setReg r v).haltLeft = s.haltLeft := by cases r <;> rfl
@[simp] theorem State.setReg_held (s : State) (r : Reg) (v : Word) : (s.setReg r v).held = s.held := by cases r <;> rfl
@[simp] theorem State.setReg_heldOperands (s : State) (r : Reg) (v : Word) : (s.setReg r v).heldOperands = s.heldOperands := by cases r <;> rfl
@[simp] theorem State.setReg_stopDelay (s : State) (r : Reg) (v : Word) : (s.setReg r v).stopDelay = s.stopDelay := by cases r <;> rfl
@[simp] theorem State.setReg_couplers (s : State) (r : Reg) (v : Word) : (s.setReg r v).couplers = s.couplers := by cases r <;> rfl
@[simp] theorem State.setReg_channels (s : State) (r : Reg) (v : Word) : (s.setReg r v).channels = s.channels := by cases r <;> rfl
@[simp] theorem State.setReg_inputs (s : State) (r : Reg) (v : Word) : (s.setReg r v).inputs = s.inputs := by cases r <;> rfl
@[simp] theorem State.setReg_freeCount (s : State) (r : Reg) (v : Word) : (s.setReg r v).freeCount = s.freeCount := by cases r <;> rfl
@[simp] theorem State.setReg_phase (s : State) (r : Reg) (v : Word) : (s.setReg r v).phase = s.phase := by cases r <;> rfl

/-! `setAB`. -/

@[simp] theorem State.setAB_cfg (s : State) (v : BitVec 32) : (s.setAB v).cfg = s.cfg := rfl
@[simp] theorem State.setAB_P (s : State) (v : BitVec 32) : (s.setAB v).P = s.P := rfl
@[simp] theorem State.setAB_st (s : State) (v : BitVec 32) : (s.setAB v).st = s.st := rfl
@[simp] theorem State.setAB_SLO (s : State) (v : BitVec 32) : (s.setAB v).SLO = s.SLO := rfl
@[simp] theorem State.setAB_SLE (s : State) (v : BitVec 32) : (s.setAB v).SLE = s.SLE := rfl
@[simp] theorem State.setAB_IM (s : State) (v : BitVec 32) : (s.setAB v).IM = s.IM := rfl
@[simp] theorem State.setAB_HV (s : State) (v : BitVec 32) : (s.setAB v).HV = s.HV := rfl
@[simp] theorem State.setAB_mem (s : State) (v : BitVec 32) : (s.setAB v).mem = s.mem := rfl
@[simp] theorem State.setAB_badParity (s : State) (v : BitVec 32) : (s.setAB v).badParity = s.badParity := rfl
@[simp] theorem State.setAB_ipiRequest (s : State) (v : BitVec 32) : (s.setAB v).ipiRequest = s.ipiRequest := rfl
@[simp] theorem State.setAB_othersIpi (s : State) (v : BitVec 32) : (s.setAB v).othersIpi = s.othersIpi := rfl
@[simp] theorem State.setAB_powerFailPending (s : State) (v : BitVec 32) : (s.setAB v).powerFailPending = s.powerFailPending := rfl
@[simp] theorem State.setAB_powerFailActive (s : State) (v : BitVec 32) : (s.setAB v).powerFailActive = s.powerFailActive := rfl
@[simp] theorem State.setAB_stepArmed (s : State) (v : BitVec 32) : (s.setAB v).stepArmed = s.stepArmed := rfl
@[simp] theorem State.setAB_alarmStop (s : State) (v : BitVec 32) : (s.setAB v).alarmStop = s.alarmStop := rfl
@[simp] theorem State.setAB_autoRestartInhibited (s : State) (v : BitVec 32) : (s.setAB v).autoRestartInhibited = s.autoRestartInhibited := rfl
@[simp] theorem State.setAB_breakSeen (s : State) (v : BitVec 32) : (s.setAB v).breakSeen = s.breakSeen := rfl
@[simp] theorem State.setAB_haltLeft (s : State) (v : BitVec 32) : (s.setAB v).haltLeft = s.haltLeft := rfl
@[simp] theorem State.setAB_held (s : State) (v : BitVec 32) : (s.setAB v).held = s.held := rfl
@[simp] theorem State.setAB_heldOperands (s : State) (v : BitVec 32) : (s.setAB v).heldOperands = s.heldOperands := rfl
@[simp] theorem State.setAB_stopDelay (s : State) (v : BitVec 32) : (s.setAB v).stopDelay = s.stopDelay := rfl
@[simp] theorem State.setAB_couplers (s : State) (v : BitVec 32) : (s.setAB v).couplers = s.couplers := rfl
@[simp] theorem State.setAB_channels (s : State) (v : BitVec 32) : (s.setAB v).channels = s.channels := rfl
@[simp] theorem State.setAB_inputs (s : State) (v : BitVec 32) : (s.setAB v).inputs = s.inputs := rfl
@[simp] theorem State.setAB_freeCount (s : State) (v : BitVec 32) : (s.setAB v).freeCount = s.freeCount := rfl
@[simp] theorem State.setAB_phase (s : State) (v : BitVec 32) : (s.setAB v).phase = s.phase := rfl

/-! `setPair`. -/

@[simp] theorem State.setPair_cfg (s : State) (x : Word × Word) : (s.setPair x).cfg = s.cfg := rfl
@[simp] theorem State.setPair_P (s : State) (x : Word × Word) : (s.setPair x).P = s.P := rfl
@[simp] theorem State.setPair_st (s : State) (x : Word × Word) : (s.setPair x).st = s.st := rfl
@[simp] theorem State.setPair_SLO (s : State) (x : Word × Word) : (s.setPair x).SLO = s.SLO := rfl
@[simp] theorem State.setPair_SLE (s : State) (x : Word × Word) : (s.setPair x).SLE = s.SLE := rfl
@[simp] theorem State.setPair_IM (s : State) (x : Word × Word) : (s.setPair x).IM = s.IM := rfl
@[simp] theorem State.setPair_HV (s : State) (x : Word × Word) : (s.setPair x).HV = s.HV := rfl
@[simp] theorem State.setPair_mem (s : State) (x : Word × Word) : (s.setPair x).mem = s.mem := rfl
@[simp] theorem State.setPair_badParity (s : State) (x : Word × Word) : (s.setPair x).badParity = s.badParity := rfl
@[simp] theorem State.setPair_ipiRequest (s : State) (x : Word × Word) : (s.setPair x).ipiRequest = s.ipiRequest := rfl
@[simp] theorem State.setPair_othersIpi (s : State) (x : Word × Word) : (s.setPair x).othersIpi = s.othersIpi := rfl
@[simp] theorem State.setPair_powerFailPending (s : State) (x : Word × Word) : (s.setPair x).powerFailPending = s.powerFailPending := rfl
@[simp] theorem State.setPair_powerFailActive (s : State) (x : Word × Word) : (s.setPair x).powerFailActive = s.powerFailActive := rfl
@[simp] theorem State.setPair_stepArmed (s : State) (x : Word × Word) : (s.setPair x).stepArmed = s.stepArmed := rfl
@[simp] theorem State.setPair_alarmStop (s : State) (x : Word × Word) : (s.setPair x).alarmStop = s.alarmStop := rfl
@[simp] theorem State.setPair_autoRestartInhibited (s : State) (x : Word × Word) : (s.setPair x).autoRestartInhibited = s.autoRestartInhibited := rfl
@[simp] theorem State.setPair_breakSeen (s : State) (x : Word × Word) : (s.setPair x).breakSeen = s.breakSeen := rfl
@[simp] theorem State.setPair_haltLeft (s : State) (x : Word × Word) : (s.setPair x).haltLeft = s.haltLeft := rfl
@[simp] theorem State.setPair_held (s : State) (x : Word × Word) : (s.setPair x).held = s.held := rfl
@[simp] theorem State.setPair_heldOperands (s : State) (x : Word × Word) : (s.setPair x).heldOperands = s.heldOperands := rfl
@[simp] theorem State.setPair_stopDelay (s : State) (x : Word × Word) : (s.setPair x).stopDelay = s.stopDelay := rfl
@[simp] theorem State.setPair_couplers (s : State) (x : Word × Word) : (s.setPair x).couplers = s.couplers := rfl
@[simp] theorem State.setPair_channels (s : State) (x : Word × Word) : (s.setPair x).channels = s.channels := rfl
@[simp] theorem State.setPair_inputs (s : State) (x : Word × Word) : (s.setPair x).inputs = s.inputs := rfl
@[simp] theorem State.setPair_freeCount (s : State) (x : Word × Word) : (s.setPair x).freeCount = s.freeCount := rfl
@[simp] theorem State.setPair_phase (s : State) (x : Word × Word) : (s.setPair x).phase = s.phase := rfl

/-! `unmask`. -/

@[simp] theorem State.unmask_cfg (s : State) : (s.unmask).cfg = s.cfg := rfl
@[simp] theorem State.unmask_r (s : State) : (s.unmask).r = s.r := rfl
@[simp] theorem State.unmask_P (s : State) : (s.unmask).P = s.P := rfl
@[simp] theorem State.unmask_SLO (s : State) : (s.unmask).SLO = s.SLO := rfl
@[simp] theorem State.unmask_SLE (s : State) : (s.unmask).SLE = s.SLE := rfl
@[simp] theorem State.unmask_IM (s : State) : (s.unmask).IM = s.IM := rfl
@[simp] theorem State.unmask_HV (s : State) : (s.unmask).HV = s.HV := rfl
@[simp] theorem State.unmask_mem (s : State) : (s.unmask).mem = s.mem := rfl
@[simp] theorem State.unmask_badParity (s : State) : (s.unmask).badParity = s.badParity := rfl
@[simp] theorem State.unmask_ipiRequest (s : State) : (s.unmask).ipiRequest = s.ipiRequest := rfl
@[simp] theorem State.unmask_othersIpi (s : State) : (s.unmask).othersIpi = s.othersIpi := rfl
@[simp] theorem State.unmask_powerFailPending (s : State) : (s.unmask).powerFailPending = s.powerFailPending := rfl
@[simp] theorem State.unmask_powerFailActive (s : State) : (s.unmask).powerFailActive = s.powerFailActive := rfl
@[simp] theorem State.unmask_stepArmed (s : State) : (s.unmask).stepArmed = s.stepArmed := rfl
@[simp] theorem State.unmask_alarmStop (s : State) : (s.unmask).alarmStop = s.alarmStop := rfl
@[simp] theorem State.unmask_autoRestartInhibited (s : State) : (s.unmask).autoRestartInhibited = s.autoRestartInhibited := rfl
@[simp] theorem State.unmask_breakSeen (s : State) : (s.unmask).breakSeen = s.breakSeen := rfl
@[simp] theorem State.unmask_haltLeft (s : State) : (s.unmask).haltLeft = s.haltLeft := rfl
@[simp] theorem State.unmask_held (s : State) : (s.unmask).held = s.held := rfl
@[simp] theorem State.unmask_heldOperands (s : State) : (s.unmask).heldOperands = s.heldOperands := rfl
@[simp] theorem State.unmask_stopDelay (s : State) : (s.unmask).stopDelay = s.stopDelay := rfl
@[simp] theorem State.unmask_couplers (s : State) : (s.unmask).couplers = s.couplers := rfl
@[simp] theorem State.unmask_channels (s : State) : (s.unmask).channels = s.channels := rfl
@[simp] theorem State.unmask_inputs (s : State) : (s.unmask).inputs = s.inputs := rfl
@[simp] theorem State.unmask_freeCount (s : State) : (s.unmask).freeCount = s.freeCount := rfl
@[simp] theorem State.unmask_phase (s : State) : (s.unmask).phase = s.phase := rfl

/-! `tick`. -/

@[simp] theorem State.tick_cfg (s : State) : (s.tick).cfg = s.cfg := rfl
@[simp] theorem State.tick_r (s : State) : (s.tick).r = s.r := rfl
@[simp] theorem State.tick_P (s : State) : (s.tick).P = s.P := rfl
@[simp] theorem State.tick_st (s : State) : (s.tick).st = s.st := rfl
@[simp] theorem State.tick_SLO (s : State) : (s.tick).SLO = s.SLO := rfl
@[simp] theorem State.tick_SLE (s : State) : (s.tick).SLE = s.SLE := rfl
@[simp] theorem State.tick_IM (s : State) : (s.tick).IM = s.IM := rfl
@[simp] theorem State.tick_HV (s : State) : (s.tick).HV = s.HV := rfl
@[simp] theorem State.tick_mem (s : State) : (s.tick).mem = s.mem := rfl
@[simp] theorem State.tick_badParity (s : State) : (s.tick).badParity = s.badParity := rfl
@[simp] theorem State.tick_ipiRequest (s : State) : (s.tick).ipiRequest = s.ipiRequest := rfl
@[simp] theorem State.tick_othersIpi (s : State) : (s.tick).othersIpi = s.othersIpi := rfl
@[simp] theorem State.tick_powerFailPending (s : State) : (s.tick).powerFailPending = s.powerFailPending := rfl
@[simp] theorem State.tick_powerFailActive (s : State) : (s.tick).powerFailActive = s.powerFailActive := rfl
@[simp] theorem State.tick_stepArmed (s : State) : (s.tick).stepArmed = s.stepArmed := rfl
@[simp] theorem State.tick_alarmStop (s : State) : (s.tick).alarmStop = s.alarmStop := rfl
@[simp] theorem State.tick_autoRestartInhibited (s : State) : (s.tick).autoRestartInhibited = s.autoRestartInhibited := rfl
@[simp] theorem State.tick_breakSeen (s : State) : (s.tick).breakSeen = s.breakSeen := rfl
@[simp] theorem State.tick_haltLeft (s : State) : (s.tick).haltLeft = s.haltLeft := rfl
@[simp] theorem State.tick_held (s : State) : (s.tick).held = s.held := rfl
@[simp] theorem State.tick_heldOperands (s : State) : (s.tick).heldOperands = s.heldOperands := rfl
@[simp] theorem State.tick_couplers (s : State) : (s.tick).couplers = s.couplers := rfl
@[simp] theorem State.tick_channels (s : State) : (s.tick).channels = s.channels := rfl
@[simp] theorem State.tick_inputs (s : State) : (s.tick).inputs = s.inputs := rfl
@[simp] theorem State.tick_freeCount (s : State) : (s.tick).freeCount = s.freeCount := rfl
@[simp] theorem State.tick_phase (s : State) : (s.tick).phase = s.phase := rfl

/-! `released`. -/

@[simp] theorem State.released_cfg (s : State) : (s.released).cfg = s.cfg := rfl
@[simp] theorem State.released_r (s : State) : (s.released).r = s.r := rfl
@[simp] theorem State.released_P (s : State) : (s.released).P = s.P := rfl
@[simp] theorem State.released_st (s : State) : (s.released).st = s.st := rfl
@[simp] theorem State.released_SLO (s : State) : (s.released).SLO = s.SLO := rfl
@[simp] theorem State.released_SLE (s : State) : (s.released).SLE = s.SLE := rfl
@[simp] theorem State.released_IM (s : State) : (s.released).IM = s.IM := rfl
@[simp] theorem State.released_HV (s : State) : (s.released).HV = s.HV := rfl
@[simp] theorem State.released_mem (s : State) : (s.released).mem = s.mem := rfl
@[simp] theorem State.released_badParity (s : State) : (s.released).badParity = s.badParity := rfl
@[simp] theorem State.released_ipiRequest (s : State) : (s.released).ipiRequest = s.ipiRequest := rfl
@[simp] theorem State.released_othersIpi (s : State) : (s.released).othersIpi = s.othersIpi := rfl
@[simp] theorem State.released_powerFailPending (s : State) : (s.released).powerFailPending = s.powerFailPending := rfl
@[simp] theorem State.released_powerFailActive (s : State) : (s.released).powerFailActive = s.powerFailActive := rfl
@[simp] theorem State.released_stepArmed (s : State) : (s.released).stepArmed = s.stepArmed := rfl
@[simp] theorem State.released_alarmStop (s : State) : (s.released).alarmStop = s.alarmStop := rfl
@[simp] theorem State.released_autoRestartInhibited (s : State) : (s.released).autoRestartInhibited = s.autoRestartInhibited := rfl
@[simp] theorem State.released_breakSeen (s : State) : (s.released).breakSeen = s.breakSeen := rfl
@[simp] theorem State.released_haltLeft (s : State) : (s.released).haltLeft = s.haltLeft := rfl
@[simp] theorem State.released_stopDelay (s : State) : (s.released).stopDelay = s.stopDelay := rfl
@[simp] theorem State.released_couplers (s : State) : (s.released).couplers = s.couplers := rfl
@[simp] theorem State.released_channels (s : State) : (s.released).channels = s.channels := rfl
@[simp] theorem State.released_inputs (s : State) : (s.released).inputs = s.inputs := rfl
@[simp] theorem State.released_freeCount (s : State) : (s.released).freeCount = s.freeCount := rfl
@[simp] theorem State.released_phase (s : State) : (s.released).phase = s.phase := rfl
@[simp] theorem State.released_held (s : State) : s.released.held = [] := rfl
@[simp] theorem State.released_heldOperands (s : State) : s.released.heldOperands = none := rfl

/-! What the changed fields hold. -/

@[simp] theorem State.setVC_V (s : State) (v c : Bool) : (s.setVC v c).st.V = v := rfl
@[simp] theorem State.setVC_Cf (s : State) (v c : Bool) : (s.setVC v c).st.Cf = c := rfl
@[simp] theorem State.setVC_MS (s : State) (v c : Bool) : (s.setVC v c).st.MS = s.st.MS := rfl
@[simp] theorem State.setVC_SVCS (s : State) (v c : Bool) : (s.setVC v c).st.SVCS = s.st.SVCS := rfl
@[simp] theorem State.setVC_PR (s : State) (v c : Bool) : (s.setVC v c).st.PR = s.st.PR := rfl
@[simp] theorem State.setVC_DEBUG (s : State) (v c : Bool) : (s.setVC v c).st.DEBUG = s.st.DEBUG := rfl
@[simp] theorem State.setVC_MAINT (s : State) (v c : Bool) : (s.setVC v c).st.MAINT = s.st.MAINT := rfl
@[simp] theorem State.setVC_STOP (s : State) (v c : Bool) : (s.setVC v c).st.STOP = s.st.STOP := rfl
@[simp] theorem State.advance_P (s : State) (n : Nat) : (s.advance n).P = s.P + BitVec.ofNat 16 n := rfl
@[simp] theorem State.pause_phase (s : State) : s.pause.phase = .interrupted := rfl
@[simp] theorem State.completed_phase (s : State) : s.completed.phase = .completed := rfl
@[simp] theorem State.store_mem (s : State) (pa : PAddr) (v : Word) : (s.store pa v).mem = writeWord s.mem pa v := rfl
@[simp] theorem State.store_badParity (s : State) (pa : PAddr) (v : Word) :
    (s.store pa v).badParity = removeNat pa.toNat s.badParity := rfl

/-- A register reads what was written in it (30_encoding.md R106). -/
@[simp] theorem State.reg_setReg_same (s : State) (r : Reg) (v : Word) : (s.setReg r v).reg r = v := by cases r <;> rfl

/-- Writing a register leaves the seven others. -/
theorem State.reg_setReg_other (s : State) {r q : Reg} (v : Word) (h : q ≠ r) : (s.setReg r v).reg q = s.reg q := by
  cases r <;> cases q <;> first | rfl | exact absurd rfl h

@[simp] theorem State.reg_setVC (s : State) (v c : Bool) (q : Reg) : (s.setVC v c).reg q = s.reg q := by cases q <;> rfl
@[simp] theorem State.reg_advance (s : State) (n : Nat) (q : Reg) : (s.advance n).reg q = s.reg q := by cases q <;> rfl
@[simp] theorem State.reg_store (s : State) (pa : PAddr) (v : Word) (q : Reg) : (s.store pa v).reg q = s.reg q := by
  cases q <;> rfl
@[simp] theorem State.reg_completed (s : State) (q : Reg) : s.completed.reg q = s.reg q := by cases q <;> rfl
@[simp] theorem State.reg_pause (s : State) (q : Reg) : s.pause.reg q = s.reg q := by cases q <;> rfl

end Sys2Proof.Machine
end

