-- ==== Sys2Proof/Laws/Memory.lean ====
section
/-! SUPPORT. Memory: read after write, frames, and the canonical form kept by every operation. -/

namespace Sys2Proof.Machine

/-! Bytes. -/

/-- A byte at another address is unchanged. -/
theorem readByte_writeByte_other (m : Memory) {a b : Nat} (v : Byte) (h : b ≠ a) :
    readByte (writeByte m a v) b = readByte m b := by
  induction m with
  | nil => by_cases hv : v = blank <;> simp [writeByte, readByte, hv, Ne.symm h]
  | cons c m ih =>
    obtain ⟨k, u⟩ := c
    simp only [writeByte]
    split
    · split <;> simp [readByte, Ne.symm h]
    · split
      · subst_vars
        split <;> simp [readByte, Ne.symm h]
      · simp only [readByte]
        split
        · rfl
        · exact ih

/-- Below the first address of a canonical memory nothing is listed. -/
theorem readByte_of_lt {m : Memory} {n a : Nat} (h : Memory.wfFrom n m = true) (ha : a < n) : readByte m a = blank := by
  induction m generalizing n with
  | nil => rfl
  | cons c m ih =>
    obtain ⟨k, u⟩ := c
    simp only [Memory.wfFrom, Bool.and_eq_true, decide_eq_true_eq] at h
    have hk : k ≠ a := by omega
    simp only [readByte, hk, if_false]
    exact ih h.2 (by omega)

/-- A canonical memory from `n` on is canonical from any lower address on. -/
theorem Memory.wfFrom_mono {m : Memory} {n k : Nat} (h : Memory.wfFrom n m = true) (hk : k ≤ n) :
    Memory.wfFrom k m = true := by
  cases m with
  | nil => rfl
  | cons c m =>
    simp only [Memory.wfFrom, Bool.and_eq_true, decide_eq_true_eq] at h ⊢
    exact ⟨⟨by omega, h.1.2⟩, h.2⟩

/-- A byte reads what was written, in a canonical memory. -/
theorem readByte_writeByte_same {m : Memory} {n : Nat} (h : Memory.wfFrom n m = true) (a : Nat) (v : Byte) :
    readByte (writeByte m a v) a = v := by
  induction m generalizing n with
  | nil => by_cases hv : v = blank <;> simp [writeByte, readByte, hv]
  | cons c m ih =>
    obtain ⟨k, u⟩ := c
    have h' := h
    simp only [Memory.wfFrom, Bool.and_eq_true, decide_eq_true_eq] at h
    simp only [writeByte]
    split
    · rename_i hlt
      split
      · rename_i hv
        rw [hv]
        have hk : k ≠ a := by omega
        simp only [readByte, hk, if_false]
        exact readByte_of_lt h.2 (by omega)
      · simp [readByte]
    · split
      · rename_i heq
        subst heq
        split
        · rename_i hv
          rw [hv]
          exact readByte_of_lt h.2 (by omega)
        · simp [readByte]
      · rename_i hlt hne
        have hk : k ≠ a := fun e => hne e.symm
        simp only [readByte, hk, if_false]
        exact ih h.2

/-- Writing a byte keeps the canonical form. -/
theorem Memory.wfFrom_writeByte {m : Memory} {n : Nat} (h : Memory.wfFrom n m = true) {a : Nat} (ha : n ≤ a) (v : Byte) :
    Memory.wfFrom n (writeByte m a v) = true := by
  induction m generalizing n with
  | nil => by_cases hv : v = blank <;> simp [writeByte, Memory.wfFrom, hv, ha]
  | cons c m ih =>
    obtain ⟨k, u⟩ := c
    have h' := h
    simp only [Memory.wfFrom, Bool.and_eq_true, decide_eq_true_eq] at h
    simp only [writeByte]
    split
    · split
      · exact h'
      · rename_i hlt hv
        simp only [Memory.wfFrom, Bool.and_eq_true, decide_eq_true_eq]
        exact ⟨⟨ha, by simpa using hv⟩, ⟨by omega, h.1.2⟩, h.2⟩
    · split
      · rename_i heq
        subst heq
        split
        · exact Memory.wfFrom_mono h.2 (by omega)
        · rename_i hv
          simp only [Memory.wfFrom, Bool.and_eq_true, decide_eq_true_eq]
          exact ⟨⟨ha, by simpa using hv⟩, h.2⟩
      · simp only [Memory.wfFrom, Bool.and_eq_true, decide_eq_true_eq]
        exact ⟨h.1, ih h.2 (by omega)⟩

/-- What a memory lists after a byte is written: what it listed, or the byte written. -/
theorem mem_writeByte {m : Memory} {a : Nat} {v : Byte} {c : Host.Cell} (h : c ∈ writeByte m a v) : c ∈ m ∨ c = (a, v) := by
  induction m with
  | nil =>
    simp only [writeByte] at h
    split at h <;> simp_all
  | cons d m ih =>
    obtain ⟨k, u⟩ := d
    simp only [writeByte] at h
    split at h
    · split at h
      · exact .inl h
      · simp only [List.mem_cons] at h ⊢; tauto
    · split at h
      · split at h
        · exact .inl (List.mem_cons_of_mem _ h)
        · simp only [List.mem_cons] at h ⊢; tauto
      · simp only [List.mem_cons] at h ⊢
        rcases h with h | h
        · exact .inl (.inl h)
        · rcases ih h with h | h
          · exact .inl (.inr h)
          · exact .inr h

/-! Words. -/

/-- The number a word of two bytes stands for. -/
theorem toNat_ofBytes (l r : Byte) : (ofBytes l r).toNat = 256 * l.toNat + r.toNat := by
  have h : (ofBytes l r).toNat = l.toNat <<< 8 ||| r.toNat := BitVec.toNat_append l r
  rw [h, ← Nat.shiftLeft_add_eq_or_of_lt r.isLt, Nat.shiftLeft_eq]; omega

theorem toNat_hi (w : Word) : (hi w).toNat = w.toNat / 256 := by
  simp only [hi, BitVec.extractLsb'_toNat, Nat.shiftRight_eq_div_pow]; have := w.isLt; omega

theorem toNat_lo (w : Word) : (lo w).toNat = w.toNat % 256 := by
  simp only [lo, BitVec.extractLsb'_toNat, Nat.shiftRight_eq_div_pow]; omega

@[simp] theorem hi_ofBytes (l r : Byte) : hi (ofBytes l r) = l := by
  apply BitVec.eq_of_toNat_eq; rw [toNat_hi, toNat_ofBytes]; have := r.isLt; omega

@[simp] theorem lo_ofBytes (l r : Byte) : lo (ofBytes l r) = r := by
  apply BitVec.eq_of_toNat_eq; rw [toNat_lo, toNat_ofBytes]; have := r.isLt; omega

@[simp] theorem ofBytes_hi_lo (w : Word) : ofBytes (hi w) (lo w) = w := by
  apply BitVec.eq_of_toNat_eq; rw [toNat_ofBytes, toNat_hi, toNat_lo]; omega

/-- Every byte but the two of the word stored in reads as before. -/
theorem readByte_writeWord_other (m : Memory) (pa : PAddr) (v : Word) {b : Nat} (h0 : b ≠ 2 * pa.toNat)
    (h1 : b ≠ 2 * pa.toNat + 1) : readByte (writeWord m pa v) b = readByte m b := by
  rw [writeWord, readByte_writeByte_other _ _ h1, readByte_writeByte_other _ _ h0]

/-- Another word reads as before. -/
theorem readWord_writeWord_other (m : Memory) {pa pb : PAddr} (v : Word) (h : pb ≠ pa) :
    readWord (writeWord m pa v) pb = readWord m pb := by
  have h' : pb.toNat ≠ pa.toNat := fun e => h (BitVec.eq_of_toNat_eq e)
  rw [readWord, readWord, readByte_writeWord_other _ _ _ (by omega) (by omega),
    readByte_writeWord_other _ _ _ (by omega) (by omega)]

/-- Storing a word keeps the canonical form. -/
theorem Memory.wf_writeWord {m : Memory} (h : Memory.wf m = true) (pa : PAddr) (v : Word) :
    Memory.wf (writeWord m pa v) = true :=
  Memory.wfFrom_writeByte (Memory.wfFrom_writeByte h (Nat.zero_le _) _) (Nat.zero_le _) _

/-- A word reads what was stored, in a canonical memory. -/
theorem readWord_writeWord_same {m : Memory} (h : Memory.wf m = true) (pa : PAddr) (v : Word) :
    readWord (writeWord m pa v) pa = v := by
  have h1 := Memory.wfFrom_writeByte h (Nat.zero_le (2 * pa.toNat)) (hi v)
  rw [readWord, writeWord, readByte_writeByte_same h1, readByte_writeByte_other _ _ (by omega),
    readByte_writeByte_same h, ofBytes_hi_lo]

/-- What a memory lists after a word is stored lies at that word or was listed. -/
theorem mem_writeWord {m : Memory} {pa : PAddr} {v : Word} {c : Host.Cell} (h : c ∈ writeWord m pa v) :
    c ∈ m ∨ c.1 = 2 * pa.toNat ∨ c.1 = 2 * pa.toNat + 1 := by
  rcases mem_writeByte h with h | h
  · rcases mem_writeByte h with h | h
    · exact .inl h
    · exact .inr (.inl (by rw [h]))
  · exact .inr (.inr (by rw [h]))

/-! Parity. -/

theorem mem_removeNat {n k : Nat} {l : List Nat} : k ∈ removeNat n l ↔ k ∈ l ∧ k ≠ n := by
  induction l with
  | nil => simp [removeNat]
  | cons m l ih =>
    simp only [removeNat]
    split
    · rename_i h; subst h
      rw [ih]; simp only [List.mem_cons]
      constructor
      · exact fun h => ⟨.inr h.1, h.2⟩
      · rintro ⟨h | h, hn⟩
        · exact absurd h hn
        · exact ⟨h, hn⟩
    · rename_i h
      simp only [List.mem_cons, ih]
      constructor
      · rintro (h' | h')
        · exact ⟨.inl h', by rw [h']; exact Ne.symm h⟩
        · exact ⟨.inr h'.1, h'.2⟩
      · rintro ⟨h' | h', hn⟩
        · exact .inl h'
        · exact .inr ⟨h', hn⟩

theorem mem_insertNat {n k : Nat} {l : List Nat} : k ∈ insertNat n l ↔ k = n ∨ k ∈ l := by
  induction l with
  | nil => simp [insertNat]
  | cons m l ih =>
    simp only [insertNat]
    split
    · simp
    · split
      · rename_i h; subst h; simp
      · simp only [List.mem_cons, ih]; tauto

theorem risingFrom_mono {l : List Nat} {n k : Nat} (h : risingFrom n l = true) (hk : k ≤ n) : risingFrom k l = true := by
  cases l with
  | nil => rfl
  | cons m l => simp only [risingFrom, Bool.and_eq_true, decide_eq_true_eq] at h ⊢; exact ⟨by omega, h.2⟩

theorem risingFrom_removeNat {l : List Nat} {k : Nat} (n : Nat) (h : risingFrom k l = true) :
    risingFrom k (removeNat n l) = true := by
  induction l generalizing k with
  | nil => rfl
  | cons m l ih =>
    simp only [risingFrom, Bool.and_eq_true, decide_eq_true_eq] at h
    simp only [removeNat]
    split
    · exact ih (risingFrom_mono h.2 (by omega))
    · simp only [risingFrom, Bool.and_eq_true, decide_eq_true_eq]; exact ⟨h.1, ih h.2⟩

theorem risingFrom_insertNat {l : List Nat} {k n : Nat} (hn : k ≤ n) (h : risingFrom k l = true) :
    risingFrom k (insertNat n l) = true := by
  induction l generalizing k with
  | nil => simp [insertNat, risingFrom, hn]
  | cons m l ih =>
    have h' := h
    simp only [risingFrom, Bool.and_eq_true, decide_eq_true_eq] at h
    simp only [insertNat]
    split
    · simp only [risingFrom, Bool.and_eq_true, decide_eq_true_eq]; exact ⟨hn, by omega, h.2⟩
    · split
      · exact h'
      · simp only [risingFrom, Bool.and_eq_true, decide_eq_true_eq]; exact ⟨h.1, ih (by omega) h.2⟩

/-- A store leaves no bad parity in its word. -/
theorem State.badWord_store (s : State) (pa pb : PAddr) (v : Word) :
    (s.store pa v).badWord pb = (s.badWord pb && decide (pb ≠ pa)) := by
  have : (removeNat pa.toNat s.badParity).contains pb.toNat = (s.badParity.contains pb.toNat && decide (pb ≠ pa)) := by
    rw [Bool.eq_iff_iff]
    simp only [List.contains_iff_mem, mem_removeNat, Bool.and_eq_true, decide_eq_true_eq, ne_eq]
    have : pb.toNat = pa.toNat ↔ pb = pa := ⟨BitVec.eq_of_toNat_eq, fun h => by rw [h]⟩
    rw [this]
  simp only [State.badWord, State.store, this]
  cases s.cfg.parity <;> cases s.st.MAINT <;> simp

/-- A sound word stays sound under a store. -/
theorem State.sound_store {s : State} {pb : PAddr} (h : s.sound pb = true) (pa : PAddr) (v : Word) :
    (s.store pa v).sound pb = true := by
  simp only [State.sound, State.badWord_store, State.store_cfg, Bool.and_eq_true, Bool.not_eq_true'] at h ⊢
  exact ⟨h.1, by rw [h.2]; rfl⟩

/-- The memory of the machine after reset has the canonical form. -/
theorem reset_memory_wf : Memory.wf State.reset.mem = true := rfl

end Sys2Proof.Machine
end

