-- ==== Sys2Proof/Laws/PerInstr.lean ====
section
/-! SUPPORT. The family `RoundTrip`: decoding the encoding of a well-formed instruction gives it back, one lemma per instruction,
over one lemma per format. -/

namespace Sys2Proof

/-! Bits of joined fields. -/

theorem toNat_join {n m : Nat} (x : BitVec n) (y : BitVec m) : (x ++ y).toNat = x.toNat * 2 ^ m + y.toNat := by
  rw [BitVec.toNat_append, ← Nat.shiftLeft_add_eq_or_of_lt y.isLt, Nat.shiftLeft_eq]

theorem toNat_extract {n : Nat} (w : BitVec n) (i k : Nat) : (w.extractLsb' i k).toNat = w.toNat / 2 ^ i % 2 ^ k := by
  rw [BitVec.extractLsb'_toNat, Nat.shiftRight_eq_div_pow]

theorem getLsbD_eq {n : Nat} (w : BitVec n) (i : Nat) : w.getLsbD i = decide (w.toNat / 2 ^ i % 2 = 1) := by
  rw [BitVec.getLsbD, Nat.testBit_eq_decide_div_mod_eq]

theorem toNat_ofBool (b : Bool) : (BitVec.ofBool b).toNat = b.toNat := by cases b <;> rfl

theorem wordsOf_bytesOf (ws : List Word) : wordsOf (bytesOf ws) = ws := by
  induction ws with
  | nil => rfl
  | cons w ws ih => simp only [bytesOf, wordsOf, ih]; rw [Machine.ofBytes_hi_lo]

theorem decode_encode (k : IspCoding) (i : Instr) : decode k (encode k i) = decodeWords k (encodeWords k i) := by
  rw [decode, encode, wordsOf_bytesOf]

@[simp] theorem regOf_code (r : Reg) : regOf r.code = r := by cases r <;> rfl

/-! The memory-reference format. -/

theorem toNat_memWord (op : BitVec 5) (m : MemRef) :
    (memWord op m).toNat = m.base.code.toNat * 16384 + m.ind.toNat * 8192 + op.toNat * 256 + m.d.toNat := by
  have h1 := toNat_join m.base.code (BitVec.ofBool m.ind ++ (op ++ m.d))
  have h2 := toNat_join (BitVec.ofBool m.ind) (op ++ m.d)
  have h3 := toNat_join op m.d
  have h4 := toNat_ofBool m.ind
  have h : (memWord op m).toNat = (m.base.code ++ (BitVec.ofBool m.ind ++ (op ++ m.d))).toNat := rfl
  omega

@[simp] theorem memRefOf_memWord (op : BitVec 5) (m : MemRef) : memRefOf (memWord op m) = some m := by
  have hw := toNat_memWord op m
  have hop := op.isLt
  have hd := m.d.isLt
  have hi : m.ind.toNat ≤ 1 := by cases m.ind <;> decide
  have hb : (memWord op m).extractLsb' 14 2 = m.base.code := by
    apply BitVec.eq_of_toNat_eq
    rw [toNat_extract, hw]
    have := m.base.code.isLt
    omega
  have hbit : (memWord op m).getLsbD 13 = m.ind := by
    rw [getLsbD_eq, hw]
    cases h : m.ind <;> simp only [h, Bool.toNat_false, Bool.toNat_true] at hi ⊢
    · rw [decide_eq_false_iff_not]; omega
    · rw [decide_eq_true_eq]; omega
  have hlo : lo (memWord op m) = m.d := by
    apply BitVec.eq_of_toNat_eq
    rw [Machine.toNat_lo, hw]; omega
  have hbase : baseOf m.base.code = some m.base := by cases m.base <;> rfl
  simp only [memRefOf, hb, hbase, hbit, hlo]

@[simp] theorem opField_memWord (op : BitVec 5) (m : MemRef) : opField (memWord op m) = op := by
  have hw := toNat_memWord op m
  have hop := op.isLt
  have hd := m.d.isLt
  have hi : m.ind.toNat ≤ 1 := by cases m.ind <;> decide
  apply BitVec.eq_of_toNat_eq
  rw [opField, toNat_extract, hw]; omega

theorem decode_mem (k : IspCoding) (op : BitVec 5) (m : MemRef) :
    decodeWords k [memWord op m] = .instr (memInstr op m) [] := by
  simp only [decodeWords, memRefOf_memWord, opField_memWord]

/-! The formats with bits 0-1 = 00. -/

theorem top2 (w : Word) : w.extractLsb' 14 2 = (hi w).extractLsb' 6 2 := by
  apply BitVec.eq_of_toNat_eq; rw [toNat_extract, toNat_extract, Machine.toNat_hi]; omega

theorem top5 (w : Word) : w.extractLsb' 11 5 = (hi w).extractLsb' 3 5 := by
  apply BitVec.eq_of_toNat_eq; rw [toNat_extract, toNat_extract, Machine.toNat_hi]; omega

theorem low3 (w : Word) : w.extractLsb' 8 3 = (hi w).extractLsb' 0 3 := by
  apply BitVec.eq_of_toNat_eq; rw [toNat_extract, toNat_extract, Machine.toNat_hi]; omega

theorem memRefOf_none {w : Word} (h : (hi w).toNat < 64) : memRefOf w = none := by
  have h0 : w.extractLsb' 14 2 = 0#2 := by
    apply BitVec.eq_of_toNat_eq; rw [top2, toNat_extract]; simp; omega
  rw [memRefOf, h0]; rfl

theorem decode_short (k : IspCoding) {w : Word} {i : Instr} (h : (hi w).toNat < 56) (hs : decodeShort w = some i) :
    decodeWords k [w] = .instr i [] := by
  have h5 : w.extractLsb' 11 5 ≠ 0b00111#5 := by
    intro e
    have := congrArg BitVec.toNat e
    rw [top5, toNat_extract] at this
    simp at this; omega
  simp only [decodeWords, memRefOf_none (show (hi w).toNat < 64 by omega), if_neg h5, hs]

@[simp] theorem hi_byteWord (op n : Byte) : hi (byteWord op n) = op := Machine.hi_ofBytes op n
@[simp] theorem lo_byteWord (op n : Byte) : lo (byteWord op n) = n := Machine.lo_ofBytes op n

theorem decodeShort_adri {w : Word} (h : 8 ≤ (hi w).toNat) (h' : (hi w).toNat < 16) :
    decodeShort w = some (.adri (regOf (w.extractLsb' 8 3)) (lo w)) := by
  have hc : (hi w).toNat = 8 ∨ (hi w).toNat = 9 ∨ (hi w).toNat = 10 ∨ (hi w).toNat = 11 ∨ (hi w).toNat = 12
      ∨ (hi w).toNat = 13 ∨ (hi w).toNat = 14 ∨ (hi w).toNat = 15 := by omega
  rcases hc with hc | hc | hc | hc | hc | hc | hc | hc <;> simp only [decodeShort, hc]

theorem decode_adri (k : IspCoding) (r : Reg) (n : Byte) :
    decodeWords k [0b00001#5 ++ (r.code ++ n)] = .instr (.adri r n) [] := by
  have h1 : (0b00001#5 ++ (r.code ++ n) : BitVec 16).toNat = _ := toNat_join 0b00001#5 (r.code ++ n)
  have h2 := toNat_join r.code n
  have hr := r.code.isLt
  have hn := n.isLt
  simp only [BitVec.toNat_ofNat] at h1
  have hh : (hi (0b00001#5 ++ (r.code ++ n) : BitVec 16)).toNat = 8 + r.code.toNat := by rw [Machine.toNat_hi]; omega
  have hl : lo (0b00001#5 ++ (r.code ++ n) : BitVec 16) = n := by
    apply BitVec.eq_of_toNat_eq; rw [Machine.toNat_lo]; omega
  have hc : (0b00001#5 ++ (r.code ++ n) : BitVec 16).extractLsb' 8 3 = r.code := by
    apply BitVec.eq_of_toNat_eq; rw [toNat_extract]; omega
  refine decode_short k (by omega) ?_
  rw [decodeShort_adri (by omega) (by omega), hl, hc, regOf_code]

theorem toNat_imm9Word (op : BitVec 5) (n : Imm9) :
    (imm9Word op n).toNat = n.sign.toNat * 8192 + op.toNat * 256 + n.n.toNat := by
  have h1 := toNat_join 0#2 (BitVec.ofBool n.sign ++ (op ++ n.n))
  have h2 := toNat_join (BitVec.ofBool n.sign) (op ++ n.n)
  have h3 := toNat_join op n.n
  have h4 := toNat_ofBool n.sign
  have h : (imm9Word op n).toNat = (0#2 ++ (BitVec.ofBool n.sign ++ (op ++ n.n))).toNat := rfl
  simp only [BitVec.toNat_ofNat] at h1
  omega

@[simp] theorem imm9Of_imm9Word (op : BitVec 5) (n : Imm9) : imm9Of (imm9Word op n) = n := by
  have hw := toNat_imm9Word op n
  have hop := op.isLt
  have hd := n.n.isLt
  have hbit : (imm9Word op n).getLsbD 13 = n.sign := by
    rw [getLsbD_eq, hw]
    cases h : n.sign <;> simp only [Bool.toNat_false, Bool.toNat_true]
    · rw [decide_eq_false_iff_not]; omega
    · rw [decide_eq_true_eq]; omega
  have hlo : lo (imm9Word op n) = n.n := by
    apply BitVec.eq_of_toNat_eq; rw [Machine.toNat_lo, hw]; omega
  simp only [imm9Of, hbit, hlo]

theorem toNat_hi_imm9Word (op : BitVec 5) (n : Imm9) : (hi (imm9Word op n)).toNat = n.sign.toNat * 32 + op.toNat := by
  have hw := toNat_imm9Word op n
  have hd := n.n.isLt
  rw [Machine.toNat_hi, hw]; omega

/-- A 9-bit immediate instruction decodes by its operation code. -/
theorem decode_imm9 (k : IspCoding) (op : BitVec 5) (n : Imm9) (i : Instr) (hop : op.toNat < 24)
    (h0 : ∀ w : Word, (hi w).toNat = op.toNat → imm9Of w = n → decodeShort w = some i)
    (h1 : ∀ w : Word, (hi w).toNat = op.toNat + 32 → imm9Of w = n → decodeShort w = some i) :
    decodeWords k [imm9Word op n] = .instr i [] := by
  have hh := toNat_hi_imm9Word op n
  have hs : n.sign.toNat ≤ 1 := by cases n.sign <;> decide
  refine decode_short k (by omega) ?_
  rcases Nat.lt_or_ge n.sign.toNat 1 with h | h
  · exact h0 _ (by omega) (imm9Of_imm9Word op n)
  · exact h1 _ (by omega) (imm9Of_imm9Word op n)

/-! Shifts, bit operations and register-register instructions. -/

theorem decodeShort_reg {w : Word} (h : 40 ≤ (hi w).toNat) (h' : (hi w).toNat < 48) :
    decodeShort w = some (regInstr (w.extractLsb' 6 5) w) := by
  have hc : (hi w).toNat = 40 ∨ (hi w).toNat = 41 ∨ (hi w).toNat = 42 ∨ (hi w).toNat = 43 ∨ (hi w).toNat = 44
      ∨ (hi w).toNat = 45 ∨ (hi w).toNat = 46 ∨ (hi w).toNat = 47 := by omega
  rcases hc with hc | hc | hc | hc | hc | hc | hc | hc <;> simp only [decodeShort, hc]

theorem toNat_countWord (key : BitVec 5) (c : Count) :
    (countWord key c).toNat = 10240 + key.toNat * 64 + c.ix.toNat * 32 + c.n.toNat := by
  have h1 := toNat_join 0b00101#5 (key ++ (BitVec.ofBool c.ix ++ c.n))
  have h2 := toNat_join key (BitVec.ofBool c.ix ++ c.n)
  have h3 := toNat_join (BitVec.ofBool c.ix) c.n
  have h4 := toNat_ofBool c.ix
  have h : (countWord key c).toNat = (0b00101#5 ++ (key ++ (BitVec.ofBool c.ix ++ c.n))).toNat := rfl
  simp only [BitVec.toNat_ofNat] at h1
  omega

theorem toNat_regWord (key : BitVec 5) (rs rd : Reg) :
    (regWord key rs rd).toNat = 10240 + key.toNat * 64 + rs.code.toNat * 8 + rd.code.toNat := by
  have h1 := toNat_join 0b00101#5 (key ++ (rs.code ++ rd.code))
  have h2 := toNat_join key (rs.code ++ rd.code)
  have h3 := toNat_join rs.code rd.code
  have h : (regWord key rs rd).toNat = (0b00101#5 ++ (key ++ (rs.code ++ rd.code))).toNat := rfl
  simp only [BitVec.toNat_ofNat] at h1
  omega

@[simp] theorem countOf_countWord (key : BitVec 5) (c : Count) : countOf (countWord key c) = c := by
  have hw := toNat_countWord key c
  have hn := c.n.isLt
  have hbit : (countWord key c).getLsbD 5 = c.ix := by
    rw [getLsbD_eq, hw]
    cases h : c.ix <;> simp only [Bool.toNat_false, Bool.toNat_true]
    · rw [decide_eq_false_iff_not]; omega
    · rw [decide_eq_true_eq]; omega
  have hlo : (countWord key c).extractLsb' 0 5 = c.n := by
    apply BitVec.eq_of_toNat_eq
    have hi : c.ix.toNat ≤ 1 := by cases c.ix <;> decide
    rw [toNat_extract, hw]; omega
  simp only [countOf, hbit, hlo]

theorem decode_count (k : IspCoding) (key : BitVec 5) (c : Count) :
    decodeWords k [countWord key c] = .instr (regInstr key (countWord key c)) [] := by
  have hw := toNat_countWord key c
  have hn := c.n.isLt
  have hk := key.isLt
  have hx : c.ix.toNat ≤ 1 := by cases c.ix <;> decide
  have hkey : (countWord key c).extractLsb' 6 5 = key := by
    apply BitVec.eq_of_toNat_eq; rw [toNat_extract, hw]; omega
  have hh : (hi (countWord key c)).toNat = 40 + key.toNat / 4 := by rw [Machine.toNat_hi, hw]; omega
  refine decode_short k (by omega) ?_
  rw [decodeShort_reg (by omega) (by omega), hkey]

@[simp] theorem rsOf_regWord (key : BitVec 5) (rs rd : Reg) : rsOf (regWord key rs rd) = rs := by
  have hw := toNat_regWord key rs rd
  have hs := rs.code.isLt
  have hd := rd.code.isLt
  have : (regWord key rs rd).extractLsb' 3 3 = rs.code := by
    apply BitVec.eq_of_toNat_eq; rw [toNat_extract, hw]; omega
  rw [rsOf, this, regOf_code]

@[simp] theorem rdOf_regWord (key : BitVec 5) (rs rd : Reg) : rdOf (regWord key rs rd) = rd := by
  have hw := toNat_regWord key rs rd
  have hs := rs.code.isLt
  have hd := rd.code.isLt
  have : (regWord key rs rd).extractLsb' 0 3 = rd.code := by
    apply BitVec.eq_of_toNat_eq; rw [toNat_extract, hw]; omega
  rw [rdOf, this, regOf_code]

theorem decode_reg (k : IspCoding) (key : BitVec 5) (rs rd : Reg) :
    decodeWords k [regWord key rs rd] = .instr (regInstr key (regWord key rs rd)) [] := by
  have hw := toNat_regWord key rs rd
  have hs := rs.code.isLt
  have hd := rd.code.isLt
  have hk := key.isLt
  have hkey : (regWord key rs rd).extractLsb' 6 5 = key := by
    apply BitVec.eq_of_toNat_eq; rw [toNat_extract, hw]; omega
  have hh : (hi (regWord key rs rd)).toNat = 40 + key.toNat / 4 := by rw [Machine.toNat_hi, hw]; omega
  refine decode_short k (by omega) ?_
  rw [decodeShort_reg (by omega) (by omega), hkey]

/-! Extensions. -/

theorem decode_ext (k : IspCoding) {w : Word} (rest : List Word) (h : 56 ≤ (hi w).toNat) (h' : (hi w).toNat < 64) :
    decodeWords k (w :: rest) = decodeExtension k ((hi w).extractLsb' 0 3) (lo w) rest := by
  have h5 : w.extractLsb' 11 5 = 0b00111#5 := by
    apply BitVec.eq_of_toNat_eq; rw [top5, toNat_extract]; simp; omega
  simp only [decodeWords, memRefOf_none h', if_pos h5, low3]

theorem decode_float (k : IspCoding) (op : BitVec 5) (m : MemRef) (i : Instr) (h : floatInstr (memWord op m) = some i) :
    decodeWords k [0x3800#16, memWord op m] = .instr i [] := by
  rw [decode_ext k _ (by decide) (by decide)]
  simp [decodeExtension, h, show lo 0x3800#16 = 0#8 from by decide, show (hi 0x3800#16).extractLsb' 0 3 = 0#3 from by decide]

theorem getLsbD_rank (ix : Bool) (n : BitVec 15) : (BitVec.ofBool ix ++ n : BitVec 16).getLsbD 15 = ix := by
  have h1 : (BitVec.ofBool ix ++ n : BitVec 16).toNat = _ := toNat_join (BitVec.ofBool ix) n
  have h4 := toNat_ofBool ix
  have hn := n.isLt
  rw [getLsbD_eq, h1, h4]
  cases ix <;> simp only [Bool.toNat_false, Bool.toNat_true]
  · rw [decide_eq_false_iff_not]; omega
  · rw [decide_eq_true_eq]; omega

theorem extract_rank (ix : Bool) (n : BitVec 15) : (BitVec.ofBool ix ++ n : BitVec 16).extractLsb' 0 15 = n := by
  have h1 : (BitVec.ofBool ix ++ n : BitVec 16).toNat = _ := toNat_join (BitVec.ofBool ix) n
  have hn := n.isLt
  apply BitVec.eq_of_toNat_eq
  rw [toNat_extract, h1]; omega

theorem toNat_armWord (ix : Bool) (n : BitVec 7) :
    (0x1F#8 ++ (BitVec.ofBool ix ++ n) : BitVec 16).toNat = 7936 + ix.toNat * 128 + n.toNat := by
  have h1 : (0x1F#8 ++ (BitVec.ofBool ix ++ n) : BitVec 16).toNat = _ := toNat_join 0x1F#8 (BitVec.ofBool ix ++ n)
  have h2 := toNat_join (BitVec.ofBool ix) n
  have h4 := toNat_ofBool ix
  simp only [BitVec.toNat_ofNat] at h1
  omega

theorem decode_arm (k : IspCoding) (ix : Bool) (n : BitVec 7) :
    decodeWords k [0x1F#8 ++ (BitVec.ofBool ix ++ n)] = .instr (.arm ix n) [] := by
  have hw := toNat_armWord ix n
  have hn := n.isLt
  have hi' : ix.toNat ≤ 1 := by cases ix <;> decide
  have hh : (hi (0x1F#8 ++ (BitVec.ofBool ix ++ n) : BitVec 16)).toNat = 31 := by rw [Machine.toNat_hi, hw]; omega
  have hbit : (0x1F#8 ++ (BitVec.ofBool ix ++ n) : BitVec 16).getLsbD 7 = ix := by
    rw [getLsbD_eq, hw]
    cases ix <;> simp only [Bool.toNat_false, Bool.toNat_true]
    · rw [decide_eq_false_iff_not]; omega
    · rw [decide_eq_true_eq]; omega
  have hlo : (0x1F#8 ++ (BitVec.ofBool ix ++ n) : BitVec 16).extractLsb' 0 7 = n := by
    apply BitVec.eq_of_toNat_eq; rw [toNat_extract, hw]; omega
  refine decode_short k (by omega) ?_
  simp only [decodeShort, hh, hbit, hlo]

theorem decode_family (k : IspCoding) (sub : Byte) (w2 : Word) :
    decodeWords k [byteWord 0x39#8 sub, w2] = .instr (.dap16 sub w2) []
      ∧ decodeWords k [byteWord 0x3A#8 sub, w2] = .instr (.vss16 sub w2) []
      ∧ decodeWords k [byteWord 0x3D#8 sub, w2] = .instr (.ffm16 sub w2) [] := by
  refine ⟨?_, ?_, ?_⟩ <;>
  · rw [decode_ext k _ (by rw [hi_byteWord]; decide) (by rw [hi_byteWord]; decide), hi_byteWord, lo_byteWord]
    rfl

/-! ISP16. -/

/-- In a usable coding the code of an instruction and form finds its row again, with or without the index flag. -/
theorem find_codeOf {k : IspCoding} (hk : k.wf = true) {op : IspOp} {form : IspForm} {c : Byte}
    (h : k.codeOf op form = some c) (ix : Bool) :
    k.find (c ||| (if ix then 0x10#8 else 0x00#8)) = some ⟨c, op, form⟩ ∧
      (c ||| (if ix then 0x10#8 else 0x00#8)).getLsbD 4 = ix := by
  obtain ⟨r, hr, hc⟩ := Option.map_eq_some_iff.mp h
  have hmem := List.mem_of_find?_eq_some hr
  have hp := List.find?_some hr
  simp only [Bool.and_eq_true, decide_eq_true_eq] at hp
  simp only [IspCoding.wf, Bool.and_eq_true, decide_eq_true_eq, List.all_eq_true, Bool.not_eq_true'] at hk
  have hb : c.getLsbD 4 = false := by rw [← hc]; exact hk.1.1.2 r hmem
  have hmask : (c ||| (if ix then 0x10#8 else 0x00#8)) &&& 0xEF#8 = c := by
    have : ∀ c : Byte, c.getLsbD 4 = false → (c ||| 0x10#8) &&& 0xEF#8 = c ∧ (c ||| 0x00#8) &&& 0xEF#8 = c := by decide
    cases ix
    · exact (this c hb).2
    · exact (this c hb).1
  have hbit : (c ||| (if ix then 0x10#8 else 0x00#8)).getLsbD 4 = ix := by
    have : ∀ c : Byte, c.getLsbD 4 = false → (c ||| 0x10#8).getLsbD 4 = true ∧ (c ||| 0x00#8).getLsbD 4 = false := by decide
    cases ix
    · exact (this c hb).2
    · exact (this c hb).1
  refine ⟨?_, hbit⟩
  have hrow : r = ⟨c, op, form⟩ := by cases r; simp_all
  rw [IspCoding.find, hmask]
  have hnd := hk.1.1.1.1
  clear hk hr
  rw [← hrow]
  generalize k.rows = l at hmem hnd
  induction l with
  | nil => cases hmem
  | cons a l ih =>
    simp only [List.map_cons, List.nodup_cons, List.mem_map, not_exists, not_and] at hnd
    rcases List.mem_cons.mp hmem with e | e
    · subst e; simp [List.find?, hc]
    · have hne : a.code ≠ c := fun e' => hnd.1 r e (by rw [hc, e'])
      simp only [List.find?, hne, decide_false]
      exact ih e hnd.2

theorem hi_ispWord (c : Byte) (ix : Bool) : hi (ispWord c ix) = 0x3C#8 := Machine.hi_ofBytes _ _
theorem lo_ispWord (c : Byte) (ix : Bool) : lo (ispWord c ix) = c ||| (if ix then 0x10#8 else 0x00#8) :=
  Machine.lo_ofBytes _ _

theorem decode_isp (k : IspCoding) (c : Byte) (ix : Bool) (rest : List Word) :
    decodeWords k (ispWord c ix :: rest) = decodeIsp k (c ||| (if ix then 0x10#8 else 0x00#8)) rest := by
  rw [decode_ext k _ (by rw [hi_ispWord]; decide) (by rw [hi_ispWord]; decide), hi_ispWord, lo_ispWord]
  rfl

theorem codeOf_of_has {k : IspCoding} {op : IspOp} {form : IspForm} (h : k.has op form = true) :
    ∃ c, k.codeOf op form = some c := by
  simp only [IspCoding.has, List.any_eq_true] at h
  obtain ⟨r, hr, hp⟩ := h
  cases hf : k.rows.find? (fun r => r.op = op && r.form = form) with
  | none => exact absurd hp (by simpa using List.find?_eq_none.mp hf r hr)
  | some r' => exact ⟨r'.code, by simp [IspCoding.codeOf, hf]⟩

theorem decode_pointer {k : IspCoding} (hk : k.wf = true) {op : IspOp} {ix : Bool} {w2 : Word} {i : Instr}
    (hh : k.has op .registers = true) (hi : pointerInstr op ix w2 = some i) :
    decodeWords k (pointerWords k op ix w2) = .instr i [] := by
  obtain ⟨c, hc⟩ := codeOf_of_has hh
  obtain ⟨hf, hb⟩ := find_codeOf hk hc ix
  simp only [pointerWords, hc, decode_isp, decodeIsp, hf, hb, hi]

theorem decode_based {k : IspCoding} (hk : k.wf = true) {op : IspOp} {ix : Bool} {o : IspArgs} {i : Instr}
    (hh : k.has op o.form = true) (hp : ∀ w2, pointerInstr op ix w2 = none) (hi : basedInstr op ix o = some i) :
    decodeWords k (basedWords k op ix o) = .instr i [] := by
  obtain ⟨c, hc⟩ := codeOf_of_has hh
  obtain ⟨hf, hb⟩ := find_codeOf hk hc ix
  cases o with
  | regs w2 =>
    simp only [IspArgs.form] at hc hf
    simp only [basedWords, IspArgs.form, hc, decode_isp, decodeIsp, hf, hb, hp, hi]
  | mem w2 w3 =>
    simp only [IspArgs.form] at hc hf
    simp only [basedWords, IspArgs.form, hc, decode_isp, decodeIsp, hf, hb, hp, hi]

namespace Laws.RoundTrip

/-- Decoding the encoding of a well-formed instruction gives it back, under every usable ISP16 coding (30_encoding.md R125). -/
def Statement (i : Instr) : Prop := ∀ k : IspCoding, k.wf = true → i.wf k = true → decode k (encode k i) = .instr i []

theorem lby (m : MemRef) : Statement (.lby m) := fun k _ _ => by
  rw [decode_encode]; exact decode_mem k _ m

theorem stby (m : MemRef) : Statement (.stby m) := fun k _ _ => by
  rw [decode_encode]; exact decode_mem k _ m

theorem cpby (m : MemRef) : Statement (.cpby m) := fun k _ _ => by
  rw [decode_encode]; exact decode_mem k _ m

theorem xm (m : MemRef) : Statement (.xm m) := fun k _ _ => by
  rw [decode_encode]; exact decode_mem k _ m

theorem cpz (m : MemRef) : Statement (.cpz m) := fun k _ _ => by
  rw [decode_encode]; exact decode_mem k _ m

theorem br (m : MemRef) : Statement (.br m) := fun k _ _ => by
  rw [decode_encode]; exact decode_mem k _ m

theorem bsr (m : MemRef) : Statement (.bsr m) := fun k _ _ => by
  rw [decode_encode]; exact decode_mem k _ m

theorem sio (m : MemRef) : Statement (.sio m) := fun k _ _ => by
  rw [decode_encode]; exact decode_mem k _ m

theorem sb (m : MemRef) : Statement (.sb m) := fun k _ _ => by
  rw [decode_encode]; exact decode_mem k _ m

theorem ad (m : MemRef) : Statement (.ad m) := fun k _ _ => by
  rw [decode_encode]; exact decode_mem k _ m

theorem sty (m : MemRef) : Statement (.sty m) := fun k _ _ => by
  rw [decode_encode]; exact decode_mem k _ m

theorem stx (m : MemRef) : Statement (.stx m) := fun k _ _ => by
  rw [decode_encode]; exact decode_mem k _ m

theorem stb (m : MemRef) : Statement (.stb m) := fun k _ _ => by
  rw [decode_encode]; exact decode_mem k _ m

theorem sta (m : MemRef) : Statement (.sta m) := fun k _ _ => by
  rw [decode_encode]; exact decode_mem k _ m

theorem mp (m : MemRef) : Statement (.mp m) := fun k _ _ => by
  rw [decode_encode]; exact decode_mem k _ m

theorem dv (m : MemRef) : Statement (.dv m) := fun k _ _ => by
  rw [decode_encode]; exact decode_mem k _ m

theorem la (m : MemRef) : Statement (.la m) := fun k _ _ => by
  rw [decode_encode]; exact decode_mem k _ m

theorem lx (m : MemRef) : Statement (.lx m) := fun k _ _ => by
  rw [decode_encode]; exact decode_mem k _ m

theorem or (m : MemRef) : Statement (.or m) := fun k _ _ => by
  rw [decode_encode]; exact decode_mem k _ m

theorem and (m : MemRef) : Statement (.and m) := fun k _ _ => by
  rw [decode_encode]; exact decode_mem k _ m

theorem eor (m : MemRef) : Statement (.eor m) := fun k _ _ => by
  rw [decode_encode]; exact decode_mem k _ m

theorem cp (m : MemRef) : Statement (.cp m) := fun k _ _ => by
  rw [decode_encode]; exact decode_mem k _ m

theorem ly (m : MemRef) : Statement (.ly m) := fun k _ _ => by
  rw [decode_encode]; exact decode_mem k _ m

theorem lb (m : MemRef) : Statement (.lb m) := fun k _ _ => by
  rw [decode_encode]; exact decode_mem k _ m

theorem ic (m : MemRef) : Statement (.ic m) := fun k _ _ => by
  rw [decode_encode]; exact decode_mem k _ m

theorem dc (m : MemRef) : Statement (.dc m) := fun k _ _ => by
  rw [decode_encode]; exact decode_mem k _ m

theorem rqst (m : MemRef) : Statement (.rqst m) := fun k _ _ => by
  rw [decode_encode]; exact decode_mem k _ m

theorem rlse (m : MemRef) : Statement (.rlse m) := fun k _ _ => by
  rw [decode_encode]; exact decode_mem k _ m

theorem act (m : MemRef) : Statement (.act m) := fun k _ _ => by
  rw [decode_encode]; exact decode_mem k _ m

theorem lad (m : MemRef) : Statement (.lad m) := fun k _ _ => by
  rw [decode_encode]; exact decode_mem k _ m

theorem stz (m : MemRef) : Statement (.stz m) := fun k _ _ => by
  rw [decode_encode]; exact decode_mem k _ m

theorem wait (m : MemRef) : Statement (.wait m) := fun k _ _ => by
  rw [decode_encode]; exact decode_mem k _ m

theorem jmp (d : Byte) : Statement (.jmp d) := fun k _ _ => by
  rw [decode_encode]; refine decode_short k (by rw [hi_byteWord]; decide) ?_
  simp only [decodeShort, hi_byteWord, lo_byteWord]; rfl

theorem nop : Statement .nop := fun _ _ _ => rfl

theorem jnc (d : Byte) : Statement (.jnc d) := fun k _ _ => by
  rw [decode_encode]; refine decode_short k (by rw [hi_byteWord]; decide) ?_
  simp only [decodeShort, hi_byteWord, lo_byteWord]; rfl

theorem jnv (d : Byte) : Statement (.jnv d) := fun k _ _ => by
  rw [decode_encode]; refine decode_short k (by rw [hi_byteWord]; decide) ?_
  simp only [decodeShort, hi_byteWord, lo_byteWord]; rfl

theorem jncv (d : Byte) : Statement (.jncv d) := fun k _ _ => by
  rw [decode_encode]; refine decode_short k (by rw [hi_byteWord]; decide) ?_
  simp only [decodeShort, hi_byteWord, lo_byteWord]; rfl

theorem jc (d : Byte) : Statement (.jc d) := fun k _ _ => by
  rw [decode_encode]; refine decode_short k (by rw [hi_byteWord]; decide) ?_
  simp only [decodeShort, hi_byteWord, lo_byteWord]; rfl

theorem jv (d : Byte) : Statement (.jv d) := fun k _ _ => by
  rw [decode_encode]; refine decode_short k (by rw [hi_byteWord]; decide) ?_
  simp only [decodeShort, hi_byteWord, lo_byteWord]; rfl

theorem jcv (d : Byte) : Statement (.jcv d) := fun k _ _ => by
  rw [decode_encode]; refine decode_short k (by rw [hi_byteWord]; decide) ?_
  simp only [decodeShort, hi_byteWord, lo_byteWord]; rfl

theorem jage (d : Byte) : Statement (.jage d) := fun k _ _ => by
  rw [decode_encode]; refine decode_short k (by rw [hi_byteWord]; decide) ?_
  simp only [decodeShort, hi_byteWord, lo_byteWord]; rfl

theorem jane (d : Byte) : Statement (.jane d) := fun k _ _ => by
  rw [decode_encode]; refine decode_short k (by rw [hi_byteWord]; decide) ?_
  simp only [decodeShort, hi_byteWord, lo_byteWord]; rfl

theorem jag (d : Byte) : Statement (.jag d) := fun k _ _ => by
  rw [decode_encode]; refine decode_short k (by rw [hi_byteWord]; decide) ?_
  simp only [decodeShort, hi_byteWord, lo_byteWord]; rfl

theorem jal (d : Byte) : Statement (.jal d) := fun k _ _ => by
  rw [decode_encode]; refine decode_short k (by rw [hi_byteWord]; decide) ?_
  simp only [decodeShort, hi_byteWord, lo_byteWord]; rfl

theorem jae (d : Byte) : Statement (.jae d) := fun k _ _ => by
  rw [decode_encode]; refine decode_short k (by rw [hi_byteWord]; decide) ?_
  simp only [decodeShort, hi_byteWord, lo_byteWord]; rfl

theorem jale (d : Byte) : Statement (.jale d) := fun k _ _ => by
  rw [decode_encode]; refine decode_short k (by rw [hi_byteWord]; decide) ?_
  simp only [decodeShort, hi_byteWord, lo_byteWord]; rfl

theorem jix (d : Byte) : Statement (.jix d) := fun k _ _ => by
  rw [decode_encode]; refine decode_short k (by rw [hi_byteWord]; decide) ?_
  simp only [decodeShort, hi_byteWord, lo_byteWord]; rfl

theorem jdx (d : Byte) : Statement (.jdx d) := fun k _ _ => by
  rw [decode_encode]; refine decode_short k (by rw [hi_byteWord]; decide) ?_
  simp only [decodeShort, hi_byteWord, lo_byteWord]; rfl

theorem adri (r : Reg) (n : Byte) : Statement (.adri r n) := fun k _ _ => by
  rw [decode_encode]; exact decode_adri k r n

theorem lai (n : Imm9) : Statement (.lai n) := fun k _ _ => by
  rw [decode_encode]; refine decode_imm9 k _ n _ (by decide) ?_ ?_ <;>
  · intro w h e; simp only [decodeShort, h, e]; rfl

theorem lxi (n : Imm9) : Statement (.lxi n) := fun k _ _ => by
  rw [decode_encode]; refine decode_imm9 k _ n _ (by decide) ?_ ?_ <;>
  · intro w h e; simp only [decodeShort, h, e]; rfl

theorem ori (n : Imm9) : Statement (.ori n) := fun k _ _ => by
  rw [decode_encode]; refine decode_imm9 k _ n _ (by decide) ?_ ?_ <;>
  · intro w h e; simp only [decodeShort, h, e]; rfl

theorem andi (n : Imm9) : Statement (.andi n) := fun k _ _ => by
  rw [decode_encode]; refine decode_imm9 k _ n _ (by decide) ?_ ?_ <;>
  · intro w h e; simp only [decodeShort, h, e]; rfl

theorem eori (n : Imm9) : Statement (.eori n) := fun k _ _ => by
  rw [decode_encode]; refine decode_imm9 k _ n _ (by decide) ?_ ?_ <;>
  · intro w h e; simp only [decodeShort, h, e]; rfl

theorem cpi (n : Imm9) : Statement (.cpi n) := fun k _ _ => by
  rw [decode_encode]; refine decode_imm9 k _ n _ (by decide) ?_ ?_ <;>
  · intro w h e; simp only [decodeShort, h, e]; rfl

theorem lyi (n : Imm9) : Statement (.lyi n) := fun k _ _ => by
  rw [decode_encode]; refine decode_imm9 k _ n _ (by decide) ?_ ?_ <;>
  · intro w h e; simp only [decodeShort, h, e]; rfl

theorem lbi (n : Imm9) : Statement (.lbi n) := fun k _ _ => by
  rw [decode_encode]; refine decode_imm9 k _ n _ (by decide) ?_ ?_ <;>
  · intro w h e; simp only [decodeShort, h, e]; rfl

theorem psr (mask : Byte) : Statement (.psr mask) := fun k _ _ => by
  rw [decode_encode]; refine decode_short k (by rw [hi_byteWord]; decide) ?_
  simp only [decodeShort, hi_byteWord, lo_byteWord]; rfl

theorem plr (mask : Byte) : Statement (.plr mask) := fun k _ _ => by
  rw [decode_encode]; refine decode_short k (by rw [hi_byteWord]; decide) ?_
  simp only [decodeShort, hi_byteWord, lo_byteWord]; rfl

theorem svc (n : Byte) : Statement (.svc n) := fun k _ _ => by
  rw [decode_encode]; refine decode_short k (by rw [hi_byteWord]; decide) ?_
  simp only [decodeShort, hi_byteWord, lo_byteWord]; rfl

theorem lrm (mask : Byte) : Statement (.lrm mask) := fun k _ _ => by
  rw [decode_encode]; refine decode_short k (by rw [hi_byteWord]; decide) ?_
  simp only [decodeShort, hi_byteWord, lo_byteWord]; rfl

theorem arm (ix : Bool) (n : BitVec 7) : Statement (.arm ix n) := fun k _ _ => by
  rw [decode_encode]; exact decode_arm k ix n

theorem acq : Statement .acq := fun _ _ _ => rfl

theorem halt : Statement .halt := fun _ _ _ => rfl

theorem rsr : Statement .rsr := fun _ _ _ => rfl

theorem dbt : Statement .dbt := fun _ _ _ => rfl

theorem step : Statement .step := fun _ _ _ => rfl

theorem actd : Statement .actd := fun _ _ _ => rfl

theorem quit : Statement .quit := fun _ _ _ => rfl

theorem pty : Statement .pty := fun _ _ _ => rfl

theorem scy : Statement .scy := fun _ _ _ => rfl

theorem move : Statement .move := fun _ _ _ => rfl

theorem sbs : Statement .sbs := fun _ _ _ => rfl

theorem push : Statement .push := fun _ _ _ => rfl

theorem pull : Statement .pull := fun _ _ _ => rfl

theorem ack : Statement .ack := fun _ _ _ => rfl

theorem rsv : Statement .rsv := fun _ _ _ => rfl

theorem romb : Statement .romb := fun _ _ _ => rfl

theorem dbp : Statement .dbp := fun _ _ _ => rfl

theorem sbp : Statement .sbp := fun _ _ _ => rfl

theorem rbp : Statement .rbp := fun _ _ _ => rfl

theorem dit : Statement .dit := fun _ _ _ => rfl

theorem eit : Statement .eit := fun _ _ _ => rfl

theorem sst : Statement .sst := fun _ _ _ => rfl

theorem rst : Statement .rst := fun _ _ _ => rfl

theorem rdhv : Statement .rdhv := fun _ _ _ => rfl

theorem ipi : Statement .ipi := fun _ _ _ => rfl

theorem rdsi : Statement .rdsi := fun _ _ _ => rfl

theorem lar : Statement .lar := fun _ _ _ => rfl

theorem rdoe : Statement .rdoe := fun _ _ _ => rfl

theorem mvtm : Statement .mvtm := fun _ _ _ => rfl

theorem star : Statement .star := fun _ _ _ => rfl

theorem woe : Statement .woe := fun _ _ _ => rfl

theorem mvts : Statement .mvts := fun _ _ _ => rfl

theorem rbt (c : Count) : Statement (.rbt c) := fun k _ _ => by
  rw [decode_encode]; refine (decode_count k _ c).trans ?_; simp [regInstr]

theorem sbt (c : Count) : Statement (.sbt c) := fun k _ _ => by
  rw [decode_encode]; refine (decode_count k _ c).trans ?_; simp [regInstr]

theorem ibt (c : Count) : Statement (.ibt c) := fun k _ _ => by
  rw [decode_encode]; refine (decode_count k _ c).trans ?_; simp [regInstr]

theorem tbt (c : Count) : Statement (.tbt c) := fun k _ _ => by
  rw [decode_encode]; refine (decode_count k _ c).trans ?_; simp [regInstr]

theorem slrs (c : Count) : Statement (.slrs c) := fun k _ _ => by
  rw [decode_encode]; refine (decode_count k _ c).trans ?_; simp [regInstr]

theorem slrd (c : Count) : Statement (.slrd c) := fun k _ _ => by
  rw [decode_encode]; refine (decode_count k _ c).trans ?_; simp [regInstr]

theorem slls (c : Count) : Statement (.slls c) := fun k _ _ => by
  rw [decode_encode]; refine (decode_count k _ c).trans ?_; simp [regInstr]

theorem slld (c : Count) : Statement (.slld c) := fun k _ _ => by
  rw [decode_encode]; refine (decode_count k _ c).trans ?_; simp [regInstr]

theorem scrs (c : Count) : Statement (.scrs c) := fun k _ _ => by
  rw [decode_encode]; refine (decode_count k _ c).trans ?_; simp [regInstr]

theorem scrd (c : Count) : Statement (.scrd c) := fun k _ _ => by
  rw [decode_encode]; refine (decode_count k _ c).trans ?_; simp [regInstr]

theorem scls (c : Count) : Statement (.scls c) := fun k _ _ => by
  rw [decode_encode]; refine (decode_count k _ c).trans ?_; simp [regInstr]

theorem scld (c : Count) : Statement (.scld c) := fun k _ _ => by
  rw [decode_encode]; refine (decode_count k _ c).trans ?_; simp [regInstr]

theorem sars (c : Count) : Statement (.sars c) := fun k _ _ => by
  rw [decode_encode]; refine (decode_count k _ c).trans ?_; simp [regInstr]

theorem sard (c : Count) : Statement (.sard c) := fun k _ _ => by
  rw [decode_encode]; refine (decode_count k _ c).trans ?_; simp [regInstr]

theorem xr (rs : Reg) (rd : Reg) : Statement (.xr rs rd) := fun k _ _ => by
  rw [decode_encode]; refine (decode_reg k _ _ _).trans ?_; simp [regInstr]

theorem lr (rs : Reg) (rd : Reg) : Statement (.lr rs rd) := fun k _ _ => by
  rw [decode_encode]; refine (decode_reg k _ _ _).trans ?_; simp [regInstr]

theorem adr (rs : Reg) (rd : Reg) : Statement (.adr rs rd) := fun k _ _ => by
  rw [decode_encode]; refine (decode_reg k _ _ _).trans ?_; simp [regInstr]

theorem sbr (rs : Reg) (rd : Reg) : Statement (.sbr rs rd) := fun k _ _ => by
  rw [decode_encode]; refine (decode_reg k _ _ _).trans ?_; simp [regInstr]

theorem orr (rs : Reg) (rd : Reg) : Statement (.orr rs rd) := fun k _ _ => by
  rw [decode_encode]; refine (decode_reg k _ _ _).trans ?_; simp [regInstr]

theorem eorr (rs : Reg) (rd : Reg) : Statement (.eorr rs rd) := fun k _ _ => by
  rw [decode_encode]; refine (decode_reg k _ _ _).trans ?_; simp [regInstr]

theorem andr (rs : Reg) (rd : Reg) : Statement (.andr rs rd) := fun k _ _ => by
  rw [decode_encode]; refine (decode_reg k _ _ _).trans ?_; simp [regInstr]

theorem clsr (rs : Reg) (rd : Reg) : Statement (.clsr rs rd) := fun k _ _ => by
  rw [decode_encode]; refine (decode_reg k _ _ _).trans ?_; simp [regInstr]

theorem adcr (rd : Reg) : Statement (.adcr rd) := fun k _ _ => by
  rw [decode_encode]; refine (decode_reg k _ _ _).trans ?_; simp [regInstr]

theorem sbcr (rd : Reg) : Statement (.sbcr rd) := fun k _ _ => by
  rw [decode_encode]; refine (decode_reg k _ _ _).trans ?_; simp [regInstr]

theorem ngr (rs : Reg) (rd : Reg) : Statement (.ngr rs rd) := fun k _ _ => by
  rw [decode_encode]; refine (decode_reg k _ _ _).trans ?_; simp [regInstr]

theorem cpzr (rd : Reg) : Statement (.cpzr rd) := fun k _ _ => by
  rw [decode_encode]; refine (decode_reg k _ _ _).trans ?_; simp [regInstr]

theorem cmr (rs : Reg) (rd : Reg) : Statement (.cmr rs rd) := fun k _ _ => by
  rw [decode_encode]; refine (decode_reg k _ _ _).trans ?_; simp [regInstr]

theorem cpr (rs : Reg) (rd : Reg) : Statement (.cpr rs rd) := fun k _ _ => by
  rw [decode_encode]; refine (decode_reg k _ _ _).trans ?_; simp [regInstr]

theorem swbr (rs : Reg) (rd : Reg) : Statement (.swbr rs rd) := fun k _ _ => by
  rw [decode_encode]; refine (decode_reg k _ _ _).trans ?_; simp [regInstr]

theorem ximr (rd : Reg) : Statement (.ximr rd) := fun k _ _ => by
  rw [decode_encode]; refine (decode_reg k _ _ _).trans ?_; simp [regInstr]

theorem adrp (rs : Reg) : Statement (.adrp rs) := fun k _ _ => by
  rw [decode_encode]; refine (decode_reg k _ _ _).trans ?_; simp [regInstr]

theorem lrp (rd : Reg) : Statement (.lrp rd) := fun k _ _ => by
  rw [decode_encode]; refine (decode_reg k _ _ _).trans ?_; simp [regInstr]

theorem fneg : Statement .fneg := fun _ _ _ => rfl

theorem fabs : Statement .fabs := fun _ _ _ => rfl

theorem fix : Statement .fix := fun _ _ _ => rfl

theorem flt : Statement .flt := fun _ _ _ => rfl

theorem norm : Statement .norm := fun _ _ _ => rfl

theorem fcaz : Statement .fcaz := fun _ _ _ => rfl

theorem fld (m : MemRef) : Statement (.fld m) := fun k _ _ => by
  rw [decode_encode]; refine decode_float k _ m _ ?_
  simp only [floatInstr, memRefOf_memWord, opField_memWord]; rfl

theorem fad (m : MemRef) : Statement (.fad m) := fun k _ _ => by
  rw [decode_encode]; refine decode_float k _ m _ ?_
  simp only [floatInstr, memRefOf_memWord, opField_memWord]; rfl

theorem fmp (m : MemRef) : Statement (.fmp m) := fun k _ _ => by
  rw [decode_encode]; refine decode_float k _ m _ ?_
  simp only [floatInstr, memRefOf_memWord, opField_memWord]; rfl

theorem fdv (m : MemRef) : Statement (.fdv m) := fun k _ _ => by
  rw [decode_encode]; refine decode_float k _ m _ ?_
  simp only [floatInstr, memRefOf_memWord, opField_memWord]; rfl

theorem fst (m : MemRef) : Statement (.fst m) := fun k _ _ => by
  rw [decode_encode]; refine decode_float k _ m _ ?_
  simp only [floatInstr, memRefOf_memWord, opField_memWord]; rfl

theorem fsb (m : MemRef) : Statement (.fsb m) := fun k _ _ => by
  rw [decode_encode]; refine decode_float k _ m _ ?_
  simp only [floatInstr, memRefOf_memWord, opField_memWord]; rfl

theorem fcmz (m : MemRef) : Statement (.fcmz m) := fun k _ _ => by
  rw [decode_encode]; refine decode_float k _ m _ ?_
  simp only [floatInstr, memRefOf_memWord, opField_memWord]; rfl

theorem fcam (m : MemRef) : Statement (.fcam m) := fun k _ _ => by
  rw [decode_encode]; refine decode_float k _ m _ ?_
  simp only [floatInstr, memRefOf_memWord, opField_memWord]; rfl

theorem rcda : Statement .rcda := fun _ _ _ => rfl

theorem wcda : Statement .wcda := fun _ _ _ => rfl

theorem drbm : Statement .drbm := fun _ _ _ => rfl

theorem insq : Statement .insq := fun _ _ _ => rfl

theorem supq : Statement .supq := fun _ _ _ => rfl

theorem sfq : Statement .sfq := fun _ _ _ => rfl

theorem slq : Statement .slq := fun _ _ _ => rfl

theorem sbtm (ix : Bool) (n : BitVec 15) : Statement (.sbtm ix n) := fun k _ _ => by
  rw [decode_encode]; refine (decode_ext k _ (by decide) (by decide)).trans ?_
  change (match cdaInstr 0x02#8 (BitVec.ofBool ix ++ n) with
    | some i => Decoded.instr i []
    | none => .unassigned (some 7#3)) = _
  simp only [cdaInstr, getLsbD_rank, extract_rank]; rfl

theorem rbtm (ix : Bool) (n : BitVec 15) : Statement (.rbtm ix n) := fun k _ _ => by
  rw [decode_encode]; refine (decode_ext k _ (by decide) (by decide)).trans ?_
  change (match cdaInstr 0x03#8 (BitVec.ofBool ix ++ n) with
    | some i => Decoded.instr i []
    | none => .unassigned (some 7#3)) = _
  simp only [cdaInstr, getLsbD_rank, extract_rank]; rfl

theorem xmr : Statement .xmr := fun _ _ _ => rfl

theorem bla (ix : Bool) (o : IspArgs) : Statement (.bla ix o) := fun k hk hw => by
  rw [decode_encode]; exact decode_based hk hw (fun _ => rfl) rfl

theorem bsta (ix : Bool) (o : IspArgs) : Statement (.bsta ix o) := fun k hk hw => by
  rw [decode_encode]; exact decode_based hk hw (fun _ => rfl) rfl

theorem bxm (ix : Bool) (o : IspArgs) : Statement (.bxm ix o) := fun k hk hw => by
  rw [decode_encode]; exact decode_based hk hw (fun _ => rfl) rfl

theorem bdld (ix : Bool) (o : IspArgs) : Statement (.bdld ix o) := fun k hk hw => by
  rw [decode_encode]; exact decode_based hk hw (fun _ => rfl) rfl

theorem bdst (ix : Bool) (o : IspArgs) : Statement (.bdst ix o) := fun k hk hw => by
  rw [decode_encode]; exact decode_based hk hw (fun _ => rfl) rfl

theorem blby (ix : Bool) (o : IspArgs) : Statement (.blby ix o) := fun k hk hw => by
  rw [decode_encode]; exact decode_based hk hw (fun _ => rfl) rfl

theorem bstby (ix : Bool) (o : IspArgs) : Statement (.bstby ix o) := fun k hk hw => by
  rw [decode_encode]; exact decode_based hk hw (fun _ => rfl) rfl

theorem bmove (ix : Bool) (o : IspArgs) : Statement (.bmove ix o) := fun k hk hw => by
  rw [decode_encode]; exact decode_based hk hw (fun _ => rfl) rfl

theorem brbtm (ix : Bool) (o : IspArgs) : Statement (.brbtm ix o) := fun k hk hw => by
  rw [decode_encode]; exact decode_based hk hw (fun _ => rfl) rfl

theorem bsbtm (ix : Bool) (o : IspArgs) : Statement (.bsbtm ix o) := fun k hk hw => by
  rw [decode_encode]; exact decode_based hk hw (fun _ => rfl) rfl

theorem bdbtm (ix : Bool) (o : IspArgs) : Statement (.bdbtm ix o) := fun k hk hw => by
  rw [decode_encode]; exact decode_based hk hw (fun _ => rfl) rfl

theorem cla (ix : Bool) (w2 : Word) : Statement (.cla ix w2) := fun k hk hw => by
  rw [decode_encode]; exact decode_pointer hk hw rfl

theorem csta (ix : Bool) (w2 : Word) : Statement (.csta ix w2) := fun k hk hw => by
  rw [decode_encode]; exact decode_pointer hk hw rfl

theorem cxm (ix : Bool) (w2 : Word) : Statement (.cxm ix w2) := fun k hk hw => by
  rw [decode_encode]; exact decode_pointer hk hw rfl

theorem cdld (ix : Bool) (w2 : Word) : Statement (.cdld ix w2) := fun k hk hw => by
  rw [decode_encode]; exact decode_pointer hk hw rfl

theorem cdst (ix : Bool) (w2 : Word) : Statement (.cdst ix w2) := fun k hk hw => by
  rw [decode_encode]; exact decode_pointer hk hw rfl

theorem clby (ix : Bool) (w2 : Word) : Statement (.clby ix w2) := fun k hk hw => by
  rw [decode_encode]; exact decode_pointer hk hw rfl

theorem cstby (ix : Bool) (w2 : Word) : Statement (.cstby ix w2) := fun k hk hw => by
  rw [decode_encode]; exact decode_pointer hk hw rfl

theorem xent (ix : Bool) (w2 : Word) : Statement (.xent ix w2) := fun k hk hw => by
  rw [decode_encode]; exact decode_pointer hk hw rfl

theorem xsor (ix : Bool) (w2 : Word) : Statement (.xsor ix w2) := fun k hk hw => by
  rw [decode_encode]; exact decode_pointer hk hw rfl

theorem xctx (ix : Bool) (w2 : Word) : Statement (.xctx ix w2) := fun k hk hw => by
  rw [decode_encode]; exact decode_pointer hk hw rfl

theorem dap16 (sub : Byte) (w2 : Word) : Statement (.dap16 sub w2) := fun k _ _ => by
  rw [decode_encode]; exact (decode_family k sub w2).1

theorem vss16 (sub : Byte) (w2 : Word) : Statement (.vss16 sub w2) := fun k _ _ => by
  rw [decode_encode]; exact (decode_family k sub w2).2.1

theorem ffm16 (sub : Byte) (w2 : Word) : Statement (.ffm16 sub w2) := fun k _ _ => by
  rw [decode_encode]; exact (decode_family k sub w2).2.2

end Laws.RoundTrip

end Sys2Proof
end

