-- ==== Sys2Proof/Certificates/Slice0/Obligations.lean ====
section
/-! DEFINITION. The statements for the provers (OBLIGATIONS.json). -/

section
open Sys2Proof Sys2Proof.Machine

/-- Loads of a register by immediate value or from a register (40_load_store_exchange.md R144 to R149, R156; 43_byte_misc.md
R243, R250, R258, R259): the value of the 9-bit immediate, the registers written, and nothing else. -/
def Obligations.RegisterLoads : Prop :=
  ∀ s : State,
    (∀ n : Imm9, ∃ v : Word, v.toInt = (n.n.toNat : Int) - (if n.sign then 256 else 0)
      ∧ exec (.lai n) s = .next ((s.setReg .a v).ends 1) ∧ exec (.lbi n) s = .next ((s.setReg .b v).ends 1)
      ∧ exec (.lxi n) s = .next ((s.setReg .x v).ends 1) ∧ exec (.lyi n) s = .next ((s.setReg .y v).ends 1))
    ∧ (∀ rs rd, exec (.lr rs rd) s = .next ((s.setReg rd (s.reg rs)).ends 1))
    ∧ (∀ rs rd, ∃ t : State, exec (.xr rs rd) s = .next (t.ends 1) ∧ t.reg rs = s.reg rd ∧ t.reg rd = s.reg rs
      ∧ (∀ q, q ≠ rs → q ≠ rd → t.reg q = s.reg q) ∧ t = { s with r := t.r })
    ∧ (∀ rs rd, ∃ v : Word, hi v = lo (s.reg rs) ∧ lo v = hi (s.reg rs)
      ∧ exec (.swbr rs rd) s = .next ((s.setReg rd v).ends 1))
    ∧ (∀ rd, exec (.lrp rd) s = .next ((s.setReg rd s.P).ends 1))
    ∧ (∀ rs, exec (.adrp rs) s = .next (s.goes (s.P + s.reg rs)))
    ∧ exec .scy s = .next ((s.setVC s.st.V true).ends 1)
    ∧ exec .nop s = .next (s.ends 1)

/-- The addition law (41_arithmetic_compare.md R170) on the instructions that apply it (R173 to R176): the sum modulo 65536, V on
signed overflow, Cf on a carry, and nothing else. -/
def Obligations.AdditionLaw : Prop :=
  ∀ s : State,
    (∀ m, s.operandOk m = true → ∃ v c, sumFlags s.r.A (s.operand m) v c
      ∧ exec (.ad m) s = .next (((s.setReg .a (s.r.A + s.operand m)).setVC v c).ends 1))
    ∧ (∀ r n, ∃ v c, sumFlags (s.reg r) (sext8 n) v c
      ∧ exec (.adri r n) s = .next (((s.setReg r (s.reg r + sext8 n)).setVC v c).ends 1))
    ∧ (∀ rs rd, ∃ v c, sumFlags (s.reg rd) (s.reg rs) v c
      ∧ exec (.adr rs rd) s = .next (((s.setReg rd (s.reg rd + s.reg rs)).setVC v c).ends 1))
    ∧ (∀ rd, ∃ v c, sumFlags (s.reg rd) (ofBit s.st.Cf) v c
      ∧ exec (.adcr rd) s = .next (((s.setReg rd (s.reg rd + ofBit s.st.Cf)).setVC v c).ends 1))

/-- The subtraction law (41_arithmetic_compare.md R171) on the instructions that apply it (R177 to R179): the difference modulo
65536, V on signed overflow, Cf on a borrow (the spec's reading D16, log 51), and nothing else. -/
def Obligations.SubtractionLaw : Prop :=
  ∀ s : State,
    (∀ m, s.operandOk m = true → ∃ v c, differenceFlags s.r.A (s.operand m) v c
      ∧ exec (.sb m) s = .next (((s.setReg .a (s.r.A - s.operand m)).setVC v c).ends 1))
    ∧ (∀ rs rd, ∃ v c, differenceFlags (s.reg rd) (s.reg rs) v c
      ∧ exec (.sbr rs rd) s = .next (((s.setReg rd (s.reg rd - s.reg rs)).setVC v c).ends 1))
    ∧ (∀ rd, ∃ v c, differenceFlags (s.reg rd) (ofBit s.st.Cf) v c
      ∧ exec (.sbcr rd) s = .next (((s.setReg rd (s.reg rd - ofBit s.st.Cf)).setVC v c).ends 1))

/-- The comparison law (41_arithmetic_compare.md R172) on the comparisons (R183 to R187, 43_byte_misc.md R242): V and Cf by the
order of the two terms, and nothing else. -/
def Obligations.ComparisonLaw : Prop :=
  ∀ s : State,
    (∀ m, s.operandOk m = true → ∃ v c, comparisonFlags (s16 s.r.A) (s16 (s.operand m)) v c
      ∧ exec (.cp m) s = .next ((s.setVC v c).ends 1))
    ∧ (∀ n, ∃ v c, comparisonFlags (s16 s.r.A) (s16 (immValue n)) v c
      ∧ exec (.cpi n) s = .next ((s.setVC v c).ends 1))
    ∧ (∀ rs rd, ∃ v c, comparisonFlags (s16 (s.reg rd)) (s16 (s.reg rs)) v c
      ∧ exec (.cpr rs rd) s = .next ((s.setVC v c).ends 1))
    ∧ (∀ rd, ∃ v c, comparisonFlags (s16 (s.reg rd)) 0 v c
      ∧ exec (.cpzr rd) s = .next ((s.setVC v c).ends 1))
    ∧ (∀ m, s.operandOk m = true → ∃ v c, comparisonFlags (s16 (s.operand m)) 0 v c
      ∧ exec (.cpz m) s = .next ((s.setVC v c).ends 1))
    ∧ (∀ m, s.byteOk m = true → ∃ v c, comparisonFlags (s16 s.r.A) ((s.byteOperand m).toNat : Int) v c
      ∧ exec (.cpby m) s = .next ((s.setVC v c).ends 1))

/-- NGR, MP and DV (41_arithmetic_compare.md R180 to R182): the opposite modulo 65536 with its flags; the exact signed product of two
words on 32 bits; where the quotient can be expressed A, B take the quotient towards zero and the remainder, of the sign of the
dividend, else V = 1 and A, B hold values the rule leaves open (U2, log 9). -/
def Obligations.NegateMultiplyDivide : Prop :=
  (∀ s : State,
    (∀ rs rd, ∃ x v c, s16 x = (if s.reg rs = 0x8000#16 then -32768 else -s16 (s.reg rs))
      ∧ (v = true ↔ s16 (s.reg rs) = -32768) ∧ (c = true ↔ s.reg rs ≠ 0#16)
      ∧ exec (.ngr rs rd) s = .next (((s.setReg rd x).setVC v c).ends 1))
    ∧ (∀ m, s.operandOk m = true → ∃ d : BitVec 32, d.toInt = s16 s.r.A * s16 (s.operand m)
      ∧ exec (.mp m) s = .next (((s.setAB d).setVC false false).ends 1)))
  ∧ ∀ (s : State) (m : MemRef), s.operandOk m = true →
    (∀ q r : Int, s.ab.toInt = q * s16 (s.operand m) + r → r.natAbs < (s16 (s.operand m)).natAbs → 0 ≤ r * s.ab.toInt →
      -32768 ≤ q → q ≤ 32767 → ∃ a b : Word, s16 a = q ∧ s16 b = r
        ∧ exec (.dv m) s = .next ((((s.setReg .a a).setReg .b b).setVC false false).ends 1))
    ∧ ((s16 (s.operand m) = 0 ∨ (∀ q r : Int, s.ab.toInt = q * s16 (s.operand m) + r →
        r.natAbs < (s16 (s.operand m)).natAbs → 0 ≤ r * s.ab.toInt → q < -32768 ∨ 32767 < q)) →
      ∃ a b n, exec (.dv m) s
        = .next (({ ((s.setReg .a a).setReg .b b).setVC true false with freeCount := n } : State).ends 1))

/-- The logical operations (42_logic_shift_bit.md R200 to R210), bit by bit in the manual's numbering; no flag changes. EORR, CLSR
and CMR are also given with their encodings (R208 to R210). -/
def Obligations.LogicOperations : Prop :=
  (∀ (k : IspCoding) (rs rd : Reg), decodeWords k [0x2CC0#16 + BitVec.ofNat 16 (rs.code.toNat * 8 + rd.code.toNat)] = .instr (.eorr rs rd) []
    ∧ decodeWords k [0x2D40#16 + BitVec.ofNat 16 (rs.code.toNat * 8 + rd.code.toNat)] = .instr (.clsr rs rd) []
    ∧ decodeWords k [0x2E80#16 + BitVec.ofNat 16 (rs.code.toNat * 8 + rd.code.toNat)] = .instr (.cmr rs rd) [])
  ∧ ∀ s : State,
    (∀ n : Imm9, ∃ f g h : Word,
      (∀ i, bit f i = (bit s.r.A i && bit (immValue n) i)) ∧ (∀ i, bit g i = (bit s.r.A i || bit (immValue n) i))
      ∧ (∀ i, bit h i = (bit s.r.A i ^^ bit (immValue n) i)) ∧ exec (.andi n) s = .next ((s.setReg .a f).ends 1)
      ∧ exec (.ori n) s = .next ((s.setReg .a g).ends 1) ∧ exec (.eori n) s = .next ((s.setReg .a h).ends 1))
    ∧ (∀ m, s.operandOk m = true → ∃ f g h : Word,
      (∀ i, bit f i = (bit s.r.A i && bit (s.operand m) i)) ∧ (∀ i, bit g i = (bit s.r.A i || bit (s.operand m) i))
      ∧ (∀ i, bit h i = (bit s.r.A i ^^ bit (s.operand m) i)) ∧ exec (.and m) s = .next ((s.setReg .a f).ends 1)
      ∧ exec (.or m) s = .next ((s.setReg .a g).ends 1) ∧ exec (.eor m) s = .next ((s.setReg .a h).ends 1))
    ∧ (∀ rs rd, ∃ f g h k n : Word,
      (∀ i, bit f i = (bit (s.reg rd) i && bit (s.reg rs) i)) ∧ (∀ i, bit g i = (bit (s.reg rd) i || bit (s.reg rs) i))
      ∧ (∀ i, bit h i = (bit (s.reg rd) i ^^ bit (s.reg rs) i)) ∧ (∀ i, bit k i = (bit (s.reg rd) i && !bit (s.reg rs) i))
      ∧ (∀ i, i < 16 → bit n i = !bit (s.reg rs) i)
      ∧ exec (.andr rs rd) s = .next ((s.setReg rd f).ends 1) ∧ exec (.orr rs rd) s = .next ((s.setReg rd g).ends 1)
      ∧ exec (.eorr rs rd) s = .next ((s.setReg rd h).ends 1) ∧ exec (.clsr rs rd) s = .next ((s.setReg rd k).ends 1)
      ∧ exec (.cmr rs rd) s = .next ((s.setReg rd n).ends 1))

/-- The ten shifts (42_logic_shift_bit.md R212, R215 to R224) by p positions, p being 0 to 31: the result as a number, or bit by bit
for a rotation; every shift writes V = 0 and in Cf the last bit shifted out, 0 for p = 0, where the register is unchanged. SCRS and
SCLS by more than 16 positions go on as by one position at a time, which is the spec's own reading (R213). First the five shifts of
A, then those of A::B. -/
def Obligations.Shifts : Prop :=
  (∀ (s : State) (k : Count) (p : Nat), p = s.positions k → ∃ (r l x y z : Word) (cr cl cx cy cz : Bool),
    r.toNat = s.r.A.toNat / 2 ^ p ∧ (cr = true ↔ p ≠ 0 ∧ s.r.A.toNat / 2 ^ (p - 1) % 2 = 1)
    ∧ l.toNat = s.r.A.toNat * 2 ^ p % 65536 ∧ (cl = true ↔ s.r.A.toNat * 2 ^ p / 65536 % 2 = 1)
    ∧ (∀ i, i < 16 → bit x i = bit s.r.A ((i + 32 - p) % 16)) ∧ (cx = true ↔ p ≠ 0 ∧ bit x 0 = true)
    ∧ (∀ i, i < 16 → bit y i = bit s.r.A ((i + p) % 16)) ∧ (cy = true ↔ p ≠ 0 ∧ bit y 15 = true)
    ∧ s16 z = s16 s.r.A / 2 ^ p ∧ (cz = true ↔ p ≠ 0 ∧ s16 s.r.A / 2 ^ (p - 1) % 2 = 1)
    ∧ exec (.slrs k) s = .next (((s.setReg .a r).setVC false cr).ends 1)
    ∧ exec (.slls k) s = .next (((s.setReg .a l).setVC false cl).ends 1)
    ∧ exec (.scrs k) s = .next (((s.setReg .a x).setVC false cx).ends 1)
    ∧ exec (.scls k) s = .next (((s.setReg .a y).setVC false cy).ends 1)
    ∧ exec (.sars k) s = .next (((s.setReg .a z).setVC false cz).ends 1))
  ∧ ∀ (s : State) (k : Count) (p : Nat), p = s.positions k → ∃ (r l x y z : BitVec 32) (cr cl cx cy cz : Bool),
    r.toNat = s.ab.toNat / 2 ^ p ∧ (cr = true ↔ p ≠ 0 ∧ s.ab.toNat / 2 ^ (p - 1) % 2 = 1)
    ∧ l.toNat = s.ab.toNat * 2 ^ p % 4294967296 ∧ (cl = true ↔ s.ab.toNat * 2 ^ p / 4294967296 % 2 = 1)
    ∧ (∀ i, i < 32 → pairBit x i = pairBit s.ab ((i + 32 - p) % 32)) ∧ (cx = true ↔ p ≠ 0 ∧ pairBit x 0 = true)
    ∧ (∀ i, i < 32 → pairBit y i = pairBit s.ab ((i + p) % 32)) ∧ (cy = true ↔ p ≠ 0 ∧ pairBit y 31 = true)
    ∧ z.toInt = s.ab.toInt / 2 ^ p ∧ (cz = true ↔ p ≠ 0 ∧ s.ab.toInt / 2 ^ (p - 1) % 2 = 1)
    ∧ exec (.slrd k) s = .next (((s.setAB r).setVC false cr).ends 1)
    ∧ exec (.slld k) s = .next (((s.setAB l).setVC false cl).ends 1)
    ∧ exec (.scrd k) s = .next (((s.setAB x).setVC false cx).ends 1)
    ∧ exec (.scld k) s = .next (((s.setAB y).setVC false cy).ends 1)
    ∧ exec (.sard k) s = .next (((s.setAB z).setVC false cz).ends 1)

/-- The bit operations (42_logic_shift_bit.md R225 to R229, 43_byte_misc.md R245): one bit of A::B is cleared, set, inverted or
tested, the leftmost 1 is found, the parity of the right byte of A is taken. -/
def Obligations.BitOperations : Prop :=
  ∀ s : State,
    (∀ k : Count, ∃ f g h : BitVec 32,
      (∀ i, i < 32 → pairBit f i = (pairBit s.ab i && i ≠ s.positions k))
      ∧ (∀ i, i < 32 → pairBit g i = (pairBit s.ab i || i = s.positions k))
      ∧ (∀ i, i < 32 → pairBit h i = (pairBit s.ab i ^^ decide (i = s.positions k)))
      ∧ exec (.rbt k) s = .next ((s.setAB f).ends 1) ∧ exec (.sbt k) s = .next ((s.setAB g).ends 1)
      ∧ exec (.ibt k) s = .next ((s.setAB h).ends 1)
      ∧ exec (.tbt k) s = .next ((s.setVC false (pairBit s.ab (s.positions k))).ends 1))
    ∧ (s.ab = 0#32 → exec .dbt s = .next ((s.setVC false true).ends 1))
    ∧ (∀ i, i < 32 → pairBit s.ab i = true → (∀ j, j < i → pairBit s.ab j = false) →
      exec .dbt s = .next (((s.setReg .x (BitVec.ofNat 16 i)).setVC false false).ends 1))
    ∧ ∃ c, (c = true ↔ ((List.range 8).countP fun i => bit s.r.A (8 + i)) % 2 = 1)
      ∧ exec .pty s = .next ((s.setVC false c).ends 1)

/-- Loads from memory, BR and LAD (40_load_store_exchange.md R140 to R143, 43_byte_misc.md R249, 44_branch.md R270): the register or
P takes the operand word, and nothing else changes. LAD shows the effective address of a word operand (30_encoding.md R102): base +
displacement modulo 65536 (the spec's choice D5, log 12); indirect, the 15 low bits of the relay, plus X when its bit 0 is 1. -/
def Obligations.MemoryLoads : Prop :=
  (∀ (s : State) (m : MemRef), s.operandOk m = true →
    exec (.la m) s = .next ((s.setReg .a (s.operand m)).ends 1)
    ∧ exec (.lb m) s = .next ((s.setReg .b (s.operand m)).ends 1)
    ∧ exec (.lx m) s = .next ((s.setReg .x (s.operand m)).ends 1)
    ∧ exec (.ly m) s = .next ((s.setReg .y (s.operand m)).ends 1)
    ∧ exec (.br m) s = .next (s.goes (s.operand m)))
  ∧ ∀ (s : State) (m : MemRef) (a : Word), (a.toNat : Int) = ((s.base m.base).toNat + m.d.toInt) % 65536 →
    (m.ind = false → exec (.lad m) s = .next ((s.setReg .a a).ends 1))
    ∧ (m.ind = true → s.canRead s.relocated a = true → ∀ w : Word, w = s.wordAt s.relocated a → ∃ ea : Word,
      ea.toNat = (if w.toNat < 32768 then w.toNat else (w.toNat - 32768 + s.r.X.toNat) % 65536)
      ∧ exec (.lad m) s = .next ((s.setReg .a ea).ends 1))

/-- When an access of an instruction stops it (20_memory.md R70, R72, R73; protection, then existence, then parity: D14, log 13), on
the instructions with a word operand, at the address `a` of the operand, or of the relay of an indirect one: beyond the limit
alarm 1; a word that does not exist alarm 0, but on a 04/05, where a read gives any value (U8) and a write is lost, which
is how the spec takes it (R72, log 53); a word in bad parity, read with DEBUG = MAINT = 0, alarm 2, while a write repairs it. Nothing is
written and no register changes before the alarm is taken, and the P saved is that of the instruction: the spec's choices D35 and D39
(U21, log 15). -/
def Obligations.AccessAlarms : Prop :=
  ∀ (s : State) (m : MemRef) (a : Word) (pa : PAddr), a = s.direct m → pa = s.place s.relocated a →
    (∀ n : Alarm,
      (n = .memoryProtection ∧ s.relocated = true ∧ s.limit < a.toNat)
        ∨ (n = .nonExistentMemory ∧ s.allowed s.relocated a = true ∧ s.cfg.exists pa = false ∧ s.cfg.is0405 = false)
        ∨ (n = .parityError ∧ s.allowed s.relocated a = true ∧ s.cfg.exists pa = true ∧ s.cfg.parity = true
          ∧ pa.toNat ∈ s.badParity ∧ s.st.MAINT = false ∧ s.st.DEBUG = false) →
      (∀ i ∈ [Instr.la m, .lb m, .lx m, .ly m, .br m, .ad m, .sb m, .cp m, .cpz m, .and m, .or m, .eor m, .mp m, .dv m, .xm m, .ic m,
          .dc m, .lby m, .stby m, .cpby m], exec i s = (takeAlarm s.P n s.completed).outcome)
      ∧ (m.ind = true ∨ n ≠ .parityError →
        ∀ i ∈ [Instr.sta m, .stb m, .stx m, .sty m, .stz m], exec i s = (takeAlarm s.P n s.completed).outcome))
    ∧ (m.ind = false → s.cfg.exists pa = false → s.cfg.is0405 = true →
      (∃ v n, exec (.la m) s = .next (({ s.setReg .a v with freeCount := n } : State).ends 1))
      ∧ exec (.sta m) s = .next (s.ends 1))
    ∧ (m.ind = false → s.allowed s.relocated a = true → s.cfg.exists pa = true → s.st.DEBUG = false →
      exec (.sta m) s = .next ((s.store pa s.r.A).ends 1) ∧ (s.store pa s.r.A).badWord pa = false)

/-- A store in a word (20_memory.md R61): its left byte is byte 2·pa, its right byte byte 2·pa + 1; the word reads as stored, its
parity is good, every other byte and every other word's parity is as before, and the memory keeps its canonical form. -/
def Obligations.StoredWord : Prop :=
  ∀ (s : State) (pa : PAddr) (v : Word), Memory.wf s.mem = true →
    readByte (s.store pa v).mem (2 * pa.toNat) = hi v ∧ readByte (s.store pa v).mem (2 * pa.toNat + 1) = lo v
    ∧ readWord (s.store pa v).mem pa = v ∧ (s.store pa v).badWord pa = false ∧ s.memorySameBut (s.store pa v) pa
    ∧ (∀ q, q ≠ pa → (s.store pa v).badWord q = s.badWord q) ∧ Memory.wf (s.store pa v).mem = true
    ∧ s.store pa v = { s with mem := (s.store pa v).mem, badParity := (s.store pa v).badParity }

/-- Stores of a register and of zero, the exchange XM, and IC and DC (40_load_store_exchange.md R150 to R155, 43_byte_misc.md R246
to R248): the word at the effective address is written, V and Cf of IC and DC compare its new value with 0. -/
def Obligations.MemoryStores : Prop :=
  ∀ (s : State) (m : MemRef), s.relayOk m = true →
    (s.canWrite s.relocated (s.effective m) = true →
      exec (.sta m) s = .next ((s.put s.relocated (s.effective m) s.r.A).ends 1)
      ∧ exec (.stb m) s = .next ((s.put s.relocated (s.effective m) s.r.B).ends 1)
      ∧ exec (.stx m) s = .next ((s.put s.relocated (s.effective m) s.r.X).ends 1)
      ∧ exec (.sty m) s = .next ((s.put s.relocated (s.effective m) s.r.Y).ends 1)
      ∧ exec (.stz m) s = .next ((s.put s.relocated (s.effective m) 0#16).ends 1))
    ∧ (s.canRead s.relocated (s.effective m) = true →
      exec (.xm m) s = .next (((s.put s.relocated (s.effective m) s.r.A).setReg .a (s.operand m)).ends 1)
      ∧ (∃ v c, comparisonFlags (s16 (s.operand m + 1#16)) 0 v c
        ∧ exec (.ic m) s = .next (((s.put s.relocated (s.effective m) (s.operand m + 1#16)).setVC v c).ends 1))
      ∧ (∃ v c, comparisonFlags (s16 (s.operand m - 1#16)) 0 v c
        ∧ exec (.dc m) s = .next (((s.put s.relocated (s.effective m) (s.operand m - 1#16)).setVC v c).ends 1)))

/-- LBY and STBY (30_encoding.md R103, 43_byte_misc.md R240, R241): the byte addressed goes to A with eight zeros on its left, or
takes the right byte of A, the other byte of the word as it was. -/
def Obligations.ByteAccess : Prop :=
  ∀ (s : State) (m : MemRef) (wa : Word) (right : Bool), s.byteTarget m wa right → s.canRead s.relocated wa = true →
    ∃ v w : Word, v.toNat = (if right then (s.wordAt s.relocated wa).toNat % 256 else (s.wordAt s.relocated wa).toNat / 256)
      ∧ exec (.lby m) s = .next ((s.setReg .a v).ends 1)
      ∧ (if right then hi w = hi (s.wordAt s.relocated wa) ∧ lo w = lo s.r.A
        else hi w = lo s.r.A ∧ lo w = lo (s.wordAt s.relocated wa))
      ∧ exec (.stby m) s = .next ((s.put s.relocated wa w).ends 1)

/-- The jumps relative to P (44_branch.md R271, R280 to R292), and JIX and JDX (R278, R279): each with the condition under which it
goes to P + displacement, modulo 65536 (the spec's choice D5, log 12); else it goes to the next instruction. Nothing but P changes;
JIX and JDX count X up or down modulo 65536 first, and jump while it is negative, or positive. -/
def Obligations.RelativeJumps : Prop :=
  (∀ (s : State) (d : Byte), ∃ p : Word, (p.toNat : Int) = (s.P.toNat + d.toInt) % 65536
    ∧ exec (.jmp d) s = .next (s.goes p)
    ∧ ∀ j ∈ [(Instr.jnc d, s.st.Cf = false), (.jnv d, s.st.V = false), (.jncv d, s.st.Cf = false ∧ s.st.V = false),
        (.jc d, s.st.Cf = true), (.jv d, s.st.V = true), (.jcv d, s.st.Cf = true ∨ s.st.V = true),
        (.jage d, 0 ≤ s16 s.r.A), (.jane d, s16 s.r.A ≠ 0), (.jag d, 0 < s16 s.r.A), (.jal d, s16 s.r.A < 0),
        (.jae d, s16 s.r.A = 0), (.jale d, s16 s.r.A ≤ 0)],
      (j.2 → exec j.1 s = .next (s.goes p)) ∧ (¬ j.2 → exec j.1 s = .next (s.ends 1)))
  ∧ ∀ (s : State) (d : Byte), ∃ p x y : Word, (p.toNat : Int) = (s.P.toNat + d.toInt) % 65536
    ∧ (x.toNat : Int) = (s.r.X.toNat + 1) % 65536 ∧ (y.toNat : Int) = (s.r.X.toNat - 1) % 65536
    ∧ (s16 x < 0 → exec (.jix d) s = .next ((s.setReg .x x).goes p))
    ∧ (0 ≤ s16 x → exec (.jix d) s = .next ((s.setReg .x x).ends 1))
    ∧ (0 < s16 y → exec (.jdx d) s = .next ((s.setReg .x y).goes p))
    ∧ (s16 y ≤ 0 → exec (.jdx d) s = .next ((s.setReg .x y).ends 1))

/-- BSR and RSR (44_branch.md R273, R274): the return address goes on the K stack and P takes the operand word, read after the push;
the return pulls P. -/
def Obligations.Subroutines : Prop :=
  ∀ s : State,
    (∀ m, s.relayOk m = true → s.canWrite s.stackRelocated (s.r.K + 1#16) = true →
      s.canRead s.relocated (s.effective m) = true →
      exec (.bsr m) s = .next ((s.pushed (s.P + 1#16)).goes ((s.pushed (s.P + 1#16)).wordAt s.relocated (s.effective m))))
    ∧ (s.canRead s.stackRelocated s.r.K = true →
      exec .rsr s = .next ((s.setReg .k (s.r.K - 1#16)).goes (s.wordAt s.stackRelocated s.r.K)))

/-- SVC and RSV (44_branch.md R276, R277): X takes the number, the return address is pushed, P takes the vector of the mode, MS and
SVCS are set out of master mode; the return pulls P and clears MS and SVCS. That it is
alarm 3 on a 04/05 is the spec's choice D22 (log 32). -/
def Obligations.SupervisorCall : Prop :=
  ∀ s : State,
    (∀ n, s.svcOk = true → exec (.svc n) s = .next (s.svcDone n (s.P + 1#16)))
    ∧ (s.cfg.is0405 = false → s.canRead s.stackRelocated s.r.K = true →
      exec .rsv s = .next { (s.setReg .k (s.r.K - 1#16)).goes (s.wordAt s.stackRelocated s.r.K) with
        st := { s.st with MS := false, SVCS := false } })
    ∧ (s.cfg.is0405 = true → exec .rsv s = (takeAlarm s.P .absentOption s.completed).outcome)

/-- An instruction of an extension family the machine has not (30_encoding.md R118): X is pushed, then SVC n with the address after
two words. Families 1, 2 and 5 are never present in this model (log 56). -/
def Obligations.AbsentExtensions : Prop :=
  ∀ s : State, s.absentOk = true →
    (∀ sub w, exec (.dap16 sub w) s = .next (s.absentDone 1#8) ∧ exec (.vss16 sub w) s = .next (s.absentDone 2#8)
      ∧ exec (.ffm16 sub w) s = .next (s.absentDone 5#8))
    ∧ (s.cfg.hasFfp16 = false → s.cfg.hasFfpPartial = false →
      (∀ i ∈ [Instr.fneg, .fabs, .fix, .flt, .norm, .fcaz], exec i s = .next (s.absentDone 0#8))
      ∧ (∀ m, ∀ i ∈ [Instr.fld m, .fst m, .fad m, .fsb m, .fmp m, .fdv m, .fcmz m, .fcam m],
        exec i s = .next (s.absentDone 0#8)))
    ∧ (s.cfg.hasFfp16 = false → ∀ m, ∀ i ∈ [Instr.flt, .norm, .fad m, .fsb m, .fmp m, .fdv m, .fcam m],
      exec i s = .next (s.absentDone 0#8))
    ∧ (s.cfg.hasCda16 = false → (∀ i ∈ [Instr.drbm, .insq, .supq, .sfq, .slq], exec i s = .next (s.absentDone 7#8))
      ∧ (∀ ix n, exec (.sbtm ix n) s = .next (s.absentDone 7#8) ∧ exec (.rbtm ix n) s = .next (s.absentDone 7#8))
      ∧ (s.cfg.hasCdaRwOnly = false → exec .rcda s = .next (s.absentDone 7#8) ∧ exec .wcda s = .next (s.absentDone 7#8)))
    ∧ (s.cfg.hasIsp16 = false →
      (∀ ix o, ∀ i ∈ [Instr.bla ix o, .bsta ix o, .bxm ix o, .bdld ix o, .bdst ix o, .blby ix o, .bstby ix o, .bmove ix o,
        .brbtm ix o, .bsbtm ix o, .bdbtm ix o], exec i s = .next (s.absentDone 4#8))
      ∧ (∀ ix w, ∀ i ∈ [Instr.cla ix w, .csta ix w, .cxm ix w, .cdld ix w, .cdst ix w, .clby ix w, .cstby ix w,
        .xent ix w, .xsor ix w, .xctx ix w], exec i s = .next (s.absentDone 4#8)))
    ∧ (s.cfg.hasXmr = false → exec .xmr s = .next (s.absentDone 6#8))

/-- PSR, PLR and LRM (43_byte_misc.md R251 to R253). PSR stores the selected registers above K in the order A, B, X, Y, C, L, W, K
and adds their number to K; K stores the value it has before its own store. PLR loads them back in the reverse order, from the
restored K downward when K is among them. LRM loads them from the words after it. PSR then PLR with the same mask
restores every register, K among them. The place of a register in the mask is this spec's choice D11 (log 10). -/
def Obligations.RegisterStacks : Prop :=
  ∀ (s : State) (mask : Byte) (l : List Reg), l = selectedRegs mask →
    (Memory.wf s.mem = true → (∀ i, i < l.length → s.canWrite s.stackRelocated (s.r.K + BitVec.ofNat 16 (i + 1)) = true) →
      ∃ t : State, exec (.psr mask) s = .next (t.ends 1) ∧ t.r = { s.r with K := s.r.K + BitVec.ofNat 16 l.length }
        ∧ (∀ i r, l[i]? = some r → t.wordAt s.stackRelocated (s.r.K + BitVec.ofNat 16 (i + 1))
          = if r = .k then s.r.K + BitVec.ofNat 16 i else s.reg r)
        ∧ (∀ a, (∀ i, i < l.length → a / 2 ≠ (s.place s.stackRelocated (s.r.K + BitVec.ofNat 16 (i + 1))).toNat) →
          readByte t.mem a = readByte s.mem a)
        ∧ t = { s with r := t.r, mem := t.mem, badParity := t.badParity })
    ∧ (∀ (top : Word) (n : Nat), (if Reg.k ∈ l then s.canRead s.stackRelocated s.r.K = true
          ∧ top = s.wordAt s.stackRelocated s.r.K ∧ n + 1 = l.length else top = s.r.K ∧ n = l.length) →
      (∀ i, i < n → s.canRead s.stackRelocated (top - BitVec.ofNat 16 i) = true) →
      ∃ t : State, exec (.plr mask) s = .next (t.ends 1) ∧ t.r.K = top - BitVec.ofNat 16 n
        ∧ (∀ i r, l[i]? = some r → r ≠ .k → t.reg r = s.wordAt s.stackRelocated (top - BitVec.ofNat 16 (n - 1 - i)))
        ∧ (∀ r, r ∉ l → r ≠ .k → t.reg r = s.reg r) ∧ t = { s with r := t.r })
    ∧ ((∀ i, i < l.length → s.canRead s.relocated (s.P + BitVec.ofNat 16 (i + 1)) = true) →
      ∃ t : State, exec (.lrm mask) s = .next (t.ends (l.length + 1))
        ∧ (∀ i r, l[i]? = some r → t.reg r = s.wordAt s.relocated (s.P + BitVec.ofNat 16 (i + 1)))
        ∧ (∀ r, r ∉ l → t.reg r = s.reg r) ∧ t = { s with r := t.r })
    ∧ (Memory.wf s.mem = true → (∀ i, i < l.length → s.canWrite s.stackRelocated (s.r.K + BitVec.ofNat 16 (i + 1)) = true) →
      ∃ t u, exec (.psr mask) s = .next t ∧ exec (.plr mask) t = .next u ∧ u.r = s.r ∧ u.P = s.P + 2#16 ∧ u.st = s.st
        ∧ u.mem = t.mem)

/-- PUSH and PULL (43_byte_misc.md R254, R255) on the stack at Y, whose header is N :: n: the index moves, the word at Y + n is
written or read, V says full or empty before, Cf full or empty after; alarm 3 where the option is absent. -/
def Obligations.PushPull : Prop :=
  ∀ s : State,
    (s.cfg.hasPushPullSbs = false → (∀ i ∈ [Instr.push, .pull, .sbs],
      exec i s = (takeAlarm s.P .absentOption s.completed).outcome))
    ∧ (s.cfg.hasPushPullSbs = true → s.canRead s.relocated s.r.Y = true → ∀ (h : Word) (N n : Nat),
      h = s.wordAt s.relocated s.r.Y → h.toNat = 256 * N + n → n < 256 →
      (N ≤ n → exec .push s = .next ((s.setVC true false).ends 1))
      ∧ (n < N → s.canWrite s.relocated (s.r.Y + BitVec.ofNat 16 (n + 1)) = true →
        exec .push s = .next ((((s.put s.relocated s.r.Y (BitVec.ofNat 16 (256 * N + n + 1))).put s.relocated
          (s.r.Y + BitVec.ofNat 16 (n + 1)) s.r.A).setVC false (decide (n + 1 = N))).ends 1))
      ∧ (n = 0 → exec .pull s = .next ((s.setVC true false).ends 1))
      ∧ (0 < n → s.canRead s.relocated (s.r.Y + BitVec.ofNat 16 n) = true →
        exec .pull s = .next ((((s.put s.relocated s.r.Y (BitVec.ofNat 16 (256 * N + n - 1))).setReg .a
          (s.wordAt s.relocated (s.r.Y + BitVec.ofNat 16 n))).setVC false (decide (n = 1))).ends 1)))

/-- SBS (43_byte_misc.md R244), one byte an execution: nothing is left when X ≥ Y; found, X stays at the rank; else X moves on and
the instruction pauses while X < Y. The ranks are compared as
signed numbers (D19, log 29); a negative X is outside the model (U3). -/
def Obligations.ByteSearch : Prop :=
  ∀ s : State, s.cfg.hasPushPullSbs = true →
    (s16 s.r.Y ≤ s16 s.r.X → exec .sbs s = .next ((s.setVC false true).ends 1))
    ∧ (s16 s.r.X < s16 s.r.Y → s16 s.r.X < 0 → exec .sbs s = .refused .sbsNegativeRank)
    ∧ (s16 s.r.X < s16 s.r.Y → 0 ≤ s16 s.r.X → ∀ (a : Word) (b : Nat),
      a = s.r.B + BitVec.ofNat 16 (s.r.X.toNat / 2) → s.canRead s.relocated a = true →
      b = (if s.r.X.toNat % 2 = 1 then (s.wordAt s.relocated a).toNat % 256 else (s.wordAt s.relocated a).toNat / 256) →
      (s.r.A.toNat = b → exec .sbs s = .next ((s.setVC false false).ends 1))
      ∧ (s.r.A.toNat ≠ b → s16 s.r.X + 1 < s16 s.r.Y →
        exec .sbs s = .next (s.setReg .x (s.r.X + 1#16)).paused)
      ∧ (s.r.A.toNat ≠ b → s16 s.r.X + 1 = s16 s.r.Y →
        exec .sbs s = .next (((s.setReg .x (s.r.X + 1#16)).setVC false true).ends 1)))

/-- The block moves, one word an execution (43_byte_misc.md R256, 45_system.md R326, R327, 48_cda_lists.md R398, R401, R402,
49_isp16.md R420): the word of rank X - 1 moves, X counts down, and the instruction pauses, after the last word too
(70_reset_and_hazards.md R556); with X - 1 negative nothing moves, not even X, and the instruction ends (D20, log 28). MOVE: program
addresses; MVTM: from addresses relative to SLO to absolute ones; MVTS: the reverse; RCDA and WCDA: from and to the common data area,
whose last word is ECDA·16 + 15 (the spec's choice D37, log 43), alarm 1 where the zone of X words goes beyond it; BMOVE: from page to
page. The limits and the parameters are read once an execution and held (log 19). -/
def Obligations.BlockMoves : Prop :=
  ∀ (s : State) (x : Word), x = s.r.X - 1#16 →
    (32768 ≤ x.toNat →
      exec .move s = .next (s.ends 1)
      ∧ (s.slave = false → exec .mvtm s = .next (s.ends 1) ∧ exec .mvts s = .next (s.ends 1))
      ∧ (s.cfg.hasCda16 = true ∨ s.cfg.hasCdaRwOnly = true →
        exec .rcda s = .next ((s.keeps none).ends 2) ∧ exec .wcda s = .next ((s.keeps none).ends 2))
      ∧ (∀ ix o, s.longOk o = true → exec (.bmove ix o) s = .next ((s.keeps none).ends (paramWords o))))
    ∧ (x.toNat < 32768 →
      (s.canRead s.relocated (s.r.A + x) = true → s.canWrite s.relocated (s.r.B + x) = true →
        exec .move s = .next (s.moved (s.place s.relocated (s.r.A + x)) (s.place s.relocated (s.r.B + x))))
      ∧ (s.slave = false → s.canRead s.cfg.hasDrps (s.r.A + x) = true → s.storable (absolute (s.r.B + x)) = true →
        exec .mvtm s = .next (s.moved (s.place s.cfg.hasDrps (s.r.A + x)) (absolute (s.r.B + x))))
      ∧ (s.slave = false → s.sound (absolute (s.r.A + x)) = true → s.canWrite s.cfg.hasDrps (s.r.B + x) = true →
        exec .mvts s = .next (s.moved (absolute (s.r.A + x)) (s.place s.cfg.hasDrps (s.r.B + x))))
      ∧ (s.cfg.hasCda16 = true ∨ s.cfg.hasCdaRwOnly = true →
        (s.heldOperands = none → s.cdaReady = true →
          s.cdaLim.2.toNat * 16 + 15 < s.cdaLim.1.toNat * 16 + (s.r.A.toNat + x.toNat) → ∀ i ∈ [Instr.rcda, .wcda],
            exec i s = (takeAlarm s.P .memoryProtection s.completed).outcome)
        ∧ ∀ lim, s.zoneOk lim →
          (s.sound (basedEA lim.1 (s.r.A + x)) = true → s.canWrite s.relocated (s.r.B + x) = true →
            exec .rcda s = .next ((s.moved (basedEA lim.1 (s.r.A + x)) (s.place s.relocated (s.r.B + x))).keeps (some lim)))
          ∧ (s.canRead s.relocated (s.r.B + x) = true → s.storable (basedEA lim.1 (s.r.A + x)) = true →
            exec .wcda s = .next ((s.moved (s.place s.relocated (s.r.B + x)) (basedEA lim.1 (s.r.A + x))).keeps (some lim))))
      ∧ (∀ ix o p, s.longOk o = true → p = s.paramsHeld o → s.sound (basedEA p.1 (s.r.A + x)) = true →
        s.storable (basedEA p.2 (s.r.B + x)) = true →
        exec (.bmove ix o) s
          = .next ((s.moved (basedEA p.1 (s.r.A + x)) (basedEA p.2 (s.r.B + x))).keeps (some p))))

/-- MOVE executed until it ends copies the block (43_byte_misc.md R256): where no word of the destination is still to be read,
every word of it holds what the word of its rank in the source held, the registers but X are unchanged, X is 0, and every byte
outside the destination is as it was. The n words take n executions, and one more finds that none is left. -/
def Obligations.MoveCopiesBlock : Prop :=
  ∀ (s : State) (n : Nat), Memory.wf s.mem = true → s.r.X.toNat = n → 1 ≤ n → n ≤ 32768 →
    (∀ i, i < n → s.canRead s.relocated (s.r.A + BitVec.ofNat 16 i) = true
      ∧ s.canWrite s.relocated (s.r.B + BitVec.ofNat 16 i) = true) →
    (∀ i j, i < j → j < n → s.r.A + BitVec.ofNat 16 i ≠ s.r.B + BitVec.ofNat 16 j) →
    ∃ t, repeated .move (n + 1) s = .next t ∧ t.r = { s.r with X := 0#16 } ∧ t.P = s.P + 1#16 ∧ t.phase = .completed
      ∧ t.st = s.st ∧ s.sameSystem t
      ∧ (∀ i, i < n → t.wordAt s.relocated (s.r.B + BitVec.ofNat 16 i) = s.wordAt s.relocated (s.r.A + BitVec.ofNat 16 i))
      ∧ (∀ a, (∀ i, i < n → a / 2 ≠ (s.place s.relocated (s.r.B + BitVec.ofNat 16 i)).toNat) →
        readByte t.mem a = readByte s.mem a)

/-- FNEG, FABS, FIX, FLT, NORM, FCAZ (46_float.md R342 to R347) on the number in A::B: the opposite (a mantissa of -1 stays), the
absolute value, the integer part towards zero within -32768 to 32767, the floating value of A, the normalised form, the
comparison with zero. FIX's bounds hold of the value before it is truncated (the spec's choice D30, log 26), and CW is read and
written on an event only (D17, log 26). -/
def Obligations.FloatRegisters : Prop :=
  ∀ s : State,
    (s.cfg.hasFfp16 = true ∨ s.cfg.hasFfpPartial = true →
      (∃ n a : Word × Word,
        (mant s.r.A s.r.B ≠ -8388608 → floatValue n = -floatValue (s.r.A, s.r.B) ∧ floatValue a = |floatValue (s.r.A, s.r.B)|)
        ∧ (mant s.r.A s.r.B = -8388608 → n = (s.r.A, s.r.B) ∧ a = (s.r.A, s.r.B))
        ∧ lo n.1 = lo s.r.A ∧ lo a.1 = lo s.r.A
        ∧ exec .fneg s = .next (((s.setPair n).setVC false false).ends 2)
        ∧ exec .fabs s = .next (((s.setPair a).setVC false false).ends 2))
      ∧ (-32768 ≤ floatValue (s.r.A, s.r.B) → floatValue (s.r.A, s.r.B) ≤ 32767 → ∃ w : Word,
        (|(s16 w : ℚ)| ≤ |floatValue (s.r.A, s.r.B)| ∧ |floatValue (s.r.A, s.r.B)| < |(s16 w : ℚ)| + 1
          ∧ 0 ≤ (s16 w : ℚ) * floatValue (s.r.A, s.r.B))
        ∧ exec .fix s = .next (((s.setPair (w, 0#16)).setVC false false).ends 2))
      ∧ (floatValue (s.r.A, s.r.B) < -32768 ∨ 32767 < floatValue (s.r.A, s.r.B) → s.floated .fixImpossible (exec .fix s))
      ∧ (∃ v c, realFlags (floatValue (s.r.A, s.r.B)) 0 v c ∧ exec .fcaz s = .next ((s.setVC v c).ends 2)))
    ∧ (s.cfg.hasFfp16 = true →
      (∃ r, rounded (s16 s.r.A : ℚ) r ∧ s.floated r (exec .flt s))
      ∧ (∃ r, rounded (floatValue (s.r.A, s.r.B)) r ∧ s.floated r (exec .norm s)))

/-- FLD, FST, FCMZ, and FCAM (46_float.md R348, R352, R354, R355): two words loaded or stored, a comparison by value; an unnormalised
operand may be handed to SVC 0 (U10). -/
def Obligations.FloatTransfers : Prop :=
  ∀ (s : State) (m : MemRef),
    (s.cfg.hasFfp16 = true ∨ s.cfg.hasFfpPartial = true →
      (s.pairOk m = true → exec (.fld m) s = .next (((s.setPair (s.pair m)).setVC false false).ends 2)
        ∧ ∃ v c, realFlags (floatValue (s.pair m)) 0 v c ∧ exec (.fcmz m) s = .next ((s.setVC v c).ends 2))
      ∧ (s.relayOk m = true → s.canWrite s.relocated (s.effective m) = true →
        s.canWrite s.relocated (s.effective m + 1#16) = true →
        exec (.fst m) s = .next ((((s.put s.relocated (s.effective m) s.r.A).put s.relocated (s.effective m + 1#16)
          s.r.B).setVC false false).ends 2)))
    ∧ (s.cfg.hasFfp16 = true → s.pairOk m = true →
      (s.operatorTakes m = true → ∃ v c, realFlags (floatValue (s.r.A, s.r.B)) (floatValue (s.pair m)) v c
        ∧ exec (.fcam m) s = .next ((s.setVC v c).ends 2))
      ∧ (s.operatorTakes m = false → s.absentOk = true →
        ∀ i ∈ [Instr.fad m, .fsb m, .fmp m, .fdv m, .fcam m], exec i s = .next (s.absentDone 0#8)))

/-- FAD, FSB, FMP, FDV (46_float.md R349 to R351, R353): A, B, V, Cf and CW are those of the exact sum, difference, product or
quotient, rounded once to the nearest 24-bit mantissa (the spec's choice D29, log 25); a division by zero is an event of its
own. CW is read and written on an event only (D17, log 26). -/
def Obligations.FloatArithmetic : Prop :=
  ∀ (s : State) (m : MemRef), s.cfg.hasFfp16 = true → s.pairOk m = true → s.operatorTakes m = true →
    (∃ r, rounded (floatValue (s.r.A, s.r.B) + floatValue (s.pair m)) r ∧ s.floated r (exec (.fad m) s))
    ∧ (∃ r, rounded (floatValue (s.r.A, s.r.B) - floatValue (s.pair m)) r ∧ s.floated r (exec (.fsb m) s))
    ∧ (∃ r, rounded (floatValue (s.r.A, s.r.B) * floatValue (s.pair m)) r ∧ s.floated r (exec (.fmp m) s))
    ∧ (floatValue (s.pair m) ≠ 0 →
      ∃ r, rounded (floatValue (s.r.A, s.r.B) / floatValue (s.pair m)) r ∧ s.floated r (exec (.fdv m) s))
    ∧ (floatValue (s.pair m) = 0 → s.floated .divideByZero (exec (.fdv m) s))

/-- DRBM and BDBTM (48_cda_lists.md R392, 49_isp16.md R423), one word of the string an execution. With X ≥ Y, or no bit at one left
before rank Y, X takes Y and Cf is 1; a first bit at one at rank q gives X = q and Cf = 0, DRBM resetting it; else the instruction
pauses at the first rank of the next word. The ranks are signed and the word offset of BDBTM is added on 16 bits inside the page
(the spec's choice D38, log 43), whose parameters are read once an execution and held (log 19). -/
def Obligations.BitSearch : Prop :=
  ∀ (s : State) (x y next : Int), x = s16 s.r.X → y = s16 s.r.Y → next = 16 * (x / 16) + 16 →
    (s.cfg.hasCda16 = true →
      (y ≤ x → exec .drbm s = .next (((s.setReg .x s.r.Y).setVC false true).ends 2))
      ∧ (x < y → ∀ a w : Word, a = s.r.A + u16 (x / 16) → s.canRead s.relocated a = true → w = s.wordAt s.relocated a →
        (∀ q : Int, x ≤ q → q < y → q < next → bit w (q % 16).toNat = true →
          (∀ p : Int, x ≤ p → p < q → bit w (p % 16).toNat = false) →
          ∃ v : Word, (∀ i, bit v i = (bit w i && i ≠ (q % 16).toNat))
            ∧ exec .drbm s = .next ((((s.put s.relocated a v).setReg .x (u16 q)).setVC false false).ends 2))
        ∧ ((∀ q : Int, x ≤ q → q < y → q < next → bit w (q % 16).toNat = false) →
          (next < y → exec .drbm s = .next (s.setReg .x (u16 next)).paused)
          ∧ (y ≤ next → exec .drbm s = .next (((s.setReg .x s.r.Y).setVC false true).ends 2)))))
    ∧ (∀ ix o p, s.longOk o = true → p = s.paramsHeld o →
      (y ≤ x → exec (.bdbtm ix o) s = .next ((((s.setReg .x s.r.Y).setVC false true).keeps none).ends (paramWords o)))
      ∧ (x < y → ∀ (pa : PAddr) (w : Word), pa = basedEA p.1 (p.2 + u16 (x / 16)) → s.sound pa = true →
        w = readWord s.mem pa →
        (∀ q : Int, x ≤ q → q < y → q < next → bit w (q % 16).toNat = true →
          (∀ p : Int, x ≤ p → p < q → bit w (p % 16).toNat = false) →
          exec (.bdbtm ix o) s = .next ((((s.setReg .x (u16 q)).setVC false false).keeps none).ends (paramWords o)))
        ∧ ((∀ q : Int, x ≤ q → q < y → q < next → bit w (q % 16).toNat = false) →
          (next < y → exec (.bdbtm ix o) s = .next ((s.setReg .x (u16 next)).paused.keeps (some p)))
          ∧ (y ≤ next → exec (.bdbtm ix o) s
            = .next ((((s.setReg .x s.r.Y).setVC false true).keeps none).ends (paramWords o))))))

/-- SBTM, RBTM, BSBTM and BRBTM (48_cda_lists.md R393, R394, 49_isp16.md R421, R422): the bit of rank r of a string in memory is
set or reset, in the word r / 16 from its origin; every other bit of the word is as it was. An indexed rank is a 16-bit sum, read as
signed (the spec's choice D36, log 43); that of a based string is signed too, and stays in its page (D38, log 43). -/
def Obligations.BitWrites : Prop :=
  ∀ s : State,
    (s.cfg.hasCda16 = true → ∀ (ix : Bool) (n : BitVec 15) (r : Int) (a : Word),
      r = (if ix then s16 (BitVec.ofNat 16 n.toNat + s.r.X) else (n.toNat : Int)) → a = s.r.A + u16 (r / 16) →
      s.canRead s.relocated a = true → ∃ v z : Word,
        (∀ i, i < 16 → bit v i = (bit (s.wordAt s.relocated a) i || i = (r % 16).toNat))
        ∧ (∀ i, i < 16 → bit z i = (bit (s.wordAt s.relocated a) i && i ≠ (r % 16).toNat))
        ∧ exec (.sbtm ix n) s = .next ((s.put s.relocated a v).ends 2)
        ∧ exec (.rbtm ix n) s = .next ((s.put s.relocated a z).ends 2))
    ∧ (∀ (ix : Bool) (o : IspArgs) (pa : PAddr), s.basedOk o = true →
      pa = basedEA (s.params o).1 ((s.params o).2 + u16 (s16 s.r.X / 16)) → s.sound pa = true → ∃ v z : Word,
        (∀ i, i < 16 → bit v i = (bit (readWord s.mem pa) i || i = (s16 s.r.X % 16).toNat))
        ∧ (∀ i, i < 16 → bit z i = (bit (readWord s.mem pa) i && i ≠ (s16 s.r.X % 16).toNat))
        ∧ exec (.bsbtm ix o) s = .next ((s.store pa v).ends (paramWords o))
        ∧ exec (.brbtm ix o) s = .next ((s.store pa z).ends (paramWords o)))

/-- INSQ, SUPQ, SFQ, SLQ (48_cda_lists.md R396, R397, R399, R400) on doubly linked elements, first word the successor, second the
predecessor: the words read, then the words written, in order; an element alone in its list is left there. The order of
the writes, and that an element alone is its own neighbour, are the spec's choices (D36, log 43). INSQ followed by
SUPQ of the same element, in a list where the successor of the element at B points back to B, changes only the two words of the
element inserted and then suppressed. -/
def Obligations.Queues : Prop :=
  (∀ s : State, s.cfg.hasCda16 = true → ∀ (rd : Word → Word) (ok st : Word → Prop), rd = s.wordAt s.relocated →
    (∀ a, ok a ↔ s.canRead s.relocated a = true) → (∀ a, st a ↔ s.canWrite s.relocated a = true) →
    (ok s.r.B → st s.r.A → st (s.r.A + 1#16) → st (rd s.r.B + 1#16) →
      exec .insq s = .next (((((s.put s.relocated s.r.A (rd s.r.B)).put s.relocated (s.r.A + 1#16) s.r.B).put s.relocated
        s.r.B s.r.A).put s.relocated (rd s.r.B + 1#16) s.r.A).ends 2))
    ∧ (ok s.r.A → ok (s.r.A + 1#16) →
      (rd s.r.A = s.r.A → exec .supq s = .next (s.ends 2))
      ∧ (rd s.r.A ≠ s.r.A → st (rd (s.r.A + 1#16)) → st (rd s.r.A + 1#16) →
        exec .supq s = .next (((s.put s.relocated (rd (s.r.A + 1#16)) (rd s.r.A)).put s.relocated (rd s.r.A + 1#16)
          (rd (s.r.A + 1#16))).ends 2)))
    ∧ (ok (s.r.A + 1#16) → ∀ e, e = rd (s.r.A + 1#16) →
      (e = s.r.A → exec .sfq s = .next (s.ends 2))
      ∧ (e ≠ s.r.A → ok (e + 1#16) → st (rd (e + 1#16)) →
        exec .sfq s = .next ((((s.put s.relocated (s.r.A + 1#16) (rd (e + 1#16))).put s.relocated (rd (e + 1#16))
          s.r.A).setReg .a e).ends 2)))
    ∧ (ok s.r.A → ∀ e, e = rd s.r.A →
      (e = s.r.A → exec .slq s = .next (s.ends 2))
      ∧ (e ≠ s.r.A → ok e → st (rd e + 1#16) →
        exec .slq s = .next ((((s.put s.relocated s.r.A (rd e)).put s.relocated (rd e + 1#16) s.r.A).setReg .a e).ends 2))))
  ∧ ∀ (s : State) (n : Word), s.cfg.hasCda16 = true → Memory.wf s.mem = true → n = s.wordAt s.relocated s.r.B →
    (∀ a ∈ [s.r.A, s.r.A + 1#16, s.r.B, n + 1#16], s.canRead s.relocated a = true) →
    s.wordAt s.relocated (n + 1#16) = s.r.B → n ≠ s.r.A → n + 1#16 ≠ s.r.B → s.r.A ≠ s.r.B → s.r.A + 1#16 ≠ s.r.B →
    s.r.A ≠ n + 1#16 →
    ∃ t u, exec .insq s = .next t ∧ exec .supq t = .next u ∧ u.r = s.r ∧ u.st = s.st ∧ u.P = s.P + 4#16
      ∧ (∀ a, a / 2 ≠ (s.place s.relocated s.r.A).toNat → a / 2 ≠ (s.place s.relocated (s.r.A + 1#16)).toNat →
        readByte u.mem a = readByte s.mem a)
      ∧ t.wordAt s.relocated s.r.B = s.r.A ∧ t.wordAt s.relocated s.r.A = n

/-- The based loads and stores (49_isp16.md R411, R413 to R419): the word at p1·16 + displacement modulo 2^20, the displacement
being p2, plus X when indexed, or p2 plus half X for a byte; the second word of a pair is at displacement + 1 modulo 65536, in the
same page (the spec's choice D38, log 43). -/
def Obligations.BasedAccess : Prop :=
  ∀ (s : State) (ix : Bool) (o : IspArgs) (d : Word) (pa pb : PAddr), s.basedOk o = true →
    (d = (if ix then (s.params o).2 + s.r.X else (s.params o).2) →
      pa.toNat = ((s.params o).1.toNat * 16 + d.toNat) % 1048576 →
      pb.toNat = ((s.params o).1.toNat * 16 + (d + 1#16).toNat) % 1048576 →
      (s.sound pa = true → exec (.bla ix o) s = .next ((s.setReg .a (readWord s.mem pa)).ends (paramWords o))
        ∧ exec (.bxm ix o) s = .next (((s.store pa s.r.A).setReg .a (readWord s.mem pa)).ends (paramWords o)))
      ∧ (s.storable pa = true → exec (.bsta ix o) s = .next ((s.store pa s.r.A).ends (paramWords o)))
      ∧ (s.sound pa = true → s.sound pb = true →
        exec (.bdld ix o) s
          = .next (((s.setReg .a (readWord s.mem pa)).setReg .b (readWord s.mem pb)).ends (paramWords o)))
      ∧ (s.storable pa = true → s.storable pb = true →
        exec (.bdst ix o) s = .next (((s.store pa s.r.A).store pb s.r.B).ends (paramWords o))))
    ∧ (d = (s.params o).2 + u16 (s16 s.r.X / 2) → pa.toNat = ((s.params o).1.toNat * 16 + d.toNat) % 1048576 →
      s.sound pa = true → ∃ v w : Word,
        v.toNat = (if s.r.X.toNat % 2 = 1 then (readWord s.mem pa).toNat % 256 else (readWord s.mem pa).toNat / 256)
        ∧ (if s.r.X.toNat % 2 = 1 then hi w = hi (readWord s.mem pa) ∧ lo w = lo s.r.A
          else hi w = lo s.r.A ∧ lo w = lo (readWord s.mem pa))
        ∧ exec (.blby ix o) s = .next ((s.setReg .a v).ends (paramWords o))
        ∧ exec (.bstby ix o) s = .next ((s.store pa w).ends (paramWords o)))

/-- The CDA loads and stores (48_cda_lists.md R398, 49_isp16.md R412, R424 to R430): the word at OCDA·16 + displacement, within
ECDA·16 + 15, which is the spec's choice D37 (log 43); beyond it alarm 1. The displacement is the word designated by the second word,
plus X when indexed, or plus half X for a byte; a double word needs both its words inside, the second at displacement + 1 modulo 65536
(the spec's choice D38, log 43), and is alarm 1 with nothing done when one of them is beyond. -/
def Obligations.CdaAccess : Prop :=
  ∀ (s : State) (ix : Bool) (w2 d : Word) (pa pb : PAddr) (lim : Nat), s.cdaOperandOk w2 = true →
    lim = s.cdaLim.2.toNat * 16 + 15 →
    (d = (if ix then s.cdaD16 w2 + s.r.X else s.cdaD16 w2) → pa.toNat = (s.cdaLim.1.toNat * 16 + d.toNat) % 1048576 →
      pb.toNat = (s.cdaLim.1.toNat * 16 + (d + 1#16).toNat) % 1048576 →
      (s.cdaLim.1.toNat * 16 + d.toNat ≤ lim →
        (s.sound pa = true → exec (.cla ix w2) s = .next ((s.setReg .a (readWord s.mem pa)).ends 2)
          ∧ exec (.cxm ix w2) s = .next (((s.store pa s.r.A).setReg .a (readWord s.mem pa)).ends 2))
        ∧ (s.storable pa = true → exec (.csta ix w2) s = .next ((s.store pa s.r.A).ends 2))
        ∧ (s.cdaLim.1.toNat * 16 + (d + 1#16).toNat ≤ lim →
          (s.sound pa = true → s.sound pb = true → exec (.cdld ix w2) s
            = .next (((s.setReg .a (readWord s.mem pa)).setReg .b (readWord s.mem pb)).ends 2))
          ∧ (s.storable pa = true → s.storable pb = true →
            exec (.cdst ix w2) s = .next (((s.store pa s.r.A).store pb s.r.B).ends 2)))
        ∧ (lim < s.cdaLim.1.toNat * 16 + (d + 1#16).toNat → ∀ i ∈ [Instr.cdld ix w2, .cdst ix w2],
          exec i s = (takeAlarm s.P .memoryProtection s.completed).outcome))
      ∧ (lim < s.cdaLim.1.toNat * 16 + d.toNat → ∀ i ∈ [Instr.cla ix w2, .csta ix w2, .cxm ix w2, .cdld ix w2, .cdst ix w2],
        exec i s = (takeAlarm s.P .memoryProtection s.completed).outcome))
    ∧ (d = s.cdaD16 w2 + u16 (s16 s.r.X / 2) → pa.toNat = (s.cdaLim.1.toNat * 16 + d.toNat) % 1048576 →
      (s.cdaLim.1.toNat * 16 + d.toNat ≤ lim → s.sound pa = true → ∃ v w : Word,
        v.toNat = (if s.r.X.toNat % 2 = 1 then (readWord s.mem pa).toNat % 256 else (readWord s.mem pa).toNat / 256)
        ∧ (if s.r.X.toNat % 2 = 1 then hi w = hi (readWord s.mem pa) ∧ lo w = lo s.r.A
          else hi w = lo s.r.A ∧ lo w = lo (readWord s.mem pa))
        ∧ exec (.clby ix w2) s = .next ((s.setReg .a v).ends 2)
        ∧ exec (.cstby ix w2) s = .next ((s.store pa w).ends 2))
      ∧ (lim < s.cdaLim.1.toNat * 16 + d.toNat → ∀ i ∈ [Instr.clby ix w2, .cstby ix w2],
        exec i s = (takeAlarm s.P .memoryProtection s.completed).outcome))

/-- What the source has lost stops by name (45_system.md R312, 49_isp16.md R431 to R433; U5, U17, U18): ROMB out of slave mode,
XENT and XSOR where ISP16 is present, XCTX in master mode; XCTX is alarm 4 out of it. -/
def Obligations.LostInstructions : Prop :=
  ∀ s : State,
    (s.slave = false → exec .romb s = .refused .rombMicroprogram)
    ∧ (s.cfg.hasIsp16 = true → ∀ ix w,
      exec (.xent ix w) s = .refused .procedureFlowchartLost ∧ exec (.xsor ix w) s = .refused .procedureFlowchartLost
      ∧ (s.cfg.hasXctx = true → s.st.MS = true → exec (.xctx ix w) s = .refused .xctxOperationLost)
      ∧ (s.cfg.hasXctx = true → s.st.MS = false →
        exec (.xctx ix w) s = (takeAlarm s.P .privileged s.completed).outcome)
      ∧ (s.cfg.hasXctx = false → exec (.xctx ix w) s = .refused .xctxAbsent))

/-- RDHV, RDSI, RDOE, WOE, XIMR, DIT, EIT, IPI out of slave mode (45_system.md R303, R305, R307 to R309, R313, R329, R330): the
register read or written and nothing else; IPI raises the request of every processor, this one too. That WOE keeps and RDOE returns
the 16 bits of B as SLE is the spec's choice (D10, U7; log 14). -/
def Obligations.SystemRegisters : Prop :=
  ∀ s : State, s.slave = false →
    exec .rdhv s = .next ((s.setReg .a s.HV).ends 1)
    ∧ exec .rdsi s = .next ((s.setReg .a s.cfg.procIdWord).ends 1)
    ∧ (s.cfg.hasDrps = true → exec .rdoe s = .next (((s.setReg .a s.SLO).setReg .b s.SLE).ends 1)
      ∧ exec .woe s = .next (({ s with SLO := s.r.A, SLE := s.r.B } : State).ends 1))
    ∧ (s.cfg.hasDrps = false → exec .rdoe s = .next (((s.setReg .a 0#16).setReg .b 0#16).ends 1)
      ∧ exec .woe s = .next (s.ends 1))
    ∧ (∀ rd, exec (.ximr rd) s = .next ((({ s with IM := s.reg rd } : State).setReg rd s.IM).ends 1))
    ∧ (∀ p : Bool, (p = true ↔ s.cfg.hasXmr = true ∨ s.cfg.model = .m70) →
      exec .dit s = .next (({ s with st := { s.st with IOM := true, IPM := p || s.st.IPM } } : State).ends 1)
      ∧ exec .eit s = .next (({ s with st := { s.st with IOM := false, IPM := !p && s.st.IPM } } : State).ends 1))
    ∧ ∃ l : List Nat, (∀ q, q ∈ l ↔ q < s.cfg.otherProcessors)
      ∧ exec .ipi s = .next (({ s with ipiRequest := true, othersIpi := l } : State).ends 1)

/-- ACK (45_system.md R304): in a deferred task and in the power-fail task V and Cf are cleared; in the task of level i ≥ 1 the
least pending normal sub-level, or for want of one the least exception sub-level, goes to X with its indicator; in the alarm task
V and Cf are cleared (the model's choice, log 37). -/
def Obligations.Acknowledge : Prop :=
  ∀ s : State,
    (s.powerFailActive = true ∨ s.HV = 0#16 → exec .ack s = .next ((s.setVC false false).ends 1))
    ∧ (s.powerFailActive = false → bit s.HV 0 = true → exec .ack s = .next ((s.setVC false false).ends 1))
    ∧ (s.powerFailActive = false → ∀ i, 0 < i → i < 16 → bit s.HV i = true → (∀ k < i, bit s.HV k = false) →
      ∀ N E : Nat → Prop,
        (∀ n, N n ↔ ∃ d ∈ s.couplers, d.level.toNat = i ∧ d.toChannel = false ∧ d.normalPending.map Fin.val = some n) →
        (∀ n, E n ↔ ∃ d ∈ s.couplers, d.level.toNat = i ∧ d.exceptionPending.map Fin.val = some n) →
        (∀ n, N n → (∀ k, N k → n ≤ k) →
          exec .ack s = .next (((s.setReg .x (BitVec.ofNat 16 n)).setVC true false).ends 1))
        ∧ (∀ n, (∀ k, ¬ N k) → E n → (∀ k, E k → n ≤ k) →
          exec .ack s = .next (((s.setReg .x (BitVec.ofNat 16 n)).setVC false true).ends 1))
        ∧ ((∀ k, ¬ N k) → (∀ k, ¬ E k) → exec .ack s = .next ((s.setVC false false).ends 1)))

/-- SST and RST out of slave mode (45_system.md R321, R322) where the positions of ST are legal: each bit of ST that can be written
is set, or reset, where A has a one; A takes the new image of ST; SCHED and everything else stay, and a STOP set by SST acts after
the latency of 70_reset_and_hazards.md R558. Which bits SST and RST write is decision D23 (log 17); IPM is not on a 04/05
(10_state.md R22). -/
def Obligations.StatusAccess : Prop :=
  ∀ s : State, s.slave = false → s.cfg.wf = true → ∃ t u : State, exec .sst s = .next t ∧ exec .rst s = .next u
    ∧ (∀ b ∈ stBits s.cfg, b.2 t.st = (b.2 s.st || bit s.r.A b.1) ∧ b.2 u.st = (b.2 s.st && !bit s.r.A b.1))
    ∧ t.st.SCHED = s.st.SCHED ∧ u.st.SCHED = s.st.SCHED ∧ t.imaged t.r.A ∧ u.imaged u.r.A
    ∧ t = ({ s with st := t.st, r := { s.r with A := t.r.A }
                    stopDelay := if t.st.STOP = true ∧ s.st.STOP = false then s.cfg.stopLatency else s.stopDelay } : State).ends 1
    ∧ u = ({ s with st := u.st, r := { s.r with A := u.r.A } } : State).ends 1

/-- LAR, STAR and XMR (45_system.md R328, R331, R335): the word at Y relative to SLO, absolute without DRPS; beyond the limit
alarm 1, as for SBP, RBP and DBP (R323 to R325). That XMR has one word is the spec's choice D18 (log 33). -/
def Obligations.RelativeAccess : Prop :=
  ∀ s : State, ∀ y, y = s.place s.cfg.hasDrps s.r.Y →
    (s.slave = false →
      (s.canRead s.cfg.hasDrps s.r.Y = true → exec .lar s = .next ((s.setReg .a (readWord s.mem y)).ends 1))
      ∧ (s.canWrite s.cfg.hasDrps s.r.Y = true → exec .star s = .next ((s.store y s.r.A).ends 1))
      ∧ (s.cfg.hasDrps = true → s.limit < s.r.Y.toNat → ∀ i ∈ [Instr.lar, .star, .sbp, .rbp, .dbp],
        exec i s = (takeAlarm s.P .memoryProtection s.completed).outcome))
    ∧ (s.cfg.hasXmr = true →
      (s.canRead s.cfg.hasDrps s.r.Y = true →
        exec .xmr s = .next (((s.store y s.r.A).setReg .a (readWord s.mem y)).ends 1))
      ∧ (s.cfg.hasDrps = true → s.limit < s.r.Y.toNat →
        exec .xmr s = (takeAlarm s.P .memoryProtection s.completed).outcome))

/-- SBP, RBP and DBP out of slave mode (45_system.md R323 to R325): the word at Y, relative to SLO, is left in
bad or in good parity, its bits unchanged; a word in bad parity is alarm 2 outside DEBUG and MAINT. DBP goes down from Y, a word
an execution, to the first word in bad parity (Cf), a non-existent word (V, D28, log 38), or address 0. -/
def Obligations.Breakpoints : Prop :=
  ∀ (s : State) (y : PAddr), s.slave = false → s.allowed s.cfg.hasDrps s.r.Y = true → y = s.place s.cfg.hasDrps s.r.Y →
    (s.cfg.exists y = true → s.cfg.parity = false → ∀ i ∈ [Instr.sbp, .rbp], exec i s = .next (s.ends 1))
    ∧ (s.cfg.exists y = false → s.cfg.is0405 = false → ∀ i ∈ [Instr.sbp, .rbp],
      exec i s = (takeAlarm s.P .nonExistentMemory s.completed).outcome)
    ∧ (s.cfg.exists y = true → s.cfg.parity = true →
      (y.toNat ∉ s.badParity ∨ s.st.MAINT = true ∨ s.st.DEBUG = true → ∃ l k : List Nat,
        (∀ n, n ∈ l ↔ n = y.toNat ∨ n ∈ s.badParity) ∧ (∀ n, n ∈ k ↔ n ≠ y.toNat ∧ n ∈ s.badParity)
        ∧ exec .sbp s = .next (({ s with badParity := l } : State).ends 1)
        ∧ exec .rbp s = .next (({ s with badParity := k } : State).ends 1))
      ∧ (y.toNat ∈ s.badParity → s.st.MAINT = false → s.st.DEBUG = false → ∀ i ∈ [Instr.sbp, .rbp, .dbp],
        exec i s = (takeAlarm s.P .parityError s.completed).outcome)
      ∧ (y.toNat ∈ s.badParity → s.st.MAINT = true ∨ s.st.DEBUG = true →
        exec .dbp s = .next ((s.setVC false true).ends 1)))
    ∧ (s.cfg.exists y = false → s.cfg.is0405 = false → exec .dbp s = .next ((s.setVC true false).ends 1))
    ∧ (s.cfg.exists y = true ∨ s.cfg.is0405 = true → s.cfg.parity = false ∨ y.toNat ∉ s.badParity →
      (s.r.Y = 0#16 → exec .dbp s = .next ((s.setVC false false).ends 1))
      ∧ (s.r.Y ≠ 0#16 → exec .dbp s = .next (s.setReg .y (s.r.Y - 1#16)).paused))

/-- SIO out of slave mode (45_system.md R301, 61_io_debug.md R511 to R513, R516, R517): bits 14 and 15 of the operand are the
operation and bits 0 to 13 the key of the coupler (the spec's choice D46, log 40). A datum acknowledges the normal request, a status
the exception request; on a byte device a datum is the right byte; an absent register gives 0 and takes nothing, and acknowledges
nothing (the last for an input is the model's choice, log 40); so does an absent device (D45, log 40). -/
def Obligations.InputOutput : Prop :=
  ∀ (s : State) (m : MemRef) (key : BitVec 14) (op : Nat), s.slave = false → s.operandOk m = true →
    (s.operand m).toNat = 4 * key.toNat + op → op < 4 →
    (s.coupler? key = none →
      (op % 2 = 0 → exec (.sio m) s = .next ((s.setReg .a 0#16).ends 1))
      ∧ (op % 2 = 1 → exec (.sio m) s = .next (s.ends 1)))
    ∧ (∀ d, s.coupler? key = some d → ∀ (f : Word → Word) (swap : Coupler → State),
      (∀ v, f v = if d.isByte then zext8 (lo v) else v) → (∀ e, swap e = { s with couplers := putCoupler e s.couplers }) →
      (∀ v, op = 0 → d.dataIn = some v →
        exec (.sio m) s = .next (((swap { d with normalPending := none }).setReg .a (f v)).ends 1))
      ∧ (op = 0 → d.dataIn = none → exec (.sio m) s = .next ((s.setReg .a 0#16).ends 1))
      ∧ (op = 1 → d.dataOut ≠ none →
        exec (.sio m) s = .next ((swap { d with dataOut := some (f s.r.A), normalPending := none }).ends 1))
      ∧ (op = 1 → d.dataOut = none → exec (.sio m) s = .next (s.ends 1))
      ∧ (∀ v, op = 2 → d.statusIn = some v →
        exec (.sio m) s = .next (((swap { d with exceptionPending := none }).setReg .a v).ends 1))
      ∧ (op = 2 → d.statusIn = none → exec (.sio m) s = .next ((s.setReg .a 0#16).ends 1))
      ∧ (op = 3 → d.command ≠ none → exec (.sio m) s = .next ((swap { d with command := some s.r.A }).ends 1))
      ∧ (op = 3 → d.command = none → exec (.sio m) s = .next (s.ends 1)))

/-- HALT waits X periods, 65536 for X = 0 (45_system.md R306); the first one goes with its own execution (log 20). From then on, r
periods being left, 0 < r: when nothing is electable they go by, one a step of the machine, and it ends with X = 0; a program interrupt
or a power-fail that is taken ends it in a step of its own, with r in X (log 20). If it is the stepped instruction alarm 7 comes then
(R311), also where a task to start has ended it, which is the model's choice (log 39). -/
def Obligations.HaltCounts : Prop :=
  (∀ (s : State) (n : Nat), n = (if s.r.X = 0#16 then 65536 else s.r.X.toNat) →
    (n = 1 → exec .halt s = .next ((s.setReg .x 0#16).ends 1))
    ∧ (1 < n → exec .halt s = .next { s with P := s.P + 1#16, haltLeft := n - 1, phase := .interrupted }))
  ∧ ∀ (s : State) (r : Nat) (ended : Word → State), s.haltLeft = r → 0 < r → s.inputs = [] → s.st.STOP = false →
    s.alarmStop = false → s.breakSeen = false → (∀ x, ended x = { (s.setReg .x x).completed with haltLeft := 0 }) →
    (s.electable = .idle →
      (s.stepArmed = false → steps r s = .next (ended 0#16))
      ∧ (s.stepArmed = true → steps r s = (raiseAlarm .singleStep { ended 0#16 with stepArmed := false }).outcome))
    ∧ (s.electable = .powerFail ∨ (∃ j, s.electable = .level j) →
      (s.stepArmed = false → step s = .next (ended (BitVec.ofNat 16 r)))
      ∧ (s.stepArmed = true → step s = (raiseAlarm .singleStep { ended (BitVec.ofNat 16 r) with stepArmed := false }).outcome))

/-- The privileged instructions raise alarm 4 in slave mode before any other effect (45_system.md R300, 60_exceptions.md R490); the
scheduler instructions and the based instructions of ISP16 where their option is present, and XCTX, where it exists, wherever
MS = 0 (49_isp16.md R410, R433). The alarms of the scheduler instructions come in the order 3, 4, 5 (47_scheduler.md R383; the order is
D33, log 13), before any other effect. That the P saved is the address of the instruction is the spec's choice D39 (log 15). -/
def Obligations.PrivilegedTrap : Prop :=
  (∀ (i : Instr) (s : State), s.slave = true → Instr.privileged s.cfg i = true →
    exec i s = (takeAlarm s.P .privileged s.completed).outcome)
  ∧ (∀ (s : State) (ix : Bool) (w : Word), s.cfg.hasXctx = true → s.cfg.is0405 = false → s.st.MS = false →
    exec (.xctx ix w) s = (takeAlarm s.P .privileged s.completed).outcome)
  ∧ ∀ (s : State) (m : MemRef) (ix : Bool) (n : BitVec 7),
    (s.cfg.hasSched = false → ∀ i ∈ [Instr.arm ix n, .rqst m, .rlse m, .wait m, .act m, .quit],
      exec i s = (takeAlarm s.P .absentOption s.completed).outcome)
    ∧ (s.cfg.hasSched = true →
      (s.slave = true → ∀ i ∈ [Instr.arm ix n, .rqst m, .rlse m, .wait m, .act m],
        exec i s = (takeAlarm s.P .privileged s.completed).outcome)
      ∧ (s.HV ≠ 0#16 ∨ s.powerFailActive = true →
        (s.slave = false → ∀ i ∈ [Instr.rqst m, .wait m],
          exec i s = (takeAlarm s.P .forbiddenInImmediate s.completed).outcome)
        ∧ exec .quit s = (takeAlarm s.P .forbiddenInImmediate s.completed).outcome))

/-- Taking an alarm (60_exceptions.md R455, R456, R465, R466): HV[0] is set, C, K, P, S are exchanged with the four words of PSTH(0)
and the right byte of the S word saved is the number of the alarm, the other unexplained bits of that word being 0 (U19, log 16). An
instruction abandoned on alarms 0 to 5 saves its own address (the spec's choice D39, U21; log 15). ACTD is alarm 9, with the address
after it saved (45_system.md R310). An alarm in the alarm task, or in the power-fail task, stops the machine; in the alarm task alarms
6 and 8 are ignored (R465, R470). The addresses of the words of a context are modulo 2^16 (log 12). -/
def Obligations.AlarmTaken : Prop :=
  (∀ s : State, s.AlarmReady → ∀ a, a = s.psthOf 0 →
    (∀ n : Alarm, n.abandons = true → (takeAlarm s.P n s.completed).outcome = .next (s.abandonedBy n s.P))
    ∧ exec .actd s = .next (s.abandonedBy .actd (s.P + 1#16))
    ∧ ∀ (n : Alarm) (p : Word) (t : State), t = s.abandonedBy n p →
      t.HV = setBit s.HV 0 true ∧ t.r = { s.r with C := s.abs a, K := s.abs (a + 1#16) } ∧ t.P = s.abs (a + 2#16)
      ∧ t.st = s.st.loadS (s.abs (a + 3#16)) ∧ t.SLO = s.SLO ∧ t.SLE = s.SLE ∧ t.IM = s.IM ∧ t.cfg = s.cfg
      ∧ t.couplers = s.couplers ∧ t.channels = s.channels
      ∧ t.abs a = s.r.C ∧ t.abs (a + 1#16) = s.r.K ∧ t.abs (a + 2#16) = p ∧ hi (t.abs (a + 3#16)) = hi s.st.sWord
      ∧ lo (t.abs (a + 3#16)) = n.number
      ∧ ∀ b : Nat, (∀ k < 4, b / 2 ≠ (absolute (a + BitVec.ofNat 16 k)).toNat) → readByte t.mem b = readByte s.mem b)
  ∧ ∀ (s : State) (n : Alarm),
    (s.powerFailActive = true → raiseAlarm n s
      = .ok () { s with st := { s.st with STOP := true }, stopDelay := 0, alarmStop := true, autoRestartInhibited := true })
    ∧ (s.powerFailActive = false → bit s.HV 0 = true →
      (n = .wakeUp ∨ n = .breakpoint → raiseAlarm n s = .ok () s)
      ∧ (n ≠ .wakeUp → n ≠ .breakpoint → raiseAlarm n s
        = .ok () { s with st := { s.st with STOP := true }, stopDelay := 0, alarmStop := true })
      ∧ exec .actd s = .next { s with P := s.P + 1#16, st := { s.st with STOP := true }, stopDelay := 0, alarmStop := true
                                      breakSeen := false, phase := .abandoned })

/-- ACQ and STEP at the end of the immediate task i (45_system.md R302, R311): IOM and IPM are cleared, HV[i] is cleared, C, K, P, S
are exchanged back with PSTH(i), the P saved being the address after; then `ElectAfterAcq()`: the power-fail task, the service of an
inter-processor interrupt (shown where it meets an alarm; without one the election goes on, log 44), the least level pending and
unmasked above the tasks left, or, with no immediate task left and the scheduler present, a deferred task. STEP does the same and
arms alarm 7, also where that service meets an alarm (log 39), for which the P saved is that of the task resumed (log 15). ACQ in a deferred task elects (R302). The deferred election passed through
is the spec's choice D34 (log 44); the addresses of the words of a context are modulo 2^16 (log 12). A full context
is loaded with SLE as it was written (D10, log 14). -/
def Obligations.AcquitReturns : Prop :=
  ∀ s : State, s.slave = false → s.powerFailActive = false →
    (∀ i, i < 16 → bit s.HV i = true → (∀ k < i, bit s.HV k = false) → s.calm (0x0002#16 :: contextAt (s.psthOf i)) →
      ∀ (t : State) (goes : State → Prop), t = (({ s.unmask.ends 1 with HV := setBit s.HV i false } : State).exchanged (s.psthOf i)) →
      (∀ z, goes z ↔ exec .acq s = .next z ∧ exec .step s = .next { z with stepArmed := true }) →
      (s.powerFailPending = true → t.calm (0x0006#16 :: contextAt (t.abs 0x0006#16)) →
        goes (({ t with powerFailPending := false, powerFailActive := true
                        st := { t.st with IOM := true, IPM := s.cfg.hasIpm, LCM := true } } : State).exchanged (t.abs 0x0006#16)))
      ∧ (s.powerFailPending = false → s.ipiRequest = true → ∀ n u v, serveIpi t = .alarm n u →
        raiseAlarm n { u with phase := .abandoned } = .ok () v → goes v)
      ∧ (s.powerFailPending = false → s.ipiRequest = false →
        (∀ j, 1 ≤ j → j < 16 → s.pending j = true → bit s.IM j = false →
          (∀ k, 1 ≤ k → k < j → s.pending k = true → bit s.IM k = true) → (∀ k ≤ j, bit t.HV k = false) →
          t.calm (0x0002#16 :: contextAt (t.psthOf j)) → t.psthMaster j →
          goes (({ t with HV := setBit t.HV j true } : State).exchanged (t.psthOf j)))
        ∧ ((∀ l, 1 ≤ l → l < 16 → s.pending l = true → bit s.IM l = true ∨ ∃ k ≤ l, bit t.HV k = true) →
          (t.HV ≠ 0#16 ∨ s.cfg.hasSched = false → goes t)
          ∧ (t.HV = 0#16 → s.cfg.hasSched = true → s.cfg.exists 0x0000F#20 = true → t.electionOk →
            ∃ v, goes ({ t.elects.store 0x0000F#20 v with freeCount := s.freeCount + 1 } : State)))))
    ∧ (s.HV = 0#16 → s.cfg.hasSched = true → s.schedulable → ∃ v, exec .acq s = .next (s.epilogue v))

/-- ACTD followed by ACQ (60_exceptions.md R455, R465, 45_system.md R302, R310): an immediate task interrupted by the alarm task goes
on, when the alarm task does ACQ, after the ACTD, with every register and S as they were, HV as it was and IOM and IPM cleared. The
addresses of the words of the context are modulo 2^16 (log 12). -/
def Obligations.AlarmThenAcq : Prop :=
  ∀ s : State, s.AlarmReady → s.HV ≠ 0#16 → s.powerFailPending = false → s.ipiRequest = false →
    (∀ l, 1 ≤ l → l < 16 → s.pending l = true → bit s.IM l = true) → bit (s.abs (s.psthOf 0 + 3#16)) 0 = true →
    ∃ t u, exec .actd s = .next t ∧ exec .acq t = .next u ∧ u.r = s.r ∧ u.P = s.P + 1#16 ∧ u.HV = s.HV
      ∧ u.st = { s.st with IOM := false, IPM := false } ∧ u.SLO = s.SLO ∧ u.SLE = s.SLE ∧ u.IM = s.IM

/-- `Electable()` (60_exceptions.md R453): the power-fail first, then the inter-processor interrupt, then the least pending and
unmasked level above the task in progress; nothing in the power-fail task or when the machine is stopped. The rank of the
inter-processor interrupt is the spec's choice D40 (log 48); its mask IPM is not on a 04/05 (10_state.md R22). -/
def Obligations.ElectionOrder : Prop :=
  ∀ (s : State) (free masked : Prop), (free ↔ s.stopped = false ∧ s.powerFailActive = false) →
    (masked ↔ s.cfg.is0405 = false ∧ s.st.IPM = true) →
    (s.electable = .powerFail ↔ free ∧ s.powerFailPending = true ∧ s.st.IOM = false)
    ∧ (s.electable = .ipi ↔ free ∧ (s.powerFailPending = false ∨ s.st.IOM = true) ∧ s.ipiRequest = true ∧ ¬ masked)
    ∧ (∀ j, s.electable = .level j ↔ free ∧ s.powerFailPending = false ∧ s.st.IOM = false
      ∧ (s.ipiRequest = false ∨ masked) ∧ 1 ≤ j ∧ j ≤ 15 ∧ s.pending j = true ∧ bit s.IM j = false
      ∧ (∀ k, 1 ≤ k → k < j → s.pending k = true → bit s.IM k = true) ∧ ∀ k ≤ j, bit s.HV k = false)

/-- A step at an election point (60_exceptions.md R454, R456, R475): the task of level j is launched, or the power-fail task, which
masks everything; the context taken starts with a fetch. The addresses of its words are modulo 2^16 (log 12). -/
def Obligations.TasksStarted : Prop :=
  ∀ s : State, s.inputs = [] → s.st.STOP = false → s.alarmStop = false → s.haltLeft = 0 → s.breakSeen = false →
    (∀ j, s.electable = .level j → s.calm (0x0002#16 :: contextAt (s.psthOf j)) → s.psthMaster j →
      step s = .next (({ s with HV := setBit s.HV j true } : State).exchanged (s.psthOf j)))
    ∧ (s.electable = .powerFail → s.calm (0x0006#16 :: contextAt (s.abs 0x0006#16)) → step s
      = .next (({ s with powerFailPending := false, powerFailActive := true
                         st := { s.st with IOM := true, IPM := s.cfg.hasIpm, LCM := true } } : State).exchanged (s.abs 0x0006#16)))

/-- The service of the inter-processor interrupt by a step (45_system.md R303, 60_exceptions.md R468). On a 65P or 75P word '1E leads to
the ABOX2 box of the processor, which wakes it when it holds '8000 and is emptied. Then the mailbox, in the table at word 'E: empty,
nothing; '8000 in the table it designates wakes the processor; a CCB is executed; it is emptied. A wake-up is alarm 6, lost in the
alarm task and inexistent on a 04/05. Both boxes are examined (the spec's choice D26, log 36), and
the address of the ABOX2 box is taken modulo 2^20 (log 12). -/
def Obligations.IpiService : Prop :=
  ∀ s : State, s.inputs = [] → s.st.STOP = false → s.alarmStop = false → s.haltLeft = 0 → s.breakSeen = false →
    s.held = [] → s.electable = .ipi → ∀ (u : State) (b : Word) (pa : PAddr), u = ({ s with ipiRequest := false } : State) →
    b = s.abs 0x001E#16 → pa = basedEA b (BitVec.ofNat 16 s.cfg.procId) → ∀ (wake : Bool) (t : State),
    ((wake = false ∧ t = u ∧ (s.cfg.hasXmr = false ∨ (s.sound 0x0001E#20 = true ∧ (b = 0#16
        ∨ (s.sound pa = true ∧ readWord s.mem pa ≠ 0x8000#16)))))
      ∨ (wake = true ∧ t = u.store pa 0#16 ∧ s.cfg.hasXmr = true ∧ s.sound 0x0001E#20 = true ∧ b ≠ 0#16 ∧ s.sound pa = true
        ∧ readWord s.mem pa = 0x8000#16)) →
    ∀ (box m : Word) (woken : State → Prop), box = t.abs 0x000E#16 + BitVec.ofNat 16 s.cfg.procId → m = t.abs box →
    t.calm [0x000E#16, box] →
    (∀ v, woken v ↔ (bit s.HV 0 = true ∨ s.cfg.is0405 = true → step s = .next v)
      ∧ (bit s.HV 0 = false → s.cfg.is0405 = false → v.AlarmReady → step s = .next (v.alarmTaken .wakeUp))) →
    (m = 0#16 → (wake = false → step s = .next t) ∧ (wake = true → woken t))
    ∧ (m ≠ 0#16 → t.sound (absolute m) = true →
      (t.abs m = 0x8000#16 → woken (t.store (absolute box) 0#16))
      ∧ (t.abs m ≠ 0x8000#16 → ∀ v, channelCommand m t = .ok () v → v.breakSeen = false → v.storable (absolute box) = true →
        (wake = false → step s = .next (v.store (absolute box) 0#16))
        ∧ (wake = true → v.cfg = s.cfg → v.HV = s.HV → v.held = [] → v.haltLeft = 0 → woken (v.store (absolute box) 0#16))))

/-- ARM and QUIT (47_scheduler.md R373, R374, R383): the ASTF bit of the task, or of the running task, is set or cleared, and the
scheduler is passed through. The index bit of ARM is the spec's choice D13 (log 11); the running task as word '0000 modulo 128 and
the election passed through are its choice D34 (log 44). A full context
is loaded with SLE as it was written (D10, log 14). -/
def Obligations.ArmAndQuit : Prop :=
  ∀ s : State, s.cfg.hasSched = true →
    (s.slave = false → ∀ (ix : Bool) (n : BitVec 7) (k : Nat) (u : State),
      k = (if ix then n.toNat + s.r.X.toNat else n.toNat) % 128 → s.sound (absolute (stringWord 0x0020#16 k)) = true →
      u = s.withQueueBit 0x0020#16 k true → u.schedulable → ∃ v, exec (.arm ix n) s = .next (u.epilogue v))
    ∧ (s.inImmediate = false → s.calm [0x0000#16, stringWord 0x0020#16 s.runningTask] →
      ∀ u, u = s.withQueueBit 0x0020#16 s.runningTask false → u.schedulable → ∃ v, exec .quit s = .next (u.epilogue v))

/-- RQST and RLSE (47_scheduler.md R375, R376, R380): the counter, signed (D31, log 44), in the right byte; a request that makes it negative
puts the running task in the queue and masks it; a release that leaves it negative or null takes the leftmost task out of the queue
and unmasks it; then the scheduler is passed through (D34, log 44). A queue found empty is not defined (U15): refused. A full context
is loaded with SLE as it was written (D10, log 14). -/
def Obligations.MutualExclusion : Prop :=
  ∀ (s : State) (m : MemRef) (ea : Word), s.cfg.hasSched = true → s.slave = false → s.operandOk m = true →
    ea = s.effective m →
    (s.inImmediate = false → ∀ (c : Byte) (u : State) (n : Nat) (q : Word), c = counted (s.operand m) (-1) →
      u = s.put s.relocated ea (zext8 c) → n = u.runningTask → q = ea + 1#16 + BitVec.ofNat 16 (n / 16) →
      (0 ≤ c.toInt → u.schedulable → ∃ v, exec (.rqst m) s = .next (u.epilogue v))
      ∧ (c.toInt < 0 → s.calm [0x0000#16, stringWord 0x0028#16 n] → s.canRead s.relocated q = true → ∀ w, w =
          (u.put s.relocated q (setBit (u.wordAt s.relocated q) (n % 16) true)).withQueueBit 0x0028#16 n false → w.schedulable →
        ∃ v, exec (.rqst m) s = .next (w.epilogue v)))
    ∧ (∀ (c : Byte) (u : State), c = counted (s.operand m) 1 → u = s.put s.relocated ea (zext8 c) →
      (0 < c.toInt → u.schedulable → ∃ v, exec (.rlse m) s = .next (u.epilogue v))
      ∧ (c.toInt ≤ 0 → ∀ q : Nat → Word, (∀ k, q k = ea + 1#16 + BitVec.ofNat 16 k) →
        (∀ k b : Nat, k < 8 → b < 16 → (∀ j ≤ k, s.canRead s.relocated (q j) = true) →
          (∀ j < k, u.wordAt s.relocated (q j) = 0#16) → bit (u.wordAt s.relocated (q k)) b = true →
          (∀ i < b, bit (u.wordAt s.relocated (q k)) i = false) →
          s.sound (absolute (stringWord 0x0028#16 (16 * k + b))) = true → ∀ w, w =
            (u.put s.relocated (q k) (setBit (u.wordAt s.relocated (q k)) b false)).withQueueBit 0x0028#16 (16 * k + b) true →
          w.schedulable → ∃ v, exec (.rlse m) s = .next (w.epilogue v))
        ∧ ((∀ j < 8, s.canRead s.relocated (q j) = true) → (∀ j < 8, u.wordAt s.relocated (q j) = 0#16) →
          exec (.rlse m) s = .refused .rlseEmptyQueue)))

/-- WAIT and ACT on private semaphores (47_scheduler.md R377, R378, R381, R382; the counter read as a signed byte and the election
are the spec's choices D31 and D34, log 44): WAIT writes the number of the running task and
the counter less one, and masks the task when it is negative; ACT sets the bit of rank Y of the queue of a call semaphore, adds one
to the counter, and unmasks the task named there when it is negative or null; then the scheduler is passed through. A rank beyond
32767 is not defined (U16): refused. A full context
is loaded with SLE as it was written (D10, log 14). -/
def Obligations.PrivateSemaphores : Prop :=
  ∀ (s : State) (m : MemRef) (ea w : Word), s.cfg.hasSched = true → s.slave = false → s.operandOk m = true →
    ea = s.effective m → w = s.operand m →
    (s.inImmediate = false → s.sound (absolute 0x0000#16) = true →
      ∃ x : Word, bit x 0 = bit w 0 ∧ (hi x).toNat % 128 = s.runningTask ∧ lo x = counted w (-1)
      ∧ ∀ u z, ((lo x).toInt < 0 → s.sound (absolute (stringWord 0x0028#16 s.runningTask)) = true) →
        u = s.put s.relocated ea x → z = (if (lo x).toInt < 0 then u.withQueueBit 0x0028#16 s.runningTask false else u) →
        z.schedulable → ∃ v, exec (.wait m) s = .next (z.epilogue v))
    ∧ (∀ (q : Word) (c : Byte) (z : State → State), q = ea + 1#16 + BitVec.ofNat 16 (s.r.Y.toNat / 16) → c = counted w 1 →
      (c.toInt ≤ 0 → s.sound (absolute (stringWord 0x0028#16 ((hi w).toNat % 128))) = true) →
      (∀ p : State, z p = if c.toInt ≤ 0 then
          (p.put s.relocated ea (ofBytes (hi w) c)).withQueueBit 0x0028#16 ((hi w).toNat % 128) true
        else p.put s.relocated ea (ofBytes (hi w) c)) →
      (bit w 0 = false → (z s).schedulable → ∃ v, exec (.act m) s = .next ((z s).epilogue v))
      ∧ (bit w 0 = true → s.r.Y.toNat < 32768 → s.canRead s.relocated q = true → ∀ p,
          p = s.put s.relocated q (setBit (s.wordAt s.relocated q) (s.r.Y.toNat % 16) true) →
        (z p).schedulable → ∃ v, exec (.act m) s = .next ((z p).epilogue v))
      ∧ (bit w 0 = true → 32768 ≤ s.r.Y.toNat → exec (.act m) s = .refused .actRankOutOfRange))

/-- Decoding the encoding of a well-formed instruction gives it back (30_encoding.md R125), whatever usable coding of ISP16 is
supplied, with every operand at every value its field admits: the per-instruction family `RoundTrip`. -/
def Obligations.RoundTrip : Prop := ∀ i : Instr, Sys2Proof.Laws.RoundTrip.Statement i

/-- Words written out from the encodings of 30_encoding.md (R101 to R125; the words are those of 95_test_vectors.md B.1) decode to
the instructions they stand for; the codes of R123 are unassigned, and an unassigned code of a family '38 to '3F names the
family. That '3E58 is XMR in one word is the spec's choice D18 (log 33), and the fields of the ARM word are its choice D13 (log 11). -/
def Obligations.DecodedWords : Prop :=
  ∀ k : IspCoding,
    decodeWords k [0x5005#16] = .instr (.la ⟨.c, false, 0x05#8⟩) []
    ∧ decodeWords k [0x7002#16] = .instr (.la ⟨.c, true, 0x02#8⟩) []
    ∧ decodeWords k [0x2BC2#16] = .instr (.lr .a .x) []
    ∧ decodeWords k [0x0AFF#16] = .instr (.adri .x 0xFF#8) []
    ∧ decodeWords k [0x1041#16] = .instr (.lai ⟨false, 0x41#8⟩) []
    ∧ decodeWords k [0x30FF#16] = .instr (.lai ⟨true, 0xFF#8⟩) []
    ∧ decodeWords k [0x21FD#16] = .instr (.jage 0xFD#8) []
    ∧ decodeWords k [0x1AA0#16] = .instr (.psr 0xA0#8) []
    ∧ decodeWords k [0x1C07#16] = .instr (.svc 0x07#8) []
    ∧ decodeWords k [0x1F02#16] = .instr (.arm false 0x02#7) []
    ∧ decodeWords k [0x1E00#16] = .instr .acq []
    ∧ decodeWords k [0x28CE#16] = .instr (.tbt ⟨false, 0x0E#5⟩) []
    ∧ decodeWords k [0x28E0#16] = .instr (.tbt ⟨true, 0x00#5⟩) []
    ∧ decodeWords k [0x2F40#16] = .instr (.ximr .a) []
    ∧ decodeWords k [0x4705#16] = .instr (.sio ⟨.c, false, 0x05#8⟩) []
    ∧ decodeWords k [0x3800#16, 0x1800#16] = .instr .flt []
    ∧ decodeWords k [0x3800#16, 0x4402#16] = .instr (.fmp ⟨.c, false, 0x02#8⟩) []
    ∧ decodeWords k [0x3F02#16, 0x8000#16] = .instr (.sbtm true 0x0000#15) []
    ∧ decodeWords k [0x3E58#16] = .instr .xmr []
    ∧ decodeWords k [0x1E20#16] = .unassigned none
    ∧ decodeWords k [0x3B00#16, 0x0000#16] = .unassigned (some 3#3)
    ∧ decodeWords k [0x3E00#16, 0x0000#16] = .unassigned (some 6#3)

/-- `Step()` when nothing comes before the instruction (60_exceptions.md R454, 30_encoding.md R125): where the words of the
instruction at P can be read and decode to i, the step is the execution of i, then what the end of an instruction adds; a long
instruction in progress is executed again with the words it holds (70_reset_and_hazards.md R556; log 19). The end adds alarm 7 when
STEP had armed it and the instruction completed with no breakpoint seen (45_system.md R311); at an interruption point the words are
held; after an alarm the alarm 7 that was pending is dropped (the spec's choice D24, log 39); and one step less is left before a STOP set by
SST acts (70_reset_and_hazards.md R558). Words no instruction has are refused, outside the families '38 to '3F and in a family that is
present (30_encoding.md R123; the spec's choice D15, log 34); in a family n that is absent they are SVC n (R118; which families count as
absent is log 34), and so are the two words that are read of an absent ISP16 where its form takes three. -/
def Obligations.StepRunsDecoded : Prop :=
  (∀ (s : State) (ws : List Word), s.fetches → s.canRead s.relocated s.P = true →
    ws.length = fetchCount s.cfg (s.wordAt s.relocated s.P) →
    (∀ j, j < ws.length → s.canRead s.relocated (s.P + BitVec.ofNat 16 j) = true
      ∧ ws[j]? = some (s.wordAt s.relocated (s.P + BitVec.ofNat 16 j))) →
    (∀ i n, decodeWords s.cfg.isp ws = .instr i n →
      (s.st.STOP = false → step s = endOfInstruction s.stepArmed ws (exec i s))
      ∧ (s.st.STOP = true → step s = tickOutcome (endOfInstruction s.stepArmed ws (exec i s))))
    ∧ (decodeWords s.cfg.isp ws = .unassigned none → s.st.STOP = false → step s = .refused .unassignedEncoding)
    ∧ (∀ n, decodeWords s.cfg.isp ws = .unassigned (some n) → s.st.STOP = false →
      (s.lacksUnit n (s.wordAt s.relocated s.P) → s.absentOk = true →
        step s = endOfInstruction s.stepArmed ws (.next (s.absentDone (n.setWidth 8))))
      ∧ (¬s.lacksUnit n (s.wordAt s.relocated s.P) →
        step s = .refused (if n = 4#3 then .ispCodeNotSupplied else .unassignedEncoding)))
    ∧ (decodeWords s.cfg.isp ws = .tooShort → s.st.STOP = false → s.absentOk = true →
      step s = endOfInstruction s.stepArmed ws (.next (s.absentDone 4#8))))
  ∧ (∀ (s : State) (i : Instr) (n : List Word), s.ready → s.held ≠ [] → decodeWords s.cfg.isp s.held = .instr i n →
    (s.st.STOP = false → step s = endOfInstruction s.stepArmed s.held (exec i s))
    ∧ (s.st.STOP = true → step s = tickOutcome (endOfInstruction s.stepArmed s.held (exec i s))))
  ∧ ∀ (armed : Bool) (ws : List Word) (t u : State), u = ({ t with held := [], heldOperands := none } : State) →
    (t.phase = .completed → t.breakSeen = false → endOfInstruction armed ws (.next t)
      = if armed then (raiseAlarm .singleStep { u with stepArmed := false }).outcome else .next u)
    ∧ (t.phase = .interrupted → endOfInstruction armed ws (.next t)
      = .next (if t.haltLeft = 0 then { t with held := ws } else u))
    ∧ (t.phase = .abandoned → endOfInstruction armed ws (.next t)
      = .next { u with stepArmed := t.stepArmed && !armed })

/-- Breakpoints (60_exceptions.md R469). Met on an operand in DEBUG mode, a word in bad parity is read or written, the write repairing
it, and the breakpoint is remembered, but in the alarm task; at the end of the instruction POP = 1 stops the machine, else alarm 8 is
raised with the new P saved, in the place of a pending alarm 7 (D24, log 39). Met on the first word of an instruction, nothing is
executed: POP = 1 stops the machine there, else alarm 8 saves the address of the instruction. At an interruption point where something
is electable it is acted on first (the model's choice, log 19). -/
def Obligations.BreakpointsMet : Prop :=
  (∀ (s : State) (m : MemRef) (pa : PAddr), m.ind = false → pa = s.place s.relocated (s.effective m) →
    s.allowed s.relocated (s.effective m) = true → s.cfg.exists pa = true → s.badWord pa = true → s.st.DEBUG = true →
    ∀ b, b = (s.breakSeen || !bit s.HV 0) →
      exec (.la m) s = .next { (s.setReg .a (s.operand m)).ends 1 with breakSeen := b }
      ∧ exec (.sta m) s = .next { (s.store pa s.r.A).ends 1 with breakSeen := b }
      ∧ (s.store pa s.r.A).badWord pa = false)
  ∧ (∀ (armed : Bool) (ws : List Word) (t u : State), t.phase = .completed → t.breakSeen = true →
    u = ({ t with held := [], heldOperands := none, breakSeen := false } : State) →
    (t.st.POP = false → endOfInstruction armed ws (.next t)
      = (raiseAlarm .breakpoint { u with stepArmed := t.stepArmed && !armed }).outcome)
    ∧ (t.st.POP = true → armed = false → endOfInstruction armed ws (.next t)
      = .next { u with st := { t.st with STOP := true }, stopDelay := 0 }))
  ∧ (∀ s : State, s.fetches → s.st.STOP = false → s.allowed s.relocated s.P = true →
    s.cfg.exists (s.place s.relocated s.P) = true → s.badWord (s.place s.relocated s.P) = true → s.st.DEBUG = true →
    bit s.HV 0 = false →
    (s.st.POP = true → step s = .next { s with heldOperands := none, breakSeen := false
                                               st := { s.st with STOP := true }, stopDelay := 0 })
    ∧ (s.st.POP = false → s.AlarmReady → step s = .next { s.abandonedBy .breakpoint s.P with stepArmed := false }))
  ∧ ∀ s : State, s.inputs = [] → s.st.STOP = false → s.alarmStop = false → s.breakSeen = true → s.electable ≠ .idle →
    (s.st.POP = true → step s = .next { s with held := [], heldOperands := none, breakSeen := false
                                               st := { s.st with STOP := true }, stopDelay := 0 })
    ∧ (s.st.POP = false → s.haltLeft = 0 → step s
      = (raiseAlarm .breakpoint { s with breakSeen := false, stepArmed := s.stepArmed && s.held.isEmpty }).outcome)

/-- A step on an initialisation event (70_reset_and_hazards.md R550) that finds word '0008: ST, IM, HV, P, the requests, the alarm
stop, the channels and, but on an automatic restart on a machine with XMR, the word '001E take the values the rule gives, memory
elsewhere and the configuration are as they were (clearing the requests and the channels is the spec's reading D8, log 49). Word '0008
in bad parity, or missing, is an alarm taken on the state so cleared (the model's choice, log 49). The state after power-on, where
memory lists nothing and every byte reads 0, which is the model's choice (log 3), is such a one. A running machine accepts the automatic restart unless it is inhibited (60_exceptions.md
R476). -/
def Obligations.Initialise : Prop :=
  (∀ (s : State) (kind : InitKind) (rest : List Input) (clear : State → Prop), s.inputs = .initialise kind :: rest →
    (kind = .autoRestart → s.autoRestartInhibited = false ∧ s.stopped = false) →
    (∀ t, clear t ↔ t.st = ⟨true, false, false, false, false, false, true, s.cfg.hasIpm, true, false, false, kind ≠ .autoRestart, false⟩
      ∧ t.IM = 0#16 ∧ t.HV = 0#16 ∧ t.ipiRequest = false ∧ t.powerFailPending = false ∧ t.powerFailActive = false
      ∧ t.alarmStop = false ∧ t.autoRestartInhibited = false ∧ t.stepArmed = false ∧ t.breakSeen = false ∧ t.haltLeft = 0
      ∧ t.held = [] ∧ t.heldOperands = none ∧ (∀ c ∈ t.channels, c.active = false) ∧ t.cfg = s.cfg ∧ t.inputs = rest
      ∧ ∀ a, a ≠ 0x0001E#20 → readWord t.mem a = readWord s.mem a) →
    (s.cfg.exists 0x00008#20 = true → s.cfg.parity = false ∨ 8 ∉ s.badParity →
      (kind ≠ .autoRestart → s.cfg.hasXmr = true → s.cfg.exists 0x0001E#20 = true) →
      ∃ t, step s = .next t ∧ clear t ∧ t.P = s.abs 0x0008#16
        ∧ (Memory.wf s.mem = true → readWord t.mem 0x0001E#20
          = if kind ≠ .autoRestart ∧ s.cfg.hasXmr = true then 0#16 else readWord s.mem 0x0001E#20))
    ∧ (s.cfg.exists 0x00008#20 = true → s.cfg.parity = true → 8 ∈ s.badParity →
      ∃ t, clear t ∧ t.mem = s.mem ∧ step s = (raiseAlarm .parityError t).outcome)
    ∧ (s.cfg.exists 0x00008#20 = false → s.cfg.is0405 = false →
      ∃ t, clear t ∧ t.mem = s.mem ∧ step s = (raiseAlarm .nonExistentMemory t).outcome))
  ∧ (State.reset.st = ⟨true, false, false, false, false, false, true, true, true, false, false, true, false⟩
    ∧ State.reset.IM = 0#16 ∧ State.reset.HV = 0#16 ∧ State.reset.P = State.reset.abs 0x0008#16
    ∧ State.reset.ipiRequest = false ∧ State.reset.powerFailPending = false ∧ State.reset.powerFailActive = false
    ∧ State.reset.alarmStop = false ∧ State.reset.autoRestartInhibited = false ∧ State.reset.stepArmed = false
    ∧ State.reset.breakSeen = false ∧ (∀ c ∈ State.reset.channels, c.active = false) ∧ ∀ a, readByte State.reset.mem a = 0#8)

/-- Events of devices, of other processors and of the console (61_io_debug.md R512, R514, R541, 60_exceptions.md R475, 45_system.md
R303, 70_reset_and_hazards.md R554); what the console does to a state, that a key it is not heard at is dropped, and that a write to a
word in bad parity outside DEBUG is alarm 2 as a display is, are readings of R541 (log 23). The console is heard when the machine is stopped, or when neither IOM nor IM[0] masks it; it loads registers only when the
machine is stopped, RUN does not leave an alarm stop, and in DEBUG mode its accesses raise no alarm but that of the protection.
That an alarm of the console drops the alarm 7 of a stepped long instruction which it cuts is the model's choice (log 39). -/
def Obligations.OutsideEvents : Prop :=
  ∀ (s u : State) (e : Input) (rest : List Input), s.inputs = e :: rest → u = ({ s with inputs := rest } : State) →
    ∀ heard : Prop, (heard ↔ s.stopped = true ∨ (s.st.IOM = false ∧ bit s.IM 0 = false)) →
    (e = .powerFail → step s = .next { u with powerFailPending := true })
    ∧ (e = .otherIpi → step s = .next { u with ipiRequest := true })
    ∧ (∀ q, e = .otherServes q → ∃ l : List Nat, (∀ n, n ∈ l ↔ n ∈ s.othersIpi ∧ n ≠ q) ∧ step s = .next { u with othersIpi := l })
    ∧ (∀ d, e = .device d → ∃ l : List Coupler, step s = .next { u with couplers := l }
      ∧ (l.find? fun c => c.key = d.key) = some { d with toChannel := ((s.coupler? d.key).map (·.toChannel)).getD false }
      ∧ ∀ k, k ≠ d.key → (l.find? fun c => c.key = k) = s.coupler? k)
    ∧ (∀ pa v, e = .otherWrite pa v → s.cfg.exists pa = true → step s = .next (u.store pa v))
    ∧ (¬ heard → ∀ a v, e ∈ [.consoleRun, .consoleStop, .consoleRead a, .consoleWrite a v, .consoleDB a, .consoleRB a, .consoleREC] →
      step s = .next u)
    ∧ (heard →
      (e = .consoleRun → s.alarmStop = true → step s = .next u)
      ∧ (e = .consoleRun → s.alarmStop = false → step s = .next { u.released with st := { s.st with STOP := false } })
      ∧ (e = .consoleStop → step s = .next { u.released with st := { s.st with STOP := true }, stopDelay := 0 })
      ∧ (e = .consoleREC → step s = .next { u with st := { s.st with DEBUG := false } })
      ∧ ∀ (a v : Word) (rel : Bool) (pa : PAddr), rel = (s.stopped && s.relocated) → pa = s.place rel a →
        (s.allowed rel a = true → s.cfg.exists pa = true → s.st.DEBUG = true ∨ s.badWord pa = false →
          (e = .consoleRead a → step s = .next u) ∧ (e = .consoleWrite a v → step s = .next (u.store pa v)))
        ∧ (s.allowed rel a = true → s.cfg.exists pa = true → s.cfg.parity = true →
          (e = .consoleDB a → ∃ l : List Nat, (∀ n, n ∈ l ↔ n = pa.toNat ∨ n ∈ s.badParity)
            ∧ step s = .next { u with badParity := l, st := { s.st with DEBUG := true, POP := true } })
          ∧ (e = .consoleRB a → ∃ l : List Nat, (∀ n, n ∈ l ↔ n ≠ pa.toNat ∧ n ∈ s.badParity)
            ∧ step s = .next { u with badParity := l }))
        ∧ (∀ n : Alarm, (n = .memoryProtection ∧ rel = true ∧ s.limit < a.toNat)
            ∨ (n = .nonExistentMemory ∧ s.allowed rel a = true ∧ s.cfg.exists pa = false ∧ s.cfg.is0405 = false ∧ s.st.DEBUG = false)
            ∨ (n = .parityError ∧ s.allowed rel a = true ∧ s.cfg.exists pa = true ∧ s.badWord pa = true ∧ s.st.DEBUG = false) →
          (e = .consoleRead a ∨ e = .consoleWrite a v) → s.haltLeft = 0 → step s
            = (raiseAlarm n { u with stepArmed := s.stepArmed && s.held.isEmpty }).outcome))
    ∧ (∀ r v, e = .consoleLoad r v →
      (s.stopped = false → step s = .next u)
      ∧ (s.stopped = true → (∀ q, r = .general q → step s = .next (u.released.setReg q v))
        ∧ (r = .p → step s = .next { u.released with P := v }) ∧ (r = .im → step s = .next { u.released with IM := v })
        ∧ (s.cfg.hasDrps = true → (r = .slo → step s = .next { u.released with SLO := v })
          ∧ (r = .sle → step s = .next { u.released with SLE := v }))))

/-- A CCB (61_io_debug.md R522, R523, R525) for a standard channel (the layout is D50, log 7; for an LDC on a model other than the 70 its
working zone takes any values, log 42, so it is left aside here). CS = 0: the channel takes the fields of the CCB and becomes active,
and the coupler's normal requests are routed to it; a buffer that crosses a 64K boundary is not defined (U22): refused. CS = 1, with no
datum held back: CCB3 takes the count left, the channel is free and serves its coupler no more; that the coupler's requests return to the
program, unless another active channel serves it, is the model's choice (log 41). The addresses m + 1 to m + 5 are modulo 2^16 (log 12). -/
def Obligations.ChannelCommands : Prop :=
  ∀ (s : State) (m : Word) (f : Ccb) (k : ChannelKind) (n : Nat),
    s.calm [m, m + 1#16, m + 2#16, m + 3#16, m + 4#16, m + 5#16] → s.abs m ≠ 0x4000#16 →
    f = ccbFields s.cfg.ccb (s.abs m) (s.abs (m + 1#16)) → channelOf s.cfg.model s.hdcConnected f = some (k, n) →
    k ≠ .ldc ∨ s.cfg.model = .m70 →
    (f.cs = false → f.sp = false → ∀ (w : Nat) (key : BitVec 14),
      w = (if f.isByte then ((s.abs (m + 3#16)).toNat + 1) / 2 else (s.abs (m + 3#16)).toNat) →
      key = (s.abs (m + 4#16)).extractLsb' 2 14 →
      (65536 < (s.abs (m + 2#16)).toNat + w → channelCommand m s = .refuse .channelBufferCrosses64K)
      ∧ ((s.abs (m + 2#16)).toNat + w ≤ 65536 → ∃ t : State, channelCommand m s = .ok () t ∧ t.channel k n
          = { kind := k, set := n, active := true
              addr := (if s.cfg.is0405 then 0#4 else BitVec.ofNat 4 f.mae) ++ s.abs (m + 2#16), rightNext := false, crossed := false
              count := s.abs (m + 3#16), da := s.abs (m + 4#16), isByte := f.isByte, dk := f.dk, sp := false, ci := s.abs (m + 5#16)
              itn := f.itn, buffered := none, micro := .standard, ended := false }
        ∧ t.coupler? key = (s.coupler? key).map (fun d => { d with toChannel := true })
        ∧ t = { s with channels := t.channels, couplers := t.couplers }))
    ∧ (f.cs = true → ∀ c, c = s.channel k n → c.buffered = none → c.micro = .standard → ∃ t : State, channelCommand m s = .ok () t
      ∧ t.channel k n = { c with active := false }
      ∧ (c.active = true → (∀ e ∈ s.channels, e.active = true → e.coupler = c.coupler → e.kind = k ∧ e.set = n) →
        t.coupler? c.coupler = (s.coupler? c.coupler).map fun d => { d with toChannel := false })
      ∧ (c.active = false ∨ (∃ e ∈ s.channels, e.active = true ∧ e.coupler = c.coupler ∧ ¬(e.kind = k ∧ e.set = n)) →
        t.couplers = s.couplers)
      ∧ t = { s.store (absolute (m + 3#16)) c.count with channels := t.channels, couplers := t.couplers })

/-- A call of a channel served by a step (61_io_debug.md R524, R525, R529 to R532): nothing when the channel may not act, which is also
while a power-fail is on, for an LDC while LCM = 1 (the spec's choice D44), and from the end of its exchange to its report (log 41). An
input holds the datum of the coupler back and stores the one before it; an output sends the word at the address; the count goes down,
and at zero "fin de bloc" is sent and the exchange is over. A stop-code exchange ends on its stop code too, an extended one on nothing
else, and counts up. A byte direct memory access moves the byte at the offset the coupler gives, in the direction it gives. A word that
does not exist is alarm 0, a word read in bad parity outside DEBUG alarm 2, reflected to the program while the channel goes on. An LDC
call ends a HALT in progress (45_system.md R306). The bytes of a word are taken left, then right (the spec's choice D51, log 41). -/
def Obligations.ChannelCalls : Prop :=
  ∀ (s : State) (k : ChannelKind) (n : Nat) (rest : List Input) (c : Channel) (u : State), s.inputs = .channel k n :: rest →
    c = s.channel k n → u = ({ s with inputs := rest } : State) →
    (c.active = false ∨ s.powerFailActive = true ∨ (k = .ldc ∧ s.st.LCM = true) ∨ c.ended = true ∨ s.coupler? c.coupler = none →
      step s = .next u)
    ∧ (c.active = true → s.powerFailActive = false → (k = .ldc → s.st.LCM = false ∧ s.cfg.model = .m70) → c.ended = false →
      c.count ≠ 0#16 ∨ c.micro = .byteAccess ∨ (∃ sc, c.micro = .extendedStop sc) →
      ∀ d, s.coupler? c.coupler = some d → d.toChannel = true → d.normalPending ≠ none →
      ∀ e : Coupler, e = (if c.count = 1#16 then { d with normalPending := none, command := d.command.map fun _ => s.cfg.endOfBlock }
        else { d with normalPending := none }) →
      (∀ v, d.dataIn = some v → (sioDecode c.da).1 = .dataIn → c.micro = .standard → s.haltLeft = 0 →
        (c.buffered = none → ∃ t, step s = .next t ∧ t.channel k n
            = { c with buffered := some (d.useful v), count := c.count - 1#16, ended := decide (c.count = 1#16) }
          ∧ t.coupler? c.coupler = some e ∧ t = { u with channels := t.channels, couplers := t.couplers })
        ∧ (∀ w, c.buffered = some w → c.crossed = false → s.cfg.exists c.addr = true → ∃ t x, step s = .next t
          ∧ (t.channel k n).buffered = some (d.useful v) ∧ (t.channel k n).count = c.count - 1#16
          ∧ c.follows (t.channel k n) ∧ ((t.channel k n).ended = true ↔ c.count = 1#16) ∧ t.coupler? c.coupler = some e
          ∧ putDatum c.isByte c.rightNext (readWord s.mem c.addr) w x
          ∧ t = { u.store c.addr x with channels := t.channels, couplers := t.couplers })
        ∧ (∀ w, c.buffered = some w → c.crossed = false → s.cfg.exists c.addr = false → s.cfg.is0405 = false → ∃ t,
          (t.channel k n).active = true ∧ t.P = s.P ∧ t.mem = s.mem ∧ step s = (raiseOutside .nonExistentMemory t).outcome))
      ∧ (∀ o, d.dataOut = some o → (sioDecode c.da).1 = .dataOut → c.micro = .standard → s.haltLeft = 0 → c.crossed = false →
        c.buffered = none → s.cfg.exists c.addr = true →
        (s.badWord c.addr = false ∨ s.st.DEBUG = true → ∃ t, step s = .next t ∧ (t.channel k n).count = c.count - 1#16
          ∧ c.follows (t.channel k n) ∧ ((t.channel k n).ended = true ↔ c.count = 1#16)
          ∧ t.coupler? c.coupler = some { e with dataOut := some (d.useful (if c.isByte then
              zext8 (byteOf (readWord s.mem c.addr) c.rightNext) else readWord s.mem c.addr)) }
          ∧ t = { u with channels := t.channels, couplers := t.couplers })
        ∧ (s.badWord c.addr = true → s.st.DEBUG = false → ∃ t, (t.channel k n).active = true ∧ t.P = s.P ∧ t.mem = s.mem
          ∧ step s = (raiseOutside .parityError t).outcome))
      ∧ (∀ v, d.dataIn = some v → c.buffered = none → s.haltLeft = 0 → ∀ sc,
        (c.micro = .stopCode sc → ∃ t, step s = .next t ∧ (t.channel k n).buffered = some (d.useful v)
          ∧ (t.channel k n).count = c.count - 1#16 ∧ ((t.channel k n).ended = true ↔ c.count = 1#16 ∨ lo v = sc))
        ∧ (c.micro = .extendedStop sc → ∃ t, step s = .next t ∧ (t.channel k n).buffered = some (d.useful v)
          ∧ (t.channel k n).count = c.count + 1#16 ∧ ((t.channel k n).ended = true ↔ lo v = sc)))
      ∧ (c.micro = .byteAccess → c.buffered = none → c.isByte = true → s.haltLeft = 0 → ∀ pa : PAddr,
        pa.toNat = (c.addr.toNat + d.byteOffset.toNat / 2) % 1048576 → s.sound pa = true →
        (∀ o, d.dmaOut = true → d.dataOut = some o → ∃ t, step s = .next t
          ∧ t.coupler? c.coupler = some { d with normalPending := none, dataOut := some (d.useful (if d.byteOffset.toNat % 2 = 1
              then zext8 (lo (readWord s.mem pa)) else zext8 (hi (readWord s.mem pa)))) }
          ∧ t = { u with couplers := t.couplers })
        ∧ (∀ v, d.dmaOut = false → d.dataIn = some v → ∃ t x, step s = .next t
          ∧ t.coupler? c.coupler = some { d with normalPending := none }
          ∧ putDatum true (decide (d.byteOffset.toNat % 2 = 1)) (readWord s.mem pa) v x
          ∧ t = { u.store pa x with couplers := t.couplers }))
      ∧ (k = .ldc → s.haltLeft ≠ 0 → s.stepArmed = false → s.breakSeen = false → c.buffered = none → c.micro = .standard →
        (sioDecode c.da).1 = .dataIn → ∃ t, step s = .next t ∧ t.haltLeft = 0 ∧ t.r.X = BitVec.ofNat 16 s.haltLeft ∧ t.P = s.P))

/-- The state after power-on meets the invariant, and its configuration is legal (10_state.md R21, R36). -/
def Obligations.ResetInv : Prop := State.reset.Inv ∧ State.reset.cfg.wf = true

/-- Every step keeps the invariant and the configuration (20_memory.md R60, R72, R73; 45_system.md R306, R321): memory and the set
of words in bad parity keep their canonical form and hold only words that exist, a HALT has less than 65536 periods left, only a
long instruction in progress holds operands, and no instruction or event makes SCHED 1 (D32, log 16). -/
def Obligations.StepKeepsInv : Prop :=
  ∀ s t : State, s.Inv → step s = .next t → t.Inv ∧ t.cfg = s.cfg

/-- What a program in slave mode can do with one instruction that ends in no alarm, QUIT aside (45_system.md R300, 20_memory.md
R66, 44_branch.md R276): SLO, SLE, IM, HV, the requests, the couplers and channels, and the bits of ST but MS, SVCS, V and Cf are as
they were; MS becomes 1 only with P at the supervisor's entry, word '0005; and with DRPS, the instructions that store in the common
data area aside, every byte is unchanged but those of the words its own addresses 0 to the limit designate. -/
def Obligations.SlaveConfined : Prop :=
  ∀ (i : Instr) (s t : State), s.slave = true → i ≠ .quit → exec i s = .next t → t.phase ≠ .abandoned →
    t.cfg = s.cfg ∧ t.SLO = s.SLO ∧ t.SLE = s.SLE ∧ t.IM = s.IM ∧ t.HV = s.HV ∧ t.ipiRequest = s.ipiRequest
    ∧ t.othersIpi = s.othersIpi ∧ t.powerFailPending = s.powerFailPending ∧ t.powerFailActive = s.powerFailActive
    ∧ t.stepArmed = s.stepArmed ∧ t.alarmStop = s.alarmStop ∧ t.autoRestartInhibited = s.autoRestartInhibited
    ∧ t.stopDelay = s.stopDelay ∧ t.couplers = s.couplers ∧ t.channels = s.channels ∧ t.inputs = s.inputs
    ∧ t.st = { s.st with MS := t.st.MS, SVCS := t.st.SVCS, V := t.st.V, Cf := t.st.Cf }
    ∧ (t.st.MS = true → t.P = t.abs 0x0005#16)
    ∧ (s.cfg.hasDrps = true → Instr.cdaStore i = false → ∀ a : Nat,
      (∀ x : Word, x.toNat ≤ s.limit → a / 2 ≠ (s.relocate x).toNat) → readByte t.mem a = readByte s.mem a)

/-- What each instruction that leaves the system alone may change, in every state where it ends in no alarm
(40_load_store_exchange.md to 44_branch.md): the registers, flags and word of memory that `Instr.frame` and `Instr.stores` list,
the word being the one its effective address gives, and for STBY the byte its byte address gives; every other register, flag, bit
of ST, byte of memory, mark of bad parity and piece of the system is as before. -/
def Obligations.Frames : Prop :=
  ∀ (i : Instr) (s t : State), exec i s = .next t → t.phase ≠ .abandoned →
    (∀ rs fl, Instr.frame i = some (rs, fl) → s.onlyRegs t rs fl ∧ s.memorySame t ∧ t.badParity = s.badParity)
    ∧ (∀ m rs fl, Instr.stores i = some (m, rs, fl) → ∀ ea u, eaWord m s.completed = .ok ea u →
      s.onlyRegs t rs fl ∧ s.memorySameBut t (s.place s.relocated ea)
        ∧ ∀ n, n ≠ (s.place s.relocated ea).toNat → (n ∈ t.badParity ↔ n ∈ s.badParity))
    ∧ (∀ m, i = .stby m → Memory.wf s.mem = true → ∀ wa right u, eaByte m s.completed = .ok (wa, right) u →
      s.onlyRegs t [] false
        ∧ (∀ a, a ≠ 2 * (s.place s.relocated wa).toNat + (if right then 1 else 0) → readByte t.mem a = readByte s.mem a)
        ∧ ∀ n, n ≠ (s.place s.relocated wa).toNat → (n ∈ t.badParity ↔ n ∈ s.badParity))

end
end

