-- ==== Sys2Proof/Laws/Ops.lean ====
section
/-! SUPPORT. What each shared operation does: under which condition it answers which value and state, and everything it can do
when it answers. -/

namespace Sys2Proof.Machine

/-! Sequencing. -/

@[simp] theorem Res.bind_ok {α β : Type} (a : α) (s : State) (f : α → State → Res β) : (Res.ok a s).bind f = f a s := rfl
@[simp] theorem Res.bind_alarm {α β : Type} (n : Alarm) (s : State) (f : α → State → Res β) :
    (Res.alarm n s : Res α).bind f = .alarm n s := rfl
@[simp] theorem Res.bind_refuse {α β : Type} (r : Refusal) (f : α → State → Res β) :
    (Res.refuse r : Res α).bind f = .refuse r := rfl
@[simp] theorem Res.bind_stuck {α β : Type} (r : Fault) (f : α → State → Res β) :
    (Res.stuck r : Res α).bind f = .stuck r := rfl

/-- A sequence answers when both parts do. -/
theorem Res.bind_eq_ok {α β : Type} {m : Res α} {f : α → State → Res β} {b : β} {t : State} :
    m.bind f = .ok b t ↔ ∃ a u, m = .ok a u ∧ f a u = .ok b t := by
  cases m <;> simp [Res.bind]

/-- A sequence meets an alarm in its first part or in its second. -/
theorem Res.bind_eq_alarm {α β : Type} {m : Res α} {f : α → State → Res β} {n : Alarm} {t : State} :
    m.bind f = .alarm n t ↔ m = .alarm n t ∨ ∃ a u, m = .ok a u ∧ f a u = .alarm n t := by
  cases m <;> simp [Res.bind]

/-! Executions. -/

/-- An execution whose body answers is the state of the body. -/
theorem execute_ok {body : State → Res Unit} {s t : State} (h : body s.completed = .ok () t) : execute body s = .next t := by
  have h' : body { s with phase := .completed } = .ok () t := h
  simp only [execute, h']

/-- An execution whose body meets an alarm takes it. -/
theorem execute_alarm {body : State → Res Unit} {s t : State} {n : Alarm} (h : body s.completed = .alarm n t) :
    execute body s = (takeAlarm s.P n t).outcome := by
  have h' : body { s with phase := .completed } = .alarm n t := h
  simp only [execute, h']

/-- An execution whose body is refused is refused. -/
theorem execute_refuse {body : State → Res Unit} {s : State} {r : Refusal} (h : body s.completed = .refuse r) :
    execute body s = .refused r := by
  have h' : body { s with phase := .completed } = .refuse r := h
  simp only [execute, h']

/-- An execution has a next state when its body answers, or meets an alarm that is taken. -/
theorem execute_next {body : State → Res Unit} {s t : State} (h : execute body s = .next t) :
    body s.completed = .ok () t ∨ ∃ n u, body s.completed = .alarm n u ∧ (takeAlarm s.P n u).outcome = .next t := by
  unfold execute at h
  change (match body s.completed with
    | .ok _ s' => Host.Outcome.next s'
    | .alarm n s' => (takeAlarm s.P n s').outcome
    | .refuse r => .refused r
    | .stuck r => .fault r) = _ at h
  cases hb : body s.completed with
  | ok a u => rw [hb] at h; simp only [Host.Outcome.next.injEq] at h; exact .inl (by rw [h])
  | alarm n u => rw [hb] at h; exact .inr ⟨n, u, rfl, h⟩
  | refuse r => rw [hb] at h; simp at h
  | stuck r => rw [hb] at h; simp at h

/-! Physical accesses. -/

/-- A sound word is read, and nothing else happens. -/
theorem readAt_sound {pa : PAddr} {s : State} (h : s.sound pa = true) : readAt pa s = .ok (readWord s.mem pa) s := by
  simp only [State.sound, Bool.and_eq_true, Bool.not_eq_true'] at h
  simp [readAt, h.1, h.2]

/-- A word is stored, and nothing else happens. -/
theorem writeAt_storable {pa : PAddr} {s : State} (h : s.storable pa = true) (v : Word) :
    writeAt pa v s = .ok () (s.store pa v) := by
  simp only [State.storable, Bool.and_eq_true, Bool.not_eq_true'] at h
  simp only [writeAt, h.1, h.2]
  simp

/-- A sound word can be stored in. -/
theorem sound_storable {s : State} {pa : PAddr} (h : s.sound pa = true) : s.storable pa = true := by
  simp only [State.sound, State.storable, Bool.and_eq_true, Bool.not_eq_true'] at h ⊢
  exact ⟨h.1, by rw [h.2]; rfl⟩

/-- Where no word exists a read meets alarm 0, except on a 04/05 (20_memory.md R72). -/
theorem readAt_absent {pa : PAddr} {s : State} (h : s.cfg.exists pa = false) (hm : s.cfg.is0405 = false) :
    readAt pa s = .alarm .nonExistentMemory s := by
  simp [readAt, h, hm]

/-- Everything a read can do when it answers: nothing, a breakpoint remembered, a free value used. -/
theorem readAt_cases {pa : PAddr} {s t : State} {v : Word} (h : readAt pa s = .ok v t) :
    (t = s ∧ v = readWord s.mem pa ∧ s.cfg.exists pa = true)
      ∨ (t = s.seeBreak ∧ v = readWord s.mem pa ∧ s.cfg.exists pa = true)
      ∨ (t = s.fresh.2 ∧ v = s.fresh.1 ∧ s.cfg.exists pa = false) := by
  unfold readAt at h
  split at h
  · rename_i he
    split at h
    · cases h; exact .inr (.inr ⟨rfl, rfl, by simpa using he⟩)
    · cases h
  · rename_i he
    have he' : s.cfg.exists pa = true := by simpa using he
    split at h
    · split at h
      · cases h; exact .inr (.inl ⟨rfl, rfl, he'⟩)
      · cases h
    · cases h; exact .inl ⟨rfl, rfl, he'⟩

/-- An alarm of a read leaves the state as it was. -/
theorem readAt_alarm {pa : PAddr} {s t : State} {n : Alarm} (h : readAt pa s = .alarm n t) : t = s := by
  unfold readAt at h
  split at h
  · split at h <;> cases h; rfl
  · split at h
    · split at h <;> cases h; rfl
    · cases h

/-- Everything a write can do when it answers: nothing where no word exists, the store, the store on a breakpoint. -/
theorem writeAt_cases {pa : PAddr} {s t : State} {v : Word} (h : writeAt pa v s = .ok () t) :
    (t = s ∧ s.cfg.exists pa = false)
      ∨ (t = s.store pa v ∧ s.cfg.exists pa = true)
      ∨ (t = s.seeBreak.store pa v ∧ s.cfg.exists pa = true) := by
  unfold writeAt at h
  split at h
  · rename_i he
    split at h
    · cases h; exact .inl ⟨rfl, by simpa using he⟩
    · cases h
  · rename_i he
    have he' : s.cfg.exists pa = true := by simpa using he
    split at h
    · cases h; exact .inr (.inr ⟨rfl, he'⟩)
    · cases h; exact .inr (.inl ⟨rfl, he'⟩)

/-- An alarm of a write leaves the state as it was: the write is inhibited. -/
theorem writeAt_alarm {pa : PAddr} {s t : State} {n : Alarm} {v : Word} (h : writeAt pa v s = .alarm n t) : t = s := by
  unfold writeAt at h
  split at h
  · split at h <;> cases h; rfl
  · split at h <;> cases h

/-! Accesses at program addresses. -/

/-- An allowed address is resolved, and nothing else happens. -/
theorem resolve_allowed {b : Bool} {a : Word} {s : State} (h : s.allowed b a = true) : resolve b a s = .ok (s.place b a) s := by
  cases b
  · rfl
  · simp only [State.allowed, Bool.not_true, Bool.false_or, decide_eq_true_eq] at h
    simp only [resolve, translate, State.place, if_true]
    rw [if_neg (by omega)]

/-- Beyond the limit an access meets alarm 1 (20_memory.md R66). -/
theorem resolve_refused {b : Bool} {a : Word} {s : State} (h : s.allowed b a = false) :
    resolve b a s = .alarm .memoryProtection s := by
  cases b
  · simp [State.allowed] at h
  · simp only [State.allowed, Bool.not_true, Bool.false_or, decide_eq_false_iff_not] at h
    simp only [resolve, translate, if_true]
    rw [if_pos (by omega)]

/-- Everything `resolve` can do. -/
theorem resolve_eq (b : Bool) (a : Word) (s : State) :
    resolve b a s = if s.allowed b a then .ok (s.place b a) s else .alarm .memoryProtection s := by
  cases h : s.allowed b a
  · rw [resolve_refused h]; rfl
  · rw [resolve_allowed h]; rfl

theorem canRead_allowed {s : State} {b : Bool} {a : Word} (h : s.canRead b a = true) : s.allowed b a = true := by
  simp only [State.canRead, Bool.and_eq_true] at h; exact h.1

theorem canRead_sound {s : State} {b : Bool} {a : Word} (h : s.canRead b a = true) :
    s.sound (s.place b a) = true := by
  simp only [State.canRead, Bool.and_eq_true] at h; exact h.2

theorem canWrite_allowed {s : State} {b : Bool} {a : Word} (h : s.canWrite b a = true) : s.allowed b a = true := by
  simp only [State.canWrite, Bool.and_eq_true] at h; exact h.1

theorem canWrite_storable {s : State} {b : Bool} {a : Word} (h : s.canWrite b a = true) :
    s.storable (s.place b a) = true := by
  simp only [State.canWrite, Bool.and_eq_true] at h; exact h.2

theorem canRead_canWrite {s : State} {b : Bool} {a : Word} (h : s.canRead b a = true) : s.canWrite b a = true := by
  simp only [State.canWrite, canRead_allowed h, sound_storable (canRead_sound h), Bool.and_self]

theorem memRead_ok {a : Word} {s : State} (h : s.canRead s.relocated a = true) :
    memRead a s = .ok (s.wordAt s.relocated a) s := by
  simp only [memRead, resolve_allowed (canRead_allowed h), Res.bind_ok, readAt_sound (canRead_sound h), State.wordAt]

theorem memWrite_ok {a : Word} {s : State} (h : s.canWrite s.relocated a = true) (v : Word) :
    memWrite a v s = .ok () (s.put s.relocated a v) := by
  simp only [memWrite, resolve_allowed (canWrite_allowed h), Res.bind_ok, writeAt_storable (canWrite_storable h), State.put]

theorem stackRead_ok {a : Word} {s : State} (h : s.canRead s.stackRelocated a = true) :
    stackRead a s = .ok (s.wordAt s.stackRelocated a) s := by
  simp only [stackRead, resolve_allowed (canRead_allowed h), Res.bind_ok, readAt_sound (canRead_sound h), State.wordAt]

theorem stackWrite_ok {a : Word} {s : State} (h : s.canWrite s.stackRelocated a = true) (v : Word) :
    stackWrite a v s = .ok () (s.put s.stackRelocated a v) := by
  simp only [stackWrite, resolve_allowed (canWrite_allowed h), Res.bind_ok, writeAt_storable (canWrite_storable h), State.put]

theorem relRead_ok {a : Word} {s : State} (h : s.canRead s.cfg.hasDrps a = true) :
    relRead a s = .ok (s.wordAt s.cfg.hasDrps a) s := by
  simp only [relRead, resolve_allowed (canRead_allowed h), Res.bind_ok, readAt_sound (canRead_sound h), State.wordAt]

theorem relWrite_ok {a : Word} {s : State} (h : s.canWrite s.cfg.hasDrps a = true) (v : Word) :
    relWrite a v s = .ok () (s.put s.cfg.hasDrps a v) := by
  simp only [relWrite, resolve_allowed (canWrite_allowed h), Res.bind_ok, writeAt_storable (canWrite_storable h), State.put]

theorem physRead_ok {a : Word} {s : State} (h : s.sound (absolute a) = true) : physRead a s = .ok (s.abs a) s := by
  simp only [physRead, readAt_sound h, State.abs]

theorem physWrite_ok {a : Word} {s : State} (h : s.storable (absolute a) = true) (v : Word) :
    physWrite a v s = .ok () (s.store (absolute a) v) := by
  simp only [physWrite, writeAt_storable h]

/-- Everything a relocated, stack, ordinary or absolute read can do when it answers. -/
theorem resolved_read_cases {b : Bool} {a v : Word} {s t : State} (h : (resolve b a s).bind readAt = .ok v t) :
    s.allowed b a = true ∧ readAt (s.place b a) s = .ok v t := by
  rw [resolve_eq] at h
  split at h
  · rename_i ha; exact ⟨ha, h⟩
  · simp [Res.bind] at h

/-- Everything a relocated, stack, ordinary or absolute write can do when it answers. -/
theorem resolved_write_cases {b : Bool} {a v : Word} {s t : State}
    (h : ((resolve b a s).bind fun pa s => writeAt pa v s) = .ok () t) :
    s.allowed b a = true ∧ writeAt (s.place b a) v s = .ok () t := by
  rw [resolve_eq] at h
  split at h
  · rename_i ha; exact ⟨ha, h⟩
  · simp [Res.bind] at h

/-! Operands. -/

theorem eaWord_ok {m : MemRef} {s : State} (h : s.relayOk m = true) : eaWord m s = .ok (s.effective m) s := by
  cases hi : m.ind
  · simp [eaWord, State.effective, hi]
  · simp only [State.relayOk, hi, Bool.not_true, Bool.false_or] at h
    simp [eaWord, State.effective, hi, memRead_ok h]

theorem eaByte_ok {m : MemRef} {s : State} (h : s.relayOk m = true) : eaByte m s = .ok (s.effectiveByte m) s := by
  cases hi : m.ind
  · simp [eaByte, State.effectiveByte, hi]
  · simp only [State.relayOk, hi, Bool.not_true, Bool.false_or] at h
    simp [eaByte, State.effectiveByte, hi, memRead_ok h]

theorem readOperand_ok {m : MemRef} {s : State} (h : s.operandOk m = true) : readOperand m s = .ok (s.operand m) s := by
  simp only [State.operandOk, Bool.and_eq_true] at h
  simp only [readOperand, eaWord_ok h.1, Res.bind_ok, memRead_ok h.2, State.operand]

theorem byteRead_ok {a : Word} {r : Bool} {s : State} (h : s.canRead s.relocated a = true) :
    byteRead a r s = .ok (byteOf (s.wordAt s.relocated a) r) s := by
  simp only [byteRead, memRead_ok h, Res.bind_ok]

theorem byteWrite_ok {a : Word} {r : Bool} {b : Byte} {s : State} (h : s.canRead s.relocated a = true) :
    byteWrite a r b s = .ok () (s.put s.relocated a (withByte (s.wordAt s.relocated a) r b)) := by
  simp only [byteWrite, memRead_ok h, Res.bind_ok, memWrite_ok (canRead_canWrite h)]

/-! Predicates that only read the fields a mark or a register write leaves alone. -/

@[simp] theorem State.sound_completed (s : State) (pa : PAddr) : s.completed.sound pa = s.sound pa := rfl
@[simp] theorem State.storable_completed (s : State) (pa : PAddr) : s.completed.storable pa = s.storable pa := rfl
@[simp] theorem State.canRead_completed (s : State) (b : Bool) (a : Word) : s.completed.canRead b a = s.canRead b a := rfl
@[simp] theorem State.canWrite_completed (s : State) (b : Bool) (a : Word) : s.completed.canWrite b a = s.canWrite b a := rfl
@[simp] theorem State.wordAt_completed (s : State) (b : Bool) (a : Word) : s.completed.wordAt b a = s.wordAt b a := rfl
@[simp] theorem State.relocated_completed (s : State) : s.completed.relocated = s.relocated := rfl
@[simp] theorem State.stackRelocated_completed (s : State) : s.completed.stackRelocated = s.stackRelocated := rfl
@[simp] theorem State.effective_completed (s : State) (m : MemRef) : s.completed.effective m = s.effective m := rfl
@[simp] theorem State.effectiveByte_completed (s : State) (m : MemRef) : s.completed.effectiveByte m = s.effectiveByte m := rfl
@[simp] theorem State.relayOk_completed (s : State) (m : MemRef) : s.completed.relayOk m = s.relayOk m := rfl
@[simp] theorem State.operandOk_completed (s : State) (m : MemRef) : s.completed.operandOk m = s.operandOk m := rfl
@[simp] theorem State.operand_completed (s : State) (m : MemRef) : s.completed.operand m = s.operand m := rfl
@[simp] theorem State.byteOk_completed (s : State) (m : MemRef) : s.completed.byteOk m = s.byteOk m := rfl
@[simp] theorem State.byteOperand_completed (s : State) (m : MemRef) : s.completed.byteOperand m = s.byteOperand m := rfl

@[simp] theorem State.place_setReg (s : State) (r : Reg) (v : Word) (b : Bool) (a : Word) :
    (s.setReg r v).place b a = s.place b a := by cases r <;> rfl
@[simp] theorem State.canRead_setReg (s : State) (r : Reg) (v : Word) (b : Bool) (a : Word) :
    (s.setReg r v).canRead b a = s.canRead b a := by cases r <;> rfl
@[simp] theorem State.canWrite_setReg (s : State) (r : Reg) (v : Word) (b : Bool) (a : Word) :
    (s.setReg r v).canWrite b a = s.canWrite b a := by cases r <;> rfl
@[simp] theorem State.wordAt_setReg (s : State) (r : Reg) (v : Word) (b : Bool) (a : Word) :
    (s.setReg r v).wordAt b a = s.wordAt b a := by cases r <;> rfl
@[simp] theorem State.relocated_setReg (s : State) (r : Reg) (v : Word) : (s.setReg r v).relocated = s.relocated := by
  cases r <;> rfl
@[simp] theorem State.stackRelocated_setReg (s : State) (r : Reg) (v : Word) :
    (s.setReg r v).stackRelocated = s.stackRelocated := by cases r <;> rfl

@[simp] theorem State.place_store (s : State) (pa : PAddr) (v : Word) (b : Bool) (a : Word) :
    (s.store pa v).place b a = s.place b a := rfl
@[simp] theorem State.relocated_store (s : State) (pa : PAddr) (v : Word) : (s.store pa v).relocated = s.relocated := rfl
@[simp] theorem State.stackRelocated_store (s : State) (pa : PAddr) (v : Word) :
    (s.store pa v).stackRelocated = s.stackRelocated := rfl

/-- What can be read can still be read after a store. -/
theorem State.canRead_store {s : State} {b : Bool} {a : Word} (h : s.canRead b a = true) (pa : PAddr) (v : Word) :
    (s.store pa v).canRead b a = true := by
  simp only [State.canRead, Bool.and_eq_true] at h ⊢
  exact ⟨h.1, State.sound_store h.2 pa v⟩

/-- A store keeps sound words sound. -/
theorem State.calm_store {s : State} {l : List Word} (h : s.calm l) (pa : PAddr) (v : Word) : (s.store pa v).calm l :=
  fun a ha => State.sound_store (h a ha) pa v

/-! Privilege. -/

/-- `PrivCheck()` (45_system.md R300): alarm 4 in slave mode, nothing elsewhere. -/
theorem privCheck_eq (s : State) : privCheck s = if s.slave then .alarm .privileged s else .ok () s := by
  have h : s.slave = !(s.cfg.is0405 || s.st.MS || (s.cfg.hasPrivMode && s.st.PR)) := by simp [State.slave]
  rw [privCheck, h]
  by_cases hc : (s.cfg.is0405 || s.st.MS || (s.cfg.hasPrivMode && s.st.PR)) = true <;> simp [hc]

@[simp] theorem State.slave_completed (s : State) : s.completed.slave = s.slave := rfl

/-! Taking an alarm. -/

/-- Everything `raiseAlarm` can do: it never meets an alarm itself. -/
theorem raiseAlarm_not_alarm (n k : Alarm) (s t : State) : raiseAlarm n s ≠ .alarm k t := by
  unfold raiseAlarm
  split
  · simp
  · split
    · split <;> simp
    · generalize (launch 0 { s with breakSeen := false }).bind (fun _ s => writeAlarmNumber n s) = m
      cases m <;> simp [Res.alarmsHalt]

/-! The end of an instruction, where no breakpoint is remembered. -/

theorem actOnBreak_ok {s : State} (h : s.breakSeen = false) : actOnBreak s = .ok () s := by
  unfold actOnBreak; rw [h]; rfl

theorem endCompleted_ok {armed : Bool} {s : State} (ha : armed = false) (h : s.breakSeen = false) :
    endCompleted armed s = .ok () s := by
  subst ha; unfold endCompleted endStep; rw [h]; rfl

/-- Alarm 7 at the end of the stepped instruction (45_system.md R311). -/
theorem endCompleted_step {armed : Bool} {s : State} (ha : armed = true) (h : s.breakSeen = false) :
    endCompleted armed s = raiseAlarm .singleStep { s with stepArmed := false } := by
  subst ha; unfold endCompleted endStep; rw [h]; rfl

end Sys2Proof.Machine
end

