-- ==== Sys2Proof/Laws/Calls.lean ====
section
/-! SUPPORT. What the larger shared operations do: supervisor calls, elections, context switches, alarms, the scheduler's
passages, based and CDA operands, one lemma each, in the words of Safety.lean. -/

namespace Sys2Proof.Machine

/-! Accesses after a store. -/

/-- A store takes no word away. -/
theorem storable_store {s : State} {q : PAddr} (h : s.storable q = true) (pa : PAddr) (v : Word) :
    (s.store pa v).storable q = true := by
  simp only [State.storable, Bool.and_eq_true, Bool.not_eq_true', Bool.and_eq_false_iff] at h ⊢
  refine ⟨h.1, ?_⟩
  rcases h.2 with h2 | h2
  · left
    rw [State.badWord_store, h2]; simp
  · exact .inr h2

/-- A store forbids no access. -/
theorem canWrite_store {s : State} {b : Bool} {a : Word} (h : s.canWrite b a = true) (pa : PAddr) (v : Word) :
    (s.store pa v).canWrite b a = true := by
  simp only [State.canWrite, Bool.and_eq_true] at h ⊢
  exact ⟨h.1, storable_store h.2 pa v⟩

theorem toNat_absolute (a : Word) : (absolute a).toNat = a.toNat := by
  simp [absolute]; omega

/-- `SLO·16 + a` modulo 2^20 (20_memory.md R66). -/
theorem toNat_relocate (s : State) (a : Word) : (s.relocate a).toNat = (s.SLO.toNat * 16 + a.toNat) % 1048576 := by
  have : (s.SLO ++ 0#4).toNat = s.SLO.toNat * 16 := by rw [toNat_join]; simp
  simp only [State.relocate, BitVec.toNat_add, this]; simp

/-- Two program addresses never name the same word. -/
theorem place_inj {s : State} {b : Bool} {a a' : Word} (h : s.place b a = s.place b a') : a = a' := by
  apply BitVec.eq_of_toNat_eq
  have h' := congrArg BitVec.toNat h
  have := a.isLt; have := a'.isLt
  cases b
  · simpa [State.place, toNat_absolute] using h'
  · simp only [State.place, if_true, toNat_relocate] at h'; omega

theorem wordAt_store_other {s : State} {b c : Bool} {a a' v : Word} (h : s.place b a ≠ s.place c a') :
    (s.store (s.place c a') v).wordAt b a = s.wordAt b a :=
  readWord_writeWord_other _ _ h

theorem wordAt_store_same {s : State} {b : Bool} {a v : Word} (hw : Memory.wf s.mem = true) :
    (s.store (s.place b a) v).wordAt b a = v :=
  readWord_writeWord_same hw _ _

theorem readByte_store_other (s : State) {pa : PAddr} {a : Nat} (v : Word) (h : a / 2 ≠ pa.toNat) :
    readByte (s.store pa v).mem a = readByte s.mem a :=
  readByte_writeWord_other _ _ _ (by omega) (by omega)

/-- Addresses at different distances below 65536 differ. -/
theorem address_add_ne (k : Word) {i j : Nat} (hi : i < 65536) (hj : j < 65536) (h : i ≠ j) :
    k + BitVec.ofNat 16 i ≠ k + BitVec.ofNat 16 j := by
  intro e
  have := congrArg BitVec.toNat e
  simp only [BitVec.toNat_add, BitVec.toNat_ofNat] at this
  omega

/-- Out of slave mode a privileged body runs. -/
theorem privileged_ok {s : State} (h : s.slave = false) {b : State → Res Unit} : privileged b s.completed = b s.completed := by
  unfold privileged; rw [privCheck_eq, State.slave_completed, h]; rfl

theorem memRead_completed {s : State} {a : Word} (h : s.canRead s.relocated a = true) :
    memRead a s.completed = .ok (s.wordAt s.relocated a) s.completed := by
  rw [memRead_ok (s := s.completed) h]; rfl

theorem memWrite_completed {s : State} {a v : Word} (h : s.canWrite s.relocated a = true) :
    memWrite a v s.completed = .ok () (s.put s.relocated a v).completed := by
  rw [memWrite_ok (s := s.completed) h]; rfl

theorem readAt_completed {s : State} {a : PAddr} (h : s.sound a = true) :
    readAt a s.completed = .ok (readWord s.mem a) s.completed := by
  rw [readAt_sound (s := s.completed) h]; rfl

theorem writeAt_completed {s : State} {a : PAddr} {v : Word} (h : s.storable a = true) :
    writeAt a v s.completed = .ok () (s.store a v).completed := by
  rw [writeAt_storable (s := s.completed) h]; rfl

/-! Supervisor calls and absent extensions. -/

/-- A push that is allowed (44_branch.md R272). -/
theorem push_ok {s : State} {v : Word} (h : s.canWrite s.stackRelocated (s.r.K + 1#16) = true) :
    push v s = .ok () (s.pushed v) := by
  unfold push
  have : (s.setReg .k (s.r.K + 1#16)).canWrite (s.setReg .k (s.r.K + 1#16)).stackRelocated (s.r.K + 1#16) = true :=
      by simpa using h
  rw [stackWrite_ok this]; rfl

theorem enterSupervisor_ok {s : State} (h : s.sound (absolute s.svcVector) = true) (p : Word) (hp : p = s.abs s.svcVector) :
    enterSupervisor s = .ok () { s.supervisor with P := p } := by
  subst hp
  unfold enterSupervisor State.supervisor
  unfold State.svcVector at *
  by_cases hc : (s.st.MS || s.cfg.is0405) = true
  · simp only [hc, if_true] at h ⊢
    rw [physRead_ok h]; rfl
  · simp only [hc, Bool.false_eq_true, if_false] at h ⊢
    rw [physRead_ok (s := { s with st := { s.st with MS := true, SVCS := true } }) h]; rfl

theorem supervisor_goes (s : State) (p : Word) : ({ s.completed.supervisor with P := p } : State) = s.supervisor.goes p := by
  unfold State.supervisor
  by_cases hc : (s.st.MS || s.cfg.is0405) = true
  · simp only [State.completed_cfg, State.completed_st, hc, if_true]; rfl
  · simp only [State.completed_cfg, State.completed_st, hc]; rfl

/-- SVC (44_branch.md R276). -/
theorem supervisorCall_ok {s : State} {n : Byte} {ret : Word} (h : s.svcOk = true) :
    supervisorCall n ret s.completed = .ok () (s.svcDone n ret) := by
  simp only [State.svcOk, Bool.and_eq_true] at h
  unfold supervisorCall
  rw [push_ok (s := s.completed.setReg .x (zext8 n)) (by exact h.1)]
  simp only [Res.bind_ok]
  have e : (s.completed.setReg .x (zext8 n)).pushed ret = ((s.setReg .x (zext8 n)).pushed ret).completed := rfl
  rw [e, enterSupervisor_ok (s := ((s.setReg .x (zext8 n)).pushed ret).completed) (p :=
      ((s.setReg .x (zext8 n)).pushed ret).abs s.svcVector) ?_ rfl, supervisor_goes]; rfl
  exact State.sound_store (s := s) (pb := absolute s.svcVector) h.2 (s.place s.stackRelocated (s.r.K + 1#16)) ret

/-- An absent extension (30_encoding.md R118). -/
theorem absentExtension_ok {s : State} {n : Byte} (h : s.absentOk = true) :
    absentExtension n s.completed = .ok () (s.absentDone n) := by
  simp only [State.absentOk, Bool.and_eq_true] at h
  obtain ⟨⟨h1, h2⟩, h3⟩ := h
  unfold absentExtension
  rw [push_ok (s := s.completed) (by simpa using h1)]
  simp only [Res.bind_ok]
  have e : s.completed.pushed s.completed.r.X = (s.pushed s.r.X).completed := rfl
  rw [e]
  refine supervisorCall_ok ?_
  simp only [State.svcOk, Bool.and_eq_true]
  refine ⟨?_, ?_⟩
  rotate_left
  · exact State.sound_store (s := s) (pb := absolute s.svcVector) h3 (s.place s.stackRelocated (s.r.K + 1#16)) s.r.X
  have : (s.pushed s.r.X).r.K = s.r.K + 1#16 := rfl
  rw [this, show s.r.K + 1#16 + 1#16 = s.r.K + 2#16 by rw [BitVec.add_assoc]; rfl]
  have := canWrite_store h2 (s.place s.stackRelocated (s.r.K + 1#16)) s.r.X
  exact this

/-! Bits. -/

theorem bit_or (a b : Word) (i : Nat) : bit (a ||| b) i = (bit a i || bit b i) := by
  unfold bit; split <;> simp

theorem bit_and (a b : Word) (i : Nat) : bit (a &&& b) i = (bit a i && bit b i) := by
  unfold bit; split <;> simp

theorem bit_not (a : Word) (i : Nat) (h : i < 16) : bit (~~~ a) i = !bit a i := by
  unfold bit; simp [h]; omega

theorem bit_bitMask (k i : Nat) (hk : k < 16) : bit (bitMask k) i = decide (i = k) := by
  unfold bit bitMask
  by_cases hi : i < 16
  · simp [hi, hk, BitVec.getLsbD_shiftLeft]
    by_cases h : i = k
    · simp [h]; omega
    · simp [h]; omega
  · have : i ≠ k := by omega
    simp [hi, this]

theorem bit_setBit_zero (k i : Nat) (b : Bool) (hk : k < 16) : bit (setBit 0#16 k b) i = (decide (i = k) && b) := by
  unfold setBit
  cases b
  · simp [bit]
  · simp only [if_true]; rw [bit_or, bit_bitMask k i hk]; simp [bit]

theorem bit_ge (v : Word) (i : Nat) (h : ¬ i < 16) : bit v i = false := by simp [bit, h]

theorem bit_setBit_lt (v : Word) (b : Bool) (k i : Nat) (hk : k < 16) (hi : i < 16) :
    bit (setBit v k b) i = if i = k then b else bit v i := by
  simp only [bit, hi, if_true, setBit, bitMask, hk]
  cases b <;> simp <;> by_cases h : i = k <;> simp [h] <;> omega

theorem bit_setBit (v : Word) (k i : Nat) (b : Bool) (hk : k < 16) : bit (setBit v k b) i = if i = k then b else bit v i := by
  by_cases hi : i < 16
  · exact bit_setBit_lt v b k i hk hi
  · rw [bit_ge _ _ hi, bit_ge _ _ hi]; split
    · omega
    · rfl

/-- The S word, bit by bit (60_exceptions.md R455). -/
theorem bit_sWord (t : Status) (i : Nat) : bit t.sWord i = (decide (i = 0) && t.MS || decide (i = 1) && t.SVCS || decide (i =
    2) && t.PR || decide (i = 6) && t.V || decide (i = 7) && t.Cf) := by
  unfold Status.sWord
  rw [bit_setBit _ _ _ _ (by omega), bit_setBit _ _ _ _ (by omega), bit_setBit _ _ _ _ (by omega), bit_setBit _ _ _ _ (by
      omega), bit_setBit_zero _ _ _ (by omega)]
  by_cases h0 : i = 0
  · subst h0; simp
  by_cases h1 : i = 1
  · subst h1; simp
  by_cases h2 : i = 2
  · subst h2; simp
  by_cases h3 : i = 6
  · subst h3; simp
  by_cases h4 : i = 7
  · subst h4; simp
  simp [h0, h1, h2, h3, h4]

theorem log2_eq {w b : Nat} (hb : b < 16) (h1 : 2 ^ (15 - b) ≤ w) (h2 : w < 2 ^ (16 - b)) : w.log2 = 15 - b := by
  rw [Nat.log2_eq_iff (by have : 0 < 2 ^ (15-b) := by positivity
                          omega)]
  rw [show 15 - b + 1 = 16 - b by omega]; exact ⟨h1, h2⟩

theorem leftmost_eq {w : Word} {b : Nat} (hb : b < 16) (h : bit w b = true) (hz : ∀ i < b, bit w i = false) : leftmost w = b := by
  have hw := w.isLt
  have hpos : w ≠ 0 := by rintro rfl; simp [bit] at h
  unfold leftmost; simp only [hpos, if_false]
  have h1 : 2 ^ (15 - b) ≤ w.toNat := by
    simp only [bit, hb, if_true, BitVec.getLsbD] at h
    exact Nat.ge_two_pow_of_testBit h
  have h2 : w.toNat < 2 ^ (16 - b) := by
    apply Nat.lt_pow_two_of_testBit
    intro i hi
    by_cases hi' : i < 16
    · have := hz (15 - i) (by omega)
      simp only [bit, show 15 - i < 16 by omega, if_true, BitVec.getLsbD, show 15 - (15 - i) = i by omega] at this
      exact this
    · exact Nat.testBit_lt_two_pow (lt_of_lt_of_le hw (Nat.pow_le_pow_right (by omega) (by omega)))
  rw [log2_eq hb h1 h2]; omega

theorem leftmost_lt {w : Word} {j : Nat} (hj : j ≤ 15) : j < leftmost w ↔ ∀ k ≤ j, bit w k = false := by
  constructor
  · intro h k hk
    by_contra hc
    have : ∃ b, b < 16 ∧ bit w b = true := ⟨k, by omega, by simpa using hc⟩
    classical
    let b := Nat.find this
    have hb := Nat.find_spec this
    have := leftmost_eq hb.1 hb.2 (fun i hi => by
      have := Nat.find_min this hi
      simp only [not_and, Bool.not_eq_true] at this
      exact this (by omega))
    have hle : Nat.find ‹∃ b, b < 16 ∧ bit w b = true› ≤ k := Nat.find_min' _ ⟨by omega, by simpa using hc⟩
    omega
  · intro h
    by_contra hc
    unfold leftmost at hc
    split at hc
    · omega
    · rename_i hw
      have hw' : w.toNat ≠ 0 := fun e => hw (by apply BitVec.eq_of_toNat_eq; simpa using e)
      have hl : w.toNat.log2 < 16 := (Nat.log2_lt hw').mpr w.isLt
      have := h (15 - w.toNat.log2) (by omega)
      simp only [bit, show 15 - w.toNat.log2 < 16 by omega, if_true, BitVec.getLsbD, show 15 - (15 - w.toNat.log2) =
          w.toNat.log2 by omega] at this
      rw [Nat.testBit_log2 hw'] at this; simp at this

/-- The leftmost 1 of a word that is not zero. -/
theorem bit_leftmost {w : Word} (h : w ≠ 0#16) : leftmost w < 16 ∧ bit w (leftmost w) = true := by
  unfold leftmost
  have hw' : w.toNat ≠ 0 := fun e => h (by apply BitVec.eq_of_toNat_eq; simpa using e)
  have hl : w.toNat.log2 < 16 := (Nat.log2_lt hw').mpr w.isLt
  rw [if_neg (by exact h)]
  refine ⟨by omega, ?_⟩
  simp only [bit, show 15 - w.toNat.log2 < 16 by omega, if_true, BitVec.getLsbD, show 15 - (15 - w.toNat.log2) = w.toNat.log2
      by omega]
  exact Nat.testBit_log2 hw'

/-! Elections. -/

/-- The level wanted is the least that is pending and unmasked (60_exceptions.md R453). -/
theorem wantedLevel_eq_some {s : State} {j : Nat} : s.wantedLevel = some j ↔ 1 ≤ j ∧ j ≤ 15 ∧ s.pending j = true
    ∧ bit s.IM j = false ∧ ∀ k, 1 ≤ k → k < j → s.pending k = true → bit s.IM k = true := by
  unfold State.wantedLevel
  have hl : levels = List.range' 1 15 := rfl
  rw [hl, List.find?_range'_eq_some]
  simp only [List.mem_range', Bool.and_eq_true, Bool.not_eq_true', Bool.not_and, Bool.not_not]
  constructor
  · rintro ⟨⟨h1, h2⟩, ⟨i, hi, e⟩, h4⟩
    refine ⟨by omega, by omega, h1, h2, fun k hk hj hp => ?_⟩
    have := h4 k hk hj
    rw [hp] at this; simpa using this
  · rintro ⟨h1, h2, h3, h4, h5⟩
    refine ⟨⟨h3, h4⟩, ⟨j - 1, by omega, by omega⟩, fun k hk hj => ?_⟩
    have := h5 k hk hj
    by_cases hp : s.pending k = true
    · rw [hp, this hp]; rfl
    · simp only [Bool.not_eq_true] at hp; rw [hp]; rfl

theorem wantedLevel_eq_none {s : State} : s.wantedLevel = none
    ↔ ∀ l, 1 ≤ l → l < 16 → s.pending l = true → bit s.IM l = true := by
  unfold State.wantedLevel
  have hl : levels = List.range' 1 15 := rfl
  rw [hl, List.find?_range'_eq_none]
  simp only [Bool.not_eq_true', Bool.and_eq_false_iff, Bool.not_eq_false']
  constructor
  · intro h l h1 h2 hp
    rcases h l h1 (by omega) with h | h
    · rw [hp] at h; simp at h
    · simpa using h
  · intro h l h1 h2
    by_cases hp : s.pending l = true
    · right; simpa using h l h1 (by omega) hp
    · left; simpa using hp

/-! Contexts and alarms, where the words they are made of raise nothing. -/

theorem calm_of_subset {s : State} {l k : List Word} (h : s.calm l) (hk : ∀ a ∈ k, a ∈ l) : s.calm k :=
  fun a ha => h a (hk a ha)

theorem calm_cons {s : State} {a : Word} {l : List Word} : s.calm (a :: l) ↔ s.sound (absolute a) = true ∧ s.calm l := by
  simp [State.calm]

theorem calm_append {s : State} {l k : List Word} : s.calm (l ++ k) ↔ s.calm l ∧ s.calm k := by
  simp only [State.calm, List.mem_append]
  exact ⟨fun h => ⟨fun a ha => h a (.inl ha), fun a ha => h a (.inr ha)⟩, fun h a ha => ha.elim (h.1 a) (h.2 a)⟩

/-- `ExchangePartial` (60_exceptions.md R455). -/
theorem exchangePartial_ok {s : State} {a : Word} (h : s.calm (contextAt a)) :
    exchangePartial a s = .ok () (s.exchanged a) := by
  simp only [contextAt, calm_cons] at h
  obtain ⟨h0, h1, h2, h3, -⟩ := h
  unfold exchangePartial
  rw [physRead_ok h0]; simp only [Res.bind_ok]; rw [physRead_ok h1]; simp only [Res.bind_ok]; rw [physRead_ok h2]; simp only
      [Res.bind_ok]; rw [physRead_ok h3]; simp only [Res.bind_ok]
  rw [physWrite_ok (sound_storable h0)]; simp only [Res.bind_ok]
  rw [physWrite_ok (sound_storable (State.sound_store h1 _ _))]; simp only [Res.bind_ok]
  rw [physWrite_ok (sound_storable (State.sound_store (State.sound_store h2 _ _) _ _))]; simp only [Res.bind_ok]
  rw [physWrite_ok (sound_storable (State.sound_store (State.sound_store (State.sound_store h3 _ _) _ _) _ _))]; rfl

theorem psth_ok {s : State} (h : s.sound (absolute 0x0002#16) = true) (i : Nat) : psth i s = .ok (s.psthOf i) s := by
  unfold psth; rw [physRead_ok h]; rfl

/-- `Launch(j)` (60_exceptions.md R456). -/
theorem launch_ok {s : State} {j : Nat} (h : s.calm (0x0002#16 :: contextAt (s.psthOf j))) (hm : s.psthMaster j) :
   launch j s = .ok () (({ s with HV := setBit s.HV j true } : State).exchanged (s.psthOf j)) := by
  rw [calm_cons] at h
  unfold launch
  rw [psth_ok (by exact h.1)]; simp only [Res.bind_ok]
  have e : ({ s with HV := setBit s.HV j true } : State).psthOf j = s.psthOf j := rfl
  rw [e, exchangePartial_ok (by exact h.2)]; simp only [Res.bind_ok]
  have : ((({ s with HV := setBit s.HV j true } : State).exchanged (s.psthOf j)).st.MS || (({ s with HV := setBit s.HV j true } : State).exchanged (s.psthOf j)).cfg.is0405) = true := by
    show (bit (s.abs (s.psthOf j + 3#16)) 0 || s.cfg.is0405) = true
    simpa [State.psthMaster] using hm
  exact if_pos this

theorem abs_store_same {s : State} (hw : Memory.wf s.mem = true) (a v : Word) : (s.store (absolute a) v).abs a = v :=
    readWord_writeWord_same hw _ _

theorem absolute_inj {a b : Word} (h : absolute a = absolute b) : a = b := by
  have := congrArg BitVec.toNat h; rw [toNat_absolute, toNat_absolute] at this; exact BitVec.eq_of_toNat_eq this

theorem abs_store_other (s : State) {a b : Word} (v : Word) (h : b ≠ a) : (s.store (absolute a) v).abs b = s.abs b :=
  readWord_writeWord_other _ _ fun e => h (absolute_inj e)

theorem store_wf {s : State} (h : Memory.wf s.mem = true) (pa : PAddr) (v : Word) : Memory.wf (s.store pa v).mem = true :=
    Memory.wf_writeWord h _ _

theorem exchanged_mem (s : State) (a : Word) : (s.exchanged a).mem = ((((s.store (absolute a) s.r.C).store (absolute (a +
    1#16)) s.r.K).store (absolute (a + 2#16)) s.P).store
      (absolute (a + 3#16)) s.st.sWord).mem := rfl

theorem abs_of_mem {s t : State} (h : s.mem = t.mem) (a : Word) : s.abs a = t.abs a := by unfold State.abs; rw [h]

theorem exchanged_wf {s : State} (h : Memory.wf s.mem = true) (a : Word) : Memory.wf (s.exchanged a).mem = true := by
  rw [exchanged_mem]; exact store_wf (store_wf (store_wf (store_wf h _ _) _ _) _ _) _ _

theorem four_words_ne (a : Word) : a ≠ a + 1#16 ∧ a ≠ a + 2#16 ∧ a ≠ a + 3#16 ∧ a + 1#16 ≠ a + 2#16 ∧ a + 1#16 ≠ a + 3#16
    ∧ a + 2#16 ≠ a + 3#16 := by
  refine ⟨?_, ?_, ?_, ?_, ?_, ?_⟩ <;> simp

/-- The words of the context after an exchange, and the others. -/
theorem exchanged_words {s : State} (h : Memory.wf s.mem = true) (a : Word) :
   (s.exchanged a).abs a = s.r.C ∧ (s.exchanged a).abs (a + 1#16) = s.r.K ∧ (s.exchanged a).abs (a + 2#16) = s.P
       ∧ (s.exchanged a).abs (a + 3#16) = s.st.sWord
   ∧ ∀ b, b ≠ a → b ≠ a + 1#16 → b ≠ a + 2#16 → b ≠ a + 3#16 → (s.exchanged a).abs b = s.abs b := by
  obtain ⟨n1, n2, n3, n4, n5, n6⟩ := four_words_ne a
  have w1 := store_wf h (absolute a) s.r.C
  have w2 := store_wf w1 (absolute (a + 1#16)) s.r.K
  have w3 := store_wf w2 (absolute (a + 2#16)) s.P
  refine ⟨?_, ?_, ?_, ?_, fun b h1 h2 h3 h4 => ?_⟩ <;> rw [abs_of_mem (exchanged_mem s a)]
  · rw [abs_store_other _ _ n3, abs_store_other _ _ n2, abs_store_other _ _ n1, abs_store_same h]
  · rw [abs_store_other _ _ n5, abs_store_other _ _ n4, abs_store_same w1]
  · rw [abs_store_other _ _ n6, abs_store_same w2]
  · rw [abs_store_same w3]
  · rw [abs_store_other _ _ h4, abs_store_other _ _ h3, abs_store_other _ _ h2, abs_store_other _ _ h1]

theorem exchanged_calm {s : State} {l : List Word} (h : s.calm l) (a : Word) : (s.exchanged a).calm l :=
  State.calm_store (State.calm_store (State.calm_store (State.calm_store h (absolute a) s.r.C) (absolute (a + 1#16))
    s.r.K) (absolute (a + 2#16)) s.P) (absolute (a + 3#16)) s.st.sWord

/-- `Alarm(n)` taken by the alarm task (60_exceptions.md R465). -/
theorem raiseAlarm_ok {s : State} (h : s.AlarmReady) (n : Alarm) : raiseAlarm n s = .ok () (s.alarmTaken n) := by
  unfold raiseAlarm
  have e : ({ s with breakSeen := false } : State).psthOf 0 = s.psthOf 0 := rfl
  rw [if_neg (by rw [h.running.1]; simp), if_neg (by rw [h.running.2]; simp),
    launch_ok (s := { s with breakSeen := false }) (by exact h.calm) (by exact h.master)]
  simp only [Res.bind_ok]
  rw [e]
  set u : State := { s with HV := setBit s.HV 0 true, breakSeen := false } with hu
  have hw := exchanged_words (s := u) h.canonical (s.psthOf 0)
  obtain ⟨e0, e1, e2, e3, e4⟩ := hw
  have hc : (u.exchanged (s.psthOf 0)).calm (0x0002#16 :: contextAt (s.psthOf 0)) := exchanged_calm (s := u) h.calm (s.psthOf 0)
  have hp : (u.exchanged (s.psthOf 0)).psthOf 0 = s.psthOf 0 := by
    obtain ⟨p0, p1, p2, p3⟩ := h.apart
    have : (u.exchanged (s.psthOf 0)).abs 0x0002#16 = s.abs 0x0002#16 := e4 _ p0.symm p1.symm p2.symm p3.symm
    exact congrArg (· + BitVec.ofNat 16 (4 * 0)) this
  simp only [contextAt, calm_cons] at hc
  unfold writeAlarmNumber
  rw [psth_ok hc.1]; simp only [Res.bind_ok]; rw [hp, physRead_ok hc.2.2.2.2.1]; simp only [Res.bind_ok]
  rw [e3, physWrite_ok (sound_storable hc.2.2.2.2.1)]; rfl

/-! The scheduler, where the words it reads and writes raise nothing. -/

theorem bit_zero (i : Nat) : bit 0#16 i = false := by simp [bit]

theorem queueWord_find {s : State} (k : Nat) :
   (List.range' (16 * k) 16).find? (fun n => s.queueBit 0x0020#16 n && s.queueBit 0x0028#16 n)
    = if s.abs (0x0020#16 + BitVec.ofNat 16 k) &&& s.abs (0x0028#16 + BitVec.ofNat 16 k) = 0#16 then none
      else some (16 * k + leftmost (s.abs (0x0020#16 + BitVec.ofNat 16 k) &&& s.abs (0x0028#16 + BitVec.ofNat 16 k))) := by
  have hq : ∀ n, 16 * k ≤ n → n < 16 * k + 16 → (s.queueBit 0x0020#16 n && s.queueBit 0x0028#16 n)
      = bit (s.abs (0x0020#16 + BitVec.ofNat 16 k) &&& s.abs (0x0028#16 + BitVec.ofNat 16 k)) (n - 16 * k) := by
    intro n h1 h2
    rw [bit_and]; unfold State.queueBit stringWord
    rw [show n / 16 = k by omega, show n % 16 = n - 16 * k by omega]
  generalize s.abs (0x0020#16 + BitVec.ofNat 16 k) &&& s.abs (0x0028#16 + BitVec.ofNat 16 k) = w at *
  split
  · rename_i h
    rw [List.find?_range'_eq_none]
    intro i h1 h2
    rw [hq i h1 h2, h, bit_zero]; rfl
  · rename_i h
    obtain ⟨l1, l2⟩ := bit_leftmost h
    rw [List.find?_range'_eq_some]
    refine ⟨?_, ?_, fun j h1 h2 => ?_⟩
    · rw [hq _ (by omega) (by omega)]; rw [show 16 * k + leftmost w - 16 * k = leftmost w by omega]; exact l2
    · simp only [List.mem_range']; exact ⟨leftmost w, by omega, by omega⟩
    · rw [hq j (by omega) (by omega)]
      have := (leftmost_lt (w := w) (j := j - 16 * k) (by omega)).mp (by omega) (j - 16 * k) le_rfl
      rw [this]; rfl

theorem mem_queueWords (k : Nat) (h : k < 8) : 0x0020#16 + BitVec.ofNat 16 k ∈ wordsFrom 0x0020#16 16
    ∧ 0x0028#16 + BitVec.ofNat 16 k ∈ wordsFrom 0x0020#16 16 := by
  simp only [wordsFrom, List.mem_map, List.mem_range]
  refine ⟨⟨k, by omega, rfl⟩, ⟨8 + k, by omega, ?_⟩⟩
  rw [BitVec.ofNat_add, ← BitVec.add_assoc]; rfl

/-- The election from word k of the queues on: a task already found stays, else the least one armed and unmasked is found. -/
theorem electDeferred_from {s : State} (h : s.calm (wordsFrom 0x0020#16 16)) : ∀ left k found, k + left ≤ 8 →
   electDeferred left k found s
   = match found.or ((List.range' (16 * k) (16 * left)).find? fun n => s.queueBit 0x0020#16 n && s.queueBit 0x0028#16 n) with
     | some n => .ok n s
     | none => .stuck .noElectableTask := by
  intro left
  induction left with
  | zero => intro k found _; cases found <;> rfl
  | succ left ih =>
    intro k found hk
    have e : List.range' (16 * k) (16 * (left + 1)) = List.range' (16 * k) 16 ++ List.range' (16 * (k + 1)) (16 * left) := by
      rw [show 16 * (left + 1) = 16 + 16 * left by ring, show 16 * (k + 1) = 16 * k + 16 by ring]
      exact (List.range'_append_1).symm
    obtain ⟨m1, m2⟩ := mem_queueWords k (by omega)
    rw [e, List.find?_append, queueWord_find]
    unfold electDeferred
    rw [physRead_ok (h _ m1)]; simp only [Res.bind_ok]; rw [physRead_ok (h _ m2)]; simp only [Res.bind_ok]
    rw [ih _ _ (by omega)]
    cases found with
    | some n => rfl
    | none => simp only [Option.none_or, firstArmed]

/-- The election finds the least task armed and unmasked (47_scheduler.md R371). -/
theorem electDeferred_ok {s : State} (h : s.calm (wordsFrom 0x0020#16 16)) {n : Nat} (hn : s.electedTask = some n) :
    electDeferred 8 0 none s = .ok n s := by
  rw [electDeferred_from h 8 0 none (by omega)]
  have : (List.range' (16 * 0) (16 * 8)).find? (fun n => s.queueBit 0x0020#16 n && s.queueBit 0x0028#16 n) = some n := by
    rw [← hn]; unfold State.electedTask; rw [List.range_eq_range']
  rw [this]; rfl

/-- `QSet` (47_scheduler.md R379). -/
theorem qSet_ok {s : State} {q : Word} {n : Nat} (h : s.sound (absolute (stringWord q n)) = true) (b : Bool) :
    qSet q n b s = .ok () (s.withQueueBit q n b) := by
  unfold qSet; rw [physRead_ok h]; simp only [Res.bind_ok]; rw [physWrite_ok (sound_storable h)]; rfl

theorem wordsFrom_succ (a : Word) (n : Nat) : wordsFrom a (n + 1) = a :: wordsFrom (a + 1#16) n := by
  simp only [wordsFrom, List.range_succ_eq_map, List.map_cons, List.map_map]
  congr 1
  · simp
  · apply List.map_congr_left
    intro i _
    simp only [Function.comp, Nat.succ_eq_add_one]
    rw [Nat.add_comm, BitVec.ofNat_add, ← BitVec.add_assoc]

theorem saved_calm {k : List Word} (l : List Word) : ∀ {s : State}, s.calm k → ∀ a, (s.saved a l).calm k := by
  induction l with
  | nil => intro s h a; exact h
  | cons v l ih => intro s h a; exact ih (State.calm_store h _ _) _

theorem writeWords_ok (l : List Word) : ∀ {s : State} (a : Word), s.calm (wordsFrom a l.length) →
    writeWords a l s = .ok () (s.saved a l) := by
  induction l with
  | nil => intro s a _; rfl
  | cons v l ih =>
    intro s a h
    rw [List.length_cons, wordsFrom_succ, calm_cons] at h
    unfold writeWords State.saved
    rw [physWrite_ok (sound_storable h.1)]; simp only [Res.bind_ok]
    exact ih _ (State.calm_store h.2 _ _)

theorem physRead_bind {α : Type} {s : State} {a : Word} (h : s.sound (absolute a) = true) (f : Word → State → Res α) :
    (physRead a s).bind f = f (s.abs a) s := by rw [physRead_ok h]; rfl

theorem loadContext_ok {s : State} {b : Word} (h : s.calm (wordsFrom b 12)) : loadContext b s = .ok () (s.loaded b) := by
  have w : ∀ i, i < 12 → s.sound (absolute (b + BitVec.ofNat 16 i)) = true := fun i hi =>
    h _ (List.mem_map.mpr ⟨i, List.mem_range.mpr hi, rfl⟩)
  have w0 : s.sound (absolute b) = true := by simpa using w 0 (by omega)
  unfold loadContext
  rw [physRead_bind w0]; dsimp only [State.setReg]
  rw [physRead_bind (by exact w 1 (by omega))]; dsimp only
  rw [physRead_bind (by exact w 2 (by omega))]; dsimp only
  rw [physRead_bind (by exact w 3 (by omega))]; dsimp only
  rw [physRead_bind (by exact w 4 (by omega))]; dsimp only
  rw [physRead_bind (by exact w 5 (by omega))]; dsimp only
  rw [physRead_bind (by exact w 6 (by omega))]; dsimp only
  rw [physRead_bind (by exact w 7 (by omega))]; dsimp only
  rw [physRead_bind (by exact w 8 (by omega))]; dsimp only
  rw [physRead_bind (by exact w 9 (by omega))]; dsimp only
  rw [physRead_bind (by exact w 10 (by omega))]; dsimp only
  cases hd : s.cfg.hasDrps
  · simp only [Bool.false_eq_true, if_false]
    rw [physRead_bind (by exact w 11 (by omega))]; dsimp only
    simp only [hd, Bool.false_eq_true, if_false, State.loaded]; rfl
  · simp only [if_true]
    rw [physRead_bind (by exact w 11 (by omega))]; dsimp only
    simp only [hd, if_true, State.loaded]; rfl

theorem pstsAddr_ok {s : State} {n : Nat} (h : s.calm [0x0003#16, s.abs 0x0003#16 + BitVec.ofNat 16 n]) :
    pstsAddr n s = .ok (s.pstsOf n) s := by
  simp only [calm_cons] at h
  unfold pstsAddr; rw [physRead_ok h.1]; simp only [Res.bind_ok]; rw [physRead_ok h.2.1]; rfl

theorem sound_loaded (s : State) (b : Word) (pa : PAddr) : (s.loaded b).sound pa = s.sound pa := rfl

/-- `FullSwitch` (47_scheduler.md R372). -/
theorem fullSwitch_ok {s : State} {old new : Nat} (h : s.calm (s.switchWords old new)) :
    fullSwitch old new s = .ok () (s.switched old new) := by
  unfold State.switchWords at h
  simp only [List.append_assoc, calm_append, List.cons_append, calm_cons] at h
  obtain ⟨a3, aold, -, hold, anew, hnew, h0, -⟩ := h
  have kept : ∀ {l : List Word}, s.calm l → (s.saved (s.pstsOf old) s.contextWords).calm l := fun hl => saved_calm _ hl _
  have one : ∀ {a : Word}, s.sound (absolute a) = true →
      (s.saved (s.pstsOf old) s.contextWords).sound (absolute a) = true := fun {a} ha =>
    kept (l := [a]) (by simpa [State.calm] using ha) a (by simp)
  unfold fullSwitch
  rw [pstsAddr_ok (by simp only [calm_cons]; exact ⟨a3, aold, by simp [State.calm]⟩)]; simp only [Res.bind_ok]
  have hl : s.contextWords.length = 12 := rfl
  rw [writeWords_ok s.contextWords (s.pstsOf old) (by rw [hl]; exact hold)]; simp only [Res.bind_ok]
  rw [pstsAddr_ok (by simp only [calm_cons]; exact ⟨one a3, one anew, by simp [State.calm]⟩)]; simp only [Res.bind_ok]
  rw [loadContext_ok (kept hnew)]; simp only [Res.bind_ok]
  rw [physWrite_ok (sound_storable ((sound_loaded _ _ _).trans (one h0)))]
  unfold State.switched; rfl

/-- `Reschedule` (47_scheduler.md R371). -/
theorem reschedule_ok {s : State} (h : s.electionOk) : reschedule s = .ok () s.elects := by
  obtain ⟨he, hc⟩ := h
  obtain ⟨n, hn⟩ := Option.ne_none_iff_exists'.mp he
  unfold State.electWords at hc
  simp only [List.cons_append, calm_cons, calm_append, hn] at hc
  obtain ⟨h0, hq, hs⟩ := hc
  unfold reschedule State.elects readNS
  rw [physRead_ok h0]; simp only [Res.bind_ok]
  rw [electDeferred_ok hq hn]; simp only [Res.bind_ok, hn]
  have er : (s.abs 0x0000#16).toNat % 128 = s.runningTask := rfl
  rw [er]
  by_cases hr : n = s.runningTask
  · rw [if_pos hr, if_pos hr]
  · rw [if_neg hr] at hs
    rw [if_neg hr, if_neg hr]
    rw [calm_cons] at hs
    obtain ⟨hr1, hs⟩ := hs
    unfold launchDeferred qGet
    rw [physRead_ok hr1]; simp only [Res.bind_ok]
    have eq : bit (s.abs (stringWord 0x0030#16 n)) (n % 16) = s.queueBit 0x0030#16 n := rfl
    rw [eq]
    by_cases hb : s.queueBit 0x0030#16 n = true
    · rw [if_pos hb] at hs
      rw [if_pos hb, if_pos hb]; exact fullSwitch_ok hs
    · rw [if_neg hb] at hs
      simp only [List.nil_append, calm_cons] at hs
      rw [if_neg hb, if_neg hb, qSet_ok (by exact hs.1)]; simp only [Res.bind_ok]
      have h2 : (s.withQueueBit 0x0020#16 0 true).sound (absolute 0x0001#16) = true := State.sound_store hs.2.1 _ _
      rw [physWrite_ok (sound_storable h2)]; simp only [Res.bind_ok]
      exact fullSwitch_ok (State.calm_store (State.calm_store hs.2.2 _ _) _ _)

theorem scribbleWsched_eq {s : State} (h : s.cfg.exists 0x0000F#20 = true) : s.scribbleWsched
    = { s.store 0x0000F#20 (Config.freeWord s.freeCount) with freeCount := s.freeCount + 1 } := by
  unfold State.scribbleWsched
  rw [if_pos h]; rfl

@[simp] theorem saved_cfg (l : List Word) (a : Word) (s : State) : (s.saved a l).cfg = s.cfg := by
  induction l generalizing a s with
  | nil => rfl
  | cons x l ih => rw [State.saved, ih]; rfl

@[simp] theorem saved_freeCount (l : List Word) (a : Word) (s : State) : (s.saved a l).freeCount = s.freeCount := by
  induction l generalizing a s with
  | nil => rfl
  | cons x l ih => rw [State.saved, ih]; rfl

@[simp] theorem loaded_cfg (s : State) (b : Word) : (s.loaded b).cfg = s.cfg := rfl
@[simp] theorem loaded_freeCount (s : State) (b : Word) : (s.loaded b).freeCount = s.freeCount := rfl

@[simp] theorem switched_cfg (s : State) (old new : Nat) : (s.switched old new).cfg = s.cfg := by simp [State.switched]
@[simp] theorem switched_freeCount (s : State) (old new : Nat) : (s.switched old new).freeCount = s.freeCount := by
  simp [State.switched]

/-- An election leaves the configuration as it is (47_scheduler.md R371). -/
@[simp] theorem elects_cfg (s : State) : s.elects.cfg = s.cfg := by
  unfold State.elects; split <;> (try split) <;> (try split) <;> simp [State.withQueueBit]

@[simp] theorem elects_freeCount (s : State) : s.elects.freeCount = s.freeCount := by
  unfold State.elects; split <;> (try split) <;> (try split) <;> simp [State.withQueueBit]

/-- The epilogue of a scheduler instruction (47_scheduler.md R379, R383). -/
theorem schedEpilogue_ok {s : State} (h : s.schedulable) : ∃ v, schedEpilogue s.completed = .ok () (s.epilogue v) := by
  refine ⟨Config.freeWord s.freeCount, ?_⟩
  show ((if (s.unmask.ends 1).inImmediate then Res.ok () (s.unmask.ends 1) else reschedule (s.unmask.ends 1)).bind
    fun _ s => .ok () s.scribbleWsched) = _
  rw [show (s.unmask.ends 1).inImmediate = s.inImmediate from rfl]
  unfold State.epilogue
  cases him : s.inImmediate
  · rw [if_neg (by simp), reschedule_ok (h.2.resolve_left (by simp [him]))]; simp only [Res.bind_ok]
    rw [scribbleWsched_eq (by rw [elects_cfg]; exact h.1), elects_freeCount]; rfl
  · rw [if_pos rfl]; simp only [Res.bind_ok]
    rw [scribbleWsched_eq (by exact h.1)]; rfl

/-! CDA16 and ISP16. -/

theorem cdaDispatch_ok {s : State} (h : s.cfg.hasCda16 = true) {m : Bool} {b : State → Res Unit} :
    cdaDispatch m b s.completed = b s.completed := by
  unfold cdaDispatch; simp [h]

theorem cdaDispatch_moves {s : State} (h : s.cfg.hasCda16 = true ∨ s.cfg.hasCdaRwOnly = true) {b : State → Res Unit} :
    cdaDispatch true b s.completed = b s.completed := by
  unfold cdaDispatch; rcases h with h | h <;> simp [h]

theorem ispDispatch_ok {s : State} (h : s.cfg.hasIsp16 = true) {b : State → Res Unit} :
    ispDispatch b s.completed = b s.completed := by
  unfold ispDispatch; simp [h]

/-- A based address (20_memory.md R79). -/
theorem basedEA_eq {p d : Word} {pa : PAddr} (h : pa.toNat = (p.toNat * 16 + d.toNat) % 1048576) : pa = basedEA p d := by
  apply BitVec.eq_of_toNat_eq
  rw [h, basedEA, BitVec.toNat_add, toNat_join, BitVec.toNat_setWidth]
  have := p.isLt; have := d.isLt
  simp

theorem physRead_completed {s : State} {a : Word} (h : s.sound (absolute a) = true) :
    physRead a s.completed = .ok (s.abs a) s.completed := by
  rw [physRead_ok (s := s.completed) h]; rfl

theorem ispPointer_ok {s : State} {w : Word} (h : s.pointerOk w = true) :
    ispPointer w s.completed = .ok (s.pointer w) s.completed := by
  unfold ispPointer State.pointer State.pointerOk at *
  simp only [State.completed_cfg]
  cases hp : s.cfg.isp.ptr
  · rfl
  · simp only [hp] at h ⊢
    cases hm : memRefOf w with
    | none => rfl
    | some m => simp only [hm] at h ⊢; rw [eaWord_ok (s := s.completed) h]; rfl

/-- A based instruction that runs (49_isp16.md R410, R411). -/
theorem basedParams_ok {s : State} {o : IspArgs} (h : s.paramsOk o = true) :
    basedParams o s.completed = .ok (s.params o) s.completed := by
  cases o with
  | regs w2 => rfl
  | mem w2 w3 =>
    simp only [State.paramsOk, Bool.and_eq_true] at h
    simp only [basedParams, ispPointer_ok h.1.1.1, Res.bind_ok, memRead_completed h.1.1.2, ispPointer_ok h.1.2,
        memRead_completed h.2]
    rfl

theorem basedDispatch_ok {s : State} {o : IspArgs} (h : s.basedOk o = true) {b : Word → Word → State → Res Unit} :
   basedDispatch o b s.completed = b (s.params o).1 (s.params o).2 s.completed := by
  simp only [State.basedOk, Bool.and_eq_true, Bool.not_eq_true'] at h
  unfold basedDispatch ispDispatch
  simp only [State.completed_cfg, h.1.1, if_true]
  rw [privCheck_eq, State.slave_completed, h.1.2]
  simp only [Bool.false_eq_true, if_false, Res.bind_ok, basedParams_ok h.2]

theorem cdaLimits_ok {s : State} (h : s.cdaReady = true) : cdaLimits s.completed = .ok s.cdaLim s.completed := by
  simp only [State.cdaReady, Bool.and_eq_true] at h
  unfold cdaLimits
  rw [physRead_completed h.1]; simp only [Res.bind_ok]; rw [physRead_completed h.2]; rfl

/-- The address of a CDA operand (49_isp16.md R412). -/
theorem cdaOperand_eq {s : State} {w2 : Word} (h : s.cdaOperandOk w2 = true) (disp : State → Word → Word) :
   cdaOperand w2 disp s.completed = if s.cdaLim.1.toNat * 16 + (disp s.completed (s.cdaD16 w2)).toNat ≤ s.cdaLim.2.toNat * 16 + 15
     then .ok (s.cdaLim, disp s.completed (s.cdaD16 w2)) s.completed else .alarm .memoryProtection s.completed := by
  simp only [State.cdaOperandOk, Bool.and_eq_true] at h
  unfold cdaOperand
  rw [ispPointer_ok h.1.1.2]; simp only [Res.bind_ok]; rw [memRead_completed h.1.2]; simp only [Res.bind_ok]
  rw [cdaLimits_ok h.2]; simp only [Res.bind_ok, cdaOk, decide_eq_true_eq]; rfl

/-! Long instructions (70_reset_and_hazards.md R556). -/

theorem heldOr_held {s : State} {p : Word × Word} (h : s.heldOperands = some p) {read : State → Res (Word × Word)} :
    heldOr read s = .ok p s := by
  unfold heldOr; rw [h]

theorem heldOr_read {s : State} (h : s.heldOperands = none) {read : State → Res (Word × Word)} : heldOr read s = read s := by
  unfold heldOr; rw [h]

/-- The operands held by a slice that pauses, and by one that ends the instruction. -/
theorem keeping_ok {p : Word × Word} {s : State} :
    keeping p (.ok () s) = .ok () (s.keeps (if s.phase = .interrupted then some p else none)) := rfl

/-- The limits of RCDA and WCDA (48_cda_lists.md R398, R401, R402). -/
theorem heldOr_cdaZone {s : State} {lim : Word × Word} (h : s.zoneOk lim) :
    heldOr cdaZone s.completed = .ok lim s.completed := by
  rcases h with h | ⟨hn, hr, rfl, hl⟩
  · exact heldOr_held (s := s.completed) h
  · rw [heldOr_read (s := s.completed) hn]
    unfold cdaZone
    rw [cdaLimits_ok hr]; simp only [Res.bind_ok, cdaOk]
    exact if_pos (decide_eq_true_eq.mpr hl)

/-- BMOVE and BDBTM run on the parameters held, else read (49_isp16.md R411, R420, R423). -/
theorem longDispatch_ok {s : State} {o : IspArgs} (h : s.longOk o = true) {b : Word → Word → State → Res Unit} :
    longDispatch o b s.completed
      = keeping (s.paramsHeld o) (b (s.paramsHeld o).1 (s.paramsHeld o).2 s.completed) := by
  simp only [State.longOk, Bool.and_eq_true, Bool.or_eq_true, Bool.not_eq_true'] at h
  obtain ⟨⟨hi, hs⟩, hp⟩ := h
  unfold longDispatch
  rw [ispDispatch_ok hi, privCheck_eq, State.slave_completed, hs]
  simp only [Bool.false_eq_true, if_false, Res.bind_ok]
  cases ho : s.heldOperands with
  | some p => rw [heldOr_held (s := s.completed) ho]; simp [State.paramsHeld, ho]
  | none =>
    rw [heldOr_read (s := s.completed) ho, basedParams_ok (by simpa [ho] using hp)]
    simp [State.paramsHeld, ho]

/-! Couplers and channels. -/

/-- A change of a coupler changes nothing but the couplers. -/
theorem updateCoupler_frame (s : State) (key : BitVec 14) (f : Coupler → Coupler) :
    s.updateCoupler key f = { s with couplers := (s.updateCoupler key f).couplers } := by
  unfold State.updateCoupler; split <;> rfl

/-- Freeing a channel changes nothing but the couplers (61_io_debug.md R525). -/
theorem unrouted_frame (s : State) (c : Channel) : s.unrouted c = { s with couplers := (s.unrouted c).couplers } := by
  unfold State.unrouted; split
  · exact updateCoupler_frame _ _ _
  · rfl

/-- The coupler of a channel that was inactive, or that another active channel serves, keeps its routing (log 41). -/
theorem unrouted_kept {s : State} {c : Channel} (h : c.active = false ∨ s.servedElsewhere c = true) : s.unrouted c = s := by
  unfold State.unrouted; rw [if_neg]; rcases h with h | h <;> simp [h]

/-! The service of the inter-processor interrupt by an instruction, and the end of an instruction. -/

/-- The service without an alarm (45_system.md R303). -/
theorem takeIpi_ok {s t : State} (h : serveIpi s = .ok () t) : takeIpi s = .ok false t := by
  unfold takeIpi; rw [h]

/-- The alarm the service meets is taken (45_system.md R303, 60_exceptions.md R468). -/
theorem takeIpi_alarm {s t u : State} {n : Alarm} (h : serveIpi s = .alarm n t)
    (hr : raiseAlarm n { t with phase := .abandoned } = .ok () u) : takeIpi s = .ok true u := by
  unfold takeIpi; rw [h]; simp only []; rw [hr]; rfl

/-- After an alarm an alarm 7 that was pending is dropped (D24). -/
theorem endOfInstruction_abandoned {armed : Bool} {ws : List Word} {t : State} (h : t.phase = .abandoned) :
    endOfInstruction armed ws (.next t) = .next { t.released with stepArmed := t.stepArmed && !armed } := by
  unfold endOfInstruction State.holding; simp [h]

/-! Steps. -/

/-- A step with no event first, of a machine that runs (60_exceptions.md R454). -/
theorem step_running {s : State} (hi : s.inputs = []) (hst : s.st.STOP = false) (ha : s.alarmStop = false) :
    step s = runningStep exec s := by
  have h : s.stopped = false := by simp [State.stopped, hst, ha]
  show machineStep exec s = _
  unfold machineStep; rw [hi]
  show processorStep exec s = _
  unfold processorStep; rw [h, hst]; rfl

/-- A task starts at an election point, no HALT being in progress and no breakpoint remembered. -/
theorem step_started {s t : State} {start : State → Res Unit} (hi : s.inputs = []) (hst : s.st.STOP = false) (ha : s.alarmStop = false)
    (hh : s.haltLeft = 0) (hb : s.breakSeen = false)
    (he : (s.electable = .powerFail ∧ start = powerFailSequence) ∨ ∃ j, s.electable = .level j ∧ start = launch j)
    (h : start s = .ok () t) (ht : t.breakSeen = false) : step s = .next t := by
  rw [step_running hi hst ha]
  have : startTask start s = .next t := by
    unfold startTask started
    rw [if_neg (by simp [hh]), h]; simp only []
    rw [actOnBreak_ok ht]; rfl
  unfold runningStep
  rcases he with ⟨he, rfl⟩ | ⟨j, he, rfl⟩ <;> rw [he] <;> simp only [] <;> rw [if_neg (by simp [hb]), this]

end Sys2Proof.Machine
end

