-- ==== Sys2Proof/Tests/Slice0.lean ====
section
/-! SUPPORT. Tests: words decoded, ill-formed terms refused, one instruction or one step on small states, and for every statement
of Certificates/Slice0/Obligations.lean a state that meets its hypotheses. The expected values are those of 95_test_vectors.md
(section B) and of the examples of the rules cited. -/

namespace Sys2Proof.Tests

open Sys2Proof.Machine

/-! States and observations. -/

/-- A running machine in master mode at '0100. -/
def machine : State := { State.reset with P := 0x0100#16, st := { State.reset.st with STOP := false } }

/-- Absolute words are given values. -/
def poke (l : List (Word × Word)) (s : State) : State := l.foldl (fun s w => s.store (absolute w.1) w.2) s

/-- A program in slave mode, in the zone of 95_test_vectors.md B.2. -/
def slaveMachine : State :=
  { machine with st := { machine.st with MS := false }, SLO := 0x0100#16, SLE := 0x01FF#16 }

/-- A 16-04 without options. -/
def machine04 : State := { machine with cfg := { Config.standard with model := .m04, schedOption := false } }

/-- The PSTH of 95_test_vectors.md B.8. -/
def psthWords : List (Word × Word) :=
  [(0x0002#16, 0x0200#16), (0x0200#16, 0x0700#16), (0x0201#16, 0x0780#16), (0x0202#16, 0x7000#16), (0x0203#16, 0x8000#16),
   (0x020C#16, 0x0800#16), (0x020D#16, 0x0900#16), (0x020E#16, 0x0400#16), (0x020F#16, 0x8000#16)]

/-- What is seen of the next state, if there is one. -/
def seen {α : Type} (f : State → α) (o : Host.Outcome State Fault Refusal) : Option α :=
  match o with
  | .next t => some (f t)
  | .fault _ => none
  | .refused _ => none

/-- A direct operand on base C. -/
def onC (d : Byte) : MemRef := ⟨.c, false, d⟩

/-- The four words of the context of an immediate task. -/
def context (a : Word) (s : State) : List Word := [s.abs a, s.abs (a + 1#16), s.abs (a + 2#16), s.abs (a + 3#16)]

/-! Well-formedness: the one check. -/

/-- A coding of ISP16 without XCTX has no encoding for it. -/
theorem test_wf_refuses_uncoded :
    Instr.wf { IspCoding.placeholder with rows := IspCoding.placeholder.rows.filter fun r => r.op ≠ .xctx }
      (.xctx false 0#16) = false := by decide

/-- A form the coding does not list is refused. -/
theorem test_wf_refuses_form :
    Instr.wf { IspCoding.placeholder with rows := [⟨0x00#8, .bla, .registers⟩] } (.bla false (.mem 0#16 0#16)) = false := by decide

theorem test_wf_accepts : Instr.wf IspCoding.placeholder (.bla true (.mem 1#16 2#16)) = true := by decide

/-! Decoding (95_test_vectors.md B.1, 30_encoding.md R119 to R123). -/

/-- One word decodes to an instruction. -/
def decodes (w : Word) (i : Instr) : Prop := decodeWords IspCoding.placeholder [w] = .instr i []

theorem test_decode_memory : decodes 0xD0FF#16 (.la ⟨.w, false, 0xFF#8⟩) ∧ decodes 0xFF7F#16 (.wait ⟨.w, true, 0x7F#8⟩)
    ∧ decodes 0x8602#16 (.bsr ⟨.l, false, 0x02#8⟩) ∧ decodes 0x5A00#16 (.rqst (onC 0#8)) := ⟨rfl, rfl, rfl, rfl⟩

theorem test_decode_jumps : decodes 0x0000#16 (.jmp 0#8) ∧ decodes 0x2000#16 (.jmp 0#8) ∧ decodes 0x24FF#16 .nop
    ∧ decodes 0x0105#16 (.jnc 5#8) ∧ decodes 0x18FC#16 (.jix 0xFC#8) := ⟨rfl, rfl, rfl, rfl, rfl⟩

theorem test_decode_immediates : decodes 0x3000#16 (.lai ⟨true, 0#8⟩) ∧ decodes 0x31F6#16 (.lxi ⟨true, 0xF6#8⟩)
    ∧ decodes 0x16FF#16 (.lyi ⟨false, 0xFF#8⟩) := ⟨rfl, rfl, rfl⟩

theorem test_decode_stacks : decodes 0x1D0E#16 (.lrm 0x0E#8) ∧ decodes 0x1A01#16 (.psr 0x01#8)
    ∧ selectedRegs 0x0E#8 = [.c, .l, .w] ∧ selectedRegs 0xA1#8 = [.a, .x, .k] := ⟨rfl, rfl, by decide, by decide⟩

theorem test_decode_functions : decodes 0x1E1F#16 .mvts ∧ decodes 0x1FFD#16 (.arm true 0x7D#7)
    ∧ decodeWords IspCoding.placeholder [0x1E20#16] = .unassigned none := ⟨rfl, rfl, rfl⟩

theorem test_decode_registers : decodes 0x293F#16 (.slrs ⟨true, 31#5⟩) ∧ decodes 0x2B5F#16 (.sard ⟨false, 31#5⟩)
    ∧ decodes 0x2B81#16 (.xr .a .b) ∧ decodes 0x2E49#16 (.cpzr .b) ∧ decodes 0x2E41#16 (.cpzr .b)
    ∧ decodes 0x2FC4#16 (.lrp .c) := ⟨rfl, rfl, rfl, rfl, rfl, rfl⟩

theorem test_decode_extensions : decodeWords .placeholder [0x3F00#16, 0x0001#16] = .instr .wcda []
    ∧ decodeWords .placeholder [0x3800#16, 0x0001#16] = .unassigned (some 0#3)
    ∧ decodeWords .placeholder [0x3900#16, 0x1234#16] = .instr (.dap16 0x00#8 0x1234#16) []
    ∧ decodeWords .placeholder [0x3D00#16, 0x0000#16] = .instr (.ffm16 0x00#8 0x0000#16) []
    ∧ decodeWords .placeholder [0x3F08#16, 0x0000#16] = .unassigned (some 7#3) := ⟨rfl, rfl, rfl, rfl, rfl⟩

/-- With the placeholder coding of log 6: bit 11 is the index. -/
theorem test_decode_isp16 : decodeWords .placeholder [0x3C30#16, 0x5001#16, 0x5002#16] = .instr (.bla true (.mem 0x5001#16 0x5002#16)) []
    ∧ decodeWords .placeholder [0x3C50#16, 0x5001#16] = .instr (.cla true 0x5001#16) [] := ⟨rfl, rfl⟩

/-- The bytes of a word: the left one first. -/
theorem test_decode_bytes : decode .placeholder [0x50#8, 0x05#8] = .instr (.la (onC 5#8)) [] := rfl

/-! Every constructor: one word, or the words, written out from the pattern of its row of opcode_table.json (30_encoding.md), with
asymmetric operands. -/

/-- R101, R122. -/
theorem test_words_memory : [
    [0x4081#16], [0x81A6#16], [0xC2CB#16], [0x63F0#16], [0xA415#16], [0xE53A#16], [0x465F#16], [0x8784#16], [0xC8A9#16],
    [0x69CE#16], [0xAAF3#16], [0xEB18#16], [0x4C3D#16], [0x8D62#16], [0xCE87#16], [0x6FAC#16], [0xB0D1#16], [0xF1F6#16],
    [0x521B#16], [0x9340#16], [0xD465#16], [0x758A#16], [0xB6AF#16], [0xF7D4#16], [0x58F9#16], [0x991E#16], [0xDA43#16],
    [0x7B68#16], [0xBC8D#16], [0xFDB2#16], [0x5ED7#16], [0x9FFC#16]].map (decodeWords .placeholder)
    = [
    Instr.lby ⟨.c, false, 0x81#8⟩, .stby ⟨.l, false, 0xA6#8⟩, .cpby ⟨.w, false, 0xCB#8⟩, .xm ⟨.c, true, 0xF0#8⟩,
    .cpz ⟨.l, true, 0x15#8⟩, .br ⟨.w, true, 0x3A#8⟩, .bsr ⟨.c, false, 0x5F#8⟩, .sio ⟨.l, false, 0x84#8⟩,
    .sb ⟨.w, false, 0xA9#8⟩, .ad ⟨.c, true, 0xCE#8⟩, .sty ⟨.l, true, 0xF3#8⟩, .stx ⟨.w, true, 0x18#8⟩,
    .stb ⟨.c, false, 0x3D#8⟩, .sta ⟨.l, false, 0x62#8⟩, .mp ⟨.w, false, 0x87#8⟩, .dv ⟨.c, true, 0xAC#8⟩,
    .la ⟨.l, true, 0xD1#8⟩, .lx ⟨.w, true, 0xF6#8⟩, .or ⟨.c, false, 0x1B#8⟩, .and ⟨.l, false, 0x40#8⟩,
    .eor ⟨.w, false, 0x65#8⟩, .cp ⟨.c, true, 0x8A#8⟩, .ly ⟨.l, true, 0xAF#8⟩, .lb ⟨.w, true, 0xD4#8⟩, .ic ⟨.c, false, 0xF9#8⟩,
    .dc ⟨.l, false, 0x1E#8⟩, .rqst ⟨.w, false, 0x43#8⟩, .rlse ⟨.c, true, 0x68#8⟩, .act ⟨.l, true, 0x8D#8⟩,
    .lad ⟨.w, true, 0xB2#8⟩, .stz ⟨.c, false, 0xD7#8⟩, .wait ⟨.l, false, 0xFC#8⟩].map fun i => .instr i [] := by decide

/-- R104, R119. -/
theorem test_words_jumps : [
    [0x0021#16], [0x0400#16], [0x016B#16], [0x0290#16], [0x03B5#16], [0x05DA#16], [0x06FF#16], [0x0724#16], [0x2149#16],
    [0x226E#16], [0x2393#16], [0x25B8#16], [0x26DD#16], [0x2702#16], [0x1827#16], [0x194C#16]].map (decodeWords .placeholder)
    = [
    Instr.jmp 0x21#8, .nop, .jnc 0x6B#8, .jnv 0x90#8, .jncv 0xB5#8, .jc 0xDA#8, .jv 0xFF#8, .jcv 0x24#8, .jage 0x49#8,
    .jane 0x6E#8, .jag 0x93#8, .jal 0xB8#8, .jae 0xDD#8, .jale 0x02#8, .jix 0x27#8, .jdx 0x4C#8].map fun i => .instr i [] := by decide

/-- R105, R107, R110 to R112, R119. -/
theorem test_words_immediates : [
    [0x0D71#16], [0x3096#16], [0x11BB#16], [0x32E0#16], [0x1305#16], [0x342A#16], [0x154F#16], [0x3674#16], [0x1799#16],
    [0x1ABE#16], [0x1BE3#16], [0x1C08#16], [0x1D2D#16], [0x1FD2#16]].map (decodeWords .placeholder)
    = [
    Instr.adri .l 0x71#8, .lai ⟨true, 0x96#8⟩, .lxi ⟨false, 0xBB#8⟩, .ori ⟨true, 0xE0#8⟩, .andi ⟨false, 0x05#8⟩,
    .eori ⟨true, 0x2A#8⟩, .cpi ⟨false, 0x4F#8⟩, .lyi ⟨true, 0x74#8⟩, .lbi ⟨false, 0x99#8⟩, .psr 0xBE#8, .plr 0xE3#8,
    .svc 0x08#8, .lrm 0x2D#8, .arm true 0x52#7].map fun i => .instr i [] := by decide

/-- R120. -/
theorem test_words_functions : [
    [0x1E00#16], [0x1E01#16], [0x1E02#16], [0x1E03#16], [0x1E04#16], [0x1E05#16], [0x1E06#16], [0x1E07#16], [0x1E08#16],
    [0x1E09#16], [0x1E0A#16], [0x1E0B#16], [0x1E0C#16], [0x1E0D#16], [0x1E0E#16], [0x1E0F#16], [0x1E10#16], [0x1E11#16],
    [0x1E12#16], [0x1E13#16], [0x1E14#16], [0x1E15#16], [0x1E16#16], [0x1E17#16], [0x1E18#16], [0x1E19#16], [0x1E1A#16],
    [0x1E1B#16], [0x1E1C#16], [0x1E1D#16], [0x1E1E#16], [0x1E1F#16]].map (decodeWords .placeholder)
    = [
    Instr.acq, .halt, .rsr, .dbt, .step, .actd, .quit, .pty, .scy, .move, .sbs, .push, .pull, .ack, .rsv, .romb, .dbp, .sbp,
    .rbp, .dit, .eit, .sst, .rst, .rdhv, .ipi, .rdsi, .lar, .rdoe, .mvtm, .star, .woe, .mvts].map fun i => .instr i [] := by decide

/-- R108, R121. -/
theorem test_words_shifts : [
    [0x2817#16], [0x287C#16], [0x2881#16], [0x28E6#16], [0x290B#16], [0x2970#16], [0x2995#16], [0x29FA#16], [0x2A1F#16],
    [0x2A64#16], [0x2A89#16], [0x2AEE#16], [0x2B13#16], [0x2B78#16]].map (decodeWords .placeholder)
    = [
    Instr.rbt ⟨false, 23#5⟩, .sbt ⟨true, 28#5⟩, .ibt ⟨false, 1#5⟩, .tbt ⟨true, 6#5⟩, .slrs ⟨false, 11#5⟩, .slrd ⟨true, 16#5⟩,
    .slls ⟨false, 21#5⟩, .slld ⟨true, 26#5⟩, .scrs ⟨false, 31#5⟩, .scrd ⟨true, 4#5⟩, .scls ⟨false, 9#5⟩, .scld ⟨true, 14#5⟩,
    .sars ⟨false, 19#5⟩, .sard ⟨true, 24#5⟩].map fun i => .instr i [] := by decide

/-- R106, R121. -/
theorem test_words_registers : [
    [0x2BA1#16], [0x2BEC#16], [0x2C37#16], [0x2C7A#16], [0x2C85#16], [0x2CC8#16], [0x2D13#16], [0x2D5E#16], [0x2DA1#16],
    [0x2DEC#16], [0x2E37#16], [0x2E7A#16], [0x2E85#16], [0x2EC8#16], [0x2F13#16], [0x2F5E#16], [0x2FA1#16], [0x2FEC#16]].map (decodeWords .placeholder)
    = [
    Instr.xr .c .b, .lr .l .c, .adr .w .k, .sbr .k .x, .orr .a .l, .eorr .b .a, .andr .x .y, .clsr .y .w, .adcr .b, .sbcr .c,
    .ngr .w .k, .cpzr .x, .cmr .a .l, .cpr .b .a, .swbr .x .y, .ximr .w, .adrp .c, .lrp .c].map fun i => .instr i [] := by decide

/-- R113 to R118. -/
theorem test_words_extensions : [
    [0x3800#16, 0x0000#16], [0x3800#16, 0x0800#16], [0x3800#16, 0x1000#16], [0x3800#16, 0x1800#16], [0x3800#16, 0x2000#16],
    [0x3800#16, 0x2800#16], [0x3800#16, 0x4095#16], [0x3800#16, 0x82BA#16], [0x3800#16, 0xC4DF#16], [0x3800#16, 0x6604#16],
    [0x3800#16, 0xA829#16], [0x3800#16, 0xEA4E#16], [0x3800#16, 0x4C73#16], [0x3800#16, 0x8E98#16], [0x3F00#16, 0x0000#16],
    [0x3F00#16, 0x0001#16], [0x3F01#16, 0x0000#16], [0x3F04#16, 0x0000#16], [0x3F05#16, 0x0000#16], [0x3F06#16, 0x0000#16],
    [0x3F07#16, 0x0000#16], [0x3F02#16, 0xC0C0#16], [0x3F03#16, 0xC0E5#16], [0x3E58#16], [0x3981#16, 0x1234#16],
    [0x3A82#16, 0x1234#16], [0x3D83#16, 0x1234#16]].map (decodeWords .placeholder)
    = [
    Instr.fneg, .fabs, .fix, .flt, .norm, .fcaz, .fld ⟨.c, false, 0x95#8⟩, .fad ⟨.l, false, 0xBA#8⟩, .fmp ⟨.w, false, 0xDF#8⟩,
    .fdv ⟨.c, true, 0x04#8⟩, .fst ⟨.l, true, 0x29#8⟩, .fsb ⟨.w, true, 0x4E#8⟩, .fcmz ⟨.c, false, 0x73#8⟩,
    .fcam ⟨.l, false, 0x98#8⟩, .rcda, .wcda, .drbm, .insq, .supq, .sfq, .slq, .sbtm true 0x40C0#15, .rbtm true 0x40E5#15, .xmr,
    .dap16 0x81#8 0x1234#16, .vss16 0x82#8 0x1234#16, .ffm16 0x83#8 0x1234#16].map fun i => .instr i [] := by decide

/-- R116 with the placeholder coding of log 6. -/
theorem test_words_isp16 : [
    [0x3C00#16, 0x0019#16], [0x3C11#16, 0x0019#16], [0x3C02#16, 0x0019#16], [0x3C13#16, 0x0019#16], [0x3C04#16, 0x0019#16],
    [0x3C15#16, 0x0019#16], [0x3C06#16, 0x0019#16], [0x3C17#16, 0x0019#16], [0x3C08#16, 0x0019#16], [0x3C19#16, 0x0019#16],
    [0x3C0A#16, 0x0019#16], [0x3C30#16, 0x5001#16, 0xC002#16], [0x3C21#16, 0x5001#16, 0xC002#16],
    [0x3C32#16, 0x5001#16, 0xC002#16], [0x3C23#16, 0x5001#16, 0xC002#16], [0x3C34#16, 0x5001#16, 0xC002#16],
    [0x3C25#16, 0x5001#16, 0xC002#16], [0x3C36#16, 0x5001#16, 0xC002#16], [0x3C27#16, 0x5001#16, 0xC002#16],
    [0x3C38#16, 0x5001#16, 0xC002#16], [0x3C29#16, 0x5001#16, 0xC002#16], [0x3C3A#16, 0x5001#16, 0xC002#16],
    [0x3C40#16, 0x5001#16], [0x3C51#16, 0x5001#16], [0x3C42#16, 0x5001#16], [0x3C53#16, 0x5001#16], [0x3C44#16, 0x5001#16],
    [0x3C55#16, 0x5001#16], [0x3C46#16, 0x5001#16], [0x3C60#16, 0x5001#16], [0x3C61#16, 0x5001#16], [0x3C62#16, 0x5001#16]].map (decodeWords .placeholder)
    = [
    Instr.bla false (.regs 0x0019#16), .bsta true (.regs 0x0019#16), .bxm false (.regs 0x0019#16),
    .bdld true (.regs 0x0019#16), .bdst false (.regs 0x0019#16), .blby true (.regs 0x0019#16), .bstby false (.regs 0x0019#16),
    .bmove true (.regs 0x0019#16), .brbtm false (.regs 0x0019#16), .bsbtm true (.regs 0x0019#16),
    .bdbtm false (.regs 0x0019#16), .bla true (.mem 0x5001#16 0xC002#16), .bsta false (.mem 0x5001#16 0xC002#16),
    .bxm true (.mem 0x5001#16 0xC002#16), .bdld false (.mem 0x5001#16 0xC002#16), .bdst true (.mem 0x5001#16 0xC002#16),
    .blby false (.mem 0x5001#16 0xC002#16), .bstby true (.mem 0x5001#16 0xC002#16), .bmove false (.mem 0x5001#16 0xC002#16),
    .brbtm true (.mem 0x5001#16 0xC002#16), .bsbtm false (.mem 0x5001#16 0xC002#16), .bdbtm true (.mem 0x5001#16 0xC002#16),
    .cla false 0x5001#16, .csta true 0x5001#16, .cxm false 0x5001#16, .cdld true 0x5001#16, .cdst false 0x5001#16,
    .clby true 0x5001#16, .cstby false 0x5001#16, .xent false 0x5001#16, .xsor false 0x5001#16, .xctx false 0x5001#16].map fun i => .instr i [] := by decide

/-! Loads, stores, exchanges (95_test_vectors.md B.2, B.3). -/

/-- LA C+5; no flag is touched. -/
theorem test_la : seen (fun t => (t.r.A, t.P, t.st.V, t.st.Cf)) (exec (.la (onC 5#8)) (poke [(0x1005#16, 0x1234#16)]
    ({ machine with st := { machine.st with V := true, Cf := true } }.setReg .c 0x1000#16)))
    = some (0x1234#16, 0x0101#16, true, true) := by decide

/-- LX &W+0: the old X indexes. -/
theorem test_lx_indexed : seen (·.r.X) (exec (.lx ⟨.w, true, 0#8⟩) (poke [(0x0300#16, 0x8400#16), (0x0402#16, 0x0007#16)]
    ((machine.setReg .w 0x0300#16).setReg .x 2#16))) = some 7#16 := by decide

/-- LAD: a relay with bit 0 at 1 and a sum beyond 65535. -/
theorem test_lad_wrap : seen (·.r.A) (exec (.lad ⟨.c, true, 2#8⟩) (poke [(0x1002#16, 0xFFFF#16)]
    ((machine.setReg .c 0x1000#16).setReg .x 0x8002#16))) = some 1#16 := by decide

/-- LAD: the displacement -128. -/
theorem test_lad_negative : seen (·.r.A) (exec (.lad ⟨.l, false, 0x80#8⟩) (machine.setReg .l 0x2000#16)) = some 0x1F80#16 := by decide

/-- LAI -256. -/
theorem test_lai : seen (·.r.A) (exec (.lai ⟨true, 0#8⟩) machine) = some 0xFF00#16 := by decide

/-- LR K,C is from K to C. -/
theorem test_lr : seen (fun t => (t.r.K, t.r.C)) (exec (.lr .k .c) (machine.setReg .k 0x0FFF#16)) = some (0x0FFF#16, 0x0FFF#16) := by decide

/-- XM: the lock of R155. -/
theorem test_xm : seen (fun t => (t.r.A, t.abs 0x0300#16)) (exec (.xm (onC 0#8)) ((machine.setReg .c 0x0300#16).setReg .a 0xFFFF#16))
    = some (0#16, 0xFFFF#16) := by decide

/-- XR A,B. -/
theorem test_xr : seen (fun t => (t.r.A, t.r.B)) (exec (.xr .a .b) ((machine.setReg .a 1#16).setReg .b 2#16)) = some (2#16, 1#16) := by decide

/-! Arithmetic and comparison (the examples of 41_arithmetic_compare.md). -/

theorem test_ad_overflow : seen (fun t => (t.r.A, t.st.V, t.st.Cf)) (exec (.ad (onC 0#8)) (poke [(0x0300#16, 1#16)]
    ((machine.setReg .c 0x0300#16).setReg .a 0x7FFF#16))) = some (0x8000#16, true, false) := by decide

theorem test_ad_carry : seen (fun t => (t.r.A, t.st.V, t.st.Cf)) (exec (.ad (onC 0#8)) (poke [(0x0300#16, 1#16)]
    ((machine.setReg .c 0x0300#16).setReg .a 0xFFFF#16))) = some (0#16, false, true) := by decide

theorem test_ngr : seen (fun t => (t.r.A, t.st.V, t.st.Cf)) (exec (.ngr .a .a) (machine.setReg .a 0x8000#16))
    = some (0x8000#16, true, true) := by decide

theorem test_mp : seen (fun t => (t.r.A, t.r.B)) (exec (.mp (onC 0#8)) (poke [(0x0300#16, 0xFFFE#16)]
    ((machine.setReg .c 0x0300#16).setReg .a 3#16))) = some (0xFFFF#16, 0xFFFA#16) := by decide

/-- -7 / 2: towards zero, the remainder of the sign of the dividend. -/
theorem test_dv : seen (fun t => (t.r.A, t.r.B, t.st.V)) (exec (.dv (onC 0#8)) (poke [(0x0300#16, 2#16)]
    (((machine.setReg .c 0x0300#16).setReg .a 0xFFFF#16).setReg .b 0xFFF9#16))) = some (0xFFFD#16, 0xFFFF#16, false) := by decide

/-- -32768 / -1 cannot be expressed: A and B are free, V is 1. -/
theorem test_dv_impossible : seen (fun t => (t.st.V, t.st.Cf)) (exec (.dv (onC 0#8)) (poke [(0x0300#16, 0xFFFF#16)]
    (((machine.setReg .c 0x0300#16).setReg .a 0xFFFF#16).setReg .b 0x8000#16))) = some (true, false) := by decide

/-- '8000 is less than '7FFF (R172). -/
theorem test_cpr : seen (fun t => (t.st.V, t.st.Cf)) (exec (.cpr .b .a) ((machine.setReg .a 0x8000#16).setReg .b 0x7FFF#16))
    = some (false, true) := by decide

/-! Logic, shifts, bits (the examples of 42_logic_shift_bit.md). -/

theorem test_cmr : seen (·.r.A) (exec (.cmr .a .a) (machine.setReg .a 0x00FF#16)) = some 0xFF00#16 := by decide

theorem test_slrs_16 : seen (fun t => (t.r.A, t.st.Cf)) (exec (.slrs ⟨false, 16#5⟩) (machine.setReg .a 0x8000#16)) = some (0#16, true) := by decide

theorem test_slrs_17 : seen (fun t => (t.r.A, t.st.Cf)) (exec (.slrs ⟨false, 17#5⟩) (machine.setReg .a 0x8000#16)) = some (0#16, false) := by decide

theorem test_scrs : seen (fun t => (t.r.A, t.st.Cf)) (exec (.scrs ⟨false, 4#5⟩) (machine.setReg .a 0x1234#16)) = some (0x4123#16, false) := by decide

/-- TBT X,0 with X = 35 tests bit 3. -/
theorem test_tbt : seen (·.st.Cf) (exec (.tbt ⟨true, 0#5⟩) ((machine.setReg .x 35#16).setReg .a 0x1000#16)) = some true := by decide

theorem test_dbt : seen (fun t => (t.r.X, t.st.Cf)) (exec .dbt (machine.setReg .b 0x0100#16)) = some (23#16, false) := by decide

/-! Bytes, stacks, moves (the examples of 43_byte_misc.md). -/

theorem test_swbr : seen (·.r.B) (exec (.swbr .a .b) (machine.setReg .a 0x1234#16)) = some 0x3412#16 := by decide

/-- LBY with X = -1: the right byte of the word before the relay address. -/
theorem test_lby : seen (·.r.A) (exec (.lby ⟨.c, true, 0#8⟩) (poke [(0x0300#16, 0x8400#16), (0x03FF#16, 0x12AB#16)]
    ((machine.setReg .c 0x0300#16).setReg .x 0xFFFF#16))) = some 0x00AB#16 := by decide

theorem test_pty : seen (·.st.Cf) (exec .pty (machine.setReg .a 0x0043#16)) = some true := by decide

/-- PSR A,X and PSR K. -/
theorem test_psr : seen (fun t => (t.abs 0x0FFE#16, t.abs 0x0FFF#16, t.r.K)) (exec (.psr 0xA0#8)
    (((machine.setReg .k 0x0FFD#16).setReg .a 0x1111#16).setReg .x 0x3333#16)) = some (0x1111#16, 0x3333#16, 0x0FFF#16) := by decide

theorem test_psr_k : seen (fun t => (t.abs 0x1000#16, t.r.K)) (exec (.psr 0x01#8) (machine.setReg .k 0x0FFF#16))
    = some (0x0FFF#16, 0x1000#16) := by decide

theorem test_plr_k : seen (·.r.K) (exec (.plr 0x01#8) (poke [(0x1000#16, 0x0FFF#16)] (machine.setReg .k 0x1000#16)))
    = some 0x0FFF#16 := by decide

theorem test_lrm : seen (fun t => (t.r.C, t.r.L, t.r.W, t.P)) (exec (.lrm 0x0E#8)
    (poke [(0x0101#16, 0x1000#16), (0x0102#16, 0x2000#16), (0x0103#16, 0x3000#16)] machine))
    = some (0x1000#16, 0x2000#16, 0x3000#16, 0x0104#16) := by decide

theorem test_push : seen (fun t => (t.abs 0x0500#16, t.abs 0x0502#16, t.st.V, t.st.Cf)) (exec .push
    (poke [(0x0500#16, 0x0301#16)] ((machine.setReg .y 0x0500#16).setReg .a 0x00AA#16)))
    = some (0x0302#16, 0x00AA#16, false, false) := by decide

/-- SBS: one comparison that fails, then one that succeeds. -/
theorem test_sbs : (seen (fun t => (t.r.X, t.phase)) (exec .sbs (poke [(0x0300#16, 0x4142#16)]
      (((machine.setReg .b 0x0300#16).setReg .a 0x0042#16).setReg .y 4#16))),
    seen (fun t => (t.r.X, t.st.Cf)) (exec .sbs (poke [(0x0300#16, 0x4142#16)]
      ((((machine.setReg .b 0x0300#16).setReg .a 0x0042#16).setReg .y 4#16).setReg .x 1#16))))
    = (some (1#16, .interrupted), some (1#16, false)) := by decide

/-- MOVE moves the last word first. -/
theorem test_move : seen (fun t => (t.abs 0x1003#16, t.r.X, t.P, t.phase)) (exec .move (poke [(0x1002#16, 3#16)]
    (((machine.setReg .a 0x1000#16).setReg .b 0x1001#16).setReg .x 3#16))) = some (3#16, 2#16, 0x0100#16, .interrupted) := by decide

/-! Branches and calls (95_test_vectors.md B.7, B.8). -/

theorem test_jix : seen (fun t => (t.r.X, t.P)) (exec (.jix 0xFC#8) (machine.setReg .x 0x7FFF#16)) = some (0x8000#16, 0x00FC#16) := by decide

theorem test_jmp_wrap : seen (·.P) (exec (.jmp 0x7F#8) { machine with P := 0xFFF0#16 }) = some 0x006F#16 := by decide

theorem test_bsr : seen (fun t => (t.r.K, t.P, t.abs 0x1000#16)) (exec (.bsr ⟨.l, false, 2#8⟩)
    (poke [(0x3002#16, 0x4000#16)] ((machine.setReg .k 0x0FFF#16).setReg .l 0x3000#16))) = some (0x1000#16, 0x4000#16, 0x0101#16) := by decide

theorem test_svc_slave : seen (fun t => (t.r.X, t.r.K, readWord t.mem 0x01801#20, t.st.MS, t.st.SVCS, t.P)) (exec (.svc 7#8)
    (poke [(0x0005#16, 0x6000#16)] ({ slaveMachine with P := 0x0041#16 }.setReg .k 0x0800#16)))
    = some (7#16, 0x0801#16, 0x0042#16, true, true, 0x6000#16) := by decide

theorem test_rsv : seen (fun t => (t.P, t.r.K, t.st.MS, t.st.SVCS)) (exec .rsv ({ slaveMachine with
      st := { slaveMachine.st with MS := true, SVCS := true }, mem := writeWord [] 0x01801#20 0x0042#16 }.setReg .k 0x0801#16))
    = some (0x0042#16, 0x0800#16, false, false) := by decide

/-! System instructions (95_test_vectors.md B.8). -/

theorem test_rdhv : seen (·.r.A) (exec .rdhv { machine with HV := 0x0840#16 }) = some 0x0840#16 := by decide

theorem test_ximr : seen (fun t => (t.IM, t.r.A)) (exec (.ximr .a) (machine.setReg .a 0x7FFF#16)) = some (0x7FFF#16, 0#16) := by decide

/-- DIT in slave mode is alarm 4. -/
theorem test_dit_slave : seen (fun t => (context 0x0200#16 t, t.r.C, t.P, t.st.MS, t.HV)) (exec .dit
    (poke psthWords (({ slaveMachine with P := 0x0040#16 }.setReg .c 0x0020#16).setReg .k 0x0800#16)))
    = some ([0x0020#16, 0x0800#16, 0x0040#16, 0x0004#16], 0x0700#16, 0x7000#16, true, 0x8000#16) := by decide

/-- ACTD is alarm 9; V is in the S word saved. -/
theorem test_actd : seen (fun t => (context 0x0200#16 t, t.HV)) (exec .actd (poke psthWords
    (({ machine with st := { machine.st with V := true } }.setReg .c 0x0300#16).setReg .k 0x0F00#16)))
    = some ([0x0300#16, 0x0F00#16, 0x0101#16, 0x8209#16], 0x8000#16) := by decide

/-- ACTD in the alarm task stops the machine. -/
theorem test_actd_alarm_task : seen (fun t => (t.alarmStop, t.st.STOP, t.P, t.mem)) (exec .actd { machine with HV := 0x8000#16 })
    = some (true, true, 0x0101#16, []) := by decide

/-- ACQ of nested tasks. -/
theorem test_acq : seen (fun t => (context 0x0204#16 t, t.r.C, t.r.K, t.P, t.HV)) (exec .acq
    (poke [(0x0002#16, 0x0200#16), (0x0204#16, 0x1111#16), (0x0205#16, 0x2222#16), (0x0206#16, 0x3333#16), (0x0207#16, 0x8000#16)]
      (({ machine with HV := 0x4800#16 }.setReg .c 0x0500#16).setReg .k 0x0600#16)))
    = some ([0x0500#16, 0x0600#16, 0x0101#16, 0x8000#16], 0x1111#16, 0x2222#16, 0x3333#16, 0x0800#16) := by decide

/-- ACK: a normal sub-level before an exception one. -/
theorem test_ack : seen (fun t => (t.r.X, t.st.V, t.st.Cf)) (exec .ack { machine with
      HV := 0x1000#16
      couplers := [⟨5#14, false, some 0#16, none, none, none, 3#4, some 5, some 2, false, false, 0#16, false⟩] }) = some (5#16, true, false) := by decide

/-- SIO: a datum is read and its request acknowledged; an absent device gives 0. -/
theorem test_sio : (seen (fun t => (t.r.A, t.couplers.map (·.normalPending))) (exec (.sio (onC 0#8)) (poke [(0x0300#16, 0x0014#16)]
      { machine with r := { machine.r with C := 0x0300#16 }
                     couplers := [⟨5#14, false, some 0x0041#16, none, none, none, 3#4, some 1, none, false, false, 0#16, false⟩] })),
    seen (·.r.A) (exec (.sio (onC 0#8)) (poke [(0x0300#16, 0x0FFC#16)] ((machine.setReg .c 0x0300#16).setReg .a 9#16))))
    = (some (0x0041#16, [none]), some 0#16) := by decide

/-- LAR relative to SLO, and beyond the limit. -/
theorem test_lar : (seen (·.r.A) (exec .lar { machine with
      SLO := 0x0100#16, SLE := 0x01FF#16, r := { machine.r with Y := 0x0020#16 }, mem := writeWord [] 0x01020#20 0xBEEF#16 }),
    seen (fun t => (t.abs 0x0202#16, lo (t.abs 0x0203#16))) (exec .lar (poke psthWords { machine with
      SLO := 0x0100#16, SLE := 0x01FF#16, r := { machine.r with Y := 0x1000#16 } })))
    = (some 0xBEEF#16, some (0x0100#16, 0x01#8)) := by decide

/-- SBP then the word is in bad parity; DBP finds it. -/
theorem test_breakpoints : (seen (·.badParity) (exec .sbp ({ machine with SLE := 0x00FF#16 }.setReg .y 0x0400#16)),
    seen (fun t => (t.st.V, t.st.Cf)) (exec .dbp { machine with
      SLE := 0x00FF#16, st := { machine.st with DEBUG := true }, badParity := [0x0400], r := { machine.r with Y := 0x0400#16 } }))
    = (some [0x0400], some (false, true)) := by decide

/-! Floating point (95_test_vectors.md B.9). -/

theorem test_flt : (seen (fun t => (t.r.A, t.r.B)) (exec .flt (machine.setReg .a 0xFFFF#16)),
    seen (fun t => (t.r.A, t.r.B)) (exec .flt (machine.setReg .a 0x7FFF#16)))
    = (some (0xC001#16, 0#16), some (0x7F0F#16, 0xFF00#16)) := by decide

theorem test_fneg : seen (fun t => (t.r.A, t.r.B)) (exec .fneg ((machine.setReg .a 0x6808#16).setReg .b 0x4000#16))
    = some (0x9708#16, 0xC000#16) := by decide

theorem test_fix : seen (fun t => (t.r.A, t.r.B, t.st.V)) (exec .fix (machine.setReg .a 0xB001#16)) = some (0xFFFF#16, 0#16, false) := by decide

/-- 1.25 + 1.25 is 2.5. -/
theorem test_fad : seen (fun t => (t.r.A, t.r.B)) (exec (.fad (onC 2#8)) (poke [(0x0302#16, 0x5001#16)]
    ((machine.setReg .c 0x0300#16).setReg .a 0x5001#16))) = some (0x5002#16, 0#16) := by decide

/-! Scheduler (95_test_vectors.md B.10). -/

/-- Task 5 runs, every task unmasked and ready; PSTS(n) at '0600 + 16·n for tasks 2 and 5. -/
def tasks : List (Word × Word) :=
  [(0x0000#16, 5#16), (0x0003#16, 0x0500#16), (0x0502#16, 0x0620#16), (0x0505#16, 0x0650#16), (0x0020#16, 0x0400#16),
   (0x0028#16, 0xFFFF#16), (0x0030#16, 0xFFFF#16), (0x0628#16, 0x0700#16), (0x0629#16, 0x8000#16), (0x0620#16, 0x00AA#16)]

/-- What is seen of a shared operation, before the scribble of WSCHED, a free value. -/
def seenRes {α β : Type} (f : State → β) (r : Res α) : Option β :=
  match r with
  | .ok _ t => some (f t)
  | _ => none

/-- ARM 2: task 2 is above task 5. -/
theorem test_arm : seenRes (fun t => (t.abs 0x0020#16, t.abs 0x0000#16, t.P, t.r.A, t.abs 0x0658#16))
    ((qSet 0x0020#16 2 true (poke tasks machine)).bind fun _ s => reschedule (s.advance 1))
    = some (0x2400#16, 2#16, 0x0700#16, 0x00AA#16, 0x0101#16) := by decide

/-- ARM 9: task 5 stays. -/
theorem test_arm_stays : seenRes (fun t => (t.abs 0x0020#16, t.abs 0x0000#16, t.P))
    ((qSet 0x0020#16 9 true (poke tasks machine)).bind fun _ s => reschedule (s.advance 1))
    = some (0x0440#16, 5#16, 0x0101#16) := by decide

/-- QUIT in an immediate task is alarm 5. -/
theorem test_quit_immediate : seen (fun t => (lo (t.abs 0x0203#16), t.HV)) (exec .quit (poke psthWords { machine with HV := 0x1000#16 }))
    = some (5#8, 0x9000#16) := by decide

/-! CDA16 and ISP16 (95_test_vectors.md B.11, B.12). -/

theorem test_sbtm : seen (fun t => (t.abs 0x1FFF#16, t.P)) (exec (.sbtm true 0#15) ((machine.setReg .a 0x2000#16).setReg .x 0xFFFF#16))
    = some (1#16, 0x0102#16) := by decide

theorem test_insq : seen (fun t => (t.abs 0x3010#16, t.abs 0x3011#16, t.abs 0x3000#16, t.abs 0x3001#16)) (exec .insq
    (poke [(0x3000#16, 0x3000#16), (0x3001#16, 0x3000#16)] ((machine.setReg .a 0x3010#16).setReg .b 0x3000#16)))
    = some (0x3000#16, 0x3000#16, 0x3010#16, 0x3010#16) := by decide

theorem test_drbm : seen (fun t => (t.r.X, t.phase)) (exec .drbm (poke [(0x2001#16, 0x0480#16)]
    ((machine.setReg .a 0x2000#16).setReg .y 0x0020#16))) = some (0x0010#16, .interrupted) := by decide

/-- BSTA indexed: the displacement is a 16-bit sum. -/
theorem test_bsta : seen (fun t => readWord t.mem 0xF0001#20) (exec (.bsta true (.regs 0x0019#16))
    ((((machine.setReg .y 0xF000#16).setReg .b 0xFFFF#16).setReg .x 2#16).setReg .a 0x1234#16)) = some 0x1234#16 := by decide

/-! States that meet the hypotheses of the statements of Certificates/Slice0/Obligations.lean, at the boundaries of their
clauses. -/

/-- Where every word exists and none is in bad parity, no absolute access raises anything. -/
theorem calm_standard (s : State) (hc : s.cfg = .standard) (hb : s.badParity = []) (l : List Word) : s.calm l := by
  intro a _
  have h := (absolute a).isLt
  simp [State.sound, State.badWord, hb, hc, Config.exists, Config.standard, Config.maxWords, Config.hasDrps]
  omega

/-- The listed words raise nothing. -/
theorem calm_of_all {s : State} {l : List Word} (h : (l.all fun a => s.sound (absolute a)) = true) : s.calm l :=
  fun a ha => List.all_eq_true.mp h a ha

/-- A machine where nothing masks an interruption. -/
def unmasked : State := { machine with st := { machine.st with IOM := false, IPM := false } }

/-- A machine with registers C, A, B, X, Y and words given. -/
def having (c a b x y : Word) (l : List (Word × Word)) : State :=
  poke l { machine with r := { machine.r with C := c, A := a, B := b, X := x, Y := y } }

/-- A machine of another model. -/
def onModel (m : Model) : State := { machine with cfg := { Config.standard with model := m } }

theorem witness_AdditionLaw : machine.operandOk (onC 0#8) = true ∧ machine.operandOk (onC 0x80#8) = true
    ∧ (having 0x0300#16 0#16 0#16 2#16 0#16 [(0x0300#16, 0xFFFF#16)]).operandOk ⟨.c, true, 0#8⟩ = true := by decide

/-- In slave mode, at the limit. -/
theorem witness_SubtractionLaw : slaveMachine.limit = 0x0FFF ∧ (slaveMachine.setReg .c 0x0FFF#16).operandOk (onC 0#8) = true := by decide

theorem witness_ComparisonLaw : machine.operandOk (onC 0#8) = true ∧ machine.byteOk (onC 0#8) = true
    ∧ (having 0x0300#16 0#16 0#16 0xFFFF#16 0#16 [(0x0300#16, 0x8000#16)]).byteOk ⟨.c, true, 0#8⟩ = true := by decide

/-- The quotients 32767 (remainder 1) and -32768. -/
theorem witness_NegateMultiplyDivide : (having 0x0300#16 0x0000#16 0xFFFF#16 0#16 0#16 [(0x0300#16, 2#16)]).operandOk (onC 0#8) = true
    ∧ (having 0x0300#16 0x0000#16 0xFFFF#16 0#16 0#16 [(0x0300#16, 2#16)]).ab.toInt
      = 32767 * s16 ((having 0x0300#16 0x0000#16 0xFFFF#16 0#16 0#16 [(0x0300#16, 2#16)]).operand (onC 0#8)) + 1
    ∧ (having 0x0300#16 0xFFFF#16 0x0000#16 0#16 0#16 [(0x0300#16, 2#16)]).operandOk (onC 0#8) = true
    ∧ (having 0x0300#16 0xFFFF#16 0x0000#16 0#16 0#16 [(0x0300#16, 2#16)]).ab.toInt
      = -32768 * s16 ((having 0x0300#16 0xFFFF#16 0x0000#16 0#16 0#16 [(0x0300#16, 2#16)]).operand (onC 0#8)) + 0 := by decide

/-- The quotient 32768. -/
theorem witness_NegateMultiplyDivide_impossible (q r : Int)
    (h : (having 0x0300#16 0x0001#16 0x0000#16 0#16 0#16 [(0x0300#16, 2#16)]).ab.toInt
      = q * s16 ((having 0x0300#16 0x0001#16 0x0000#16 0#16 0#16 [(0x0300#16, 2#16)]).operand (onC 0#8)) + r)
    (hr : r.natAbs < (s16 ((having 0x0300#16 0x0001#16 0x0000#16 0#16 0#16 [(0x0300#16, 2#16)]).operand (onC 0#8))).natAbs)
    (_ : 0 ≤ r * (having 0x0300#16 0x0001#16 0x0000#16 0#16 0#16 [(0x0300#16, 2#16)]).ab.toInt) : q < -32768 ∨ 32767 < q := by
  rw [show s16 ((having 0x0300#16 0x0001#16 0x0000#16 0#16 0#16 [(0x0300#16, 2#16)]).operand (onC 0#8)) = 2 from by decide] at h hr
  rw [show (having 0x0300#16 0x0001#16 0x0000#16 0#16 0#16 [(0x0300#16, 2#16)]).ab.toInt = 65536 from by decide] at *
  omega

theorem witness_NegateMultiplyDivide_zero : machine.operandOk (onC 0#8) = true ∧ s16 (machine.operand (onC 0#8)) = 0 := by decide

theorem witness_LogicOperations : machine.operandOk (onC 0#8) = true := by decide

theorem witness_Shifts : machine.positions ⟨false, 0#5⟩ = 0 ∧ (machine.setReg .x 0xFFFF#16).positions ⟨true, 0#5⟩ = 31 := by decide

theorem witness_BitOperations : machine.ab = 0#32 ∧ pairBit (machine.setReg .a 0x8000#16).ab 0 = true
    ∧ pairBit (machine.setReg .b 1#16).ab 31 = true ∧ (∀ j < 31, pairBit (machine.setReg .b 1#16).ab j = false) := by decide

/-- A displacement of -128 from 0; relays '7FFF and '8000. -/
theorem witness_MemoryLoads_address :
    ((0xFF80#16 : Word).toNat : Int) = ((machine.base .c).toNat + (0x80#8 : Byte).toInt) % 65536
    ∧ (having 0#16 0#16 0#16 0#16 0#16 [(0#16, 0x7FFF#16)]).canRead machine.relocated 0#16 = true
    ∧ (having 0#16 0#16 0#16 0xFFFF#16 0#16 [(0#16, 0x8000#16)]).canRead machine.relocated 0#16 = true := by decide

theorem witness_MemoryLoads : (slaveMachine.setReg .c 0x0FFF#16).operandOk (onC 0#8) = true
    ∧ (having 0x0300#16 0#16 0#16 0#16 0#16 [(0x0300#16, 0x8400#16)]).operandOk ⟨.c, true, 0#8⟩ = true := by decide

/-- A machine whose words end at '000E, and its 16-04. -/
def shortMachine : State := { machine with cfg := { Config.standard with memRanges := [(0, 14)] } }
def shortMachine04 : State := { machine04 with cfg := { machine04.cfg with memRanges := [(0, 14)] } }

/-- Beyond the limit; a word that does not exist; bad parity outside DEBUG. -/
theorem witness_AccessAlarms : (let s := slaveMachine.setReg .c 0x1000#16
      s.relocated = true ∧ s.limit < (s.direct (onC 0#8)).toNat)
    ∧ shortMachine.allowed shortMachine.relocated (shortMachine.direct (onC 15#8)) = true
    ∧ shortMachine.cfg.exists (shortMachine.place shortMachine.relocated (shortMachine.direct (onC 15#8))) = false
    ∧ shortMachine.cfg.is0405 = false
    ∧ (let s := { machine with badParity := [15] }
       s.allowed s.relocated (s.direct (onC 15#8)) = true ∧ s.cfg.exists (s.place s.relocated (s.direct (onC 15#8))) = true
        ∧ s.cfg.parity = true ∧ (s.place s.relocated (s.direct (onC 15#8))).toNat ∈ s.badParity ∧ s.st.MAINT = false ∧ s.st.DEBUG = false)
    ∧ shortMachine04.cfg.exists (shortMachine04.place shortMachine04.relocated (shortMachine04.direct (onC 15#8))) = false
    ∧ shortMachine04.cfg.is0405 = true := by decide

theorem witness_StoredWord : Memory.wf (poke [(0xFFFF#16, 0x1234#16)] machine).mem = true ∧ Memory.wf machine.mem = true := by decide

theorem witness_MemoryStores : (having 0x0300#16 0#16 0#16 0x8002#16 0#16 [(0x0300#16, 0xFFFF#16)]).relayOk ⟨.c, true, 0#8⟩ = true
    ∧ (having 0x0300#16 0#16 0#16 0x8002#16 0#16 [(0x0300#16, 0xFFFF#16)]).effective ⟨.c, true, 0#8⟩ = 1#16
    ∧ (having 0x0300#16 0#16 0#16 0x8002#16 0#16 [(0x0300#16, 0xFFFF#16)]).canWrite machine.relocated 1#16 = true
    ∧ (having 0x0300#16 0#16 0#16 0x8002#16 0#16 [(0x0300#16, 0xFFFF#16)]).canRead machine.relocated 1#16 = true
    ∧ (slaveMachine.setReg .c 0x0FFF#16).canWrite slaveMachine.relocated 0x0FFF#16 = true := by decide

/-- Direct; the relays '7FFF and '8000, with X = -1. -/
theorem witness_ByteAccess : machine.byteTarget (onC 0#8) 0#16 false
    ∧ (having 0#16 0#16 0#16 0#16 0#16 [(0#16, 0x7FFF#16)]).byteTarget ⟨.c, true, 0#8⟩ 0x7FFF#16 false
    ∧ (having 0#16 0#16 0#16 0xFFFF#16 0#16 [(0#16, 0x8000#16)]).byteTarget ⟨.c, true, 0#8⟩ 0xFFFF#16 true
    ∧ machine.canRead machine.relocated 0xFFFF#16 = true :=
  ⟨.inl (by decide), .inr (.inl (by decide)), .inr (.inr (by decide)), by decide⟩

theorem witness_RelativeJumps : machine.st.Cf = false ∧ machine.st.V = false ∧ (machine.setVC true true).st.Cf = true
    ∧ (machine.setVC true true).st.V = true ∧ s16 machine.r.A = 0 ∧ s16 (machine.setReg .a 0x7FFF#16).r.A = 32767
    ∧ s16 (machine.setReg .a 0x8000#16).r.A = -32768 := by decide

theorem witness_RelativeJumps_counting : s16 ((machine.setReg .x 0x7FFF#16).r.X + 1#16) < 0 ∧ 0 ≤ s16 ((machine.setReg .x 0xFFFF#16).r.X + 1#16)
    ∧ 0 < s16 ((machine.setReg .x 0x8000#16).r.X - 1#16) ∧ s16 ((machine.setReg .x 1#16).r.X - 1#16) ≤ 0 := by decide

/-- The stack at the top of the address space, and at the limit of the zone. -/
theorem witness_Subroutines : machine.relayOk (onC 0#8) = true
    ∧ (machine.setReg .k 0xFFFF#16).canWrite machine.stackRelocated ((machine.setReg .k 0xFFFF#16).r.K + 1#16) = true
    ∧ machine.canRead machine.relocated (machine.effective (onC 0#8)) = true
    ∧ (slaveMachine.setReg .k 0x0FFF#16).canRead slaveMachine.stackRelocated 0x0FFF#16 = true := by decide

theorem witness_SupervisorCall : machine.svcOk = true ∧ slaveMachine.svcOk = true
    ∧ { slaveMachine with st := { slaveMachine.st with PR := true } }.svcOk = true
    ∧ machine.cfg.is0405 = false ∧ machine.canRead machine.stackRelocated machine.r.K = true
    ∧ machine04.cfg.is0405 = true := by decide

theorem witness_AbsentExtensions : machine04.absentOk = true ∧ machine04.cfg.hasFfp16 = false ∧ machine04.cfg.hasFfpPartial = false
    ∧ machine04.cfg.hasCda16 = false ∧ machine04.cfg.hasCdaRwOnly = false ∧ machine04.cfg.hasIsp16 = false
    ∧ machine04.cfg.hasXmr = false := by decide

/-- The 40 with the partial FFP microprogram, the 35 with RCDA and WCDA only. -/
theorem witness_AbsentExtensions_partial :
    (let s := { machine with cfg := { Config.standard with model := .m40, ffpOption := false, ffpPartialUcode := true } }
     s.absentOk = true ∧ s.cfg.hasFfp16 = false ∧ s.cfg.hasFfpPartial = true)
    ∧ (onModel .m35).absentOk = true ∧ (onModel .m35).cfg.hasCda16 = false ∧ (onModel .m35).cfg.hasCdaRwOnly = true := by decide

/-- All eight registers, across the top of the address space. -/
theorem witness_RegisterStacks : Memory.wf machine.mem = true
    ∧ (∀ i < (selectedRegs 0xFF#8).length, (machine.setReg .k 0xFFFC#16).canWrite machine.stackRelocated
      (0xFFFC#16 + BitVec.ofNat 16 (i + 1)) = true)
    ∧ .k ∈ selectedRegs 0xFF#8 ∧ (selectedRegs 0xFF#8).length = 7 + 1 ∧ .k ∉ selectedRegs 0xFE#8 ∧ (selectedRegs 0xFE#8).length = 7
    ∧ machine.canRead machine.stackRelocated 0#16 = true
    ∧ (∀ i < 7, machine.canRead machine.stackRelocated (3#16 - BitVec.ofNat 16 i) = true)
    ∧ (∀ i < 8, { machine with P := 0xFFFC#16 }.canRead machine.relocated (0xFFFC#16 + BitVec.ofNat 16 (i + 1)) = true) := by decide

theorem witness_RegisterStacks_pushThenPull : Memory.wf machine.mem = true
    ∧ (∀ i < (selectedRegs 0xFF#8).length, machine.canWrite machine.stackRelocated (machine.r.K + BitVec.ofNat 16 (i + 1)) = true) := by decide

/-- A stack with a header. -/
def stackOf (h : Word) : Bool :=
  let s := poke [(0#16, h)] machine
  s.canRead s.relocated s.r.Y && s.wordAt s.relocated s.r.Y == h && s.canWrite s.relocated (BitVec.ofNat 16 (h.toNat % 256 + 1))
    && s.canRead s.relocated (BitVec.ofNat 16 (h.toNat % 256))

/-- The headers 255 :: 255, 255 :: 254, 1 :: 0 and 1 :: 1. -/
theorem witness_PushPull : machine04.cfg.hasPushPullSbs = false ∧ machine.cfg.hasPushPullSbs = true
    ∧ ([0xFFFF#16, 0xFFFE#16, 0x0100#16, 0x0101#16].all stackOf) = true := by decide

/-- X = Y; X = -1; found; not found with a rank left, and at the last rank, 32766. -/
theorem witness_ByteSearch : machine.cfg.hasPushPullSbs = true ∧ s16 machine.r.Y ≤ s16 machine.r.X
    ∧ (let s := machine.setReg .x 0xFFFF#16
       s16 s.r.X < s16 s.r.Y ∧ s16 s.r.X < 0)
    ∧ (let s := (machine.setReg .x 0x7FFE#16).setReg .y 0x7FFF#16
       s16 s.r.X < s16 s.r.Y ∧ 0 ≤ s16 s.r.X ∧ s.canRead s.relocated (s.r.B + BitVec.ofNat 16 (s.r.X.toNat / 2)) = true
        ∧ s.r.A.toNat = (s.wordAt s.relocated (s.r.B + BitVec.ofNat 16 (s.r.X.toNat / 2))).toNat / 256
        ∧ s16 s.r.X + 1 = s16 s.r.Y)
    ∧ (let s := (machine.setReg .y 2#16).setReg .a 1#16
       s.r.A.toNat ≠ (s.wordAt s.relocated s.r.B).toNat / 256 ∧ s16 s.r.X + 1 < s16 s.r.Y) := by decide

/-- X - 1 at '8000, '7FFF and 0; the parameters of BMOVE read, or held. -/
theorem witness_BlockMoves : 32768 ≤ ((machine.setReg .x 0x8001#16).r.X - 1#16).toNat
    ∧ ((machine.setReg .x 0x8000#16).r.X - 1#16).toNat < 32768 ∧ ((machine.setReg .x 1#16).r.X - 1#16).toNat < 32768
    ∧ machine.slave = false ∧ machine.cfg.hasCda16 = true ∧ machine.longOk (.regs 0#16) = true ∧ machine.longOk (.mem 0x4000#16 0x4001#16) = true
    ∧ { machine with heldOperands := some (0#16, 0#16) }.longOk (.mem 0x4000#16 0x4001#16) = true
    ∧ machine.canRead machine.relocated 0x7FFF#16 = true ∧ machine.canWrite machine.relocated 0x7FFF#16 = true
    ∧ machine.canRead machine.cfg.hasDrps 15#16 = true ∧ machine.canWrite machine.cfg.hasDrps 15#16 = true
    ∧ machine.storable (absolute 0x7FFF#16) = true ∧ machine.sound (absolute 0x7FFF#16) = true := by decide

/-- The last word of the common data area, the limits being read, or held; one word more. -/
theorem witness_BlockMoves_cda : (let s := having 0#16 0#16 0#16 16#16 0#16 [(0x0018#16, 0x0100#16), (0x0019#16, 0x0100#16)]
    s.zoneOk s.cdaLim ∧ { s with heldOperands := some (0#16, 0#16) }.zoneOk (0#16, 0#16)
    ∧ s.sound (basedEA s.cdaLim.1 (s.r.A + 15#16)) = true ∧ s.storable (basedEA s.cdaLim.1 (s.r.A + 15#16)) = true
    ∧ s.canWrite s.relocated (s.r.B + 15#16) = true ∧ s.canRead s.relocated (s.r.B + 15#16) = true
    ∧ s.heldOperands = none ∧ s.cdaReady = true
    ∧ s.cdaLim.2.toNat * 16 + 15 < s.cdaLim.1.toNat * 16 + (1 + ((s.setReg .x 16#16).r.X - 1#16).toNat)) :=
  ⟨.inr (by decide), .inl rfl, by decide⟩

/-- A destination that overlaps the source from above. -/
theorem witness_MoveCopiesBlock : (let s := having 0#16 0x1000#16 0x1001#16 3#16 0#16 []
    Memory.wf s.mem = true ∧ s.r.X.toNat = 3
    ∧ (∀ i < 3, s.canRead s.relocated (s.r.A + BitVec.ofNat 16 i) = true ∧ s.canWrite s.relocated (s.r.B + BitVec.ofNat 16 i) = true)
    ∧ (∀ j < 3, ∀ i < j, s.r.A + BitVec.ofNat 16 i ≠ s.r.B + BitVec.ofNat 16 j)) := by decide

/-- The floating-point values -32768 and 32767, 0, and the values just beyond -32768 and at 32768. -/
theorem float_bounds : floatValue (0xC010#16, 0#16) = -32768 ∧ floatValue (0x7F0F#16, 0xFF00#16) = 32767
    ∧ floatValue (0x0080#16, 0#16) = 0 ∧ floatValue (0xBF10#16, 0xFFFF#16) < -32768 ∧ 32767 < floatValue (0x4010#16, 0#16) := by
  have h1 : mant 0xC010#16 0#16 = -4194304 ∧ expo 0xC010#16 = 16 := by decide
  have h2 : mant 0x7F0F#16 0xFF00#16 = 8388352 ∧ expo 0x7F0F#16 = 15 := by decide
  have h3 : mant 0x0080#16 0#16 = 0 ∧ expo 0x0080#16 = -128 := by decide
  have h4 : mant 0xBF10#16 0xFFFF#16 = -4194305 ∧ expo 0xBF10#16 = 16 := by decide
  have h5 : mant 0x4010#16 0#16 = 4194304 ∧ expo 0x4010#16 = 16 := by decide
  refine ⟨?_, ?_, ?_, ?_, ?_⟩ <;> simp only [floatValue, h1, h2, h3, h4, h5] <;> norm_num

theorem witness_FloatRegisters : machine.cfg.hasFfp16 = true ∧ mant 0x8000#16 0#16 = -8388608 ∧ mant 0#16 0#16 ≠ -8388608
    ∧ floatValue (0xC010#16, 0#16) = -32768 ∧ floatValue (0x7F0F#16, 0xFF00#16) = 32767
    ∧ floatValue (0xBF10#16, 0xFFFF#16) < -32768 ∧ 32767 < floatValue (0x4010#16, 0#16) :=
  ⟨by decide, by decide, by decide, float_bounds.1, float_bounds.2.1, float_bounds.2.2.2⟩

/-- An operator that hands unnormalised numbers to SVC 0. -/
def strict : State := { machine with cfg := { Config.standard with ffpUnnormSvc := true } }

theorem witness_FloatTransfers : machine.cfg.hasFfp16 = true ∧ machine.pairOk (onC 0#8) = true ∧ machine.operatorTakes (onC 0#8) = true
    ∧ machine.relayOk (onC 0x7F#8) = true ∧ machine.canWrite machine.relocated (machine.effective (onC 0x7F#8)) = true
    ∧ machine.canWrite machine.relocated (machine.effective (onC 0x7F#8) + 1#16) = true
    ∧ strict.operatorTakes (onC 0#8) = false ∧ strict.absentOk = true ∧ strict.pairOk (onC 0#8) = true
    ∧ (poke [(0#16, 0x4001#16)] (strict.setReg .a 0x4001#16)).operatorTakes (onC 0#8) = true := by decide

theorem witness_FloatArithmetic : machine.cfg.hasFfp16 = true ∧ (poke [(0#16, 0x4010#16)] machine).pairOk (onC 0#8) = true
    ∧ (poke [(0#16, 0x4010#16)] machine).operatorTakes (onC 0#8) = true
    ∧ floatValue ((poke [(0#16, 0x4010#16)] machine).pair (onC 0#8)) ≠ 0
    ∧ floatValue ((poke [(0#16, 0x0080#16)] machine).pair (onC 0#8)) = 0 := by
  refine ⟨by decide, by decide, by decide, ?_, ?_⟩
  · rw [show (poke [(0#16, 0x4010#16)] machine).pair (onC 0#8) = (0x4010#16, 0#16) from by decide]
    have := float_bounds.2.2.2.2
    intro h
    rw [h] at this
    norm_num at this
  · rw [show (poke [(0#16, 0x0080#16)] machine).pair (onC 0#8) = (0x0080#16, 0#16) from by decide]
    exact float_bounds.2.2.1

/-- X = Y; bit 15 of the first word found; none found, with next < Y and next = Y; and the same words for BDBTM. -/
theorem witness_BitSearch : machine.cfg.hasCda16 = true ∧ s16 machine.r.Y ≤ s16 machine.r.X ∧ machine.longOk (.regs 0#16) = true
    ∧ (let s := (poke [(0#16, 1#16)] machine).setReg .y 16#16
       s.canRead s.relocated (s.r.A + u16 (s16 s.r.X / 16)) = true ∧ bit (s.wordAt s.relocated (s.r.A + u16 (s16 s.r.X / 16))) 15 = true
        ∧ (∀ p < 15, bit (s.wordAt s.relocated (s.r.A + u16 (s16 s.r.X / 16))) p = false) ∧ (15 : Int) < s16 s.r.Y
        ∧ s.sound (basedEA (s.paramsHeld (.regs 0#16)).1 ((s.paramsHeld (.regs 0#16)).2 + u16 (s16 s.r.X / 16))) = true)
    ∧ (∀ p < 16, bit (machine.wordAt machine.relocated machine.r.A) p = false)
    ∧ (16 : Int) < s16 (machine.setReg .y 17#16).r.Y ∧ s16 (machine.setReg .y 16#16).r.Y = 16 := by decide

/-- The ranks -32768, -1 and 32767. -/
theorem witness_BitWrites : machine.cfg.hasCda16 = true ∧ machine.basedOk (.regs 0#16) = true
    ∧ ([0x8000#16, 0xFFFF#16, 0x7FFF#16].all fun x => machine.canRead machine.relocated (machine.r.A + u16 (s16 x / 16))
      && machine.sound (basedEA 0#16 (0#16 + u16 (s16 x / 16)))) = true := by decide

/-- A list of one element at '3000 and a list of two, '3000 and '3010. -/
def oneQueue : List (Word × Word) := [(0x3000#16, 0x3000#16), (0x3001#16, 0x3000#16)]
def twoQueue : List (Word × Word) :=
  [(0x3000#16, 0x3010#16), (0x3001#16, 0x3010#16), (0x3010#16, 0x3000#16), (0x3011#16, 0x3000#16)]

theorem witness_Queues : machine.cfg.hasCda16 = true
    ∧ ([0x3000#16, 0x3001#16, 0x3010#16, 0x3011#16].all fun a => (poke twoQueue machine).canRead machine.relocated a
      && (poke twoQueue machine).canWrite machine.relocated a) = true
    ∧ (poke oneQueue machine).wordAt machine.relocated 0x3000#16 = 0x3000#16
    ∧ (poke oneQueue machine).wordAt machine.relocated 0x3001#16 = 0x3000#16
    ∧ (poke twoQueue machine).wordAt machine.relocated 0x3000#16 ≠ 0x3000#16
    ∧ (poke twoQueue machine).wordAt machine.relocated 0x3001#16 ≠ 0x3000#16 := by decide

theorem witness_Queues_insertThenSuppress : (let s := having 0#16 0x3020#16 0x3000#16 0#16 0#16 twoQueue
    let n := s.wordAt s.relocated s.r.B
    s.cfg.hasCda16 = true ∧ Memory.wf s.mem = true ∧ ([s.r.A, s.r.A + 1#16, s.r.B, n + 1#16].all fun a => s.canRead s.relocated a) = true
    ∧ s.wordAt s.relocated (n + 1#16) = s.r.B ∧ n ≠ s.r.A ∧ n + 1#16 ≠ s.r.B ∧ s.r.A ≠ s.r.B ∧ s.r.A + 1#16 ≠ s.r.B
    ∧ s.r.A ≠ n + 1#16) := by decide

/-- The last word of memory, then the first. -/
theorem witness_BasedAccess : (let s := ((machine.setReg .y 0xFFFF#16).setReg .b 0x000F#16).setReg .x 0xFFFF#16
    s.basedOk (.regs 0x0019#16) = true ∧ s.params (.regs 0x0019#16) = (0xFFFF#16, 0x000F#16)
    ∧ s.sound 0xFFFFF#20 = true ∧ s.storable 0xFFFFF#20 = true ∧ s.sound 0x00000#20 = true ∧ s.storable 0x00000#20 = true
    ∧ (0xFFFFF#20 : PAddr).toNat = (65535 * 16 + 15) % 1048576 ∧ (0x00000#20 : PAddr).toNat = (65535 * 16 + 16) % 1048576
    ∧ (0xFFFFE#20 : PAddr).toNat = (65535 * 16 + (15#16 + u16 (s16 s.r.X / 2)).toNat) % 1048576) := by decide

/-- An area of 16 words: the ranks 14, 15, of which only the first word is inside, and 16. -/
theorem witness_CdaAccess : ([14#16, 15#16, 16#16].all fun d =>
    let s := poke [(0x0018#16, 0x0100#16), (0x0019#16, 0x0100#16), (0x0300#16, d)] machine
    s.cdaOperandOk 0x0300#16 && s.cdaD16 0x0300#16 == d && s.cdaLim == (0x0100#16, 0x0100#16)
      && s.sound (basedEA 0x0100#16 d) && s.storable (basedEA 0x0100#16 d)) = true
    ∧ (0x0100#16 : Word).toNat * 16 + (15#16 : Word).toNat ≤ (0x0100#16 : Word).toNat * 16 + 15
    ∧ (0x0100#16 : Word).toNat * 16 + 15 < (0x0100#16 : Word).toNat * 16 + (15#16 + 1#16 : Word).toNat := by decide

theorem witness_LostInstructions : machine.slave = false ∧ machine.cfg.hasIsp16 = true ∧ machine.cfg.hasXctx = true
    ∧ machine.st.MS = true ∧ slaveMachine.st.MS = false ∧ (onModel .m35).cfg.hasIsp16 = true
    ∧ (onModel .m35).cfg.hasXctx = false := by decide

theorem witness_SystemRegisters : machine.slave = false ∧ machine.cfg.hasDrps = true ∧ machine04.slave = false
    ∧ machine04.cfg.hasDrps = false := by decide

/-- A coupler of level 15 that asks in both ways. -/
def asking : Coupler := ⟨5#14, false, none, none, none, none, 15#4, some 15, some 47, false, false, 0#16, false⟩

theorem witness_Acknowledge : machine.HV = 0#16 ∧ { machine with powerFailActive := true }.powerFailActive = true
    ∧ bit { machine with HV := 0x8000#16 }.HV 0 = true ∧ bit { machine with HV := 1#16 }.HV 15 = true
    ∧ (∀ k < 15, bit { machine with HV := 1#16 }.HV k = false) ∧ machine.powerFailActive = false
    ∧ asking.level.toNat = 15 ∧ asking.toChannel = false ∧ asking.normalPending.map Fin.val = some 15
    ∧ asking.exceptionPending.map Fin.val = some 47 := by decide

theorem witness_StatusAccess : machine.slave = false ∧ machine.cfg.wf = true := by decide

/-- At the limit, 15, and just beyond it. -/
theorem witness_RelativeAccess : (let s := machine.setReg .y 15#16
    s.slave = false ∧ s.canRead s.cfg.hasDrps s.r.Y = true ∧ s.canWrite s.cfg.hasDrps s.r.Y = true)
    ∧ (machine.setReg .y 16#16).limit < (machine.setReg .y 16#16).r.Y.toNat ∧ machine.cfg.hasDrps = true
    ∧ (let s := { machine with cfg := { Config.standard with model := .m65, pVariant := true } }.setReg .y 15#16
       s.cfg.hasXmr = true ∧ s.cfg.hasDrps = true ∧ s.canRead s.cfg.hasDrps s.r.Y = true ∧ s.limit < (s.setReg .y 16#16).r.Y.toNat) := by decide

/-- Words in good and in bad parity, in DEBUG and not; no parity; no word. -/
theorem witness_Breakpoints : machine.slave = false ∧ (machine.setReg .y 15#16).allowed machine.cfg.hasDrps 15#16 = true
    ∧ machine.cfg.exists (machine.place machine.cfg.hasDrps 15#16) = true ∧ machine.cfg.parity = true
    ∧ (machine.place machine.cfg.hasDrps 15#16).toNat ∉ machine.badParity
    ∧ (let s := { machine with badParity := [15] }
       (s.place s.cfg.hasDrps 15#16).toNat ∈ s.badParity ∧ s.st.MAINT = false ∧ s.st.DEBUG = false)
    ∧ (let s := { machine with badParity := [15], st := { machine.st with DEBUG := true } }
       (s.place s.cfg.hasDrps 15#16).toNat ∈ s.badParity ∧ s.st.DEBUG = true)
    ∧ (let s := { machine with cfg := { Config.standard with parity := false, memRanges := [(0, 14)] } }
       s.cfg.parity = false ∧ s.cfg.exists (s.place s.cfg.hasDrps 14#16) = true
        ∧ s.cfg.exists (s.place s.cfg.hasDrps 15#16) = false ∧ s.cfg.is0405 = false ∧ s.allowed s.cfg.hasDrps 15#16 = true) := by decide

/-- A coupler with every register, and one with none. -/
def full : Coupler := { asking with dataIn := some 1#16, dataOut := some 2#16, statusIn := some 3#16, command := some 4#16 }

theorem witness_InputOutput : (∀ op < 4, (let s := poke [(0#16, BitVec.ofNat 16 (4 * 5 + op))] { machine with couplers := [asking] }
    s.slave = false ∧ s.operandOk (onC 0#8) = true ∧ (s.operand (onC 0#8)).toNat = 4 * (5#14 : BitVec 14).toNat + op
      ∧ s.coupler? 5#14 = some asking ∧ s.coupler? 6#14 = none ∧ { s with couplers := [full] }.coupler? 5#14 = some full)) := by decide

/-- One period and 65536; 1 or 65535 periods left and nothing electable; a level that asks, unmasked, or a power-fail, with alarm 7 armed or
not. -/
theorem witness_HaltCounts : (machine.setReg .x 1#16).r.X.toNat = 1 ∧ machine.r.X = 0#16 ∧ machine.inputs = [] ∧ machine.st.STOP = false
    ∧ machine.alarmStop = false ∧ machine.breakSeen = false ∧ machine.stepArmed = false ∧ machine.electable = .idle
    ∧ ([1, 65535].all fun r => { machine with haltLeft := r }.electable == .idle && { machine with haltLeft := r }.haltLeft == r
      && { unmasked with couplers := [asking], haltLeft := r }.electable == .level 15
      && { unmasked with couplers := [asking], haltLeft := r, stepArmed := true }.electable == .level 15
      && { unmasked with powerFailPending := true, haltLeft := r }.electable == .powerFail) = true := by decide

theorem witness_PrivilegedTrap : slaveMachine.slave = true ∧ (∀ i ∈ [Instr.acq, .romb, .arm false 0#7, .bla false (.regs 0#16)],
    Instr.privileged slaveMachine.cfg i = true) ∧ slaveMachine.cfg.hasXctx = true ∧ slaveMachine.cfg.is0405 = false
    ∧ slaveMachine.st.MS = false := by decide

/-- The machine with the PSTH of 95_test_vectors.md B.8 can take an alarm. -/
theorem alarm_ready : (poke psthWords machine).AlarmReady :=
  ⟨calm_standard _ (by decide) (by decide) _, by decide, by decide, by simp only [State.psthApart]; decide, .inl (by decide)⟩

theorem witness_AlarmTaken : (poke psthWords machine).AlarmReady ∧ Alarm.memoryProtection.abandons = true := ⟨alarm_ready, by decide⟩

theorem witness_AlarmTaken_stops : { machine with powerFailActive := true }.powerFailActive = true ∧ machine.powerFailActive = false
    ∧ bit { machine with HV := 0x8000#16 }.HV 0 = true ∧ Alarm.actd ≠ .wakeUp ∧ Alarm.actd ≠ .breakpoint := by decide

/-- What ACQ in the immediate task i leaves before the election. -/
def acquitted (s : State) (i : Nat) : State := ({ s.unmask.ends 1 with HV := setBit s.HV i false } : State).exchanged (s.psthOf i)

/-- The task 1 above the task 4, with the PSTH of 95_test_vectors.md B.8, and a wake-up in the mailbox at '0010. -/
def nested : State := poke ((0x000E#16, 0x0010#16) :: (0x0010#16, 0x0018#16) :: (0x0018#16, 0x8000#16) :: psthWords) { unmasked with HV := 0x4800#16 }

/-- Nothing asked for; the power-fail; level 3, whose context is in master mode; a wake-up, alarm 6. -/
theorem witness_AcquitReturns : nested.slave = false ∧ nested.powerFailActive = false ∧ nested.powerFailPending = false
    ∧ nested.ipiRequest = false ∧ bit nested.HV 1 = true ∧ bit nested.HV 0 = false ∧ nested.calm (0x0002#16 :: contextAt (nested.psthOf 1))
    ∧ (acquitted nested 1).HV ≠ 0#16 ∧ (∀ l < 16, 1 ≤ l → nested.pending l = false)
    ∧ (acquitted nested 1).calm (0x0006#16 :: contextAt ((acquitted nested 1).abs 0x0006#16))
    ∧ { nested with couplers := [{ asking with level := 3#4 }] }.pending 3 = true ∧ bit nested.IM 3 = false
    ∧ (∀ k ≤ 3, bit (acquitted nested 1).HV k = false)
    ∧ (acquitted nested 1).calm (0x0002#16 :: contextAt ((acquitted nested 1).psthOf 3)) ∧ (acquitted nested 1).psthMaster 3 :=
  ⟨by decide, by decide, by decide, by decide, by decide, by decide, calm_standard _ rfl (by decide) _, by decide, by decide,
    calm_standard _ rfl (by decide) _, by decide, by decide, by decide, calm_standard _ rfl (by decide) _, .inl (by decide)⟩

theorem witness_AcquitReturns_wakeUp : ∃ u v, serveIpi (acquitted { nested with ipiRequest := true } 1) = .alarm .wakeUp u
    ∧ raiseAlarm .wakeUp { u with phase := .abandoned } = .ok () v := ⟨_, _, rfl, rfl⟩

/-- A stepped ACQ whose service of the inter-processor interrupt meets alarm 6: alarm 7 is dropped and the alarm task runs. -/
theorem test_stepped_acq_wakeUp : seen (fun t => (t.alarmStop, t.stepArmed, bit t.HV 0))
    (endOfInstruction true [0x1E00#16] (exec .acq { nested with ipiRequest := true, stepArmed := true })) = some (false, false, true) := by
  decide

/-- The last immediate task, with the queues of `tasks`; a deferred task. -/
theorem witness_AcquitReturns_deferred : (let s := poke (tasks ++ [(0x0020#16, 0x2400#16)]) { machine with HV := 1#16 }
      bit s.HV 15 = true ∧ (∀ k < 15, bit s.HV k = false) ∧ s.slave = false ∧ s.cfg.hasSched = true
        ∧ s.cfg.exists 0x0000F#20 = true ∧ (acquitted s 15).HV = 0#16 ∧ (acquitted s 15).electionOk)
    ∧ (poke tasks machine).HV = 0#16 ∧ (poke tasks machine).schedulable :=
  ⟨⟨by decide, by decide, by decide, by decide, by decide, by decide, by decide, calm_standard _ rfl (by decide) _⟩, by decide,
    by decide, .inr ⟨by decide, calm_standard _ rfl (by decide) _⟩⟩

/-- The twelfth word of a full context is SLE, its 16 bits (20_memory.md R69, D10). -/
theorem test_loadContext_sle : seen (fun t => (t.SLO, t.SLE)) (loadContext 0x0600#16
    (poke [(0x060A#16, 0x2000#16), (0x060B#16, 0x20FF#16)] machine)).outcome = some (0x2000#16, 0x20FF#16) := by decide

theorem witness_AlarmThenAcq : (poke psthWords { machine with HV := 0x1000#16 }).AlarmReady
    ∧ (let s := poke psthWords { machine with HV := 0x1000#16 }
       s.HV ≠ 0#16 ∧ s.powerFailPending = false ∧ s.ipiRequest = false
        ∧ (∀ l < 16, 1 ≤ l → s.pending l = true → bit s.IM l = true) ∧ bit (s.abs (s.psthOf 0 + 3#16)) 0 = true) :=
  ⟨⟨calm_standard _ (by decide) (by decide) _, by decide, by decide, by simp only [State.psthApart]; decide, .inl (by decide)⟩,
    by decide⟩

/-- The levels 1 and 15, the power-fail, the inter-processor interrupt, nothing. -/
theorem witness_ElectionOrder : { unmasked with couplers := [asking] }.electable = .level 15
    ∧ { unmasked with couplers := [asking, { asking with key := 6#14, level := 1#4 }] }.electable = .level 1
    ∧ { unmasked with powerFailPending := true, ipiRequest := true }.electable = .powerFail
    ∧ { unmasked with ipiRequest := true, couplers := [asking] }.electable = .ipi
    ∧ { unmasked with HV := 1#16, couplers := [asking] }.electable = .idle := by decide

theorem witness_TasksStarted :
    (let s := poke [(0x0002#16, 0x0200#16), (0x023F#16, 0x8000#16)] unmasked
     s.inputs = [] ∧ s.st.STOP = false ∧ s.alarmStop = false ∧ s.haltLeft = 0 ∧ s.breakSeen = false
      ∧ { s with couplers := [asking] }.electable = .level 15 ∧ { s with powerFailPending := true }.electable = .powerFail
      ∧ s.psthMaster 15 ∧ s.calm (0x0002#16 :: contextAt (s.psthOf 15)) ∧ s.calm (0x0006#16 :: contextAt (s.abs 0x0006#16))) :=
  ⟨by decide, by decide, by decide, by decide, by decide, by decide, by decide, .inl (by decide), calm_standard _ rfl (by decide) _,
    calm_standard _ rfl (by decide) _⟩

/-- A machine that an inter-processor interrupt asks, with words given after the PSTH of 95_test_vectors.md B.8. -/
def interrupted (l : List (Word × Word)) : State := poke (psthWords ++ l) { unmasked with ipiRequest := true }

/-- Empty; a wake-up; a CCB that asks for a report. -/
theorem witness_IpiService :
    (let s := interrupted []
     s.inputs = [] ∧ s.st.STOP = false ∧ s.alarmStop = false ∧ s.haltLeft = 0 ∧ s.breakSeen = false ∧ s.held = []
      ∧ s.electable = .ipi ∧ s.cfg.hasXmr = false ∧ s.calm [0x000E#16, s.abs 0x000E#16 + BitVec.ofNat 16 s.cfg.procId]
      ∧ s.abs (s.abs 0x000E#16 + BitVec.ofNat 16 s.cfg.procId) = 0#16)
    ∧ (let s := interrupted [(0x000E#16, 0x0010#16), (0x0010#16, 0x0018#16), (0x0018#16, 0x8000#16)]
       s.electable = .ipi ∧ s.abs 0x0010#16 ≠ 0#16 ∧ s.sound (absolute 0x0018#16) = true ∧ s.abs (s.abs 0x0010#16) = 0x8000#16
        ∧ s.cfg.is0405 = false ∧ bit s.HV 0 = false ∧ (s.store (absolute 0x0010#16) 0#16).AlarmReady)
    ∧ ∃ v, channelCommand 0x0500#16 (interrupted [(0x000E#16, 0x0010#16), (0x0010#16, 0x0500#16), (0x0500#16, 0x1000#16),
        (0x0501#16, 0x8000#16)]) = .ok () v
      ∧ v.breakSeen = false ∧ v.storable (absolute 0x0010#16) = true ∧ v.HV = 0#16 ∧ v.held = [] ∧ v.haltLeft = 0 :=
  ⟨⟨by decide, by decide, by decide, by decide, by decide, by decide, by decide, by decide, calm_standard _ rfl (by decide) _, by decide⟩,
    ⟨by decide, by decide, by decide, by decide, by decide, by decide, ⟨calm_standard _ rfl (by decide) _, by decide, by decide,
      by simp only [State.psthApart]; decide, .inl (by decide)⟩⟩,
    _, rfl, by decide, by decide, by decide, by decide, by decide⟩

/-- The box of a 65P at '0600 wakes it; empty; no table. -/
theorem witness_IpiService_abox2 :
    ([0x8000#16, 0x0001#16].all fun w =>
      let s := { interrupted [(0x001E#16, 0x0060#16), (0x0600#16, w)] with cfg := { Config.standard with model := .m65, pVariant := true } }
      s.cfg.hasXmr && s.sound 0x0001E#20 && s.abs 0x001E#16 == 0x0060#16 && s.electable == .ipi
        && s.sound (basedEA 0x0060#16 (BitVec.ofNat 16 s.cfg.procId))
        && readWord s.mem (basedEA 0x0060#16 (BitVec.ofNat 16 s.cfg.procId)) == w) = true := by decide

theorem witness_PrivilegedTrap_scheduler : machine04.cfg.hasSched = false ∧ machine.cfg.hasSched = true ∧ slaveMachine.slave = true
    ∧ slaveMachine.cfg.hasSched = true ∧ { machine with HV := 1#16 }.HV ≠ 0#16
    ∧ { machine with powerFailActive := true }.powerFailActive = true := by decide

/-- ARM of tasks 0 and 127, alone; QUIT with another task left; any of them in an immediate task. -/
theorem witness_ArmAndQuit : machine.cfg.hasSched = true ∧ machine.slave = false ∧ machine.sound (absolute (stringWord 0x0020#16 127)) = true
    ∧ ((poke [(0x0028#16, 0xFFFF#16)] machine).withQueueBit 0x0020#16 0 true).schedulable
    ∧ ((poke [(0x002F#16, 0xFFFF#16)] machine).withQueueBit 0x0020#16 127 true).schedulable
    ∧ (let s := poke (tasks ++ [(0x0020#16, 0x2400#16)]) machine
       s.inImmediate = false ∧ s.calm [0x0000#16, stringWord 0x0020#16 s.runningTask]
        ∧ (s.withQueueBit 0x0020#16 5 false).schedulable)
    ∧ { machine with HV := 1#16 }.schedulable :=
  ⟨by decide, by decide, by decide, ⟨by decide, .inr ⟨by decide, calm_standard _ rfl (by decide) _⟩⟩,
    ⟨by decide, .inr ⟨by decide, calm_standard _ rfl (by decide) _⟩⟩,
    ⟨by decide, calm_standard _ rfl (by decide) _, by decide, .inr ⟨by decide, calm_standard _ rfl (by decide) _⟩⟩,
    by decide, .inl (by decide)⟩

/-- Counters 1, 0 and -1; task 2 in the queue at '0401; an empty queue. -/
theorem witness_MutualExclusion : machine.cfg.hasSched = true ∧ machine.slave = false ∧ machine.operandOk (onC 0#8) = true
    ∧ 0 ≤ (counted 1#16 (-1)).toInt ∧ (counted 0#16 (-1)).toInt < 0 ∧ 0 < (counted 0#16 1).toInt ∧ (counted 0x00FF#16 1).toInt ≤ 0
    ∧ machine.calm [0x0000#16, stringWord 0x0028#16 machine.runningTask]
    ∧ (poke (tasks ++ [(0x0020#16, 0x2400#16)]) machine).schedulable
    ∧ ((poke (tasks ++ [(0x0020#16, 0x2400#16)]) machine).withQueueBit 0x0028#16 5 false).schedulable
    ∧ bit ((poke [(0x0401#16, 0x2000#16)] machine).wordAt machine.relocated 0x0401#16) 2 = true
    ∧ machine.sound (absolute (stringWord 0x0028#16 (16 * 7 + 15))) = true
    ∧ (∀ j < 8, machine.wordAt machine.relocated (0x0401#16 + BitVec.ofNat 16 j) = 0#16
      ∧ machine.canRead machine.relocated (0x0401#16 + BitVec.ofNat 16 j) = true) :=
  ⟨by decide, by decide, by decide, by decide, by decide, by decide, by decide, calm_standard _ rfl (by decide) _,
    ⟨by decide, .inr ⟨by decide, calm_standard _ rfl (by decide) _⟩⟩,
    ⟨by decide, .inr ⟨by decide, calm_standard _ rfl (by decide) _⟩⟩, by decide, by decide, by decide⟩

/-- A plain and a call semaphore, the ranks 32767 and 32768. -/
theorem witness_PrivateSemaphores : machine.cfg.hasSched = true ∧ machine.slave = false ∧ machine.operandOk (onC 0#8) = true
    ∧ machine.inImmediate = false ∧ machine.sound (absolute 0x0000#16) = true
    ∧ machine.sound (absolute (stringWord 0x0028#16 127)) = true ∧ bit (0x0500#16 : Word) 0 = false ∧ bit (0x8500#16 : Word) 0 = true
    ∧ (machine.setReg .y 0x7FFF#16).r.Y.toNat < 32768 ∧ 32768 ≤ (machine.setReg .y 0x8000#16).r.Y.toNat
    ∧ machine.canRead machine.relocated (0#16 + 1#16 + BitVec.ofNat 16 (0x7FFF / 16)) = true
    ∧ (poke (tasks ++ [(0x0020#16, 0x2400#16)]) machine).schedulable ∧ (poke tasks machine).schedulable :=
  ⟨by decide, by decide, by decide, by decide, by decide, by decide, by decide, by decide, by decide, by decide, by decide,
    ⟨by decide, .inr ⟨by decide, calm_standard _ rfl (by decide) _⟩⟩,
    by decide, .inr ⟨by decide, calm_standard _ rfl (by decide) _⟩⟩

theorem witness_RoundTrip : IspCoding.placeholder.wf = true ∧ Instr.wf .placeholder (.ad (onC 0x80#8)) = true
    ∧ Instr.wf .placeholder (.bmove true (.mem 0xFFFF#16 0#16)) = true := by decide

/-- One word (LA C+5), two words, words no instruction has, a MOVE held; STOP waiting for its latency. -/
theorem witness_StepRunsDecoded : machine.fetches
    ∧ (let s := poke [(0x0100#16, 0x5005#16)] machine
       s.canRead s.relocated s.P = true ∧ fetchCount s.cfg (s.wordAt s.relocated s.P) = 1
        ∧ decodeWords s.cfg.isp [s.wordAt s.relocated s.P] = .instr (.la (onC 5#8)) [])
    ∧ (let s := poke [(0x0100#16, 0x3F00#16), (0x0101#16, 0x0001#16)] machine
       s.canRead s.relocated (s.P + 1#16) = true ∧ fetchCount s.cfg (s.wordAt s.relocated s.P) = 2
        ∧ decodeWords s.cfg.isp [s.wordAt s.relocated s.P, s.wordAt s.relocated (s.P + 1#16)] = .instr .wcda [])
    ∧ decodeWords .placeholder [0x1E20#16] = .unassigned none
    ∧ decodeWords .placeholder [0x3B00#16, 0#16] = .unassigned (some 3#3) ∧ machine.lacksUnit 3#3 0x3B00#16 ∧ machine.absentOk = true
    ∧ decodeWords .placeholder [0x3F00#16, 2#16] = .unassigned (some 7#3) ∧ ¬machine.lacksUnit 7#3 0x3F00#16
    ∧ decodeWords .placeholder [0x3C20#16, 0#16] = .tooShort ∧ fetchCount (onModel .m40).cfg 0x3C20#16 = 2
    ∧ { machine with held := [0x1E09#16] }.ready ∧ decodeWords .placeholder [0x1E09#16] = .instr .move []
    ∧ { machine with st := { machine.st with STOP := true }, stopDelay := 1 }.stopped = false :=
  ⟨⟨⟨rfl, by decide, rfl, by decide⟩, rfl⟩, by decide, by decide, by decide, by decide, ⟨by decide, by decide, by decide⟩, by decide,
    by decide, fun h => absurd (h.2.2 rfl).1 (by decide), by decide, by decide, ⟨rfl, by decide, rfl, by decide⟩, by decide, by decide⟩

/-- The word '0100 in bad parity in DEBUG mode: an operand, then the first word of an instruction. -/
def breaking : State := poke psthWords { machine with badParity := [0x0100], st := { machine.st with DEBUG := true } }

theorem witness_BreakpointsMet :
    (let s := breaking.setReg .c 0x0100#16
     s.allowed s.relocated (s.effective (onC 0#8)) = true ∧ s.cfg.exists (s.place s.relocated (s.effective (onC 0#8))) = true
      ∧ s.badWord (s.place s.relocated (s.effective (onC 0#8))) = true ∧ s.st.DEBUG = true)
    ∧ breaking.fetches ∧ breaking.st.STOP = false ∧ breaking.allowed breaking.relocated breaking.P = true
    ∧ breaking.cfg.exists (breaking.place breaking.relocated breaking.P) = true
    ∧ breaking.badWord (breaking.place breaking.relocated breaking.P) = true ∧ bit breaking.HV 0 = false ∧ breaking.st.POP = false
    ∧ breaking.AlarmReady
    ∧ { unmasked with breakSeen := true, powerFailPending := true }.electable ≠ .idle :=
  ⟨by decide, ⟨⟨rfl, by decide, rfl, by decide⟩, rfl⟩, by decide, by decide, by decide, by decide, by decide, by decide,
    ⟨calm_of_all (by decide), by decide, by decide, by simp only [State.psthApart]; decide, .inl (by decide)⟩, by decide⟩

/-- Word '0008 present, in bad parity, missing. -/
theorem witness_Initialise : { machine with inputs := [.initialise .autoRestart] }.inputs = .initialise .autoRestart :: []
    ∧ machine.autoRestartInhibited = false ∧ machine.stopped = false ∧ Memory.wf machine.mem = true
    ∧ machine.cfg.exists 0x00008#20 = true ∧ 8 ∉ machine.badParity ∧ machine.cfg.exists 0x0001E#20 = true
    ∧ machine.cfg.parity = true ∧ 8 ∈ { machine with badParity := [8] }.badParity
    ∧ (let c := { Config.standard with memRanges := [(0, 7)] }
       c.exists 0x00008#20 = false ∧ c.is0405 = false) := by decide

/-- Heard when stopped, and when unmasked; not heard. The protection, no word, bad parity. -/
theorem witness_OutsideEvents : { machine with inputs := [.powerFail] }.inputs = .powerFail :: []
    ∧ machine.cfg.exists 0xFFFFF#20 = true ∧ unmasked.st.IOM = false ∧ bit unmasked.IM 0 = false
    ∧ machine.stopped = false ∧ machine.st.IOM = true ∧ { machine with alarmStop := true }.stopped = true
    ∧ (let s := { slaveMachine with st := { slaveMachine.st with STOP := true } }
       s.stopped = true ∧ s.relocated = true ∧ s.limit < (0x1000#16 : Word).toNat ∧ s.allowed true 0x0FFF#16 = true
        ∧ s.cfg.exists (s.place true 0x0FFF#16) = true ∧ s.badWord (s.place true 0x0FFF#16) = false ∧ s.cfg.parity = true)
    ∧ shortMachine.allowed false 15#16 = true ∧ shortMachine.cfg.exists (shortMachine.place false 15#16) = false
    ∧ shortMachine.cfg.is0405 = false ∧ shortMachine.st.DEBUG = false
    ∧ { machine with badParity := [15] }.badWord (machine.place false 15#16) = true ∧ machine.haltLeft = 0
    ∧ machine.cfg.hasDrps = true := by decide

/-- A CCB at '0500 of the HDC channel, with first words `w0` and count `n`; the buffer starts at the last word of 64K. -/
def commanded (w0 n : Word) : State :=
  poke [(0x0500#16, w0), (0x0501#16, 0x8000#16), (0x0502#16, 0xFFFF#16), (0x0503#16, n), (0x0504#16, 0x0014#16)] machine

/-- The start of one word, of two, and a report. -/
theorem witness_ChannelCommands : (commanded 0#16 1#16).calm [0x0500#16, 0x0500#16 + 1#16, 0x0500#16 + 2#16, 0x0500#16 + 3#16,
      0x0500#16 + 4#16, 0x0500#16 + 5#16]
    ∧ ([(0x0000#16, 1#16), (0x0000#16, 2#16), (0x1000#16, 0#16)].all fun w =>
      let s := commanded w.1 w.2
      s.abs 0x0500#16 != 0x4000#16 && (channelOf s.cfg.model s.hdcConnected (ccbFields s.cfg.ccb (s.abs 0x0500#16) (s.abs (0x0500#16 + 1#16)))
          == some (.hdc, 0))
        && ((ccbFields s.cfg.ccb (s.abs 0x0500#16) (s.abs (0x0500#16 + 1#16))).cs == (w.1 == 0x1000#16))
        && !(ccbFields s.cfg.ccb (s.abs 0x0500#16) (s.abs (0x0500#16 + 1#16))).sp
        && (s.channel .hdc 0).buffered == none && (s.channel .hdc 0).micro == .standard) = true :=
  ⟨calm_standard _ rfl (by decide) _, by decide⟩

/-- A channel in action and the coupler that calls it. -/
def active : Channel := { blankChannel .hdc 0 with active := true, addr := 0x0FFFF#20, count := 1#16, da := 0x0014#16 }
def calling : Coupler := { full with toChannel := true }

/-- A report of an active channel that serves its coupler alone, and of one whose coupler another active channel serves. -/
theorem witness_ChannelCommands_report :
    (let s := { commanded 0x1000#16 0#16 with channels := [active], couplers := [calling] }
     s.channel .hdc 0 = active ∧ active.active = true ∧ active.buffered = none ∧ active.micro = .standard
      ∧ (∀ e ∈ s.channels, e.active = true → e.coupler = active.coupler → e.kind = .hdc ∧ e.set = 0)
      ∧ s.coupler? active.coupler = some calling)
    ∧ (let s := { commanded 0x1000#16 0#16 with channels := [active, { active with kind := .ldc }], couplers := [calling] }
       s.channel .hdc 0 = active
        ∧ ∃ e ∈ s.channels, e.active = true ∧ e.coupler = active.coupler ∧ ¬(e.kind = .hdc ∧ e.set = 0)) := by decide

/-- An input, an output, and their last datum; the address that does not exist; bad parity; a stop code; an LDC that ends a HALT. -/
theorem witness_ChannelCalls :
    (let s := { machine with inputs := [.channel .hdc 0], channels := [active], couplers := [calling] }
     s.channel .hdc 0 = active ∧ s.coupler? active.coupler = some calling ∧ calling.toChannel = true ∧ calling.normalPending ≠ none
      ∧ active.active = true ∧ active.ended = false ∧ active.count = 1#16 ∧ s.powerFailActive = false ∧ s.haltLeft = 0
      ∧ (sioDecode active.da).1 = .dataIn ∧ (sioDecode { active with da := 0x0015#16 }.da).1 = .dataOut
      ∧ { active with da := 0x0015#16 }.coupler = active.coupler ∧ active.buffered = none ∧ active.crossed = false
      ∧ s.cfg.exists active.addr = true ∧ s.badWord active.addr = false ∧ shortMachine.cfg.exists active.addr = false
      ∧ { s with badParity := [0xFFFF] }.badWord active.addr = true ∧ s.st.DEBUG = false
      ∧ s.channel .hdc 1 = blankChannel .hdc 1 ∧ s.channel .ldc 0 = blankChannel .ldc 0 ∧ s.st.LCM = true)
    ∧ (let s := { machine with inputs := [.channel .ldc 0], channels := [{ active with kind := .ldc }], couplers := [calling]
                               haltLeft := 65535, st := { machine.st with LCM := false } }
       (s.channel .ldc 0).active = true ∧ s.st.LCM = false ∧ s.cfg.model = .m70 ∧ s.haltLeft ≠ 0) := by decide

/-- A byte input with a datum held back, left then right; the three special microprograms; a byte offset that is odd. -/
theorem witness_ChannelCalls_bytes : ([false, true].all fun right =>
      let c := { active with isByte := true, rightNext := right, buffered := some 0x0041#16, addr := 0x00400#20 }
      c.crossed == false && machine.cfg.exists c.addr && c.count != 0#16) = true
    ∧ ([Microprogram.stopCode 0x0D#8, .extendedStop 0x0D#8, .byteAccess].all fun k =>
      let c := { active with micro := k, isByte := true, count := if k = .stopCode 0x0D#8 then 1#16 else 0#16 }
      { machine with channels := [c] }.channel .hdc 0 == c && c.buffered == none && c.ended == false && c.active) = true
    ∧ (let d := { calling with byteOffset := 0x0003#16, dmaOut := true }
       d.dmaOut = true ∧ d.dataOut = some 2#16 ∧ d.normalPending ≠ none
        ∧ (0x10000#20 : PAddr).toNat = (active.addr.toNat + d.byteOffset.toNat / 2) % 1048576 ∧ machine.sound 0x10000#20 = true) := by
  decide

theorem witness_StepKeepsInv : (poke [(0x0100#16, 0x5005#16)] { machine with badParity := [0x0400] }).Inv
    ∧ (seen (·.P) (step (poke [(0x0100#16, 0x5005#16)] { machine with badParity := [0x0400] }))) = some 0x0101#16 :=
  ⟨⟨by decide, by decide, by decide, by decide, by decide, by decide, by decide⟩, by decide⟩

/-- A store in slave mode at the limit of the zone, and a call that leaves slave mode. -/
theorem witness_SlaveConfined : slaveMachine.slave = true ∧ slaveMachine.cfg.hasDrps = true
    ∧ Instr.cdaStore (.sta (onC 0#8)) = false
    ∧ seen (·.phase) (exec (.sta (onC 0#8)) (slaveMachine.setReg .c 0x0FFF#16)) = some .completed
    ∧ seen (fun t => (t.phase, t.st.MS)) (exec (.svc 0#8) slaveMachine) = some (.completed, true) := by decide

theorem witness_Frames : seen (·.phase) (exec (.ad (onC 0#8)) machine) = some .completed ∧ Instr.frame (.ad (onC 0#8)) = some ([.a], true)
    ∧ seen (·.phase) (exec (.xm (onC 0#8)) machine) = some .completed ∧ Instr.stores (.xm (onC 0#8)) = some (onC 0#8, [.a], false)
    ∧ seen (·.phase) (exec (.stby (onC 0#8)) machine) = some .completed ∧ Memory.wf machine.mem = true := by decide

end Sys2Proof.Tests
end

section
/-! SUPPORT. The state after power-on: its configuration is legal and it meets the invariant (10_state.md R21, R36;
70_reset_and_hazards.md R550). -/

namespace Sys2Proof

/-- The ISP16 coding of the configuration after power-on is usable. -/
theorem IspCoding.placeholder_wf : IspCoding.placeholder.wf = true := by decide

/-- After power-on no two of the seven parameters of ST share a position (10_state.md R21). -/
theorem Config.standard_stPositions_nodup : Config.standard.stPositions.Nodup := by decide

/-- After power-on the seven parameters of ST take none of the positions that R21 fixes (10_state.md R21). -/
theorem Config.standard_stPositions_free : Config.standard.stPositions.all
    (fun p => p < 16 && p ≠ 0 && p ≠ 1 && p ≠ 2 && p ≠ 6 && p ≠ 7 && p ≠ 8) = true := by decide

/-- The configuration after power-on is legal. -/
theorem Config.standard_wf : Config.standard.wf = true := by
  have hisp : Config.standard.isp.wf = true := IspCoding.placeholder_wf
  simp only [Config.wf, Config.standard_stPositions_nodup, Config.standard_stPositions_free, hisp, decide_true, Bool.and_self]

end Sys2Proof

namespace Sys2Proof.Machine

/-- The state after power-on meets the invariant: memory and the set of words in bad parity list nothing, no HALT and no long
instruction is in progress, and SCHED is 0. -/
theorem State.reset_inv : State.reset.Inv where
  canonical := reset_memory_wf
  inMemory _ hc := absurd hc List.not_mem_nil
  parityRises := rfl
  parityExists _ hn := absurd hn List.not_mem_nil
  haltFits := by decide
  operandsHeld _ := rfl
  schedClear := rfl

/-- Settles O57: every part of the invariant holds of the empty memory and the idle machine, and the standard configuration is
legal. -/
theorem resetInv : Obligations.ResetInv :=
  ⟨State.reset_inv, Config.standard_wf⟩

end Sys2Proof.Machine
end

section
/-! SUPPORT. What every part of the machine keeps: the parts of the state that the invariant reads, as one predicate that says
nothing of the rest, so that a change of a register, of a request or of a coupler keeps it as it stands. Then the frame rules,
one lemma per operation over the state (20_memory.md R60, R72, R73; 45_system.md R306, R321). -/

namespace Sys2Proof.Machine

/-! The predicate. -/

/-- What is known of the words held by a long instruction and of the operands it holds. -/
abbrev HeldRule := List Word → Option (Word × Word) → Prop

/-- Between two steps: only a long instruction in progress holds operands (70_reset_and_hazards.md R556). -/
def heldPaired : HeldRule := fun held operands => held = [] → operands = none

/-- Where an instruction is fetched: nothing is held. -/
def heldNothing : HeldRule := fun held operands => held = [] ∧ operands = none

/-- Inside an execution: a slice holds its operands before the step holds its words. -/
def heldAny : HeldRule := fun _ _ => True

/-- The invariant on the parts it reads, under the configuration `c`. `released` says that the rule allows to hold nothing. -/
structure Kept (R : HeldRule) (c cfg : Config) (mem : Memory) (bad : List Nat) (halt : Nat) (held : List Word)
    (operands : Option (Word × Word)) (sched : Bool) : Prop where
  config : cfg = c
  canonical : Memory.wf mem = true
  inMemory : ∀ b ∈ mem, b.1 < 2 ^ 21 ∧ c.exists (BitVec.ofNat 20 (b.1 / 2)) = true
  parityRises : risingFrom 0 bad = true
  parityExists : ∀ n ∈ bad, n < 2 ^ 20 ∧ c.exists (BitVec.ofNat 20 n) = true
  haltFits : halt < 65536
  holds : R held operands
  released : R [] none
  schedClear : sched = false

/-- The state meets the invariant under the configuration `c`, its held words and operands meeting the rule `R`. -/
def State.Sane (R : HeldRule) (c : Config) (s : State) : Prop :=
  Kept R c s.cfg s.mem s.badParity s.haltLeft s.held s.heldOperands s.st.SCHED

theorem State.sane_of_inv {s : State} (h : s.Inv) : s.Sane heldPaired s.cfg :=
  ⟨rfl, h.canonical, h.inMemory, h.parityRises, h.parityExists, h.haltFits, h.operandsHeld, fun _ => rfl, h.schedClear⟩

theorem State.Sane.inv {c : Config} {s : State} (h : s.Sane heldPaired c) : s.Inv := by
  obtain ⟨rfl, hmem, hin, hrise, hpar, hhalt, hheld, -, hsched⟩ := h
  exact ⟨hmem, hin, hrise, hpar, hhalt, hheld, hsched⟩

/-- What is held is forgotten from one rule to another. -/
theorem State.Sane.weaken {R R' : HeldRule} {c : Config} {s : State} (h : s.Sane R c) (hs : R' s.held s.heldOperands)
    (h0 : R' [] none) : s.Sane R' c :=
  { h with holds := hs, released := h0 }

theorem State.Sane.any {R : HeldRule} {c : Config} {s : State} (h : s.Sane R c) : s.Sane heldAny c :=
  h.weaken trivial trivial

/-- The words of an instruction in progress are held, or nothing is. -/
theorem State.Sane.hold {R R' : HeldRule} {c : Config} {s : State} {ws : List Word} (h : s.Sane R c)
    (hw : R' ws s.heldOperands) (h0 : R' [] none) : ({ s with held := ws } : State).Sane R' c :=
  { h with holds := hw, released := h0 }

theorem State.Sane.release {R R' : HeldRule} {c : Config} {s : State} (h : s.Sane R c) (h0 : R' [] none) :
    s.released.Sane R' c :=
  { h with holds := h0, released := h0 }

/-! What a part of the machine, or a step, leads to. -/

/-- The state a part leaves has the property, whether the part answers or meets an alarm. -/
def Res.All {α : Type} (Q : State → Prop) : Res α → Prop
  | .ok _ s => Q s
  | .alarm _ s => Q s
  | .refuse _ => True
  | .stuck _ => True

/-- The next state, if there is one, has the property. -/
def nextHas (Q : State → Prop) : Host.Outcome State Fault Refusal → Prop
  | .next s => Q s
  | .fault _ => True
  | .refused _ => True

variable {Q : State → Prop} {α β : Type}

theorem Res.All.bind {m : Res α} {f : α → State → Res β} (hm : m.All Q) (hf : ∀ a s, Q s → (f a s).All Q) :
    (m.bind f).All Q := by
  cases m with
  | ok a s => exact hf a s hm
  | alarm n s => exact hm
  | refuse r => trivial
  | stuck r => trivial

theorem Res.All.ite {p : Prop} [Decidable p] {m n : Res α} (hm : p → m.All Q) (hn : ¬p → n.All Q) :
    (if p then m else n).All Q := by
  by_cases h : p
  · rw [if_pos h]; exact hm h
  · rw [if_neg h]; exact hn h

theorem Res.All.ok {a : α} {s : State} (h : Q s) : (Res.ok a s).All Q := h

theorem Res.All.of_ok {m : Res α} (h : m.All Q) {a : α} {t : State} (e : m = .ok a t) : Q t := by
  subst e; exact h

theorem Res.All.of_alarm {m : Res α} (h : m.All Q) {n : Alarm} {t : State} (e : m = .alarm n t) : Q t := by
  subst e; exact h

theorem Res.All.outcome {m : Res Unit} (h : m.All Q) : nextHas Q m.outcome := by
  cases m <;> exact h

theorem nextHas.imp {Q' : State → Prop} {o : Host.Outcome State Fault Refusal} (h : nextHas Q o) (hq : ∀ t, Q t → Q' t) :
    nextHas Q' o := by
  cases o with
  | next t => exact hq t h
  | fault r => trivial
  | refused r => trivial

theorem nextHas_ite {p : Prop} [Decidable p] {o o' : Host.Outcome State Fault Refusal} (h : nextHas Q o) (h' : nextHas Q o') :
    nextHas Q (if p then o else o') := by
  split
  · exact h
  · exact h'

/-! The frame rules. -/

variable {R : HeldRule} {c : Config} {s : State}

/-- A choice between two states. -/
theorem ite_sane {p : Prop} [Decidable p] {t u : State} (ht : t.Sane R c) (hu : u.Sane R c) : (if p then t else u).Sane R c := by
  split
  · exact ht
  · exact hu

theorem State.Sane.setReg (h : s.Sane R c) (r : Reg) (v : Word) : (s.setReg r v).Sane R c := by cases r <;> exact h

theorem State.Sane.seeBreak (h : s.Sane R c) : s.seeBreak.Sane R c := by
  unfold State.seeBreak; split <;> exact h

/-- A store in a word that exists (20_memory.md R61, R73). -/
theorem State.Sane.store (h : s.Sane R c) {pa : PAddr} (he : s.cfg.exists pa = true) (v : Word) : (s.store pa v).Sane R c := by
  have he' : c.exists pa = true := h.config ▸ he
  have hpa := pa.isLt
  refine { h with canonical := Memory.wf_writeWord h.canonical pa v, inMemory := fun b hb => ?_,
                  parityRises := risingFrom_removeNat _ h.parityRises,
                  parityExists := fun n hn => h.parityExists n (mem_removeNat.mp hn).1 }
  rcases mem_writeWord hb with hb | hb | hb
  · exact h.inMemory b hb
  all_goals
    have hw : b.1 / 2 = pa.toNat := by omega
    exact ⟨by omega, by rw [hw, BitVec.ofNat_toNat, BitVec.setWidth_eq]; exact he'⟩

/-- A word that exists is left in bad or in good parity (45_system.md R323, R324). -/
theorem State.Sane.setParity (h : s.Sane R c) (pa : PAddr) (bad : Bool) : (s.setParity pa bad).Sane R c := by
  unfold State.setParity
  split
  · rename_i hp
    have he : c.exists pa = true := h.config ▸ (Bool.and_eq_true _ _ ▸ hp).2
    cases bad with
    | false =>
      exact { h with parityRises := risingFrom_removeNat _ h.parityRises,
                     parityExists := fun n hn => h.parityExists n (mem_removeNat.mp hn).1 }
    | true =>
      refine { h with parityRises := risingFrom_insertNat (Nat.zero_le _) h.parityRises, parityExists := fun n hn => ?_ }
      rcases mem_insertNat.mp hn with rfl | hn
      · exact ⟨pa.isLt, by rw [BitVec.ofNat_toNat, BitVec.setWidth_eq]; exact he⟩
      · exact h.parityExists n hn
  · exact h

/-- A HALT has less than 65536 periods left (45_system.md R306). -/
theorem State.Sane.halt (h : s.Sane R c) {n : Nat} (hn : n < 65536) : ({ s with haltLeft := n } : State).Sane R c :=
  { h with haltFits := hn }

theorem State.Sane.endHalt (h : s.Sane R c) : s.endHalt.Sane R c := by
  unfold State.endHalt
  split
  · exact h
  · exact h.halt (by decide)

theorem State.Sane.breakStop (h : s.Sane R c) : s.breakStop.Sane R c := h.release h.released

theorem State.Sane.updateCoupler (h : s.Sane R c) (key : BitVec 14) (f : Coupler → Coupler) :
    (s.updateCoupler key f).Sane R c := by
  rw [updateCoupler_frame]; exact h

theorem State.Sane.consoleStore (h : s.Sane R c) (pa : PAddr) (v : Word) : (s.consoleStore pa v).Sane R c := by
  unfold State.consoleStore
  split
  · rename_i he; exact h.store he v
  · exact h

theorem State.Sane.scribbleWsched (h : s.Sane R c) : s.scribbleWsched.Sane R c := by
  unfold State.scribbleWsched
  split
  · rename_i he; exact State.Sane.store (s := s.fresh.2) h he _
  · exact h

end Sys2Proof.Machine
end

section
/-! SUPPORT. Every shared operation keeps the invariant: accesses, operands, contexts, elections, alarms, the scheduler's passages,
couplers and channels, one lemma each, in the order of their definitions. -/

namespace Sys2Proof.Machine

variable {R : HeldRule} {c : Config} {s : State}

/-- A part of the machine that is done under a condition only. -/
theorem when_sane {m : Res Unit} {p : Prop} [Decidable p] (h : s.Sane R c) (hm : p → m.All (State.Sane R c)) :
    (if p then m else .ok () s).All (State.Sane R c) :=
  .ite hm fun _ => h

/-! Accesses. -/

theorem readAt_sane (h : s.Sane R c) (pa : PAddr) : (readAt pa s).All (State.Sane R c) := by
  cases hr : readAt pa s with
  | ok v t =>
    rcases readAt_cases hr with ⟨rfl, -⟩ | ⟨rfl, -⟩ | ⟨rfl, -⟩
    · exact h
    · exact h.seeBreak
    · exact h
  | alarm n t => exact readAt_alarm hr ▸ h
  | refuse r => trivial
  | stuck r => trivial

theorem writeAt_sane (h : s.Sane R c) (pa : PAddr) (v : Word) : (writeAt pa v s).All (State.Sane R c) := by
  cases hw : writeAt pa v s with
  | ok u t =>
    rcases writeAt_cases hw with ⟨rfl, -⟩ | ⟨rfl, he⟩ | ⟨rfl, he⟩
    · exact h
    · exact h.store he v
    · refine h.seeBreak.store (he ▸ congrArg (Config.exists · pa) ?_) v
      exact h.seeBreak.config.trans h.config.symm
  | alarm n t => exact writeAt_alarm hw ▸ h
  | refuse r => trivial
  | stuck r => trivial

theorem resolve_sane (h : s.Sane R c) (b : Bool) (a : Word) : (resolve b a s).All (State.Sane R c) := by
  rw [resolve_eq]; exact .ite (fun _ => h) fun _ => h

theorem physRead_sane (h : s.Sane R c) (a : Word) : (physRead a s).All (State.Sane R c) := readAt_sane h _

theorem physWrite_sane (h : s.Sane R c) (a v : Word) : (physWrite a v s).All (State.Sane R c) := writeAt_sane h _ v

/-- A read at an address relocated or not. -/
theorem resolvedRead_sane (h : s.Sane R c) (b : Bool) (a : Word) : ((resolve b a s).bind readAt).All (State.Sane R c) :=
  (resolve_sane h b a).bind fun pa _ h => readAt_sane h pa

/-- A write at an address relocated or not. -/
theorem resolvedWrite_sane (h : s.Sane R c) (b : Bool) (a v : Word) :
    ((resolve b a s).bind fun pa s => writeAt pa v s).All (State.Sane R c) :=
  (resolve_sane h b a).bind fun pa _ h => writeAt_sane h pa v

theorem memRead_sane (h : s.Sane R c) (a : Word) : (memRead a s).All (State.Sane R c) := resolvedRead_sane h _ a

theorem memWrite_sane (h : s.Sane R c) (a v : Word) : (memWrite a v s).All (State.Sane R c) := resolvedWrite_sane h _ a v

theorem stackRead_sane (h : s.Sane R c) (a : Word) : (stackRead a s).All (State.Sane R c) := resolvedRead_sane h _ a

theorem stackWrite_sane (h : s.Sane R c) (a v : Word) : (stackWrite a v s).All (State.Sane R c) := resolvedWrite_sane h _ a v

theorem relRead_sane (h : s.Sane R c) (a : Word) : (relRead a s).All (State.Sane R c) := resolvedRead_sane h _ a

theorem relWrite_sane (h : s.Sane R c) (a v : Word) : (relWrite a v s).All (State.Sane R c) := resolvedWrite_sane h _ a v

theorem push_sane (h : s.Sane R c) (v : Word) : (push v s).All (State.Sane R c) := stackWrite_sane (h.setReg .k _) _ v

/-! Immediate tasks and alarms. -/

theorem psth_sane (h : s.Sane R c) (i : Nat) : (psth i s).All (State.Sane R c) :=
  (physRead_sane h _).bind fun _ _ h => h

theorem exchangePartial_sane (h : s.Sane R c) (a : Word) : (exchangePartial a s).All (State.Sane R c) :=
  (physRead_sane h a).bind fun _ _ h =>
  (physRead_sane h (a + 1#16)).bind fun _ _ h =>
  (physRead_sane h (a + 2#16)).bind fun _ _ h =>
  (physRead_sane h (a + 3#16)).bind fun _ _ h =>
  (physWrite_sane h a _).bind fun _ _ h =>
  (physWrite_sane h (a + 1#16) _).bind fun _ _ h =>
  (physWrite_sane h (a + 2#16) _).bind fun _ _ h =>
  (physWrite_sane h (a + 3#16) _).bind fun _ _ h => h.release h.released

theorem launch_sane (h : s.Sane R c) (j : Nat) : (launch j s).All (State.Sane R c) :=
  (psth_sane (s := { s with HV := setBit s.HV j true }) h j).bind fun a _ h =>
  (exchangePartial_sane h a).bind fun _ _ h => .ite (fun _ => h) fun _ => trivial

theorem writeAlarmNumber_sane (h : s.Sane R c) (n : Alarm) : (writeAlarmNumber n s).All (State.Sane R c) :=
  (psth_sane h 0).bind fun a _ h => (physRead_sane h (a + 3#16)).bind fun _ _ h => physWrite_sane h (a + 3#16) _

theorem Res.All.alarmsHalt {m : Res Unit} (h : m.All (State.Sane R c)) : m.alarmsHalt.All (State.Sane R c) := by
  cases m <;> exact h

theorem raiseAlarm_sane (h : s.Sane R c) (n : Alarm) : (raiseAlarm n s).All (State.Sane R c) :=
  .ite (fun _ => h) fun _ => .ite (fun _ => .ite (fun _ => h) fun _ => h) fun _ =>
    ((launch_sane (s := { s with breakSeen := false }) h 0).bind fun _ _ h => writeAlarmNumber_sane h n).alarmsHalt

theorem leaveImmediate_sane (h : s.Sane R c) (i : Nat) : (leaveImmediate i s).All (State.Sane R c) :=
  (psth_sane (s := { s with HV := setBit s.HV i false }) h i).bind fun a _ h => exchangePartial_sane h a

theorem powerFailSequence_sane (h : s.Sane R c) : (powerFailSequence s).All (State.Sane R c) :=
  (physRead_sane (s := { s with powerFailPending := false, powerFailActive := true
                                st := { s.st with IOM := true, IPM := s.cfg.hasIpm, LCM := true } }) h 0x0006#16).bind
    fun a _ h => exchangePartial_sane h a

/-! The scheduler. -/

theorem readNS_sane (h : s.Sane R c) : (readNS s).All (State.Sane R c) := (physRead_sane h _).bind fun _ _ h => h

theorem qSet_sane (h : s.Sane R c) (q : Word) (n : Nat) (b : Bool) : (qSet q n b s).All (State.Sane R c) :=
  (physRead_sane h _).bind fun _ _ h => physWrite_sane h _ _

theorem qGet_sane (h : s.Sane R c) (q : Word) (n : Nat) : (qGet q n s).All (State.Sane R c) :=
  (physRead_sane h _).bind fun _ _ h => h

theorem electDeferred_sane (left k : Nat) (found : Option Nat) (h : s.Sane R c) :
    (electDeferred left k found s).All (State.Sane R c) := by
  induction left generalizing k found s with
  | zero => cases found <;> [trivial; exact h]
  | succ left ih => exact (physRead_sane h _).bind fun _ _ h => (physRead_sane h _).bind fun _ _ h => ih _ _ h

theorem pstsAddr_sane (h : s.Sane R c) (n : Nat) : (pstsAddr n s).All (State.Sane R c) :=
  (physRead_sane h _).bind fun _ _ h => physRead_sane h _

theorem writeWords_sane (l : List Word) (a : Word) (h : s.Sane R c) : (writeWords a l s).All (State.Sane R c) := by
  induction l generalizing a s with
  | nil => exact h
  | cons v l ih => exact (physWrite_sane h a v).bind fun _ _ h => ih _ h

theorem loadContext_sane (h : s.Sane R c) (b : Word) : (loadContext b s).All (State.Sane R c) :=
  (physRead_sane h b).bind fun v _ h =>
  (physRead_sane (h.setReg .a v) (b + 1#16)).bind fun v _ h =>
  (physRead_sane (h.setReg .b v) (b + 2#16)).bind fun v _ h =>
  (physRead_sane (h.setReg .x v) (b + 3#16)).bind fun v _ h =>
  (physRead_sane (h.setReg .y v) (b + 4#16)).bind fun v _ h =>
  (physRead_sane (h.setReg .c v) (b + 5#16)).bind fun v _ h =>
  (physRead_sane (h.setReg .l v) (b + 6#16)).bind fun v _ h =>
  (physRead_sane (h.setReg .w v) (b + 7#16)).bind fun v _ h =>
  (physRead_sane (h.setReg .k v) (b + 8#16)).bind fun v s h =>
  (physRead_sane (s := { s with P := v }) h (b + 9#16)).bind fun v s h =>
  (physRead_sane (s := { s with st := s.st.loadS v }) h (b + 10#16)).bind fun v s h =>
  (physRead_sane (s := if s.cfg.hasDrps then { s with SLO := v } else s) (ite_sane h h) (b + 11#16)).bind fun _ _ h =>
  ite_sane h h

theorem fullSwitch_sane (h : s.Sane R c) (old new : Nat) : (fullSwitch old new s).All (State.Sane R c) :=
  (pstsAddr_sane h old).bind fun a s h =>
  (writeWords_sane s.contextWords a h).bind fun _ _ h =>
  (pstsAddr_sane h new).bind fun b _ h =>
  (loadContext_sane h b).bind fun _ _ h => physWrite_sane h _ _

theorem launchDeferred_sane (h : s.Sane R c) (ns n : Nat) : (launchDeferred ns n s).All (State.Sane R c) :=
  (qGet_sane h _ n).bind fun _ _ h => .ite (fun _ => fullSwitch_sane h ns n) fun _ =>
  (qSet_sane h _ 0 true).bind fun _ _ h =>
  (physWrite_sane h _ _).bind fun _ _ h => fullSwitch_sane h ns 0

theorem reschedule_sane (h : s.Sane R c) : (reschedule s).All (State.Sane R c) :=
  (readNS_sane h).bind fun ns _ h =>
  (electDeferred_sane 8 0 none h).bind fun n _ h => .ite (fun _ => h) fun _ => launchDeferred_sane h ns n

/-! The frame and the end of an execution. -/

/-- An execution whose body is stuck is stuck. -/
theorem execute_stuck {body : State → Res Unit} {r : Fault} (h : body s.completed = .stuck r) : execute body s = .fault r := by
  have h' : body { s with phase := .completed } = .stuck r := h
  simp only [execute, h']

theorem privCheck_sane (h : s.Sane R c) : (privCheck s).All (State.Sane R c) := .ite (fun _ => h) fun _ => h

theorem takeAlarm_sane (h : s.Sane R c) (p0 : Word) (n : Alarm) : (takeAlarm p0 n s).All (State.Sane R c) :=
  raiseAlarm_sane (s := { s with P := if n.abandons then p0 else s.P, phase := .abandoned, breakSeen := false }) h n

/-- An execution keeps the invariant where its body does. -/
theorem execute_sane (h : s.Sane R c) {body : State → Res Unit}
    (hb : ∀ t : State, t.Sane R c → (body t).All (State.Sane R c)) : nextHas (State.Sane R c) (execute body s) := by
  have hs : (body s.completed).All (State.Sane R c) := hb s.completed h
  cases hr : body s.completed with
  | ok u t => rw [execute_ok hr]; exact hs.of_ok hr
  | alarm n t => rw [execute_alarm hr]; exact (takeAlarm_sane (hs.of_alarm hr) s.P n).outcome
  | refuse r => rw [execute_refuse hr]; trivial
  | stuck r => rw [execute_stuck hr]; trivial

theorem heldOr_sane {read : State → Res (Word × Word)} (h : s.Sane R c) (hr : (read s).All (State.Sane R c)) :
    (heldOr read s).All (State.Sane R c) := by
  unfold heldOr; split
  · exact h
  · exact hr

/-- Inside an execution a slice may hold its operands. -/
theorem keeping_sane {p : Word × Word} {m : Res Unit} (h : m.All (State.Sane heldAny c)) :
    (keeping p m).All (State.Sane heldAny c) :=
  h.bind fun _ _ h => { h with holds := trivial }

theorem endStep_sane (h : s.Sane R c) (armed : Bool) : (endStep armed s).All (State.Sane R c) :=
  .ite (fun _ => raiseAlarm_sane (s := { s with stepArmed := false }) h _) fun _ => h

theorem endCompleted_sane (h : s.Sane R c) (armed : Bool) : (endCompleted armed s).All (State.Sane R c) :=
  .ite (fun _ => endStep_sane h armed) fun _ => .ite (fun _ => endStep_sane h.breakStop armed) fun _ =>
    raiseAlarm_sane (s := { s with breakSeen := false, stepArmed := s.stepArmed && !armed }) h _

theorem haltEnds_sane (h : s.Sane R c) : (haltEnds s).All (State.Sane R c) :=
  .ite (fun _ => h) fun _ => endCompleted_sane h.endHalt _

theorem raiseOutside_sane (h : s.Sane R c) (n : Alarm) : (raiseOutside n s).All (State.Sane R c) :=
  raiseAlarm_sane (s := { s.endHalt with stepArmed := s.stepArmed && s.haltLeft = 0 && s.held.isEmpty }) h.endHalt n

theorem actOnBreak_sane (h : s.Sane R c) : (actOnBreak s).All (State.Sane R c) :=
  .ite (fun _ => h) fun _ => .ite (fun _ => h.breakStop) fun _ => raiseOutside_sane (s := { s with breakSeen := false }) h _

/-! Operands. -/

theorem eaWord_sane (h : s.Sane R c) (m : MemRef) : (eaWord m s).All (State.Sane R c) :=
  .ite (fun _ => (memRead_sane h _).bind fun _ _ h => h) fun _ => h

theorem eaByte_sane (h : s.Sane R c) (m : MemRef) : (eaByte m s).All (State.Sane R c) :=
  .ite (fun _ => (memRead_sane h _).bind fun _ _ h => h) fun _ => h

theorem byteRead_sane (h : s.Sane R c) (wa : Word) (right : Bool) : (byteRead wa right s).All (State.Sane R c) :=
  (memRead_sane h wa).bind fun _ _ h => h

theorem byteWrite_sane (h : s.Sane R c) (wa : Word) (right : Bool) (b : Byte) :
    (byteWrite wa right b s).All (State.Sane R c) :=
  (memRead_sane h wa).bind fun _ _ h => memWrite_sane h wa _

theorem readOperand_sane (h : s.Sane R c) (m : MemRef) : (readOperand m s).All (State.Sane R c) :=
  (eaWord_sane h m).bind fun ea _ h => memRead_sane h ea

theorem writeOperand_sane (h : s.Sane R c) (m : MemRef) (v : State → Word) : (writeOperand m v s).All (State.Sane R c) :=
  (eaWord_sane h m).bind fun ea s h => memWrite_sane h ea (v s)

theorem cdaLimits_sane (h : s.Sane R c) : (cdaLimits s).All (State.Sane R c) :=
  (physRead_sane h _).bind fun _ _ h => (physRead_sane h _).bind fun _ _ h => h

theorem ispPointer_sane (h : s.Sane R c) (w : Word) : (ispPointer w s).All (State.Sane R c) := by
  unfold ispPointer; split
  · exact h
  · split
    · exact eaWord_sane h _
    · exact h

theorem basedParams_sane (h : s.Sane R c) (o : IspArgs) : (basedParams o s).All (State.Sane R c) := by
  cases o with
  | regs w2 => exact h
  | mem w2 w3 =>
    exact (ispPointer_sane h w2).bind fun a _ h => (memRead_sane h a).bind fun _ _ h =>
      (ispPointer_sane h w3).bind fun a _ h => (memRead_sane h a).bind fun _ _ h => h

/-! Couplers and channels. -/

theorem readData_sane (h : s.Sane R c) (key : BitVec 14) : (readData key s).2.Sane R c := by
  unfold readData; split
  · exact h.updateCoupler key _
  · exact h

theorem readStatus_sane (h : s.Sane R c) (key : BitVec 14) : (readStatus key s).2.Sane R c := by
  unfold readStatus; split
  · exact h.updateCoupler key _
  · exact h

theorem scribbleWords_sane (n : Nat) (a : Word) (h : s.Sane R c) : (scribbleWords n a s).Sane R c := by
  induction n generalizing a s with
  | zero => exact h
  | succ n ih =>
    unfold scribbleWords
    split
    · rename_i he; exact ih _ (State.Sane.store (s := s.fresh.2) h he _)
    · exact ih _ h

theorem State.Sane.scribbleZone (h : s.Sane R c) (kind : ChannelKind) : (s.scribbleZone kind).Sane R c :=
  ite_sane (scribbleWords_sane _ _ h) h

theorem startChannel_sane (h : s.Sane R c) (ch : Channel) : (startChannel ch s).All (State.Sane R c) :=
  .ite (fun _ => trivial) fun _ => (State.Sane.updateCoupler (s := s.setChannel ch) h _ _).scribbleZone _

theorem channelWord_sane (h : s.Sane R c) (pa : PAddr) : (channelWord pa s).2.2.Sane R c := by
  unfold channelWord; split
  · exact h
  · split <;> exact h

theorem channelStore_sane (h : s.Sane R c) (ch : Channel) (v : Word) : (channelStore ch v s).2.Sane R c := by
  unfold channelStore; split
  · exact h
  · rename_i he
    have he' : s.cfg.exists ch.addr = true := by simpa using he
    split <;> exact h.store he' _

theorem flushBuffer_sane (h : s.Sane R c) (ch : Channel) : (flushBuffer ch s).2.2.Sane R c := by
  unfold flushBuffer; split
  · exact h
  · exact channelStore_sane h ch _

theorem reportWord_sane (h : s.Sane R c) (ch : Channel) : (reportWord ch s).2.Sane R c := by
  unfold reportWord; split <;> exact h

theorem State.Sane.unrouted (h : s.Sane R c) (ch : Channel) : (s.unrouted ch).Sane R c := by
  rw [unrouted_frame]; exact h

theorem channelReport_sane (h : s.Sane R c) (ch : Channel) (m : Word) : (channelReport ch m s).All (State.Sane R c) := by
  refine .ite (fun _ => trivial) fun _ => ?_
  have hf := flushBuffer_sane h ch
  generalize flushBuffer ch s = r at hf ⊢
  obtain ⟨ch', _ | n, s'⟩ := r
  · exact (physWrite_sane (reportWord_sane hf ch') _ _).bind fun _ s h =>
      State.Sane.scribbleZone (s := (s.unrouted ch').setChannel { ch' with active := false }) (h.unrouted ch') _
  · exact hf

theorem channelCommand_sane (h : s.Sane R c) (m : Word) : (channelCommand m s).All (State.Sane R c) := by
  refine (physRead_sane h m).bind fun w0 _ h => (physRead_sane h (m + 1#16)).bind fun w1 _ h =>
    (physRead_sane h (m + 2#16)).bind fun w2 _ h => (physRead_sane h (m + 3#16)).bind fun w3 _ h =>
    (physRead_sane h (m + 4#16)).bind fun w4 _ h => (physRead_sane h (m + 5#16)).bind fun w5 s h =>
    .ite (fun _ => trivial) fun _ => ?_
  dsimp only
  split
  · trivial
  · refine .ite (fun _ => channelReport_sane h _ m) fun _ => ?_
    split
    · trivial
    · exact startChannel_sane h _

theorem countDatum_sane (h : s.Sane R c) (ch : Channel) (v : Word) : (countDatum ch v s).Sane R c :=
  ite_sane (State.Sane.updateCoupler (s := s.setChannel _) h _ _) h

theorem channelInput_sane (h : s.Sane R c) (ch : Channel) : (channelInput ch s).2.Sane R c :=
  countDatum_sane (flushBuffer_sane (readData_sane h ch.coupler) ch) _ _

theorem channelOutput_sane (h : s.Sane R c) (ch : Channel) : (channelOutput ch s).2.Sane R c :=
  countDatum_sane ((channelWord_sane h ch.addr).updateCoupler _ _) _ _

theorem channelByte_sane (h : s.Sane R c) (ch : Channel) (d : Coupler) : (channelByte ch d s).2.Sane R c := by
  unfold channelByte
  dsimp only
  split
  · exact (channelWord_sane h _).updateCoupler _ _
  · exact channelStore_sane (readData_sane h _) _ _

theorem reflectAlarm_sane {kind : ChannelKind} {r : Option Alarm × State} (h : r.2.Sane R c) :
    (reflectAlarm kind r).All (State.Sane R c) := by
  obtain ⟨_ | n, s⟩ := r
  · exact .ite (fun _ => haltEnds_sane h) fun _ => h
  · exact raiseOutside_sane h n

theorem channelServe_sane (h : s.Sane R c) (ch : Channel) (d : Coupler) : (channelServe ch d s).All (State.Sane R c) := by
  unfold channelServe
  split
  · exact reflectAlarm_sane (channelByte_sane h ch d)
  · exact reflectAlarm_sane (channelInput_sane h ch)
  · exact reflectAlarm_sane (channelInput_sane h ch)
  · split
    · exact reflectAlarm_sane (channelInput_sane h ch)
    · exact reflectAlarm_sane (channelOutput_sane h ch)
    · trivial
    · trivial

theorem channelStep_sane (h : s.Sane R c) (kind : ChannelKind) (set : Nat) :
    (channelStep kind set s).All (State.Sane R c) := by
  unfold channelStep
  dsimp only
  split
  · exact h
  · exact .ite (fun _ => h) fun _ => .ite (fun _ => trivial) fun _ => channelServe_sane (h.scribbleZone kind) _ _

/-! The inter-processor interrupt. -/

theorem serveAbox2_sane (h : s.Sane R c) : (serveAbox2 s).All (State.Sane R c) :=
  .ite (fun _ => h) fun _ => (physRead_sane h _).bind fun _ _ h => .ite (fun _ => h) fun _ =>
  (readAt_sane h _).bind fun _ _ h => .ite (fun _ => (writeAt_sane h _ _).bind fun _ _ h => h) fun _ => h

theorem serveBox_sane (h : s.Sane R c) (box : Word) : (serveBox box s).All (State.Sane R c) :=
  (physRead_sane h box).bind fun m _ h => .ite (fun _ => h) fun _ =>
  (physRead_sane h m).bind fun _ _ h => .ite (fun _ => (physWrite_sane h box _).bind fun _ _ h => h) fun _ =>
  (channelCommand_sane h m).bind fun _ _ h => (physWrite_sane h box _).bind fun _ _ h => h

theorem serveMailbox_sane (h : s.Sane R c) : (serveMailbox s).All (State.Sane R c) :=
  (physRead_sane h _).bind fun _ _ h => serveBox_sane h _

theorem serveIpi_sane (h : s.Sane R c) : (serveIpi s).All (State.Sane R c) :=
  (serveAbox2_sane (s := { s with ipiRequest := false }) h).bind fun _ _ h =>
  (serveMailbox_sane h).bind fun _ _ h => .ite (fun _ => h) fun _ => h

end Sys2Proof.Machine
end

section
/-! SUPPORT. Every instruction keeps the invariant: the bodies that instructions share, then the 174 arms of `exec`, those of one
shape together. -/

namespace Sys2Proof.Machine

variable {R : HeldRule} {c : Config} {s : State}

/-! Loads, stores, arithmetic, bytes and stacks. -/

theorem exchangeA_sane (h : s.Sane R c) (pa : PAddr) : (exchangeA pa s).All (State.Sane R c) :=
  (readAt_sane h pa).bind fun _ _ h => (writeAt_sane h pa _).bind fun _ _ h => h

theorem divide_sane (h : s.Sane R c) (d : Word) : (divide d s).Sane R c := by
  unfold divide; split <;> exact h

theorem stepWord_sane (h : s.Sane R c) (d : Word) (m : MemRef) : (stepWord d m s).All (State.Sane R c) :=
  (eaWord_sane h m).bind fun ea _ h => (memRead_sane h ea).bind fun _ _ h => (memWrite_sane h ea _).bind fun _ _ h => h

theorem pushPullCheck_sane (h : s.Sane R c) : (pushPullCheck s).All (State.Sane R c) := .ite (fun _ => h) fun _ => h

theorem searchByte_sane (h : s.Sane R c) : (searchByte s).All (State.Sane R c) :=
  .ite (fun _ => h) fun _ => .ite (fun _ => trivial) fun _ =>
  (byteRead_sane h _ _).bind fun _ _ h => .ite (fun _ => h) fun _ => .ite (fun _ => h) fun _ => h

theorem pushRegs_sane (l : List Reg) (h : s.Sane R c) : (pushRegs l s).All (State.Sane R c) := by
  induction l generalizing s with
  | nil => exact h
  | cons r l ih => exact (stackWrite_sane h _ _).bind fun _ _ h => ih (h.setReg .k _)

theorem pullRegs_sane (l : List Reg) (h : s.Sane R c) : (pullRegs l s).All (State.Sane R c) := by
  induction l generalizing s with
  | nil => exact h
  | cons r l ih => exact (stackRead_sane (h.setReg .k _) _).bind fun v _ h => ih (h.setReg r v)

theorem loadInline_sane (a : Word) (l : List Reg) (h : s.Sane R c) : (loadInline a l s).All (State.Sane R c) := by
  induction l generalizing a s with
  | nil => exact h
  | cons r l ih => exact (memRead_sane h a).bind fun v _ h => ih _ (h.setReg r v)

theorem pushOn_sane (h : s.Sane R c) (w : Word) : (pushOn w s).All (State.Sane R c) :=
  .ite (fun _ => h) fun _ => (memWrite_sane h _ _).bind fun _ _ h => (memWrite_sane h _ _).bind fun _ _ h => h

theorem pullFrom_sane (h : s.Sane R c) (w : Word) : (pullFrom w s).All (State.Sane R c) :=
  .ite (fun _ => h) fun _ => (memRead_sane h _).bind fun v _ h => (memWrite_sane (h.setReg .a v) _ _).bind fun _ _ h => h

theorem blockMove_sane (h : s.Sane R c) (len : Nat) {move : Word → State → Res Unit}
    (hm : ∀ i, (move i s).All (State.Sane R c)) : (blockMove len move s).All (State.Sane R c) :=
  .ite (fun _ => h) fun _ => (hm _).bind fun _ _ h => h

theorem moveWord_sane (h : s.Sane R c) (i : Word) : (moveWord i s).All (State.Sane R c) :=
  (memRead_sane h _).bind fun _ _ h => memWrite_sane h _ _

/-! Branches and calls. -/

theorem jumpIf_sane (h : s.Sane R c) (cond : Bool) (d : Byte) : (jumpIf cond d s).All (State.Sane R c) :=
  .ite (fun _ => h) fun _ => h

theorem enterSupervisor_sane (h : s.Sane R c) : (enterSupervisor s).All (State.Sane R c) :=
  .ite (fun _ => (physRead_sane h _).bind fun _ _ h => h) fun _ =>
    (physRead_sane (s := { s with st := { s.st with MS := true, SVCS := true } }) h _).bind fun _ _ h => h

theorem supervisorCall_sane (h : s.Sane R c) (n : Byte) (ret : Word) : (supervisorCall n ret s).All (State.Sane R c) :=
  (push_sane (h.setReg .x _) ret).bind fun _ _ h => enterSupervisor_sane h

theorem absentExtension_sane (h : s.Sane R c) (n : Byte) : (absentExtension n s).All (State.Sane R c) :=
  (push_sane h _).bind fun _ _ h => supervisorCall_sane h n _

/-! The scheduler. -/

theorem schedPrologue_sane (h : s.Sane R c) (p d : Bool) : (schedPrologue p d s).All (State.Sane R c) :=
  .ite (fun _ => h) fun _ => (when_sane h fun _ => privCheck_sane h).bind fun _ _ h =>
    .ite (fun _ => h) fun _ => h

theorem schedEpilogue_sane (h : s.Sane R c) : (schedEpilogue s).All (State.Sane R c) :=
  have ht : (s.unmask.advance 1).Sane R c := h
  (Res.All.ite (fun _ => Res.All.ok ht) fun _ => reschedule_sane ht).bind fun _ _ h => h.scribbleWsched

theorem memQSet_sane (h : s.Sane R c) (q : Word) (n : Nat) (b : Bool) : (memQSet q n b s).All (State.Sane R c) :=
  (memRead_sane h _).bind fun _ _ h => memWrite_sane h _ _

theorem takeWaiter_sane (q : Word) (left k : Nat) (h : s.Sane R c) : (takeWaiter q left k s).All (State.Sane R c) := by
  induction left generalizing k s with
  | zero => trivial
  | succ left ih =>
    exact (memRead_sane h _).bind fun _ _ h => .ite (fun _ => ih _ h) fun _ => (memWrite_sane h _ _).bind fun _ _ h => h

theorem request_sane (h : s.Sane R c) (m : MemRef) : (request m s).All (State.Sane R c) :=
  (eaWord_sane h m).bind fun ea _ h => (memRead_sane h ea).bind fun _ _ h => (memWrite_sane h ea _).bind fun _ _ h =>
  (when_sane h fun _ => (readNS_sane h).bind fun n _ h => (memQSet_sane h (ea + 1#16) n true).bind fun _ _ h =>
    qSet_sane h _ n false).bind fun _ _ h => schedEpilogue_sane h

theorem release_sane (h : s.Sane R c) (m : MemRef) : (release m s).All (State.Sane R c) :=
  (eaWord_sane h m).bind fun ea _ h => (memRead_sane h ea).bind fun _ _ h => (memWrite_sane h ea _).bind fun _ _ h =>
  (when_sane h fun _ => (takeWaiter_sane (ea + 1#16) 8 0 h).bind fun n _ h => qSet_sane h _ n true).bind fun _ _ h =>
  schedEpilogue_sane h

theorem waitFor_sane (h : s.Sane R c) (m : MemRef) : (waitFor m s).All (State.Sane R c) :=
  (eaWord_sane h m).bind fun ea _ h => (memRead_sane h ea).bind fun _ _ h => (readNS_sane h).bind fun n _ h =>
  (memWrite_sane h ea _).bind fun _ _ h =>
  (when_sane h fun _ => qSet_sane h _ n false).bind fun _ _ h => schedEpilogue_sane h

theorem postParameter_sane (h : s.Sane R c) (w q : Word) : (postParameter w q s).All (State.Sane R c) :=
  .ite (fun _ => .ite (fun _ => trivial) fun _ => memQSet_sane h q _ true) fun _ => h

theorem activate_sane (h : s.Sane R c) (m : MemRef) : (activate m s).All (State.Sane R c) :=
  (eaWord_sane h m).bind fun ea _ h => (memRead_sane h ea).bind fun w _ h =>
  (postParameter_sane h w (ea + 1#16)).bind fun _ _ h => (memWrite_sane h ea _).bind fun _ _ h =>
  (when_sane h fun _ => qSet_sane h _ _ true).bind fun _ _ h => schedEpilogue_sane h

/-! System instructions. -/

theorem privileged_sane (h : s.Sane R c) {body : State → Res Unit}
    (hb : ∀ t : State, t.Sane R c → (body t).All (State.Sane R c)) : (privileged body s).All (State.Sane R c) :=
  (privCheck_sane h).bind fun _ t h => hb t h

theorem sioTransfer_sane (h : s.Sane R c) (op : SioOp × BitVec 14) : (sioTransfer op s).Sane R c := by
  unfold sioTransfer; split
  · exact (readData_sane h op.2).setReg .a _
  · exact h.updateCoupler _ _
  · exact (readStatus_sane h op.2).setReg .a _
  · exact h.updateCoupler _ _

theorem takeIpi_sane (h : s.Sane R c) : (takeIpi s).All (State.Sane R c) := by
  have hi := serveIpi_sane h
  unfold takeIpi
  split
  · rename_i hs; exact hi.of_ok hs
  · rename_i t hs
    have ht : t.Sane R c := hi.of_alarm hs
    exact (raiseAlarm_sane (s := { t with phase := .abandoned }) ht _).bind fun _ _ h => h
  · trivial
  · trivial

theorem electAgain_sane (h : s.Sane R c) : (electAgain s).All (State.Sane R c) :=
  .ite (fun _ => (reschedule_sane h).bind fun _ _ h => h.scribbleWsched) fun _ => h

theorem electLevelAfterAcq_sane (h : s.Sane R c) : (electLevelAfterAcq s).All (State.Sane R c) := by
  unfold electLevelAfterAcq; split
  · exact launch_sane h _
  all_goals exact electAgain_sane h

theorem electAfterAcq_sane (h : s.Sane R c) : (electAfterAcq s).All (State.Sane R c) :=
  .ite (fun _ => powerFailSequence_sane h) fun _ => .ite
    (fun _ => (takeIpi_sane h).bind fun _ _ h => .ite (fun _ => h) fun _ => electLevelAfterAcq_sane h)
    fun _ => electLevelAfterAcq_sane h

theorem acquit_sane (h : s.Sane R c) : (acquit s).All (State.Sane R c) :=
  (leaveImmediate_sane (s := s.unmask.advance 1) h _).bind fun _ _ h => electAfterAcq_sane h

theorem acquitDeferred_sane (h : s.Sane R c) : (acquitDeferred s).All (State.Sane R c) :=
  .ite (fun _ => (reschedule_sane (s := s.unmask.advance 1) h).bind fun _ _ h => h.scribbleWsched) fun _ => trivial

theorem acknowledge_sane (h : s.Sane R c) (i : Nat) : (acknowledge i s).Sane R c := by
  unfold acknowledge
  split
  · exact h
  · split
    · exact h
    · split <;> exact h

theorem breakpointWord_sane (h : s.Sane R c) (pa : PAddr) : (breakpointWord pa s).All (State.Sane R c) :=
  .ite (fun _ => .ite (fun _ => h) fun _ => h) fun _ => .ite (fun _ => h) fun _ => h

theorem rewriteParity_sane (h : s.Sane R c) (bad : Bool) : (rewriteParity bad s).All (State.Sane R c) :=
  (resolve_sane h _ _).bind fun pa _ h => (breakpointWord_sane h pa).bind fun _ _ h => h.setParity pa bad

theorem discoverBreakpoint_sane (h : s.Sane R c) : (discoverBreakpoint s).All (State.Sane R c) :=
  (resolve_sane h _ _).bind fun _ _ h => .ite (fun _ => h) fun _ =>
    .ite (fun _ => .ite (fun _ => h) fun _ => h) fun _ => .ite (fun _ => h) fun _ => h

/-- What a HALT leaves to count after its first period (45_system.md R306). -/
theorem haltCount_lt (x : Word) : (if x = 0#16 then 65535 else x.toNat - 1) < 65536 := by
  have := x.isLt
  split <;> omega

/-! Floating point. -/

theorem floatDispatch_sane (h : s.Sane R c) (u : Bool) {body : State → Res Unit}
    (hb : (body s).All (State.Sane R c)) : (floatDispatch u body s).All (State.Sane R c) :=
  .ite (fun _ => hb) fun _ => absentExtension_sane h 0#8

theorem recordEvent_sane (h : s.Sane R c) (mask : Word) : (recordEvent mask s).All (State.Sane R c) :=
  (memRead_sane h _).bind fun _ _ h => memWrite_sane h _ _

theorem deliver_sane (h : s.Sane R c) (x : FloatResult) : (deliver x s).All (State.Sane R c) := by
  have open_sane : (openResult s).Sane R c := h
  cases x with
  | value w => exact h
  | underflow => exact (recordEvent_sane (s := (s.setPair fzero).setVC false true) h _).bind fun _ _ h => h
  | overflow | divideByZero | fixImpossible => exact (recordEvent_sane open_sane _).bind fun _ _ h => h

theorem readPair_sane (h : s.Sane R c) (m : MemRef) : (readPair m s).All (State.Sane R c) :=
  (eaWord_sane h m).bind fun ea _ h => (memRead_sane h ea).bind fun _ _ h =>
    (memRead_sane h (ea + 1#16)).bind fun _ _ h => h

theorem floatBinary_sane (h : s.Sane R c) {op : Word × Word → Word × Word → State → Res Unit} (m : MemRef)
    (ho : ∀ x y (t : State), t.Sane R c → (op x y t).All (State.Sane R c)) : (floatBinary op m s).All (State.Sane R c) :=
  (readPair_sane h m).bind fun y t h => .ite (fun _ => absentExtension_sane h 0#8) fun _ => ho _ y t h

theorem floatLoad_sane (h : s.Sane R c) (m : MemRef) : (floatLoad m s).All (State.Sane R c) :=
  (eaWord_sane h m).bind fun ea _ h => (memRead_sane h ea).bind fun a _ h =>
    (memRead_sane (h.setReg .a a) (ea + 1#16)).bind fun _ _ h => h

theorem floatStore_sane (h : s.Sane R c) (m : MemRef) : (floatStore m s).All (State.Sane R c) :=
  (eaWord_sane h m).bind fun ea _ h => (memWrite_sane h ea _).bind fun _ _ h =>
    (memWrite_sane h (ea + 1#16) _).bind fun _ _ h => h

/-! CDA16. -/

theorem cdaDispatch_sane (h : s.Sane R c) (moves : Bool) {body : State → Res Unit} (hb : (body s).All (State.Sane R c)) :
    (cdaDispatch moves body s).All (State.Sane R c) :=
  .ite (fun _ => hb) fun _ => absentExtension_sane h 7#8

theorem cdaZone_sane (h : s.Sane R c) : (cdaZone s).All (State.Sane R c) :=
  (cdaLimits_sane h).bind fun _ _ h => .ite (fun _ => h) fun _ => h

theorem cdaMove_sane (h : s.Sane heldAny c) {move : Word × Word → Word → State → Res Unit}
    (hm : ∀ lim i (t : State), t.Sane heldAny c → (move lim i t).All (State.Sane heldAny c)) :
    (cdaMove move s).All (State.Sane heldAny c) :=
  .ite (fun _ => { h with holds := trivial }) fun _ => (heldOr_sane h (cdaZone_sane h)).bind fun lim t h =>
    keeping_sane (blockMove_sane h 2 fun i => hm lim i t h)

theorem writeBit_sane (h : s.Sane R c) (r : Int) (b : Bool) : (writeBit r b s).All (State.Sane R c) :=
  (memRead_sane h _).bind fun _ _ h => (memWrite_sane h _ _).bind fun _ _ h => h

theorem detectReset_sane (h : s.Sane R c) : (detectReset s).All (State.Sane R c) := by
  refine .ite (fun _ => h) fun _ => (memRead_sane h _).bind fun _ _ h => ?_
  split
  · exact (memWrite_sane h _ _).bind fun _ _ h => h
  · exact .ite (fun _ => h) fun _ => h

theorem insertElement_sane (h : s.Sane R c) : (insertElement s).All (State.Sane R c) :=
  (memRead_sane h _).bind fun _ _ h => (memWrite_sane h _ _).bind fun _ _ h => (memWrite_sane h _ _).bind fun _ _ h =>
    (memWrite_sane h _ _).bind fun _ _ h => (memWrite_sane h _ _).bind fun _ _ h => h

theorem suppressElement_sane (h : s.Sane R c) : (suppressElement s).All (State.Sane R c) :=
  (memRead_sane h _).bind fun _ _ h => (memRead_sane h _).bind fun _ _ h => .ite (fun _ => h) fun _ =>
    (memWrite_sane h _ _).bind fun _ _ h => (memWrite_sane h _ _).bind fun _ _ h => h

theorem suppressFirst_sane (h : s.Sane R c) : (suppressFirst s).All (State.Sane R c) :=
  (memRead_sane h _).bind fun _ _ h => .ite (fun _ => h) fun _ => (memRead_sane h _).bind fun _ _ h =>
    (memWrite_sane h _ _).bind fun _ _ h => (memWrite_sane h _ _).bind fun _ _ h => h

theorem suppressLast_sane (h : s.Sane R c) : (suppressLast s).All (State.Sane R c) :=
  (memRead_sane h _).bind fun _ _ h => .ite (fun _ => h) fun _ => (memRead_sane h _).bind fun _ _ h =>
    (memWrite_sane h _ _).bind fun _ _ h => (memWrite_sane h _ _).bind fun _ _ h => h

/-! ISP16. -/

theorem ispDispatch_sane (h : s.Sane R c) {body : State → Res Unit} (hb : (body s).All (State.Sane R c)) :
    (ispDispatch body s).All (State.Sane R c) :=
  .ite (fun _ => hb) fun _ => absentExtension_sane h 4#8

theorem basedDispatch_sane (h : s.Sane R c) (o : IspArgs) {body : Word → Word → State → Res Unit}
    (hb : ∀ p1 p2 (t : State), t.Sane R c → (body p1 p2 t).All (State.Sane R c)) :
    (basedDispatch o body s).All (State.Sane R c) :=
  ispDispatch_sane h ((privCheck_sane h).bind fun _ _ h => (basedParams_sane h o).bind fun p t h => hb p.1 p.2 t h)

theorem longDispatch_sane (h : s.Sane heldAny c) (o : IspArgs) {body : Word → Word → State → Res Unit}
    (hb : ∀ p1 p2 (t : State), t.Sane heldAny c → (body p1 p2 t).All (State.Sane heldAny c)) :
    (longDispatch o body s).All (State.Sane heldAny c) :=
  ispDispatch_sane h ((privCheck_sane h).bind fun _ _ h => (heldOr_sane h (basedParams_sane h o)).bind fun p t h =>
    keeping_sane (hb p.1 p.2 t h))

theorem loadAt_sane (h : s.Sane R c) (pa : PAddr) : (loadAt pa s).All (State.Sane R c) :=
  (readAt_sane h pa).bind fun _ _ h => h

theorem storeAt_sane (h : s.Sane R c) (pa : PAddr) : (storeAt pa s).All (State.Sane R c) := writeAt_sane h pa _

theorem loadPairAt_sane (h : s.Sane R c) (pa pb : PAddr) : (loadPairAt pa pb s).All (State.Sane R c) :=
  (loadAt_sane h pa).bind fun _ _ h => (readAt_sane h pb).bind fun _ _ h => h

theorem storePairAt_sane (h : s.Sane R c) (pa pb : PAddr) : (storePairAt pa pb s).All (State.Sane R c) :=
  (writeAt_sane h pa _).bind fun _ _ h => writeAt_sane h pb _

theorem loadByteAt_sane (h : s.Sane R c) (pa : PAddr) : (loadByteAt pa s).All (State.Sane R c) :=
  (readAt_sane h pa).bind fun _ _ h => h

theorem storeByteAt_sane (h : s.Sane R c) (pa : PAddr) : (storeByteAt pa s).All (State.Sane R c) :=
  (readAt_sane h pa).bind fun _ _ h => writeAt_sane h pa _

theorem writeBasedBit_sane (h : s.Sane R c) (p1 p2 : Word) (b : Bool) : (writeBasedBit p1 p2 b s).All (State.Sane R c) :=
  (readAt_sane h _).bind fun _ _ h => writeAt_sane h _ _

theorem discoverBit_sane (h : s.Sane R c) (o : IspArgs) (p1 p2 : Word) : (discoverBit o p1 p2 s).All (State.Sane R c) := by
  refine .ite (fun _ => h) fun _ => (readAt_sane h _).bind fun _ _ h => ?_
  split
  · exact h
  · exact .ite (fun _ => h) fun _ => h

theorem cdaOperand_sane (h : s.Sane R c) (w2 : Word) (disp : State → Word → Word) :
    (cdaOperand w2 disp s).All (State.Sane R c) :=
  (ispPointer_sane h w2).bind fun a _ h => (memRead_sane h a).bind fun _ _ h => (cdaLimits_sane h).bind fun _ _ h =>
    .ite (fun _ => h) fun _ => h

theorem cdaWord_sane (h : s.Sane R c) (ix : Bool) (w2 : Word) {act : PAddr → State → Res Unit}
    (ha : ∀ pa (t : State), t.Sane R c → (act pa t).All (State.Sane R c)) : (cdaWord ix w2 act s).All (State.Sane R c) :=
  ispDispatch_sane h ((cdaOperand_sane h w2 _).bind fun _ t h => (ha _ t h).bind fun _ _ h => h)

theorem cdaByte_sane (h : s.Sane R c) (w2 : Word) {act : PAddr → State → Res Unit}
    (ha : ∀ pa (t : State), t.Sane R c → (act pa t).All (State.Sane R c)) : (cdaByte w2 act s).All (State.Sane R c) :=
  ispDispatch_sane h ((cdaOperand_sane h w2 _).bind fun _ t h => (ha _ t h).bind fun _ _ h => h)

theorem cdaPair_sane (h : s.Sane R c) (ix : Bool) (w2 : Word) {act : PAddr → PAddr → State → Res Unit}
    (ha : ∀ pa pb (t : State), t.Sane R c → (act pa pb t).All (State.Sane R c)) :
    (cdaPair ix w2 act s).All (State.Sane R c) :=
  ispDispatch_sane h ((cdaOperand_sane h w2 _).bind fun _ t h => .ite (fun _ => (ha _ _ t h).bind fun _ _ h => h) fun _ => h)

end Sys2Proof.Machine
end

section
/-! SUPPORT. The obligation: every instruction, every outside event and every step keeps the invariant and the configuration. -/

namespace Sys2Proof.Machine

variable {R : HeldRule} {c : Config} {s : State}

/-! Every instruction. -/

/-- Every instruction keeps the invariant; inside an execution a slice of a long one may hold its operands. The arms of one shape
stand together, each with the parts its body is made of. -/
theorem exec_sane (h : s.Sane heldAny c) (i : Instr) : nextHas (State.Sane heldAny c) (exec i s) := by
  unfold exec
  exact match i with
  -- The operand word is read into a register, into the flags or into P.
  | .la m | .lb m | .lx m | .ly m | .ad m | .sb m | .cp m | .cpz m | .mp m | .and m | .or m | .eor m | .br m =>
    execute_sane h fun _ h => (readOperand_sane h m).bind fun _ _ h => h
  | .dv m => execute_sane h fun _ h => (readOperand_sane h m).bind fun v _ h => divide_sane h v
  | .lad m => execute_sane h fun _ h => (eaWord_sane h m).bind fun _ _ h => h
  | .lby m | .cpby m => execute_sane h fun _ h => (eaByte_sane h m).bind fun p _ h =>
      (byteRead_sane h p.1 p.2).bind fun _ _ h => h
  | .sta m | .stb m | .stx m | .sty m | .stz m => execute_sane h fun _ h => (writeOperand_sane h m _).bind fun _ _ h => h
  | .stby m => execute_sane h fun _ h => (eaByte_sane h m).bind fun p _ h =>
      (byteWrite_sane h p.1 p.2 _).bind fun _ _ h => h
  | .xm m => execute_sane h fun _ h => (eaWord_sane h m).bind fun ea _ h => (resolve_sane h _ ea).bind fun pa _ h =>
      (exchangeA_sane h pa).bind fun _ _ h => h
  | .ic m | .dc m => execute_sane h fun _ h => stepWord_sane h _ m
  -- Registers, flags and P alone change.
  | .lai .. | .lbi .. | .lxi .. | .lyi .. | .ori .. | .andi .. | .eori .. | .cpi .. | .cpr .. | .cpzr .. | .adrp .. | .pty
  | .scy | .nop | .rbt .. | .sbt .. | .ibt .. | .tbt .. | .slrs .. | .slrd .. | .slls .. | .slld .. | .scrs .. | .scrd ..
  | .scls .. | .scld .. | .sars .. | .sard .. => execute_sane h fun _ h => h
  | .adri rd _ | .lr _ rd | .adr _ rd | .sbr _ rd | .orr _ rd | .eorr _ rd | .andr _ rd | .clsr _ rd | .adcr rd | .sbcr rd
  | .ngr _ rd | .cmr _ rd | .swbr _ rd | .lrp rd => execute_sane h fun _ h => h.setReg rd _
  | .xr rs rd => execute_sane h fun _ h => (h.setReg rd _).setReg rs _
  | .dbt => execute_sane h fun _ h => ite_sane h h
  -- Jumps and calls.
  | .jmp d | .jnc d | .jnv d | .jncv d | .jc d | .jv d | .jcv d | .jage d | .jane d | .jag d | .jal d | .jae d | .jale d =>
    execute_sane h fun _ h => jumpIf_sane h _ d
  | .jix d | .jdx d => execute_sane h fun _ h => jumpIf_sane (h.setReg .x _) _ d
  | .bsr m => execute_sane h fun _ h => (eaWord_sane h m).bind fun ea _ h => (push_sane h _).bind fun _ _ h =>
      (memRead_sane h ea).bind fun _ _ h => h
  | .rsr => execute_sane h fun _ h => (stackRead_sane h _).bind fun _ _ h => h
  | .svc n => execute_sane h fun _ h => supervisorCall_sane h n _
  | .rsv => execute_sane h fun _ h => .ite (fun _ => h) fun _ => (stackRead_sane h _).bind fun _ _ h => h
  | .dap16 .. | .vss16 .. | .ffm16 .. => execute_sane h fun _ h => absentExtension_sane h _
  -- Stacks, strings and blocks.
  | .psr mask => execute_sane h fun _ h => (pushRegs_sane (selectedRegs mask) h).bind fun _ _ h => h
  | .plr mask => execute_sane h fun _ h => (pullRegs_sane (selectedRegs mask).reverse h).bind fun _ _ h => h
  | .lrm mask => execute_sane h fun _ h => loadInline_sane _ (selectedRegs mask) h
  | .push => execute_sane h fun _ h => (pushPullCheck_sane h).bind fun _ _ h => (memRead_sane h _).bind fun v _ h =>
      pushOn_sane h v
  | .pull => execute_sane h fun _ h => (pushPullCheck_sane h).bind fun _ _ h => (memRead_sane h _).bind fun v _ h =>
      pullFrom_sane h v
  | .sbs => execute_sane h fun _ h => (pushPullCheck_sane h).bind fun _ _ h => searchByte_sane h
  | .move => execute_sane h fun _ h => blockMove_sane h 1 fun i => moveWord_sane h i
  -- The scheduler.
  | .arm .. => execute_sane h fun _ h => (schedPrologue_sane h true false).bind fun _ _ h =>
      (qSet_sane h _ _ true).bind fun _ _ h => schedEpilogue_sane h
  | .quit => execute_sane h fun _ h => (schedPrologue_sane h false true).bind fun _ _ h => (readNS_sane h).bind fun n _ h =>
      (qSet_sane h _ n false).bind fun _ _ h => schedEpilogue_sane h
  | .rqst m => execute_sane h fun _ h => (schedPrologue_sane h true true).bind fun _ _ h => request_sane h m
  | .rlse m => execute_sane h fun _ h => (schedPrologue_sane h true false).bind fun _ _ h => release_sane h m
  | .wait m => execute_sane h fun _ h => (schedPrologue_sane h true true).bind fun _ _ h => waitFor_sane h m
  | .act m => execute_sane h fun _ h => (schedPrologue_sane h true false).bind fun _ _ h => activate_sane h m
  -- Immediate tasks, HALT and the system registers.
  | .acq => execute_sane h fun _ h => privileged_sane h fun _ h => .ite (fun _ => trivial) fun _ =>
      .ite (fun _ => acquitDeferred_sane h) fun _ => acquit_sane h
  | .step => execute_sane h fun _ h => privileged_sane h fun _ h => .ite (fun _ => trivial) fun _ =>
      (acquit_sane h).bind fun _ _ h => h
  | .halt => execute_sane h fun t h => .ite (fun _ => h) fun _ => h.halt (haltCount_lt t.r.X)
  | .actd => execute_sane h fun _ h => h
  | .ack => execute_sane h fun _ h => ite_sane h (acknowledge_sane h _)
  | .romb => execute_sane h fun _ h => privileged_sane h fun _ _ => trivial
  | .dit | .eit | .sst | .rst | .rdhv | .ipi | .rdsi => execute_sane h fun _ h => privileged_sane h fun _ h => h
  | .rdoe | .woe => execute_sane h fun _ h => privileged_sane h fun _ h => ite_sane h h
  | .ximr rd => execute_sane h fun _ h => privileged_sane h fun t h =>
      State.Sane.setReg (s := { t with IM := t.reg rd }) h rd _
  | .sio m => execute_sane h fun _ h => privileged_sane h fun _ h => (readOperand_sane h m).bind fun _ _ h =>
      sioTransfer_sane h _
  | .dbp => execute_sane h fun _ h => privileged_sane h fun _ h => discoverBreakpoint_sane h
  | .sbp | .rbp => execute_sane h fun _ h => privileged_sane h fun _ h => rewriteParity_sane h _
  | .lar => execute_sane h fun _ h => privileged_sane h fun _ h => (relRead_sane h _).bind fun _ _ h => h
  | .star => execute_sane h fun _ h => privileged_sane h fun _ h => (relWrite_sane h _ _).bind fun _ _ h => h
  | .mvtm => execute_sane h fun _ h => privileged_sane h fun _ h => blockMove_sane h 1 fun _ =>
      (relRead_sane h _).bind fun _ _ h => physWrite_sane h _ _
  | .mvts => execute_sane h fun _ h => privileged_sane h fun _ h => blockMove_sane h 1 fun _ =>
      (physRead_sane h _).bind fun _ _ h => relWrite_sane h _ _
  | .xmr => execute_sane h fun _ h => .ite (fun _ => absentExtension_sane h _) fun _ =>
      (resolve_sane h _ _).bind fun pa _ h => (exchangeA_sane h pa).bind fun _ _ h => h
  -- Floating point.
  | .fneg | .fcaz => execute_sane h fun _ h => floatDispatch_sane h _ h
  | .fabs => execute_sane h fun _ h => floatDispatch_sane h _ (ite_sane h h)
  | .fix => execute_sane h fun _ h => floatDispatch_sane h _ (by
      split
      · exact h
      · exact deliver_sane h _)
  | .flt | .norm => execute_sane h fun _ h => floatDispatch_sane h _ (deliver_sane h _)
  | .fld m => execute_sane h fun _ h => floatDispatch_sane h _ (floatLoad_sane h m)
  | .fst m => execute_sane h fun _ h => floatDispatch_sane h _ (floatStore_sane h m)
  | .fad m | .fsb m | .fmp m | .fdv m => execute_sane h fun _ h => floatDispatch_sane h _
      (floatBinary_sane h m fun _ _ _ h => deliver_sane h _)
  | .fcmz m => execute_sane h fun _ h => floatDispatch_sane h _ ((readPair_sane h m).bind fun _ _ h => h)
  | .fcam m => execute_sane h fun _ h => floatDispatch_sane h _ (floatBinary_sane h m fun _ _ _ h => h)
  -- CDA16.
  | .rcda => execute_sane h fun _ h => cdaDispatch_sane h true (cdaMove_sane h fun _ _ _ h =>
      (readAt_sane h _).bind fun _ _ h => memWrite_sane h _ _)
  | .wcda => execute_sane h fun _ h => cdaDispatch_sane h true (cdaMove_sane h fun _ _ _ h =>
      (memRead_sane h _).bind fun _ _ h => writeAt_sane h _ _)
  | .drbm => execute_sane h fun _ h => cdaDispatch_sane h false (detectReset_sane h)
  | .insq => execute_sane h fun _ h => cdaDispatch_sane h false (insertElement_sane h)
  | .supq => execute_sane h fun _ h => cdaDispatch_sane h false (suppressElement_sane h)
  | .sfq => execute_sane h fun _ h => cdaDispatch_sane h false (suppressFirst_sane h)
  | .slq => execute_sane h fun _ h => cdaDispatch_sane h false (suppressLast_sane h)
  | .sbtm .. | .rbtm .. => execute_sane h fun _ h => cdaDispatch_sane h false (writeBit_sane h _ _)
  -- ISP16.
  | .bla _ o => execute_sane h fun _ h => basedDispatch_sane h o fun _ _ _ h => (loadAt_sane h _).bind fun _ _ h => h
  | .bsta _ o => execute_sane h fun _ h => basedDispatch_sane h o fun _ _ _ h => (storeAt_sane h _).bind fun _ _ h => h
  | .bxm _ o => execute_sane h fun _ h => basedDispatch_sane h o fun _ _ _ h => (exchangeA_sane h _).bind fun _ _ h => h
  | .bdld _ o => execute_sane h fun _ h => basedDispatch_sane h o fun _ _ _ h =>
      (loadPairAt_sane h _ _).bind fun _ _ h => h
  | .bdst _ o => execute_sane h fun _ h => basedDispatch_sane h o fun _ _ _ h =>
      (storePairAt_sane h _ _).bind fun _ _ h => h
  | .blby _ o => execute_sane h fun _ h => basedDispatch_sane h o fun _ _ _ h => (loadByteAt_sane h _).bind fun _ _ h => h
  | .bstby _ o => execute_sane h fun _ h => basedDispatch_sane h o fun _ _ _ h =>
      (storeByteAt_sane h _).bind fun _ _ h => h
  | .brbtm _ o | .bsbtm _ o => execute_sane h fun _ h => basedDispatch_sane h o fun _ _ _ h =>
      (writeBasedBit_sane h _ _ _).bind fun _ _ h => h
  | .bmove _ o => execute_sane h fun _ h => longDispatch_sane h o fun _ _ _ h => blockMove_sane h _ fun _ =>
      (readAt_sane h _).bind fun _ _ h => writeAt_sane h _ _
  | .bdbtm _ o => execute_sane h fun _ h => longDispatch_sane h o fun _ _ _ h => discoverBit_sane h o _ _
  | .cla ix w2 => execute_sane h fun _ h => cdaWord_sane h ix w2 fun pa _ h => loadAt_sane h pa
  | .csta ix w2 => execute_sane h fun _ h => cdaWord_sane h ix w2 fun pa _ h => storeAt_sane h pa
  | .cxm ix w2 => execute_sane h fun _ h => cdaWord_sane h ix w2 fun pa _ h => exchangeA_sane h pa
  | .cdld ix w2 => execute_sane h fun _ h => cdaPair_sane h ix w2 fun pa pb _ h => loadPairAt_sane h pa pb
  | .cdst ix w2 => execute_sane h fun _ h => cdaPair_sane h ix w2 fun pa pb _ h => storePairAt_sane h pa pb
  | .clby _ w2 => execute_sane h fun _ h => cdaByte_sane h w2 fun pa _ h => loadByteAt_sane h pa
  | .cstby _ w2 => execute_sane h fun _ h => cdaByte_sane h w2 fun pa _ h => storeByteAt_sane h pa
  | .xent .. | .xsor .. => execute_sane h fun _ h => ispDispatch_sane h trivial
  | .xctx .. => execute_sane h fun _ h => ispDispatch_sane h
      (.ite (fun _ => trivial) fun _ => .ite (fun _ => h) fun _ => trivial)

/-! The fetch and the end of an instruction. -/

theorem fetchFirst_sane (h : s.Sane R c) : (fetchFirst s).All (State.Sane R c) :=
  (resolve_sane h _ _).bind fun pa _ h => .ite (fun _ => h) fun _ => readAt_sane h pa

theorem fetchMore_sane (n : Nat) (a : Word) (h : s.Sane R c) : (fetchMore n a s).All (State.Sane R c) := by
  induction n generalizing a s with
  | zero => exact h
  | succ n ih => exact (memRead_sane h a).bind fun _ _ h => (ih _ h).bind fun _ _ h => h

theorem fetchCheck_sane (h : s.Sane R c) (w : Word) : (fetchCheck w s).All (State.Sane R c) := by
  refine .ite (fun _ => ?_) fun _ => h
  split
  · exact h
  · exact .ite (fun _ => .ite (fun _ => h) fun _ => h) fun _ => .ite (fun _ => privCheck_sane h) fun _ => h

theorem fetchWords_sane (h : s.Sane R c) : (fetchWords s).All (State.Sane R c) :=
  (fetchFirst_sane h).bind fun w _ h => (fetchCheck_sane h w).bind fun _ _ h =>
    (fetchMore_sane _ _ h).bind fun _ _ h => h

/-- An instruction has a first word. -/
theorem fetchWords_ne_nil {ws : List Word} {t : State} (h : fetchWords s = .ok ws t) : ws ≠ [] := by
  obtain ⟨w, u, -, h⟩ := Res.bind_eq_ok.mp h
  obtain ⟨-, u, -, h⟩ := Res.bind_eq_ok.mp h
  obtain ⟨l, u, -, h⟩ := Res.bind_eq_ok.mp h
  cases h
  exact List.cons_ne_nil w l

theorem runWords_sane (h : s.Sane heldAny c) (ws : List Word) : nextHas (State.Sane heldAny c) (runWords exec ws s) := by
  unfold runWords
  split
  · exact exec_sane h _
  · trivial
  · exact nextHas_ite (execute_sane h fun _ h => absentExtension_sane h _) trivial
  · exact execute_sane h fun _ h => absentExtension_sane h _

/-- After an execution the words of a long instruction in progress are held, or nothing is. `hw` says that its operands may stay
with these words. -/
theorem State.Sane.holding (h : s.Sane R c) {ws : List Word} (hw : heldPaired ws s.heldOperands) :
    (s.holding ws).Sane heldPaired c :=
  ite_sane (h.hold hw fun _ => rfl) (h.release fun _ => rfl)

/-- The end of an execution makes the invariant whole again. -/
theorem endOfInstruction_sane {o : Host.Outcome State Fault Refusal} {ws : List Word} (armed : Bool)
    (ho : nextHas (fun t => t.Sane R c ∧ heldPaired ws t.heldOperands) o) :
    nextHas (State.Sane heldPaired c) (endOfInstruction armed ws o) := by
  cases o with
  | next t =>
    have ht : (t.holding ws).Sane heldPaired c := ho.1.holding ho.2
    unfold endOfInstruction
    dsimp only
    split
    · exact (endCompleted_sane ht armed).outcome
    · exact ht
    · exact ht
  | fault r => trivial
  | refused r => trivial

/-- An instruction that has words is run, and its words are held or released. -/
theorem runThenEnd_sane (h : s.Sane R c) {ws : List Word} (hw : ws ≠ []) (armed : Bool) :
    nextHas (State.Sane heldPaired c) (endOfInstruction armed ws (runWords exec ws s)) :=
  endOfInstruction_sane armed ((runWords_sane h.any ws).imp fun _ ht => ⟨ht, fun e => absurd e hw⟩)

/-! The processor. -/

/-- A fetch is made where nothing is held. -/
theorem fetchStep_sane (h : s.Sane heldNothing c) : nextHas (State.Sane heldPaired c) (fetchStep exec s) := by
  have hf := fetchWords_sane h
  unfold fetchStep
  split
  · rename_i ws t hw
    exact runThenEnd_sane (hf.of_ok hw) (fetchWords_ne_nil hw) _
  · rename_i n t hw
    have ht : t.Sane heldNothing c := hf.of_alarm hw
    refine nextHas_ite (ht.release fun _ => rfl) (endOfInstruction_sane (R := heldNothing) _ ?_)
    exact (takeAlarm_sane ht s.P n).outcome.imp fun u hu => ⟨hu, fun _ => hu.holds.2⟩
  · trivial
  · trivial

theorem instructionStep_sane (h : s.Sane heldPaired c) : nextHas (State.Sane heldPaired c) (instructionStep exec s) := by
  unfold instructionStep
  split
  · rename_i he
    exact fetchStep_sane (h.weaken ⟨he, h.holds he⟩ ⟨rfl, rfl⟩)
  · exact runThenEnd_sane h (List.cons_ne_nil _ _) _

theorem haltStep_sane (h : s.Sane R c) : nextHas (State.Sane R c) (haltStep s) := by
  have h0 : ({ s.setReg .x 0#16 with haltLeft := 0, phase := .completed } : State).Sane R c := h.halt (by decide)
  have h1 : ({ s with haltLeft := s.haltLeft - 1 } : State).Sane R c := h.halt (Nat.lt_of_le_of_lt (Nat.sub_le _ _) h.haltFits)
  exact nextHas_ite (endCompleted_sane h0 _).outcome h1

theorem started_sane {m : Res Unit} (h : m.All (State.Sane R c)) : nextHas (State.Sane R c) (started m) := by
  cases m with
  | ok u t => exact (actOnBreak_sane h).outcome
  | alarm n t => exact (raiseAlarm_sane h n).outcome
  | refuse r => trivial
  | stuck r => trivial

theorem startTask_sane {start : State → Res Unit} (h : s.Sane R c) (hs : (start s).All (State.Sane R c)) :
    nextHas (State.Sane R c) (startTask start s) :=
  nextHas_ite (haltEnds_sane h).outcome (started_sane hs)

theorem ipiStep_sane (h : s.Sane R c) : nextHas (State.Sane R c) (ipiStep s) := by
  have hi := serveIpi_sane h
  unfold ipiStep
  split
  · rename_i hs; exact (actOnBreak_sane (hi.of_ok hs)).outcome
  · rename_i hs; exact nextHas_ite (haltEnds_sane h).outcome (raiseOutside_sane (hi.of_alarm hs) _).outcome
  · trivial
  · trivial

theorem runningStep_sane (h : s.Sane heldPaired c) : nextHas (State.Sane heldPaired c) (runningStep exec s) := by
  have hb : nextHas (State.Sane heldPaired c) (actOnBreak s).outcome := (actOnBreak_sane h).outcome
  unfold runningStep
  split
  · exact nextHas_ite hb (startTask_sane h (powerFailSequence_sane h))
  · exact nextHas_ite hb (ipiStep_sane h)
  · exact nextHas_ite hb (startTask_sane h (launch_sane h _))
  · exact nextHas_ite (haltStep_sane h) (instructionStep_sane h)

theorem tickOutcome_sane {o : Host.Outcome State Fault Refusal} (h : nextHas (State.Sane R c) o) :
    nextHas (State.Sane R c) (tickOutcome o) := by
  cases o <;> exact h

theorem processorStep_sane (h : s.Sane heldPaired c) : nextHas (State.Sane heldPaired c) (processorStep exec s) :=
  nextHas_ite h (nextHas_ite (tickOutcome_sane (runningStep_sane h)) (runningStep_sane h))

/-! The outside world. -/

/-- An initialisation leaves no HALT, nothing held and SCHED 0 (70_reset_and_hazards.md R550). -/
theorem State.Sane.cleared (h : s.Sane R c) (kind : InitKind) : (s.cleared kind).Sane R c :=
  { h with haltFits := Nat.succ_pos _, holds := h.released, schedClear := rfl }

theorem clearAbox2_sane (h : s.Sane R c) (kind : InitKind) : (clearAbox2 kind s).All (State.Sane R c) :=
  when_sane h fun _ => physWrite_sane h _ _

theorem initialise_sane (h : s.Sane R c) (kind : InitKind) : (initialise kind s).All (State.Sane R c) := by
  have hm : ((physRead 0x0008#16 (s.cleared kind)).bind fun p s => clearAbox2 kind { s with P := p }).All (State.Sane R c) :=
    (physRead_sane (h.cleared kind) _).bind fun p t h => clearAbox2_sane (s := { t with P := p }) h kind
  unfold initialise
  split
  · rename_i hr; exact hm.of_ok hr
  · rename_i hr; exact raiseAlarm_sane (hm.of_alarm hr) _
  · trivial
  · trivial

theorem consoleAccess_sane (h : s.Sane R c) (pa : PAddr) : (consoleAccess pa s).All (State.Sane R c) :=
  .ite (fun _ => h) fun _ => .ite (fun _ => .ite (fun _ => h) fun _ => h) fun _ => .ite (fun _ => h) fun _ => h

theorem State.Sane.consoleSet (h : s.Sane R c) (r : ConsoleReg) (v : Word) : (s.consoleSet r v).Sane R c := by
  cases r with
  | general r => exact h.setReg r v
  | slo | sle => exact ite_sane h h
  | p | st | im => exact h

theorem consoleKey_sane {act : State → Res Unit} (h : s.Sane R c)
    (ha : ∀ t : State, t.Sane R c → (act t).All (State.Sane R c)) : (consoleKey act s).All (State.Sane R c) := by
  refine when_sane h fun _ => ?_
  split
  · rename_i hr; exact raiseOutside_sane ((ha s h).of_alarm hr) _
  · rename_i hr; exact (ha s h).of_ok hr
  · trivial
  · trivial

theorem outsideEvent_sane (h : s.Sane R c) (e : Input) : (outsideEvent e s).All (State.Sane R c) := by
  have hr : s.released.Sane R c := h.release h.released
  unfold outsideEvent
  cases e with
  | cpu | device | powerFail | otherIpi | otherServes => exact h
  | initialise kind => exact when_sane h fun _ => initialise_sane h kind
  | otherWrite pa v => exact h.consoleStore pa v
  | channel kind set => exact channelStep_sane h kind set
  | consoleRun | consoleStop => exact ite_sane hr h
  | consoleLoad r v => exact ite_sane (hr.consoleSet r v) h
  | consoleRead a => exact consoleKey_sane h fun _ h => (resolve_sane h _ a).bind fun pa _ h => consoleAccess_sane h pa
  | consoleWrite a v =>
    exact consoleKey_sane h fun _ h => (resolve_sane h _ a).bind fun pa _ h => (consoleAccess_sane h pa).bind fun _ _ h =>
      h.consoleStore pa v
  | consoleDB a =>
    exact consoleKey_sane h fun t h => (resolve_sane (s := t.consoleDebug) h _ a).bind fun pa _ h => h.setParity pa true
  | consoleRB a => exact consoleKey_sane h fun _ h => (resolve_sane h _ a).bind fun pa _ h => h.setParity pa false
  | consoleREC => exact ite_sane h h

/-! The step. -/

/-- Every step of the machine keeps the invariant. -/
theorem step_sane (h : s.Sane heldPaired c) : nextHas (State.Sane heldPaired c) (step s) := by
  unfold step machineStep
  split
  · exact processorStep_sane h
  · exact processorStep_sane (s := { s with inputs := _ }) h
  · rename_i e rest _ _
    exact (outsideEvent_sane (s := { s with inputs := rest }) h e).outcome

/-- Settles O58: the invariant is that of the state under its own configuration, which every part of a step keeps. -/
theorem stepKeepsInv : Obligations.StepKeepsInv := by
  intro s t hi hs
  have hk := step_sane (State.sane_of_inv hi)
  rw [hs] at hk
  exact ⟨hk.inv, hk.config⟩

end Sys2Proof.Machine
end

section
/-! SUPPORT. The obligations on the accesses of instructions: what stops one, what a 04 or 05 does where no word exists, and what a
store leaves in memory (20_memory.md R61, R70, R72, R73). -/

namespace Sys2Proof.Machine

variable {s : State} {m : MemRef} {a : Word} {n : Alarm}

/-! A store. -/

/-- A store has good parity (20_memory.md R73). -/
theorem badWord_store_same (s : State) (pa : PAddr) (v : Word) : (s.store pa v).badWord pa = false := by
  rw [State.badWord_store]; simp

theorem badWord_store_other (s : State) {pa q : PAddr} (v : Word) (h : q ≠ pa) : (s.store pa v).badWord q = s.badWord q := by
  rw [State.badWord_store]; simp [h]

/-- The two bytes of the word stored in (20_memory.md R61). -/
theorem readByte_store_same (h : Memory.wf s.mem = true) (pa : PAddr) (v : Word) :
    readByte (s.store pa v).mem (2 * pa.toNat) = hi v ∧ readByte (s.store pa v).mem (2 * pa.toNat + 1) = lo v := by
  have hw : ofBytes (readByte (s.store pa v).mem (2 * pa.toNat)) (readByte (s.store pa v).mem (2 * pa.toNat + 1)) = v :=
    readWord_writeWord_same h pa v
  exact ⟨by rw [← hi_ofBytes (readByte _ (2 * pa.toNat)), hw], by rw [← lo_ofBytes _ (readByte _ (2 * pa.toNat + 1)), hw]⟩

/-- Settles O11: read after write, the frame and the canonical form of a store. -/
theorem storedWord : Obligations.StoredWord := by
  intro s pa v hw
  obtain ⟨hhi, hlo⟩ := readByte_store_same hw pa v
  exact ⟨hhi, hlo, readWord_writeWord_same hw pa v, badWord_store_same s pa v,
    fun _ h0 h1 => readByte_writeWord_other s.mem pa v h0 h1, fun _ hq => badWord_store_other s v hq, store_wf hw pa v, rfl⟩

/-! What stops an access. -/

/-- Why a read at the program address `a` meets alarm `n`: protection, existence, parity, in this order (20_memory.md R70, R72, R73,
log 13). -/
def State.Stops (s : State) (a : Word) (n : Alarm) : Prop :=
  (n = .memoryProtection ∧ s.relocated = true ∧ s.limit < a.toNat)
    ∨ (n = .nonExistentMemory ∧ s.allowed s.relocated a = true ∧ s.cfg.exists (s.place s.relocated a) = false
      ∧ s.cfg.is0405 = false)
    ∨ (n = .parityError ∧ s.allowed s.relocated a = true ∧ s.cfg.exists (s.place s.relocated a) = true ∧ s.cfg.parity = true
      ∧ (s.place s.relocated a).toNat ∈ s.badParity ∧ s.st.MAINT = false ∧ s.st.DEBUG = false)

/-- A word in bad parity is read with alarm 2 outside DEBUG and MAINT (20_memory.md R73). -/
theorem readAt_parityError {pa : PAddr} (he : s.cfg.exists pa = true) (hp : s.cfg.parity = true) (hb : pa.toNat ∈ s.badParity)
    (hm : s.st.MAINT = false) (hd : s.st.DEBUG = false) : readAt pa s = .alarm .parityError s := by
  simp [readAt, State.badWord, he, hp, hb, hm, hd]

/-- Where no word exists a write meets alarm 0, except on a 04/05 (20_memory.md R72). -/
theorem writeAt_absent {pa : PAddr} (he : s.cfg.exists pa = false) (hm : s.cfg.is0405 = false) (v : Word) :
    writeAt pa v s = .alarm .nonExistentMemory s := by
  simp [writeAt, he, hm]

theorem allowed_of_limit (hr : s.relocated = true) (hl : s.limit < a.toNat) : s.allowed s.relocated a = false := by
  simp only [State.allowed, hr, Bool.not_true, Bool.false_or, decide_eq_false_iff_not]; omega

/-- An access that begins with a read stops with the alarm of the read. -/
theorem resolve_stops {α : Type} (h : s.Stops a n) {g : PAddr → State → Res α}
    (hg : ∀ pa, readAt pa s = .alarm n s → g pa s = .alarm n s) : (resolve s.relocated a s).bind g = .alarm n s := by
  rcases h with ⟨rfl, hr, hl⟩ | ⟨rfl, ha, he, hm⟩ | ⟨rfl, ha, he, hp, hb, hm, hd⟩
  · rw [resolve_refused (allowed_of_limit hr hl)]; rfl
  · rw [resolve_allowed ha]; exact hg _ (readAt_absent he hm)
  · rw [resolve_allowed ha]; exact hg _ (readAt_parityError he hp hb hm hd)

theorem memRead_stops (h : s.Stops a n) : memRead a s = .alarm n s := resolve_stops h fun _ hr => hr

/-- A write stops as a read does, but for bad parity, which it repairs (20_memory.md R73). -/
theorem memWrite_stops (h : s.Stops a n) (hn : n ≠ .parityError) (v : Word) : memWrite a v s = .alarm n s := by
  unfold memWrite
  rcases h with ⟨rfl, hr, hl⟩ | ⟨rfl, ha, he, hm⟩ | ⟨rfl, -⟩
  · rw [resolve_refused (allowed_of_limit hr hl)]; rfl
  · rw [resolve_allowed ha]; exact writeAt_absent he hm v
  · exact absurd rfl hn

/-! Operands at an address that stops. -/

@[simp] theorem State.direct_completed (s : State) (m : MemRef) : s.completed.direct m = s.direct m := rfl

theorem eaWord_direct (hi : m.ind = false) : eaWord m s = .ok (s.direct m) s := by simp [eaWord, hi]

theorem eaByte_direct (hi : m.ind = false) : eaByte m s = .ok (s.direct m, false) s := by simp [eaByte, hi]

/-- A part that works at the word address of an operand stops with the alarm of the relay, or of the operand. -/
theorem eaWord_stops {α : Type} (h : s.Stops (s.direct m) n) {f : Word → State → Res α}
    (hf : m.ind = false → f (s.direct m) s = .alarm n s) : (eaWord m s).bind f = .alarm n s := by
  cases hi : m.ind with
  | false => rw [eaWord_direct hi]; exact hf hi
  | true => simp [eaWord, hi, memRead_stops h]

/-- A part that works at the byte address of an operand stops with the alarm of the relay, or of the operand. -/
theorem eaByte_stops {α : Type} (h : s.Stops (s.direct m) n) {f : Word × Bool → State → Res α}
    (hf : f (s.direct m, false) s = .alarm n s) : (eaByte m s).bind f = .alarm n s := by
  cases hi : m.ind with
  | false => rw [eaByte_direct hi]; exact hf
  | true => simp [eaByte, hi, memRead_stops h]

theorem readOperand_stops (h : s.Stops (s.direct m) n) (f : Word → State → Res Unit) :
    (readOperand m s).bind f = .alarm n s := by
  rw [readOperand, eaWord_stops h fun _ => memRead_stops h]; rfl

theorem stepWord_stops (h : s.Stops (s.direct m) n) (d : Word) : stepWord d m s = .alarm n s :=
  eaWord_stops h fun _ => by rw [memRead_stops h]; rfl

theorem exchangeA_stops (h : s.Stops (s.direct m) n) (f : Unit → State → Res Unit) :
    ((eaWord m s).bind fun ea s => (resolve s.relocated ea s).bind fun pa s => (exchangeA pa s).bind f)
      = .alarm n s :=
  eaWord_stops h fun _ => resolve_stops h fun _ hr => by rw [exchangeA, hr]; rfl

theorem byteRead_stops (h : s.Stops (s.direct m) n) (f : Byte → State → Res Unit) :
    ((eaByte m s).bind fun p s => (byteRead p.1 p.2 s).bind f) = .alarm n s :=
  eaByte_stops h (by rw [byteRead, memRead_stops h]; rfl)

theorem byteWrite_stops (h : s.Stops (s.direct m) n) (f : Unit → State → Res Unit) :
    ((eaByte m s).bind fun p s => (byteWrite p.1 p.2 (lo s.r.A) s).bind f) = .alarm n s :=
  eaByte_stops h (by rw [byteWrite, memRead_stops h]; rfl)

theorem writeOperand_stops (h : s.Stops (s.direct m) n) (hw : m.ind = true ∨ n ≠ .parityError) (v : State → Word)
    (f : Unit → State → Res Unit) : (writeOperand m v s).bind f = .alarm n s := by
  have hd : m.ind = false → n ≠ .parityError := fun hi => hw.resolve_left (by simp [hi])
  rw [writeOperand, eaWord_stops h fun hi => memWrite_stops h (hd hi) (v s)]; rfl

/-! Where nothing stops an access. -/

/-- A 04 or 05 has no DRPS, so that its accesses are absolute (00_scope.md R2). -/
theorem relocated_0405 (hm : s.cfg.is0405 = true) : s.relocated = false := by
  have hd : s.cfg.hasDrps = false := by
    unfold Config.is0405 at hm; unfold Config.hasDrps
    cases hc : s.cfg.model <;> simp_all
  simp [State.relocated, hd]

/-- A 04 or 05 reads any value where no word exists (20_memory.md R72, U8). -/
theorem memRead_absent0405 (he : s.cfg.exists (s.place s.relocated a) = false) (hm : s.cfg.is0405 = true) :
    memRead a s = .ok s.fresh.1 s.fresh.2 := by
  have ha : s.allowed s.relocated a = true := by simp [State.allowed, relocated_0405 hm]
  rw [memRead, resolve_allowed ha, Res.bind_ok]
  simp [readAt, he, hm]

/-- On a 04 or 05 a write where no word exists is lost (20_memory.md R72, U8). -/
theorem memWrite_absent0405 (he : s.cfg.exists (s.place s.relocated a) = false) (hm : s.cfg.is0405 = true) (v : Word) :
    memWrite a v s = .ok () s := by
  have ha : s.allowed s.relocated a = true := by simp [State.allowed, relocated_0405 hm]
  rw [memWrite, resolve_allowed ha, Res.bind_ok]
  simp [writeAt, he, hm]

/-- Outside DEBUG a word that exists can be stored in, whatever its parity (20_memory.md R73). -/
theorem canWrite_of_exists (ha : s.allowed s.relocated a = true) (he : s.cfg.exists (s.place s.relocated a) = true)
    (hd : s.st.DEBUG = false) : s.canWrite s.relocated a = true := by
  simp [State.canWrite, State.storable, ha, he, hd]

/-! The obligation. -/

/-- The instructions that read their operand stop with the alarm of the operand, or of its relay. -/
theorem exec_readStops (h : s.completed.Stops (s.completed.direct m) n) :
    ∀ i ∈ [Instr.la m, .lb m, .lx m, .ly m, .br m, .ad m, .sb m, .cp m, .cpz m, .and m, .or m, .eor m, .mp m, .dv m, .xm m,
      .ic m, .dc m, .lby m, .stby m, .cpby m], exec i s = (takeAlarm s.P n s.completed).outcome := by
  simp only [List.forall_mem_cons]
  unfold exec
  have hr : ∀ f : Word → State → Res Unit,
      execute (fun t => (readOperand m t).bind f) s = (takeAlarm s.P n s.completed).outcome :=
    fun f => execute_alarm (readOperand_stops h f)
  exact ⟨hr _, hr _, hr _, hr _, hr _, hr _, hr _, hr _, hr _, hr _, hr _, hr _, hr _, hr _,
    execute_alarm (exchangeA_stops h _), execute_alarm (stepWord_stops h _), execute_alarm (stepWord_stops h _),
    execute_alarm (byteRead_stops h _), execute_alarm (byteWrite_stops h _), execute_alarm (byteRead_stops h _),
    fun _ hi => absurd hi List.not_mem_nil⟩

/-- The instructions that store stop with the alarm of the relay, or with that of the operand but for bad parity. -/
theorem exec_writeStops (h : s.completed.Stops (s.completed.direct m) n) (hw : m.ind = true ∨ n ≠ .parityError) :
    ∀ i ∈ [Instr.sta m, .stb m, .stx m, .sty m, .stz m], exec i s = (takeAlarm s.P n s.completed).outcome := by
  simp only [List.forall_mem_cons]
  unfold exec
  have hs : ∀ v : State → Word, execute (fun t => (writeOperand m v t).bind fun _ t => finish t) s
      = (takeAlarm s.P n s.completed).outcome := fun v => execute_alarm (writeOperand_stops h hw v _)
  exact ⟨hs _, hs _, hs _, hs _, hs _, fun _ hi => absurd hi List.not_mem_nil⟩

/-- LA of a word that does not exist, on a 04 or 05. -/
theorem execLa_absent0405 (hi : m.ind = false) (he : s.cfg.exists (s.place s.relocated (s.direct m)) = false)
    (hm : s.cfg.is0405 = true) :
    execLa m s = .next (({ s.setReg .a s.fresh.1 with freeCount := s.freeCount + 1 } : State).ends 1) := by
  refine execute_ok ?_
  rw [loadReg, readOperand, eaWord_direct hi, Res.bind_ok, State.direct_completed, memRead_absent0405 (s := s.completed) he hm]
  rfl

/-- STA to a word that does not exist, on a 04 or 05. -/
theorem execSta_absent0405 (hi : m.ind = false) (he : s.cfg.exists (s.place s.relocated (s.direct m)) = false)
    (hm : s.cfg.is0405 = true) : execSta m s = .next (s.ends 1) := by
  refine execute_ok ?_
  rw [storeReg, writeOperand, eaWord_direct hi, Res.bind_ok, State.direct_completed, memWrite_absent0405 (s := s.completed) he hm]
  rfl

/-- STA without relay to a word that can be stored in. -/
theorem execSta_direct (hi : m.ind = false) (hw : s.canWrite s.relocated (s.direct m) = true) :
    execSta m s = .next ((s.put s.relocated (s.direct m) s.r.A).ends 1) := by
  refine execute_ok ?_
  rw [storeReg, writeOperand, eaWord_direct hi, Res.bind_ok, State.direct_completed, memWrite_ok (s := s.completed) hw]
  rfl

/-- Settles O10: the alarm of the access is that of its first stage that fails, at the relay or at the operand; a 04 or 05 has none
where no word exists; a store outside DEBUG repairs the parity. -/
theorem accessAlarms : Obligations.AccessAlarms := by
  rintro s m a pa rfl rfl
  refine ⟨fun n h => ?_, fun hi he hm => ?_, fun hi ha he hd => ?_⟩
  · have hs : s.completed.Stops (s.completed.direct m) n := h
    exact ⟨exec_readStops hs, exec_writeStops hs⟩
  · exact ⟨⟨_, _, execLa_absent0405 hi he hm⟩, execSta_absent0405 hi he hm⟩
  · exact ⟨execSta_direct hi (canWrite_of_exists ha he hd), badWord_store_same s _ _⟩

end Sys2Proof.Machine
end

section
/-! SUPPORT. The obligations on the encoding as such (30_encoding.md R101 to R125). -/

namespace Sys2Proof.Laws.RoundTrip

/-- Settles O49: the family holds constructor by constructor, each instruction by the lemma over its format. -/
theorem roundTrip : Obligations.RoundTrip := fun i => match i with
  | .lby m => lby m | .stby m => stby m | .cpby m => cpby m | .xm m => xm m | .cpz m => cpz m | .br m => br m
  | .bsr m => bsr m | .sio m => sio m | .sb m => sb m | .ad m => ad m | .sty m => sty m | .stx m => stx m | .stb m => stb m
  | .sta m => sta m | .mp m => mp m | .dv m => dv m | .la m => la m | .lx m => lx m | .or m => or m | .and m => and m
  | .eor m => eor m | .cp m => cp m | .ly m => ly m | .lb m => lb m | .ic m => ic m | .dc m => dc m | .rqst m => rqst m
  | .rlse m => rlse m | .act m => act m | .lad m => lad m | .stz m => stz m | .wait m => wait m | .jmp d => jmp d
  | .nop => nop | .jnc d => jnc d | .jnv d => jnv d | .jncv d => jncv d | .jc d => jc d | .jv d => jv d | .jcv d => jcv d
  | .jage d => jage d | .jane d => jane d | .jag d => jag d | .jal d => jal d | .jae d => jae d | .jale d => jale d
  | .jix d => jix d | .jdx d => jdx d | .adri r n => adri r n | .lai n => lai n | .lxi n => lxi n | .ori n => ori n
  | .andi n => andi n | .eori n => eori n | .cpi n => cpi n | .lyi n => lyi n | .lbi n => lbi n | .psr mask => psr mask
  | .plr mask => plr mask | .svc n => svc n | .lrm mask => lrm mask | .arm ix n => arm ix n | .acq => acq | .halt => halt
  | .rsr => rsr | .dbt => dbt | .step => step | .actd => actd | .quit => quit | .pty => pty | .scy => scy | .move => move
  | .sbs => sbs | .push => push | .pull => pull | .ack => ack | .rsv => rsv | .romb => romb | .dbp => dbp | .sbp => sbp
  | .rbp => rbp | .dit => dit | .eit => eit | .sst => sst | .rst => rst | .rdhv => rdhv | .ipi => ipi | .rdsi => rdsi
  | .lar => lar | .rdoe => rdoe | .mvtm => mvtm | .star => star | .woe => woe | .mvts => mvts | .rbt c => rbt c
  | .sbt c => sbt c | .ibt c => ibt c | .tbt c => tbt c | .slrs c => slrs c | .slrd c => slrd c | .slls c => slls c
  | .slld c => slld c | .scrs c => scrs c | .scrd c => scrd c | .scls c => scls c | .scld c => scld c | .sars c => sars c
  | .sard c => sard c | .xr rs rd => xr rs rd | .lr rs rd => lr rs rd | .adr rs rd => adr rs rd | .sbr rs rd => sbr rs rd
  | .orr rs rd => orr rs rd | .eorr rs rd => eorr rs rd | .andr rs rd => andr rs rd | .clsr rs rd => clsr rs rd
  | .adcr rd => adcr rd | .sbcr rd => sbcr rd | .ngr rs rd => ngr rs rd | .cpzr rd => cpzr rd | .cmr rs rd => cmr rs rd
  | .cpr rs rd => cpr rs rd | .swbr rs rd => swbr rs rd | .ximr rd => ximr rd | .adrp rs => adrp rs | .lrp rd => lrp rd
  | .fneg => fneg | .fabs => fabs | .fix => fix | .flt => flt | .norm => norm | .fcaz => fcaz | .fld m => fld m
  | .fad m => fad m | .fmp m => fmp m | .fdv m => fdv m | .fst m => fst m | .fsb m => fsb m | .fcmz m => fcmz m
  | .fcam m => fcam m | .rcda => rcda | .wcda => wcda | .drbm => drbm | .insq => insq | .supq => supq | .sfq => sfq
  | .slq => slq | .sbtm ix n => sbtm ix n | .rbtm ix n => rbtm ix n | .xmr => xmr | .bla ix o => bla ix o
  | .bsta ix o => bsta ix o | .bxm ix o => bxm ix o | .bdld ix o => bdld ix o | .bdst ix o => bdst ix o
  | .blby ix o => blby ix o | .bstby ix o => bstby ix o | .bmove ix o => bmove ix o | .brbtm ix o => brbtm ix o
  | .bsbtm ix o => bsbtm ix o | .bdbtm ix o => bdbtm ix o | .cla ix w2 => cla ix w2 | .csta ix w2 => csta ix w2
  | .cxm ix w2 => cxm ix w2 | .cdld ix w2 => cdld ix w2 | .cdst ix w2 => cdst ix w2 | .clby ix w2 => clby ix w2
  | .cstby ix w2 => cstby ix w2 | .xent ix w2 => xent ix w2 | .xsor ix w2 => xsor ix w2 | .xctx ix w2 => xctx ix w2
  | .dap16 sub w2 => dap16 sub w2 | .vss16 sub w2 => vss16 sub w2 | .ffm16 sub w2 => ffm16 sub w2

end Sys2Proof.Laws.RoundTrip

namespace Sys2Proof

/-- Settles O50: each word is decoded by evaluation, which never consults the coding of ISP16. -/
theorem decodedWords : Obligations.DecodedWords := fun _ =>
  ⟨rfl, rfl, rfl, rfl, rfl, rfl, rfl, rfl, rfl, rfl, rfl, rfl, rfl, rfl, rfl, rfl, rfl, rfl, rfl, rfl, rfl, rfl⟩

end Sys2Proof
end

section
/-! SUPPORT. The obligations on operands and targets: addresses as integers, then loads, bytes, jumps and absent extensions
(30_encoding.md R102 to R104, R118). -/

namespace Sys2Proof.Machine

variable {s : State} {m : MemRef}

/-! Words as integers. -/

/-- A sum modulo 65536 whose second term is read as a signed number. -/
theorem toNat_add_toInt (a b : Word) : ((a + b).toNat : Int) = (a.toNat + b.toInt) % 65536 := by
  rw [BitVec.toNat_add, BitVec.toInt_eq_toNat_cond]; split <;> omega

/-- Two words of which one is known modulo 65536 as that sum. -/
theorem eq_add_of_toNat {a b w : Word} (h : (w.toNat : Int) = (a.toNat + b.toInt) % 65536) : w = a + b := by
  apply BitVec.eq_of_toNat_eq; rw [← toNat_add_toInt] at h; exact_mod_cast h

/-- A displacement keeps its value (30_encoding.md R102, R104). -/
theorem toInt_sext8 (d : Byte) : (sext8 d).toInt = d.toInt := BitVec.toInt_signExtend_of_le (by decide)

/-- `floor(s16(x) / 2)` (30_encoding.md R103). -/
theorem toInt_half (x : Word) : (half x).toInt = s16 x / 2 := by
  rw [half, BitVec.toInt_sshiftRight, Int.shiftRight_eq_div_pow]; rfl

theorem bit_first (w : Word) : bit w 0 = decide (32768 ≤ w.toNat) := by
  have hw := w.isLt
  rw [bit, if_pos (by decide), getLsbD_eq, decide_eq_decide]; omega

theorem bit_last (w : Word) : bit w 15 = decide (w.toNat % 2 = 1) := by
  rw [bit, if_pos (by decide), getLsbD_eq, decide_eq_decide]; omega

/-- The 15 low bits of a word. -/
theorem toNat_low15 (w : Word) : (w &&& 0x7FFF#16).toNat = w.toNat % 32768 := by
  rw [BitVec.toNat_and]; exact Nat.and_two_pow_sub_one_eq_mod w.toNat 15

/-! Operands. -/

/-- Base + displacement (30_encoding.md R102, D5). -/
theorem eq_direct {a : Word} (h : (a.toNat : Int) = ((s.base m.base).toNat + m.d.toInt) % 65536) : a = s.direct m := by
  rw [← toInt_sext8] at h; exact eq_add_of_toNat h

/-- The address a relay designates, as a number (30_encoding.md R102). -/
theorem toNat_relayAddress (w x : Word) : (relayAddress w x).toNat
    = if w.toNat < 32768 then w.toNat else (w.toNat - 32768 + x.toNat) % 65536 := by
  have hw := w.isLt
  have hlow := toNat_low15 w
  simp only [relayAddress, bit_first, decide_eq_true_eq]
  split
  · rw [if_neg (by omega), BitVec.toNat_add]; omega
  · rw [if_pos (by omega)]; omega

theorem relayByte_left {w : Word} (x : Word) (h : w.toNat < 32768) : relayByte w x = (w, false) := by
  have hlow : w &&& 0x7FFF#16 = w := by apply BitVec.eq_of_toNat_eq; rw [toNat_low15]; omega
  rw [relayByte, bit_first, decide_eq_false (by omega), hlow]; rfl

theorem relayByte_indexed {w x wa : Word} {right : Bool} (h : 32768 ≤ w.toNat)
    (hwa : (wa.toNat : Int) = (w.toNat - 32768 + s16 x / 2) % 65536) (hr : right = true ↔ x.toNat % 2 = 1) :
    relayByte w x = (wa, right) := by
  have hw := w.isLt
  have hlow : ((w &&& 0x7FFF#16).toNat : Int) = w.toNat - 32768 := by rw [toNat_low15]; omega
  have ha : wa = (w &&& 0x7FFF#16) + half x := eq_add_of_toNat (by rw [hlow, toInt_half]; exact hwa)
  have hb : right = bit x 15 := by rw [bit_last, Bool.eq_iff_iff, decide_eq_true_eq]; exact hr
  rw [relayByte, bit_first, decide_eq_true h, ha, hb]; rfl

/-- The relation of a byte operand gives the address the instructions form (30_encoding.md R103). -/
theorem effectiveByte_of_target {wa : Word} {right : Bool} (h : s.byteTarget m wa right) :
    s.relayOk m = true ∧ s.effectiveByte m = (wa, right) := by
  unfold State.relayOk State.effectiveByte
  rcases h with ⟨hi, rfl, rfl⟩ | ⟨hi, hrd, rfl, hlt, rfl⟩ | ⟨hi, hrd, hge, hwa, hr⟩
  · simp [hi]
  · simp [hi, hrd, relayByte_left _ hlt]
  · simp [hi, hrd, relayByte_indexed hge hwa hr]

/-! Loads. -/

/-- A part that reads its operand word goes on with it. -/
theorem readOperand_bind (h : s.operandOk m = true) (f : Word → State → Res Unit) :
    (readOperand m s.completed).bind f = f (s.operand m) s.completed := by
  rw [readOperand_ok (s := s.completed) h]; rfl

theorem finish_setReg (s : State) (r : Reg) (v : Word) : finish (s.completed.setReg r v) = .ok () ((s.setReg r v).ends 1) := by
  cases r <;> rfl

theorem execute_loadReg (h : s.operandOk m = true) (r : Reg) :
    execute (loadReg r m) s = .next ((s.setReg r (s.operand m)).ends 1) :=
  execute_ok ((readOperand_bind h _).trans (finish_setReg s r _))

theorem execBr_ok (h : s.operandOk m = true) : execBr m s = .next (s.goes (s.operand m)) :=
  execute_ok (readOperand_bind h _)

/-- LAD shows the effective address (43_byte_misc.md R249). -/
theorem execLad_ok (h : s.relayOk m = true) : execLad m s = .next ((s.setReg .a (s.effective m)).ends 1) := by
  refine execute_ok ?_
  rw [eaWord_ok (s := s.completed) h]; rfl

/-- Settles O9: the operand read goes to its register, and the effective address is base + displacement, or the address the relay
designates. -/
theorem memoryLoads : Obligations.MemoryLoads := by
  refine ⟨fun s m h => ?_, fun s m a ha => ?_⟩
  · exact ⟨execute_loadReg h .a, execute_loadReg h .b, execute_loadReg h .x, execute_loadReg h .y, execBr_ok h⟩
  · obtain rfl := eq_direct ha
    refine ⟨fun hi => ?_, ?_⟩
    · have hea : s.effective m = s.direct m := by simp [State.effective, hi]
      exact hea ▸ execLad_ok (by simp [State.relayOk, hi])
    · rintro hi hr w rfl
      have hea : s.effective m = relayAddress (s.wordAt s.relocated (s.direct m)) s.r.X := by simp [State.effective, hi]
      exact ⟨_, toNat_relayAddress _ _, hea ▸ execLad_ok (by simp [State.relayOk, hi, hr])⟩

/-! Bytes. -/

theorem toNat_zext8_byteOf (w : Word) (right : Bool) :
    (zext8 (byteOf w right)).toNat = if right then w.toNat % 256 else w.toNat / 256 := by
  have hw := w.isLt
  rw [zext8, BitVec.toNat_setWidth]
  cases right
  · have := toNat_hi w; simp [byteOf]; omega
  · have := toNat_lo w; simp [byteOf]; omega

theorem halves_withByte (w : Word) (right : Bool) (b : Byte) :
    if right then hi (withByte w right b) = hi w ∧ lo (withByte w right b) = b
    else hi (withByte w right b) = b ∧ lo (withByte w right b) = lo w := by
  cases right <;> simp [withByte]

variable {wa : Word} {right : Bool}

theorem execLby_ok (ht : s.byteTarget m wa right) (h : s.canRead s.relocated wa = true) :
    execLby m s = .next ((s.setReg .a (zext8 (byteOf (s.wordAt s.relocated wa) right))).ends 1) := by
  obtain ⟨hr, he⟩ := effectiveByte_of_target ht
  refine execute_ok ?_
  rw [eaByte_ok (s := s.completed) hr, State.effectiveByte_completed, he, Res.bind_ok, byteRead_ok (s := s.completed) h]; rfl

theorem execStby_ok (ht : s.byteTarget m wa right) (h : s.canRead s.relocated wa = true) :
    execStby m s = .next ((s.put s.relocated wa (withByte (s.wordAt s.relocated wa) right (lo s.r.A))).ends 1) := by
  obtain ⟨hr, he⟩ := effectiveByte_of_target ht
  refine execute_ok ?_
  rw [eaByte_ok (s := s.completed) hr, State.effectiveByte_completed, he, Res.bind_ok, byteWrite_ok (s := s.completed) h]; rfl

/-- Settles O13: the byte at the target is read, or replaced in its word. -/
theorem byteAccess : Obligations.ByteAccess := fun _ _ _ _ ht h =>
  ⟨_, _, toNat_zext8_byteOf _ _, execLby_ok ht h, halves_withByte _ _ _, execStby_ok ht h⟩

/-! Jumps. -/

/-- The target of a jump relative to P, as a number (30_encoding.md R104, D5). -/
theorem toNat_target (s : State) (d : Byte) : ((s.target d).toNat : Int) = (s.P.toNat + d.toInt) % 65536 := by
  rw [← toInt_sext8]; exact toNat_add_toInt _ _

/-- A jump relative to P of a state `u s` that stands at the same address: to its target when the condition holds, else to the next
instruction. -/
theorem execute_jumpIf {t : State} {d : Byte} {p : Prop} {g : State → Bool} {u : State → State}
    (hu : u s.completed = t.completed) (hg : g s.completed = true ↔ p) :
    (p → execute (fun s => jumpIf (g s) d (u s)) s = .next (t.goes (t.target d)))
      ∧ (¬p → execute (fun s => jumpIf (g s) d (u s)) s = .next (t.ends 1)) := by
  refine ⟨fun hp => execute_ok ?_, fun hp => execute_ok ?_⟩
  · rw [hu, hg.mpr hp]; rfl
  · rw [hu, Bool.eq_false_iff.mpr (mt hg.mp hp)]; rfl

/-- The same for a jump that changes nothing before. -/
theorem execute_jump {d : Byte} {p : Prop} {g : State → Bool} (hg : g s.completed = true ↔ p) :
    (p → execute (fun s => jumpIf (g s) d s) s = .next (s.goes (s.target d)))
      ∧ (¬p → execute (fun s => jumpIf (g s) d s) s = .next (s.ends 1)) :=
  execute_jumpIf (u := fun s => s) rfl hg

/-- The jumps on the flags and on A, each with its condition (44_branch.md R281 to R292). -/
theorem exec_conditionalJump (s : State) (d : Byte) :
    ∀ j ∈ [(Instr.jnc d, s.st.Cf = false), (.jnv d, s.st.V = false), (.jncv d, s.st.Cf = false ∧ s.st.V = false),
        (.jc d, s.st.Cf = true), (.jv d, s.st.V = true), (.jcv d, s.st.Cf = true ∨ s.st.V = true),
        (.jage d, 0 ≤ s16 s.r.A), (.jane d, s16 s.r.A ≠ 0), (.jag d, 0 < s16 s.r.A), (.jal d, s16 s.r.A < 0),
        (.jae d, s16 s.r.A = 0), (.jale d, s16 s.r.A ≤ 0)],
      (j.2 → exec j.1 s = .next (s.goes (s.target d))) ∧ (¬ j.2 → exec j.1 s = .next (s.ends 1)) := by
  have hzero : s.r.A = 0#16 ↔ s16 s.r.A = 0 := BitVec.toInt_inj.symm
  simp only [List.forall_mem_cons]
  unfold exec
  exact ⟨execute_jump (by simp), execute_jump (by simp), execute_jump (by simp), execute_jump Iff.rfl,
    execute_jump Iff.rfl, execute_jump Bool.or_eq_true_iff, execute_jump decide_eq_true_iff,
    execute_jump (decide_eq_true_iff.trans (not_congr hzero)), execute_jump decide_eq_true_iff, execute_jump decide_eq_true_iff,
    execute_jump (decide_eq_true_iff.trans hzero), execute_jump decide_eq_true_iff, fun _ hj => absurd hj List.not_mem_nil⟩

/-- JIX counts X up first, and jumps while it is negative (44_branch.md R278). -/
theorem execJix_cases (s : State) (d : Byte) :
    (s16 (s.r.X + 1#16) < 0 → execJix d s = .next ((s.setReg .x (s.r.X + 1#16)).goes (s.target d)))
      ∧ (¬s16 (s.r.X + 1#16) < 0 → execJix d s = .next ((s.setReg .x (s.r.X + 1#16)).ends 1)) :=
  execute_jumpIf (t := s.setReg .x (s.r.X + 1#16)) rfl decide_eq_true_iff

/-- JDX counts X down first, and jumps while it is positive (44_branch.md R279). -/
theorem execJdx_cases (s : State) (d : Byte) :
    (s16 (s.r.X - 1#16) > 0 → execJdx d s = .next ((s.setReg .x (s.r.X - 1#16)).goes (s.target d)))
      ∧ (¬s16 (s.r.X - 1#16) > 0 → execJdx d s = .next ((s.setReg .x (s.r.X - 1#16)).ends 1)) :=
  execute_jumpIf (t := s.setReg .x (s.r.X - 1#16)) rfl decide_eq_true_iff

/-- Settles O14: a jump goes to its target exactly when its condition holds; the two counting jumps test the new X. -/
theorem relativeJumps : Obligations.RelativeJumps := by
  refine ⟨fun s d => ⟨s.target d, toNat_target s d, ?_, exec_conditionalJump s d⟩, fun s d => ?_⟩
  · exact (execute_jump (g := fun _ => true) Iff.rfl).1 rfl
  · obtain ⟨hup, hupEnd⟩ := execJix_cases s d
    obtain ⟨hdown, hdownEnd⟩ := execJdx_cases s d
    have hx : ((s.r.X + 1#16).toNat : Int) = (s.r.X.toNat + 1) % 65536 := toNat_add_toInt s.r.X 1#16
    have hy : ((s.r.X - 1#16).toNat : Int) = (s.r.X.toNat - 1) % 65536 := by
      rw [BitVec.sub_eq_add_neg]; exact toNat_add_toInt s.r.X (-1#16)
    exact ⟨s.target d, s.r.X + 1#16, s.r.X - 1#16, toNat_target s d, hx, hy, hup, fun h => hupEnd (not_lt.mpr h),
      hdown, fun h => hdownEnd (not_lt.mpr h)⟩

/-! Absent extensions. -/

/-- An instruction of a family that is absent (30_encoding.md R118). -/
theorem execute_absent {body : State → Res Unit} {n : Byte} (h : s.absentOk = true)
    (hb : body s.completed = absentExtension n s.completed) : execute body s = .next (s.absentDone n) :=
  execute_ok (hb.trans (absentExtension_ok h))

theorem execute_floatAbsent (h : s.absentOk = true) {ucode : Bool} (hf : s.cfg.hasFfp16 = false)
    (hu : ucode = true → s.cfg.hasFfpPartial = false) (body : State → Res Unit) :
    execute (floatDispatch ucode body) s = .next (s.absentDone 0#8) :=
  execute_absent h (by cases ucode <;> simp [floatDispatch, hf, hu])

theorem execute_cdaAbsent (h : s.absentOk = true) {moves : Bool} (hc : s.cfg.hasCda16 = false)
    (hm : moves = true → s.cfg.hasCdaRwOnly = false) (body : State → Res Unit) :
    execute (cdaDispatch moves body) s = .next (s.absentDone 7#8) :=
  execute_absent h (by cases moves <;> simp [cdaDispatch, hc, hm])

theorem execute_ispAbsent (h : s.absentOk = true) (hi : s.cfg.hasIsp16 = false) (body : State → Res Unit) :
    execute (ispDispatch body) s = .next (s.absentDone 4#8) :=
  execute_absent h (by simp [ispDispatch, hi])

/-- FFP16 absent, with its partial microcode (46_float.md R340). -/
theorem exec_floatAbsent (h : s.absentOk = true) (hf : s.cfg.hasFfp16 = false) (hp : s.cfg.hasFfpPartial = false) :
    (∀ i ∈ [Instr.fneg, .fabs, .fix, .flt, .norm, .fcaz], exec i s = .next (s.absentDone 0#8))
      ∧ (∀ m, ∀ i ∈ [Instr.fld m, .fst m, .fad m, .fsb m, .fmp m, .fdv m, .fcmz m, .fcam m],
        exec i s = .next (s.absentDone 0#8)) := by
  have hx : ∀ ucode body, execute (floatDispatch ucode body) s = .next (s.absentDone 0#8) :=
    fun _ => execute_floatAbsent h hf fun _ => hp
  simp only [List.forall_mem_cons]
  unfold exec
  exact ⟨⟨hx _ _, hx _ _, hx _ _, hx _ _, hx _ _, hx _ _, fun _ hi => absurd hi List.not_mem_nil⟩,
    fun _ => ⟨hx _ _, hx _ _, hx _ _, hx _ _, hx _ _, hx _ _, hx _ _, hx _ _, fun _ hi => absurd hi List.not_mem_nil⟩⟩

/-- The instructions that the partial microcode of FFP16 does not execute either (46_float.md R340). -/
theorem exec_floatNoMicrocode (h : s.absentOk = true) (hf : s.cfg.hasFfp16 = false) (m : MemRef) :
    ∀ i ∈ [Instr.flt, .norm, .fad m, .fsb m, .fmp m, .fdv m, .fcam m], exec i s = .next (s.absentDone 0#8) := by
  have hx : ∀ body, execute (floatDispatch false body) s = .next (s.absentDone 0#8) := execute_floatAbsent h hf nofun
  simp only [List.forall_mem_cons]
  unfold exec
  exact ⟨hx _, hx _, hx _, hx _, hx _, hx _, hx _, fun _ hi => absurd hi List.not_mem_nil⟩

/-- CDA16 absent: all but RCDA and WCDA, which the 35 has (48_cda_lists.md R390). -/
theorem exec_cdaAbsent (h : s.absentOk = true) (hc : s.cfg.hasCda16 = false) :
    (∀ i ∈ [Instr.drbm, .insq, .supq, .sfq, .slq], exec i s = .next (s.absentDone 7#8))
      ∧ (∀ ix n, exec (.sbtm ix n) s = .next (s.absentDone 7#8) ∧ exec (.rbtm ix n) s = .next (s.absentDone 7#8)) := by
  have hx : ∀ body, execute (cdaDispatch false body) s = .next (s.absentDone 7#8) := execute_cdaAbsent h hc nofun
  simp only [List.forall_mem_cons]
  unfold exec
  exact ⟨⟨hx _, hx _, hx _, hx _, hx _, fun _ hi => absurd hi List.not_mem_nil⟩, fun _ _ => ⟨hx _, hx _⟩⟩

/-- ISP16 absent (49_isp16.md R410): the based instructions do not look at the mode or at their parameters. -/
theorem exec_ispAbsent (h : s.absentOk = true) (hi : s.cfg.hasIsp16 = false) :
    (∀ ix o, ∀ i ∈ [Instr.bla ix o, .bsta ix o, .bxm ix o, .bdld ix o, .bdst ix o, .blby ix o, .bstby ix o, .bmove ix o,
        .brbtm ix o, .bsbtm ix o, .bdbtm ix o], exec i s = .next (s.absentDone 4#8))
      ∧ (∀ ix w, ∀ i ∈ [Instr.cla ix w, .csta ix w, .cxm ix w, .cdld ix w, .cdst ix w, .clby ix w, .cstby ix w,
        .xent ix w, .xsor ix w, .xctx ix w], exec i s = .next (s.absentDone 4#8)) := by
  have hx : ∀ body, execute (ispDispatch body) s = .next (s.absentDone 4#8) := execute_ispAbsent h hi
  simp only [List.forall_mem_cons]
  unfold exec
  exact ⟨fun _ _ => ⟨hx _, hx _, hx _, hx _, hx _, hx _, hx _, hx _, hx _, hx _, hx _, fun _ hi => absurd hi List.not_mem_nil⟩,
    fun _ _ => ⟨hx _, hx _, hx _, hx _, hx _, hx _, hx _, hx _, hx _, hx _, fun _ hi => absurd hi List.not_mem_nil⟩⟩

/-- XMR absent (30_encoding.md R117, R118). -/
theorem execXmr_absent (h : s.absentOk = true) (hx : s.cfg.hasXmr = false) : execXmr s = .next (s.absentDone 6#8) :=
  execute_absent h (by simp [hx])

/-- Settles O17: where the family is absent each of its instructions is `AbsentExtension(n)` and nothing else. -/
theorem absentExtensions : Obligations.AbsentExtensions := by
  intro s h
  refine ⟨fun _ _ => ⟨execute_absent h rfl, execute_absent h rfl, execute_absent h rfl⟩, exec_floatAbsent h,
    exec_floatNoMicrocode h, fun hc => ?_, exec_ispAbsent h, execXmr_absent h⟩
  obtain ⟨hqueues, hbits⟩ := exec_cdaAbsent h hc
  exact ⟨hqueues, hbits, fun hrw => ⟨execute_cdaAbsent h hc (fun _ => hrw) _, execute_cdaAbsent h hc (fun _ => hrw) _⟩⟩

end Sys2Proof.Machine
end

section
/-! SUPPORT. The obligations on loads from an immediate or a register, and on stores (40_load_store_exchange.md R144 to R156,
43_byte_misc.md R243, R246 to R250, R258, R259). -/

namespace Sys2Proof.Machine

variable {s t : State} {m : MemRef}

/-! Loads of a register. -/

/-- The 9-bit immediate, as a number (30_encoding.md R105). -/
theorem toInt_immValue (n : Imm9) : (immValue n).toInt = (n.n.toNat : Int) - (if n.sign then 256 else 0) := by
  have hn := n.n.isLt
  rw [immValue, BitVec.toInt_eq_toNat_cond, toNat_ofBytes]
  cases n.sign with
  | false => simp; omega
  | true => simp; omega

theorem execute_loadImm (s : State) (r : Reg) (n : Imm9) : execute (loadImm r n) s = .next ((s.setReg r (immValue n)).ends 1) :=
  execute_ok (finish_setReg s r _)

/-- A load of a register with a value taken from the registers or P. -/
theorem execute_setReg (s : State) (r : Reg) {v : State → Word} (hv : v s.completed = v s) :
    execute (fun s => finish (s.setReg r (v s))) s = .next ((s.setReg r (v s)).ends 1) :=
  execute_ok (by rw [hv]; exact finish_setReg s r _)

/-- Writing a register of a state that differs from `s` in its registers only. -/
theorem setReg_regsOnly (h : t = { s with r := t.r }) (r : Reg) (v : Word) : t.setReg r v = { s with r := (t.setReg r v).r } := by
  rw [h]; cases r <;> rfl

/-- The state after an exchange of two registers (40_load_store_exchange.md R156). -/
def State.swapped (s : State) (rs rd : Reg) : State := (s.setReg rd (s.reg rs)).setReg rs (s.reg rd)

theorem completed_setReg (s : State) (r : Reg) (v : Word) : s.completed.setReg r v = (s.setReg r v).completed := by
  cases r <;> rfl

theorem execXr_eq (s : State) (rs rd : Reg) : execXr rs rd s = .next ((s.swapped rs rd).ends 1) := by
  refine execute_ok ?_
  rw [State.reg_completed, State.reg_completed, completed_setReg]
  exact finish_setReg _ rs _

theorem swapped_reg_source (s : State) (rs rd : Reg) : (s.swapped rs rd).reg rs = s.reg rd := State.reg_setReg_same _ _ _

theorem swapped_reg_destination (s : State) (rs rd : Reg) : (s.swapped rs rd).reg rd = s.reg rs := by
  by_cases h : rd = rs
  · subst h; exact State.reg_setReg_same _ _ _
  · rw [State.swapped, State.reg_setReg_other _ _ h, State.reg_setReg_same]

theorem swapped_reg_other (s : State) {rs rd q : Reg} (hs : q ≠ rs) (hd : q ≠ rd) : (s.swapped rs rd).reg q = s.reg q := by
  rw [State.swapped, State.reg_setReg_other _ _ hs, State.reg_setReg_other _ _ hd]

theorem swapped_regsOnly (s : State) (rs rd : Reg) : s.swapped rs rd = { s with r := (s.swapped rs rd).r } :=
  setReg_regsOnly (setReg_regsOnly rfl rd _) rs _

/-- ADRP jumps by a register, modulo 65536 (43_byte_misc.md R250, D5). -/
theorem execAdrp_ok (s : State) (rs : Reg) : execAdrp rs s = .next (s.goes (s.P + s.reg rs)) := by
  have hr : s.completed.reg rs = s.reg rs := State.reg_completed s rs
  exact execute_ok (by rw [hr]; rfl)

theorem execScy_ok (s : State) : execScy s = .next ((s.setVC s.st.V true).ends 1) := execute_ok rfl

theorem execNop_ok (s : State) : execNop s = .next (s.ends 1) := execute_ok rfl

/-- Settles O1: the value of the immediate, and the registers or flags that each instruction writes. -/
theorem registerLoads : Obligations.RegisterLoads := fun s => by
  refine ⟨fun n => ⟨immValue n, toInt_immValue n, ?_⟩, fun rs rd => ?_, fun rs rd => ⟨s.swapped rs rd, execXr_eq s rs rd,
    swapped_reg_source s rs rd, swapped_reg_destination s rs rd, fun _ => swapped_reg_other s, swapped_regsOnly s rs rd⟩,
    fun rs rd => ⟨_, hi_ofBytes _ _, lo_ofBytes _ _, ?_⟩, fun rd => execute_setReg s rd rfl, execAdrp_ok s,
    execScy_ok s, execNop_ok s⟩
  · exact ⟨execute_loadImm s .a n, execute_loadImm s .b n, execute_loadImm s .x n, execute_loadImm s .y n⟩
  · exact execute_setReg s rd (v := fun s => s.reg rs) (State.reg_completed s rs)
  · exact execute_setReg s rd (v := fun s => ofBytes (lo (s.reg rs)) (hi (s.reg rs))) (by simp only [State.reg_completed])

/-! Stores. -/

/-- The store of a memory-reference instruction: the word at the effective address is written. -/
theorem execute_writeOperand (hr : s.relayOk m = true) (hw : s.canWrite s.relocated (s.effective m) = true) (v : State → Word) :
    execute (fun s => (writeOperand m v s).bind fun _ s => finish s) s
      = .next ((s.put s.relocated (s.effective m) (v s.completed)).ends 1) := by
  refine execute_ok ?_
  rw [writeOperand, eaWord_ok (s := s.completed) hr, Res.bind_ok, State.effective_completed, memWrite_ok (s := s.completed) hw]
  rfl

/-- A and the word at the effective address are exchanged (R155). -/
theorem execXm_ok (hr : s.relayOk m = true) (h : s.canRead s.relocated (s.effective m) = true) :
    execXm m s = .next (((s.put s.relocated (s.effective m) s.r.A).setReg .a (s.operand m)).ends 1) := by
  have hp := canRead_sound (s := s.completed) h
  refine execute_ok ?_
  rw [eaWord_ok (s := s.completed) hr, Res.bind_ok, State.relocated_completed, State.effective_completed,
    resolve_allowed (s := s.completed) (canRead_allowed h), Res.bind_ok, exchangeA, readAt_sound hp, Res.bind_ok,
    writeAt_storable (sound_storable hp)]
  rfl

/-- The word at the effective address changes by `d` and is compared with zero (43_byte_misc.md R247, R248). -/
theorem execute_stepWord (hr : s.relayOk m = true) (h : s.canRead s.relocated (s.effective m) = true) (d : Word) :
    execute (stepWord d m) s = .next (((s.put s.relocated (s.effective m) (s.operand m + d)).setVC
      (compareFlags (s.operand m + d) 0#16).1 (compareFlags (s.operand m + d) 0#16).2).ends 1) := by
  refine execute_ok ?_
  rw [stepWord, eaWord_ok (s := s.completed) hr, Res.bind_ok, State.effective_completed, memRead_ok (s := s.completed) h,
    Res.bind_ok, memWrite_ok (s := s.completed) (canRead_canWrite h)]
  rfl

/-- The flags of a comparison say which of the two terms is the greater (41_arithmetic_compare.md R172). -/
theorem comparisonFlags_compareInts (x y : Int) : comparisonFlags x y (compareInts x y).1 (compareInts x y).2 := by
  unfold comparisonFlags compareInts
  rcases lt_trichotomy x y with h | h | h
  · simp [h, h.ne]
  · simp [h]
  · simp [h.not_gt, h.ne']

/-- Settles O12: the word at the effective address takes the register, zero, or its own value stepped by one. -/
theorem memoryStores : Obligations.MemoryStores := fun s m hr => by
  refine ⟨fun hw => ?_, fun h => ⟨execXm_ok hr h, ?_, ?_⟩⟩
  · have hstore := execute_writeOperand hr hw
    exact ⟨hstore (·.r.A), hstore (·.r.B), hstore (·.r.X), hstore (·.r.Y), hstore fun _ => 0#16⟩
  · exact ⟨_, _, comparisonFlags_compareInts _ 0, execute_stepWord hr h 1#16⟩
  · have hd : s.operand m - 1#16 = s.operand m + 0xFFFF#16 := BitVec.sub_eq_add_neg _ _
    exact ⟨_, _, comparisonFlags_compareInts _ 0, hd ▸ execute_stepWord hr h 0xFFFF#16⟩

end Sys2Proof.Machine
end

section
/-! SUPPORT. What a part of an instruction keeps when it changes nothing but the registers and flags allowed, P, the marks of the
model and the memory it stores in: the rules for every part the ordinary instructions are made of, and the obligation on their
frames (40_load_store_exchange.md to 44_branch.md). -/

namespace Sys2Proof.Machine

/-! Properties that do not look at the marks of an access. -/

/-- The property survives a breakpoint remembered and a free value used, which is all that a read can change. -/
structure MarkFree (Q : State → Prop) : Prop where
  seeBreak : ∀ s, Q s → Q s.seeBreak
  fresh : ∀ s, Q s → Q s.fresh.2

section
variable {Q : State → Prop} {s : State}

theorem readAt_all (hQ : MarkFree Q) (h : Q s) (pa : PAddr) : (readAt pa s).All Q := by
  cases hr : readAt pa s with
  | ok v t =>
    rcases readAt_cases hr with ⟨rfl, -⟩ | ⟨rfl, -⟩ | ⟨rfl, -⟩
    · exact h
    · exact hQ.seeBreak _ h
    · exact hQ.fresh _ h
  | alarm n t => obtain rfl := readAt_alarm hr; exact h
  | refuse r => trivial
  | stuck r => trivial

theorem seeBreak_store (s : State) (pa : PAddr) (v : Word) : s.seeBreak.store pa v = (s.store pa v).seeBreak := by
  have ha : (s.store pa v).inAlarmTask = s.inAlarmTask := rfl
  unfold State.seeBreak
  rw [ha]
  split <;> rfl

/-- A write stores, where a word exists, or changes nothing but a mark. -/
theorem writeAt_all (hQ : MarkFree Q) (h : Q s) {pa : PAddr} {v : Word} (hs : s.cfg.exists pa = true → Q (s.store pa v)) :
    (writeAt pa v s).All Q := by
  cases hr : writeAt pa v s with
  | ok v t =>
    rcases writeAt_cases hr with ⟨rfl, -⟩ | ⟨rfl, he⟩ | ⟨rfl, he⟩
    · exact h
    · exact hs he
    · rw [seeBreak_store]; exact hQ.seeBreak _ (hs he)
  | alarm n t => obtain rfl := writeAt_alarm hr; exact h
  | refuse r => trivial
  | stuck r => trivial

theorem resolve_bind_all {α : Type} (h : Q s) {b : Bool} {a : Word} {f : PAddr → State → Res α}
    (hf : (f (s.place b a) s).All Q) : ((resolve b a s).bind f).All Q := by
  rw [resolve_eq]
  split
  · exact hf
  · exact h

theorem resolvedRead_all (hQ : MarkFree Q) (h : Q s) (b : Bool) (a : Word) : ((resolve b a s).bind readAt).All Q :=
  resolve_bind_all h (readAt_all hQ h _)

theorem memRead_all (hQ : MarkFree Q) (h : Q s) (a : Word) : (memRead a s).All Q := resolvedRead_all hQ h _ a

theorem stackRead_all (hQ : MarkFree Q) (h : Q s) (a : Word) : (stackRead a s).All Q := resolvedRead_all hQ h _ a

theorem eaWord_all (hQ : MarkFree Q) (h : Q s) (m : MemRef) : (eaWord m s).All Q :=
  .ite (fun _ => (memRead_all hQ h _).bind fun _ _ h => h) fun _ => h

theorem eaByte_all (hQ : MarkFree Q) (h : Q s) (m : MemRef) : (eaByte m s).All Q :=
  .ite (fun _ => (memRead_all hQ h _).bind fun _ _ h => h) fun _ => h

theorem byteRead_all (hQ : MarkFree Q) (h : Q s) (wa : Word) (right : Bool) : (byteRead wa right s).All Q :=
  (memRead_all hQ h wa).bind fun _ _ h => h

theorem readOperand_all (hQ : MarkFree Q) (h : Q s) (m : MemRef) : (readOperand m s).All Q :=
  (eaWord_all hQ h m).bind fun ea _ h => memRead_all hQ h ea

end

/-! An alarm taken leaves the mark of an abandoned instruction. -/

/-- The instruction was abandoned. -/
def State.Abandoned (s : State) : Prop := s.phase = .abandoned

section
variable {s : State}

theorem markFree_abandoned : MarkFree State.Abandoned where
  seeBreak s h := by unfold State.seeBreak; split <;> exact h
  fresh _ h := h

theorem physRead_abandoned (h : s.Abandoned) (a : Word) : (physRead a s).All State.Abandoned :=
  readAt_all markFree_abandoned h _

theorem physWrite_abandoned (h : s.Abandoned) (a v : Word) : (physWrite a v s).All State.Abandoned :=
  writeAt_all markFree_abandoned h fun _ => h

theorem psth_abandoned (h : s.Abandoned) (i : Nat) : (psth i s).All State.Abandoned :=
  (physRead_abandoned h _).bind fun _ _ h => h

theorem exchangePartial_abandoned (h : s.Abandoned) (a : Word) : (exchangePartial a s).All State.Abandoned :=
  (physRead_abandoned h a).bind fun _ _ h => (physRead_abandoned h (a + 1#16)).bind fun _ _ h =>
  (physRead_abandoned h (a + 2#16)).bind fun _ _ h => (physRead_abandoned h (a + 3#16)).bind fun _ _ h =>
  (physWrite_abandoned h a _).bind fun _ _ h => (physWrite_abandoned h (a + 1#16) _).bind fun _ _ h =>
  (physWrite_abandoned h (a + 2#16) _).bind fun _ _ h => (physWrite_abandoned h (a + 3#16) _).bind fun _ _ h => h

theorem launch_abandoned (h : s.Abandoned) (j : Nat) : (launch j s).All State.Abandoned :=
  (psth_abandoned (s := { s with HV := setBit s.HV j true }) h j).bind fun a _ h =>
  (exchangePartial_abandoned h a).bind fun _ _ h => .ite (fun _ => h) fun _ => trivial

theorem writeAlarmNumber_abandoned (h : s.Abandoned) (n : Alarm) : (writeAlarmNumber n s).All State.Abandoned :=
  (psth_abandoned h 0).bind fun _ _ h => (physRead_abandoned h _).bind fun _ _ h => physWrite_abandoned h _ _

theorem alarmsHalt_abandoned {m : Res Unit} (h : m.All State.Abandoned) : m.alarmsHalt.All State.Abandoned := by
  cases m <;> exact h

theorem raiseAlarm_abandoned (h : s.Abandoned) (n : Alarm) : (raiseAlarm n s).All State.Abandoned :=
  .ite (fun _ => h) fun _ => .ite (fun _ => .ite (fun _ => h) fun _ => h) fun _ =>
    alarmsHalt_abandoned ((launch_abandoned (s := { s with breakSeen := false }) h 0).bind fun _ _ h =>
      writeAlarmNumber_abandoned h n)

theorem takeAlarm_abandoned (p : Word) (n : Alarm) (s : State) : (takeAlarm p n s).All State.Abandoned :=
  raiseAlarm_abandoned (s := { s with P := if n.abandons then p else s.P, phase := .abandoned, breakSeen := false }) rfl n

/-- The next state, if there is one and the instruction ended in no alarm, has the property. -/
def endsIn (Q : State → Prop) (o : Host.Outcome State Fault Refusal) : Prop := nextHas (fun t => t.phase ≠ .abandoned → Q t) o

theorem endsIn.of_next {Q : State → Prop} {o : Host.Outcome State Fault Refusal} {t : State} (h : endsIn Q o) (ho : o = .next t)
    (ht : t.phase ≠ .abandoned) : Q t := by
  subst ho; exact h ht

/-- An execution that ends in no alarm has what its body keeps. -/
theorem execute_endsIn {Q : State → Prop} {body : State → Res Unit} (hb : (body s.completed).All Q) :
    endsIn Q (execute body s) := by
  cases hr : body s.completed with
  | ok u t => rw [execute_ok hr]; exact fun _ => hb.of_ok hr
  | alarm n t => rw [execute_alarm hr]; exact (takeAlarm_abandoned s.P n t).outcome.imp fun _ ha hn => absurd ha hn
  | refuse r => rw [execute_refuse hr]; trivial
  | stuck r => rw [execute_stuck hr]; trivial

end

/-! The frame of a part: the origin `o`, the registers `rs` and the flags it may change, and the rule `M` on memory. -/

/-- What is known of the memory and of the set of words in bad parity. -/
abbrev MemoryRule := Memory → List Nat → Prop

/-- From `o` on nothing has changed but the registers `rs`, V and Cf if `flags`, P and the marks of the model; memory meets `M`. -/
def State.Within (o : State) (rs : List Reg) (flags : Bool) (M : MemoryRule) (t : State) : Prop :=
  o.onlyRegs t rs flags ∧ M t.mem t.badParity

section
variable {o s : State} {rs : List Reg} {flags : Bool} {M : MemoryRule}

theorem State.within_completed (o : State) (rs : List Reg) (flags : Bool) (hM : M o.mem o.badParity) :
    o.Within rs flags M o.completed :=
  ⟨⟨⟨rfl, rfl, rfl, rfl, rfl, rfl, rfl, rfl, rfl, rfl, rfl, rfl, rfl, rfl, rfl, rfl, rfl, rfl, rfl⟩, rfl,
    fun r _ => State.reg_completed o r, fun _ => ⟨rfl, rfl⟩⟩, hM⟩

theorem markFree_within : MarkFree (o.Within rs flags M) where
  seeBreak s h := by unfold State.seeBreak; split <;> exact h
  fresh _ h := h

theorem State.Within.setReg (h : o.Within rs flags M s) {r : Reg} (hr : r ∈ rs) (v : Word) :
    o.Within rs flags M (s.setReg r v) := by
  obtain ⟨⟨hsystem, hmodes, hregs, hflags⟩, hmem⟩ := h
  have hother : ∀ q, q ∉ rs → (s.setReg r v).reg q = o.reg q := fun q hq =>
    (State.reg_setReg_other s v fun (e : q = r) => hq (e ▸ hr)).trans (hregs q hq)
  cases r <;> exact ⟨⟨hsystem, hmodes, hother, hflags⟩, hmem⟩

theorem State.Within.setVC (h : o.Within rs true M s) (v c : Bool) : o.Within rs true M (s.setVC v c) := by
  obtain ⟨⟨hsystem, hmodes, hregs, -⟩, hmem⟩ := h
  have hmodes' : o.sameModes (s.setVC v c) := by
    unfold State.sameModes at hmodes ⊢
    rw [State.setVC, hmodes]
  exact ⟨⟨hsystem, hmodes', hregs, nofun⟩, hmem⟩

theorem State.Within.setAB (h : o.Within rs flags M s) (ha : .a ∈ rs) (hb : .b ∈ rs) (v : BitVec 32) :
    o.Within rs flags M (s.setAB v) :=
  (h.setReg ha _).setReg hb _

/-- A choice between two states. -/
theorem within_ite {p : Prop} [Decidable p] {t u : State} (ht : o.Within rs flags M t) (hu : o.Within rs flags M u) :
    o.Within rs flags M (if p then t else u) := by
  split
  · exact ht
  · exact hu

/-- Program addresses lie where they did. -/
theorem State.Within.place (h : o.Within rs flags M s) (a : Word) : s.place s.relocated a = o.place o.relocated a := by
  obtain ⟨⟨⟨hcfg, hSLO, -⟩, hmodes, -⟩, -⟩ := h
  have hMS : s.st.MS = o.st.MS := by rw [hmodes]
  have hrelocated : s.relocated = o.relocated := by rw [State.relocated, hcfg, hMS]; rfl
  rw [hrelocated, State.place, State.relocate, hSLO]
  rfl

/-! The parts of the ordinary instructions that store nothing. -/

/-- A jump goes on or elsewhere, and changes P alone. -/
theorem jumpIf_within (h : o.Within rs flags M s) (cond : Bool) (d : Byte) : (jumpIf cond d s).All (o.Within rs flags M) :=
  .ite (fun _ => h) fun _ => h

theorem divide_within (h : o.Within rs true M s) (ha : .a ∈ rs) (hb : .b ∈ rs) (d : Word) : o.Within rs true M (divide d s) := by
  unfold divide
  split
  · exact ((h.setReg ha _).setReg hb _).setVC _ _
  · have hfresh : o.Within rs true M s.fresh.2.fresh.2 := h
    exact ((hfresh.setReg ha _).setReg hb _).setVC _ _

/-- Each pull changes K and the register pulled. -/
theorem pullRegs_within {l : List Reg} (hk : .k ∈ rs) (hl : ∀ r ∈ l, r ∈ rs) (h : o.Within rs flags M s) :
    (pullRegs l s).All (o.Within rs flags M) := by
  induction l generalizing s with
  | nil => exact h
  | cons r l ih =>
    obtain ⟨hr, hl⟩ := List.forall_mem_cons.mp hl
    exact (stackRead_all markFree_within (h.setReg hk _) _).bind fun v _ h => ih hl (h.setReg hr v)

theorem loadInline_within {l : List Reg} (hl : ∀ r ∈ l, r ∈ rs) (h : o.Within rs flags M s) (a : Word) :
    (loadInline a l s).All (o.Within rs flags M) := by
  induction l generalizing s a with
  | nil => exact h
  | cons r l ih =>
    obtain ⟨hr, hl⟩ := List.forall_mem_cons.mp hl
    exact (memRead_all markFree_within h a).bind fun v _ h => ih hl (h.setReg hr v) _

/-- One comparison of SBS changes X, V and Cf. -/
theorem searchByte_within (h : o.Within [.x] true M s) : (searchByte s).All (o.Within [.x] true M) := by
  have hx : ∀ {t : State}, o.Within [.x] true M t → ∀ v, o.Within [.x] true M (t.setReg .x v) :=
    fun h => h.setReg List.mem_cons_self
  refine .ite (fun _ => h.setVC _ _) fun _ => .ite (fun _ => trivial) fun _ => ?_
  exact (byteRead_all markFree_within h _ _).bind fun b t h => .ite (fun _ => h.setVC _ _) fun _ =>
    .ite (fun _ => hx h _) fun _ => (hx h _).setVC _ _

theorem pushPullCheck_within (h : o.Within rs flags M s) : (pushPullCheck s).All (o.Within rs flags M) :=
  .ite (fun _ => h) fun _ => h

end

/-! The instructions that store nothing. -/

/-- Memory and the marks of bad parity are those of `o`. -/
def State.memoryKept (o : State) : MemoryRule := fun mem bad => mem = o.mem ∧ bad = o.badParity

section
variable {s : State} {flags : Bool}

/-- An instruction whose body is a change of registers and flags. -/
theorem execute_within {rs : List Reg} {body : State → Res Unit}
    (hb : ∀ t, s.Within rs flags s.memoryKept t → (body t).All (s.Within rs flags s.memoryKept)) :
    endsIn (s.Within rs flags s.memoryKept) (execute body s) :=
  execute_endsIn (hb _ (s.within_completed rs flags ⟨rfl, rfl⟩))

/-- An instruction that reads its operand word. -/
theorem execute_operand_within {rs : List Reg} {m : MemRef} {f : Word → State → Res Unit}
    (hf : ∀ v t, s.Within rs flags s.memoryKept t → (f v t).All (s.Within rs flags s.memoryKept)) :
    endsIn (s.Within rs flags s.memoryKept) (execute (fun s => (readOperand m s).bind f) s) :=
  execute_within fun _ h => (readOperand_all markFree_within h m).bind hf

/-- An instruction that reads its operand byte. -/
theorem execute_byteOperand_within {rs : List Reg} {m : MemRef} {f : Byte → State → Res Unit}
    (hf : ∀ b t, s.Within rs flags s.memoryKept t → (f b t).All (s.Within rs flags s.memoryKept)) :
    endsIn (s.Within rs flags s.memoryKept)
      (execute (fun s => (eaByte m s).bind fun p s => (byteRead p.1 p.2 s).bind f) s) :=
  execute_within fun _ h => (eaByte_all markFree_within h m).bind fun p _ h =>
    (byteRead_all markFree_within h p.1 p.2).bind hf

theorem execute_jump_within {rs : List Reg} {d : Byte} {cond : State → Bool} :
    endsIn (s.Within rs flags s.memoryKept) (execute (fun s => jumpIf (cond s) d s) s) :=
  execute_within fun _ h => jumpIf_within h _ d

/-- The instructions that store nothing change the registers and flags of their frame. The arms of one shape stand together. -/
theorem exec_frame {i : Instr} {rs : List Reg} (s : State) (hf : Instr.frame i = some (rs, flags)) :
    endsIn (s.Within rs flags s.memoryKept) (exec i s) := by
  have hhead : ∀ {r : Reg} {l : List Reg}, r ∈ r :: l := List.mem_cons_self
  have hsecond : ∀ {q r : Reg} {l : List Reg}, r ∈ q :: r :: l := List.mem_cons_of_mem _ List.mem_cons_self
  unfold exec
  cases i with
  -- The operand is read into a register, into the flags or into P.
  | la m | lb m | lx m | ly m | and m | or m | eor m =>
    cases hf; exact execute_operand_within fun _ _ h => h.setReg hhead _
  | ad m | sb m => cases hf; exact execute_operand_within fun _ _ h => (h.setReg hhead _).setVC _ _
  | cp m | cpz m => cases hf; exact execute_operand_within fun _ _ h => h.setVC _ _
  | mp m => cases hf; exact execute_operand_within fun _ _ h => (h.setAB hhead hsecond _).setVC _ _
  | dv m => cases hf; exact execute_operand_within fun v _ h => divide_within h hhead hsecond v
  | br m => cases hf; exact execute_operand_within fun _ _ h => h
  | lad m => cases hf; exact execute_within fun _ h => (eaWord_all markFree_within h m).bind fun _ _ h => h.setReg hhead _
  | lby m => cases hf; exact execute_byteOperand_within fun _ _ h => h.setReg hhead _
  | cpby m => cases hf; exact execute_byteOperand_within fun _ _ h => h.setVC _ _
  -- Registers, flags and P alone.
  | lai | lbi | lxi | lyi | ori | andi | eori | lr | orr | eorr | andr | clsr | cmr | swbr | lrp =>
    cases hf; exact execute_within fun _ h => h.setReg hhead _
  | adri | adr | sbr | ngr | adcr | sbcr | slrs | slls | scrs | scls | sars =>
    cases hf; exact execute_within fun _ h => (h.setReg hhead _).setVC _ _
  | slrd | slld | scrd | scld | sard => cases hf; exact execute_within fun _ h => (h.setAB hhead hsecond _).setVC _ _
  | rbt | sbt | ibt => cases hf; exact execute_within fun _ h => h.setAB hhead hsecond _
  | cpi | cpr | cpzr | pty | scy | tbt => cases hf; exact execute_within fun _ h => h.setVC _ _
  | xr rs rd => cases hf; exact execute_within fun _ h => (h.setReg hsecond _).setReg hhead _
  | nop | adrp => cases hf; exact execute_within fun _ h => h
  | dbt =>
    cases hf; exact execute_within fun _ h => within_ite (h.setVC _ _) ((h.setReg hhead _).setVC _ _)
  | sbs => cases hf; exact execute_within fun _ h => (pushPullCheck_within h).bind fun _ _ h => searchByte_within h
  -- Jumps.
  | jmp d | jnc d | jnv d | jncv d | jc d | jv d | jcv d | jage d | jane d | jag d | jal d | jae d | jale d =>
    cases hf; exact execute_jump_within
  | jix d | jdx d => cases hf; exact execute_within fun _ h => jumpIf_within (h.setReg hhead _) _ d
  -- The K stack and the words after the instruction.
  | rsr => cases hf; exact execute_within fun _ h => (stackRead_all markFree_within h _).bind fun _ _ h => h.setReg hhead _
  | plr mask =>
    cases hf
    exact execute_within fun _ h => (pullRegs_within hhead
      (fun r hr => List.mem_cons_of_mem _ (List.mem_reverse.mp hr)) h).bind fun _ _ h => h
  | lrm mask => cases hf; exact execute_within fun _ h => loadInline_within (fun _ hr => hr) h _
  | _ => cases hf

end

/-! The instructions that store a word. -/

/-- Every byte but those of the word at `pa`, and every mark of bad parity but its own, are those of `o`. -/
def State.memoryKeptBut (o : State) (pa : PAddr) : MemoryRule := fun mem bad =>
  (∀ a : Nat, a ≠ 2 * pa.toNat → a ≠ 2 * pa.toNat + 1 → readByte mem a = readByte o.mem a)
    ∧ ∀ n, n ≠ pa.toNat → (n ∈ bad ↔ n ∈ o.badParity)

section
variable {o s u : State} {rs : List Reg} {flags : Bool} {m : MemRef} {ea : Word}

/-- A store changes no mark of bad parity but that of its word. -/
theorem mem_badParity_store {pa : PAddr} {v : Word} {n : Nat} (hn : n ≠ pa.toNat) :
    n ∈ (s.store pa v).badParity ↔ n ∈ s.badParity := by
  rw [State.store_badParity, mem_removeNat]; exact and_iff_left hn

theorem State.Within.store {pa : PAddr} (h : o.Within rs flags (o.memoryKeptBut pa) s) (v : Word) :
    o.Within rs flags (o.memoryKeptBut pa) (s.store pa v) := by
  obtain ⟨honly, hmem, hbad⟩ := h
  exact ⟨honly, fun a h0 h1 => (readByte_writeWord_other s.mem pa v h0 h1).trans (hmem a h0 h1),
    fun n hn => (mem_badParity_store hn).trans (hbad n hn)⟩

/-- What is known of every state of an instruction that stores in the word at the program address `ea`. -/
def State.StoresAt (o : State) (rs : List Reg) (flags : Bool) (ea : Word) : State → Prop :=
  o.Within rs flags (o.memoryKeptBut (o.place o.relocated ea))

/-- An access at the program address is one at the word that may change. -/
theorem resolve_bind_storesAt {α : Type} (h : o.StoresAt rs flags ea s) {f : PAddr → State → Res α}
    (hf : (f (o.place o.relocated ea) s).All (o.StoresAt rs flags ea)) :
    ((resolve s.relocated ea s).bind f).All (o.StoresAt rs flags ea) :=
  resolve_bind_all h (by rw [State.Within.place h]; exact hf)

theorem writeAt_storesAt (h : o.StoresAt rs flags ea s) (v : Word) :
    (writeAt (o.place o.relocated ea) v s).All (o.StoresAt rs flags ea) :=
  writeAt_all markFree_within h fun _ => State.Within.store h v

theorem memWrite_storesAt (h : o.StoresAt rs flags ea s) (v : Word) : (memWrite ea v s).All (o.StoresAt rs flags ea) :=
  resolve_bind_storesAt h (writeAt_storesAt h v)

/-- Forming the address changes nothing but marks. -/
theorem storesAt_of_eaWord (hea : eaWord m s.completed = .ok ea u) : s.StoresAt rs flags ea u := by
  have hs : s.StoresAt rs flags ea s.completed := s.within_completed rs flags ⟨fun _ _ _ => rfl, fun _ _ => Iff.rfl⟩
  exact (eaWord_all markFree_within hs m).of_ok hea

/-- An instruction that forms the address of its operand word, then works there. -/
theorem execute_storesAt (hea : eaWord m s.completed = .ok ea u) {f : Word → State → Res Unit}
    (hf : ∀ t, s.StoresAt rs flags ea t → (f ea t).All (s.StoresAt rs flags ea)) :
    endsIn (s.StoresAt rs flags ea) (execute (fun s => (eaWord m s).bind f) s) :=
  execute_endsIn (by rw [hea]; exact hf u (storesAt_of_eaWord hea))

theorem execute_writeOperand_storesAt (hea : eaWord m s.completed = .ok ea u) (v : State → Word) :
    endsIn (s.StoresAt rs flags ea) (execute (fun s => (writeOperand m v s).bind fun _ s => finish s) s) := by
  refine execute_endsIn ?_
  rw [writeOperand, hea]
  exact (memWrite_storesAt (storesAt_of_eaWord hea) _).bind fun _ _ h => h

theorem exchangeA_storesAt (hA : .a ∈ rs) (h : o.StoresAt rs flags ea s) :
    (exchangeA (o.place o.relocated ea) s).All (o.StoresAt rs flags ea) :=
  (readAt_all markFree_within h _).bind fun _ _ h => (writeAt_storesAt h _).bind fun _ _ h => State.Within.setReg h hA _

theorem execute_stepWord_storesAt (hea : eaWord m s.completed = .ok ea u) (d : Word) :
    endsIn (s.StoresAt rs true ea) (execute (stepWord d m) s) :=
  execute_storesAt hea fun _ h => (memRead_all markFree_within h ea).bind fun _ _ h =>
    (memWrite_storesAt h _).bind fun _ _ h => h.setVC _ _

/-- The instructions that store a word change it, and the registers and flags of their frame. -/
theorem exec_stores {i : Instr} (hf : Instr.stores i = some (m, rs, flags)) (hea : eaWord m s.completed = .ok ea u) :
    endsIn (s.StoresAt rs flags ea) (exec i s) := by
  unfold exec
  cases i with
  | sta | stb | stx | sty | stz => cases hf; exact execute_writeOperand_storesAt hea _
  | ic | dc => cases hf; exact execute_stepWord_storesAt hea _
  | xm =>
    cases hf
    exact execute_storesAt hea fun _ h => resolve_bind_storesAt h
      ((exchangeA_storesAt List.mem_cons_self h).bind fun _ _ h => h)
  | _ => cases hf

end

/-! STBY. -/

/-- Every byte but one half of the word at `pa`, and every mark of bad parity but that of the word, are those of `o`; memory is
canonical, so that the word reads as it was written. -/
def State.memoryKeptButByte (o : State) (pa : PAddr) (right : Bool) : MemoryRule := fun mem bad =>
  Memory.wf mem = true
    ∧ (∀ a : Nat, a ≠ 2 * pa.toNat + (if right then 1 else 0) → readByte mem a = readByte o.mem a)
    ∧ ∀ n, n ≠ pa.toNat → (n ∈ bad ↔ n ∈ o.badParity)

section
variable {o s u : State} {rs : List Reg} {flags : Bool} {m : MemRef} {wa : Word} {right : Bool}

/-- Storing a word with one byte replaced leaves every other byte (20_memory.md R63). -/
theorem readByte_store_withByte (hw : Memory.wf s.mem = true) (pa : PAddr) (b : Byte) {a : Nat}
    (ha : a ≠ 2 * pa.toNat + (if right then 1 else 0)) :
    readByte (s.store pa (withByte (readWord s.mem pa) right b)).mem a = readByte s.mem a := by
  obtain ⟨hleft, hright⟩ := readByte_store_same hw pa (withByte (readWord s.mem pa) right b)
  cases right with
  | false =>
    by_cases h : a = 2 * pa.toNat + 1
    · rw [h, hright]; simp [withByte, readWord]
    · exact readByte_writeWord_other _ _ _ ha h
  | true =>
    by_cases h : a = 2 * pa.toNat
    · rw [h, hleft]; simp [withByte, readWord]
    · exact readByte_writeWord_other _ _ _ h ha

theorem State.Within.storeByte {pa : PAddr} (h : o.Within rs flags (o.memoryKeptButByte pa right) s) (b : Byte) :
    o.Within rs flags (o.memoryKeptButByte pa right) (s.store pa (withByte (readWord s.mem pa) right b)) := by
  obtain ⟨honly, hwf, hmem, hbad⟩ := h
  exact ⟨honly, Memory.wf_writeWord hwf pa _, fun a ha => (readByte_store_withByte hwf pa b ha).trans (hmem a ha),
    fun n hn => (mem_badParity_store hn).trans (hbad n hn)⟩

/-- What is known of every state of an instruction that stores in one byte at the program address `wa`. -/
def State.StoresByteAt (o : State) (wa : Word) (right : Bool) : State → Prop :=
  o.Within [] false (o.memoryKeptButByte (o.place o.relocated wa) right)

/-- A read gives the word, but where no word exists. -/
theorem memRead_content {a v : Word} {t : State} (h : memRead a s = .ok v t) :
    t.cfg.exists (s.place s.relocated a) = true → v = readWord t.mem (s.place s.relocated a) := by
  obtain ⟨-, hr⟩ := resolved_read_cases h
  rcases readAt_cases hr with ⟨rfl, rfl, -⟩ | ⟨rfl, rfl, -⟩ | ⟨rfl, -, he⟩
  · exact fun _ => rfl
  · unfold State.seeBreak
    split <;> exact fun _ => rfl
  · exact fun he' => absurd (he.symm.trans he') Bool.false_ne_true

/-- A store of a byte writes the word with that byte replaced; where no word exists it writes nothing. -/
theorem byteWrite_storesByteAt (h : o.StoresByteAt wa right s) (b : Byte) :
    (byteWrite wa right b s).All (o.StoresByteAt wa right) := by
  have hread : (memRead wa s).All (o.StoresByteAt wa right) := memRead_all markFree_within h wa
  unfold byteWrite
  cases hr : memRead wa s with
  | ok w t =>
    have ht : o.StoresByteAt wa right t := hread.of_ok hr
    have hw := memRead_content hr
    rw [State.Within.place h] at hw
    refine resolve_bind_all ht ?_
    rw [State.Within.place ht]
    exact writeAt_all markFree_within ht fun he => hw he ▸ State.Within.storeByte ht b
  | alarm n t => exact hread.of_alarm hr
  | refuse r => trivial
  | stuck r => trivial

/-- STBY changes one byte and nothing else (43_byte_misc.md R241). -/
theorem execStby_storesByteAt (hwf : Memory.wf s.mem = true) (hea : eaByte m s.completed = .ok (wa, right) u) :
    endsIn (s.StoresByteAt wa right) (execStby m s) := by
  have hs : s.StoresByteAt wa right s.completed :=
    s.within_completed [] false ⟨hwf, fun _ _ => rfl, fun _ _ => Iff.rfl⟩
  have hu : s.StoresByteAt wa right u := (eaByte_all markFree_within hs m).of_ok hea
  refine execute_endsIn ?_
  rw [hea]
  exact (byteWrite_storesByteAt hu _).bind fun _ _ h => h

end

/-- Settles O60: the parts of each instruction change what its frame lists, and an instruction that ends in no alarm is its body. -/
theorem frames : Obligations.Frames := by
  intro i s t he hp
  refine ⟨fun rs fl hf => ?_, fun m rs fl hf ea u hea => (exec_stores hf hea).of_next he hp, ?_⟩
  · obtain ⟨honly, hmem, hbad⟩ := (exec_frame s hf).of_next he hp
    exact ⟨honly, fun a => by rw [hmem], hbad⟩
  · rintro m rfl hwf wa right u hea
    obtain ⟨honly, -, hbytes, hbad⟩ := (execStby_storesByteAt hwf hea).of_next he hp
    exact ⟨honly, hbytes, hbad⟩

end Sys2Proof.Machine
end

section
/-! SUPPORT. The obligations on integer arithmetic and comparison (41_arithmetic_compare.md R170 to R187, 43_byte_misc.md R242):
what the flags and the results say of the numbers the words stand for, then the instructions. -/

namespace Sys2Proof.Machine

variable {s : State} {m : MemRef}

/-! The two ways an instruction of this family goes. -/

/-- An instruction that only changes the state by `f`, which does not look at the mark of the execution. -/
theorem execute_finish {f : State → State} (hf : f s.completed = (f s).completed) :
    execute (fun s => finish (f s)) s = .next ((f s).ends 1) :=
  execute_ok (by rw [hf]; rfl)

/-- The same with the operand word. -/
theorem execute_operand_finish (h : s.operandOk m = true) {f : Word → State → State}
    (hf : f (s.operand m) s.completed = (f (s.operand m) s).completed) :
    execute (fun s => (readOperand m s).bind fun v s => finish (f v s)) s = .next ((f (s.operand m) s).ends 1) :=
  execute_ok ((readOperand_bind h _).trans (by rw [hf]; rfl))

theorem addTo_completed (r : Reg) (b : Word) (s : State) : addTo r b s.completed = (addTo r b s).completed := by
  cases r <;> rfl

theorem subFrom_completed (r : Reg) (b : Word) (s : State) : subFrom r b s.completed = (subFrom r b s).completed := by
  cases r <;> rfl

theorem State.ab_completed (s : State) : s.completed.ab = s.ab := rfl

theorem divide_completed (d : Word) (s : State) : divide d s.completed = (divide d s).completed := by
  unfold divide
  rw [State.ab_completed]
  cases quotient s.ab.toInt (s16 d) <;> rfl

/-! Signed values and the flags. -/

theorem s16_bounds (w : Word) : -32768 ≤ s16 w ∧ s16 w < 32768 := ⟨BitVec.le_toInt w, BitVec.toInt_lt⟩

/-- Bit 0 of a word, which R170 and R171 compare, is its sign. -/
theorem bit_sign (w : Word) : bit w 0 = decide (s16 w < 0) := by
  have hw := w.isLt
  rw [bit_first, decide_eq_decide, s16, BitVec.toInt_eq_toNat_cond]
  split <;> omega

/-- V of an addition by the signs is signed overflow, and Cf is the carry (R170). -/
theorem sumFlags_addFlags (a b : Word) : sumFlags a b (addFlags a b).1 (addFlags a b).2 := by
  have hsum : s16 (a + b) = (s16 a + s16 b).bmod 65536 := BitVec.toInt_add a b
  have ha := s16_bounds a
  have hb := s16_bounds b
  refine ⟨?_, decide_eq_true_iff⟩
  simp only [addFlags, bit_sign, hsum, Int.bmod_def, Bool.and_eq_true, beq_iff_eq, bne_iff_ne, ne_eq, decide_eq_decide]
  omega

/-- V of a subtraction by the signs is signed overflow, and Cf is the borrow (R171, D16). -/
theorem differenceFlags_subFlags (a b : Word) : differenceFlags a b (subFlags a b).1 (subFlags a b).2 := by
  have hdiff : s16 (a - b) = (s16 a - s16 b).bmod 65536 := BitVec.toInt_sub
  have ha := s16_bounds a
  have hb := s16_bounds b
  refine ⟨?_, decide_eq_true_iff⟩
  simp only [subFlags, bit_sign, hdiff, Int.bmod_def, Bool.and_eq_true, bne_iff_ne, ne_eq, decide_eq_decide]
  omega

/-- A byte extended by zeros keeps its value (43_byte_misc.md R242). -/
theorem s16_zext8 (b : Byte) : s16 (zext8 b) = (b.toNat : Int) := by
  have hb := b.isLt
  rw [zext8, s16, BitVec.toInt_setWidth]
  exact Int.bmod_eq_of_le_mul_two (by omega) (by omega)

/-! Addition, subtraction, comparison. -/

/-- Settles O2: each of the four instructions is `addTo` on its register, which applies `AddFlags`. -/
theorem additionLaw : Obligations.AdditionLaw := fun s => by
  refine ⟨fun m h => ?_, fun r n => ?_, fun rs rd => ?_, fun rd => ?_⟩
  · exact ⟨_, _, sumFlags_addFlags _ _, execute_operand_finish (f := addTo .a) h (addTo_completed .a _ s)⟩
  · exact ⟨_, _, sumFlags_addFlags _ _, execute_finish (f := addTo r (sext8 n)) (addTo_completed r _ s)⟩
  · refine ⟨_, _, sumFlags_addFlags _ _, execute_finish (f := fun s => addTo rd (s.reg rs) s) ?_⟩
    rw [State.reg_completed, addTo_completed]
  · exact ⟨_, _, sumFlags_addFlags _ _, execute_finish (f := fun s => addTo rd (ofBit s.st.Cf) s) (addTo_completed rd _ s)⟩

/-- Settles O3: each of the three instructions is `subFrom` on its register, which applies `SubFlags`. -/
theorem subtractionLaw : Obligations.SubtractionLaw := fun s => by
  refine ⟨fun m h => ?_, fun rs rd => ?_, fun rd => ?_⟩
  · exact ⟨_, _, differenceFlags_subFlags _ _, execute_operand_finish (f := subFrom .a) h (subFrom_completed .a _ s)⟩
  · refine ⟨_, _, differenceFlags_subFlags _ _, execute_finish (f := fun s => subFrom rd (s.reg rs) s) ?_⟩
    rw [State.reg_completed, subFrom_completed]
  · exact ⟨_, _, differenceFlags_subFlags _ _,
      execute_finish (f := fun s => subFrom rd (ofBit s.st.Cf) s) (subFrom_completed rd _ s)⟩

/-- CPBY compares A with the byte operand extended by zeros (43_byte_misc.md R242). -/
theorem execCpby_ok (h : s.byteOk m = true) :
    execCpby m s = .next ((compare s.r.A (zext8 (s.byteOperand m)) s).ends 1) := by
  simp only [State.byteOk, Bool.and_eq_true] at h
  obtain ⟨hr, hrd⟩ := h
  refine execute_ok ?_
  rw [eaByte_ok (s := s.completed) hr, Res.bind_ok, State.effectiveByte_completed, byteRead_ok (s := s.completed) hrd]
  rfl

/-- Settles O4: each comparison is `compare` on its two terms. -/
theorem comparisonLaw : Obligations.ComparisonLaw := fun s => by
  refine ⟨fun m h => ?_, fun n => ?_, fun rs rd => ?_, fun rd => ?_, fun m h => ?_, fun m h => ?_⟩
  · exact ⟨_, _, comparisonFlags_compareInts _ _, execute_operand_finish (f := fun v s => compare s.r.A v s) h rfl⟩
  · exact ⟨_, _, comparisonFlags_compareInts _ _, execute_finish (f := fun s => compare s.r.A (immValue n) s) rfl⟩
  · refine ⟨_, _, comparisonFlags_compareInts _ _, execute_finish (f := fun s => compare (s.reg rd) (s.reg rs) s) ?_⟩
    rw [State.reg_completed, State.reg_completed]; rfl
  · refine ⟨_, _, comparisonFlags_compareInts _ 0, execute_finish (f := fun s => compare (s.reg rd) 0#16 s) ?_⟩
    rw [State.reg_completed]; rfl
  · exact ⟨_, _, comparisonFlags_compareInts _ 0, execute_operand_finish (f := fun v s => compare v 0#16 s) h rfl⟩
  · exact ⟨_, _, s16_zext8 _ ▸ comparisonFlags_compareInts _ _, execCpby_ok h⟩

/-! The opposite and the product. -/

/-- The opposite modulo 65536: the word -32768 is its own (R180). -/
theorem s16_negated (w : Word) : s16 (0#16 - w) = if w = 0x8000#16 then -32768 else -s16 w := by
  split
  case isTrue h => subst h; rfl
  case isFalse h =>
    have hne : s16 w ≠ -32768 := fun hw => h (BitVec.toInt_inj.mp hw)
    have hb := s16_bounds w
    have hneg : s16 (-w) = (-s16 w).bmod 65536 := BitVec.toInt_neg
    rw [BitVec.zero_sub, hneg]
    exact Int.bmod_eq_of_le_mul_two (by omega) (by omega)

/-- The flags of NGR: V for -32768, Cf for any word but zero (R180). -/
theorem negFlags_iff (w : Word) :
    ((negFlags w).1 = true ↔ s16 w = -32768) ∧ ((negFlags w).2 = true ↔ w ≠ 0#16) := by
  have hmin : s16 w = -32768 ↔ w = 0x8000#16 := BitVec.toInt_inj (y := 0x8000#16)
  rw [hmin, negFlags]
  by_cases h : w = 0x8000#16
  · simp [h]
  · by_cases h0 : w = 0#16 <;> simp [h, h0]

theorem execNgr_ok (s : State) (rs rd : Reg) : execNgr rs rd s = .next (((s.setReg rd (0#16 - s.reg rs)).setVC
    (negFlags (s.reg rs)).1 (negFlags (s.reg rs)).2).ends 1) := by
  refine execute_finish (f := fun s => (s.setReg rd (0#16 - s.reg rs)).setVC (negFlags (s.reg rs)).1 (negFlags (s.reg rs)).2) ?_
  rw [State.reg_completed, completed_setReg]; rfl

/-- The product of two signed words always fits in 32 bits (R181). -/
theorem toInt_product (a b : Word) : (product a b).toInt = s16 a * s16 b := by
  have hlow : -2 ^ 30 ≤ s16 a * s16 b := BitVec.le_toInt_mul_toInt
  have hhigh : s16 a * s16 b ≤ 2 ^ 30 := BitVec.toInt_mul_toInt_le
  exact BitVec.toInt_ofInt_eq_self (by decide) (by omega) (by omega)

/-! The quotient (R182). -/

/-- A quotient and a remainder: the remainder is smaller than the divisor and has the sign of the dividend (R182). -/
def IsDivision (n d q r : Int) : Prop := n = q * d + r ∧ r.natAbs < d.natAbs ∧ 0 ≤ r * n

/-- Division towards zero gives one. -/
theorem isDivision_tdiv {n d : Int} (hd : d ≠ 0) : IsDivision n d (n.tdiv d) (n.tmod d) := by
  refine ⟨?_, ?_, ?_⟩
  · rw [mul_comm]; exact (Int.mul_tdiv_add_tmod n d).symm
  · rw [Int.natAbs_tmod]; exact Nat.mod_lt _ (Int.natAbs_pos.mpr hd)
  · rcases le_total 0 n with hn | hn
    · exact mul_nonneg (Int.tmod_nonneg d hn) hn
    · exact mul_nonneg_of_nonpos_of_nonpos (by simpa using Int.tmod_nonneg d (neg_nonneg.mpr hn)) hn

theorem IsDivision.divisor_ne_zero {n d q r : Int} (h : IsDivision n d q r) : d ≠ 0 := by
  obtain ⟨-, hlt, -⟩ := h
  omega

/-- There is no other. -/
theorem IsDivision.tdiv_eq {n d q r : Int} (h : IsDivision n d q r) : n.tdiv d = q := by
  have hd := h.divisor_ne_zero
  obtain ⟨heq, hlt, hsign⟩ := h
  have hcomm : r + d * q = n := by rw [heq]; ring
  rcases lt_trichotomy n 0 with hn | hn | hn
  · have hr : r ≤ 0 := nonpos_of_mul_nonneg_left hsign hn
    exact ((Int.tdiv_tmod_unique' hn.le hd).mpr ⟨hcomm, by omega, hr⟩).1
  · have hdvd : d ∣ r := ⟨-q, by linarith [mul_neg d q]⟩
    have hr : r = 0 := Int.eq_zero_of_dvd_of_natAbs_lt_natAbs hdvd hlt
    exact ((Int.tdiv_tmod_unique hn.ge hd).mpr ⟨hcomm, by omega, by omega⟩).1
  · have hr : 0 ≤ r := nonneg_of_mul_nonneg_left hsign hn
    exact ((Int.tdiv_tmod_unique hn.le hd).mpr ⟨hcomm, hr, by omega⟩).1

/-- The quotient, where it is a signed word. -/
theorem quotient_of_fits {n d q r : Int} (h : IsDivision n d q r) (hlow : -32768 ≤ q) (hhigh : q ≤ 32767) :
    quotient n d = some q := by
  rw [quotient, if_neg h.divisor_ne_zero, h.tdiv_eq, if_pos ⟨hlow, hhigh⟩]

/-- There is none by zero, nor where every quotient is out of range. -/
theorem quotient_impossible {n d : Int} (h : d = 0 ∨ ∀ q r, IsDivision n d q r → q < -32768 ∨ 32767 < q) :
    quotient n d = none := by
  unfold quotient
  by_cases hd : d = 0
  · exact if_pos hd
  · have hout := h.resolve_left hd _ _ (isDivision_tdiv hd)
    rw [if_neg hd, if_neg (by omega)]

/-- A number of 16 signed bits is the value of its word. -/
theorem s16_u16 {n : Int} (hlow : -32768 ≤ n) (hhigh : n ≤ 32767) : s16 (u16 n) = n :=
  BitVec.toInt_ofInt_eq_self (by decide) (by omega) (by omega)

/-- DV where the quotient can be expressed (R182). -/
theorem divide_of_quotient {d : Word} {q : Int} (h : quotient s.ab.toInt (s16 d) = some q) :
    divide d s = ((s.setReg .a (u16 q)).setReg .b (u16 (s.ab.toInt - q * s16 d))).setVC false false := by
  rw [divide, h]

/-- DV where it cannot: A and B take free values (R182, U2). -/
theorem divide_impossible {d : Word} (h : quotient s.ab.toInt (s16 d) = none) :
    ∃ a b n, divide d s = ({ ((s.setReg .a a).setReg .b b).setVC true false with freeCount := n } : State) := by
  rw [divide, h]
  exact ⟨s.fresh.1, s.fresh.2.fresh.1, s.freeCount + 2, rfl⟩

theorem execDv_ok (h : s.operandOk m = true) : execDv m s = .next ((divide (s.operand m) s).ends 1) :=
  execute_operand_finish h (divide_completed _ s)

/-- DV of a division whose quotient is a signed word. -/
theorem execDv_fits (h : s.operandOk m = true) {q r : Int} (hdiv : IsDivision s.ab.toInt (s16 (s.operand m)) q r)
    (hlow : -32768 ≤ q) (hhigh : q ≤ 32767) : ∃ a b : Word, s16 a = q ∧ s16 b = r
      ∧ execDv m s = .next ((((s.setReg .a a).setReg .b b).setVC false false).ends 1) := by
  have hd := s16_bounds (s.operand m)
  have ⟨heq, hlt, _⟩ := hdiv
  have hrem : s.ab.toInt - q * s16 (s.operand m) = r := by rw [heq]; ring
  refine ⟨u16 q, u16 r, s16_u16 hlow hhigh, s16_u16 (by omega) (by omega), ?_⟩
  rw [execDv_ok h, divide_of_quotient (quotient_of_fits hdiv hlow hhigh), hrem]

/-- Settles O5: NGR and MP by the values of their results; DV by the only division there is. -/
theorem negateMultiplyDivide : Obligations.NegateMultiplyDivide := by
  refine ⟨fun s => ⟨fun rs rd => ?_, fun m h => ?_⟩, fun s m h => ⟨fun q r heq hlt hsign hlow hhigh => ?_, fun himp => ?_⟩⟩
  · obtain ⟨hv, hc⟩ := negFlags_iff (s.reg rs)
    exact ⟨_, _, _, s16_negated _, hv, hc, execNgr_ok s rs rd⟩
  · exact ⟨_, toInt_product _ _,
      execute_operand_finish (f := fun v s => (s.setAB (product s.r.A v)).setVC false false) h rfl⟩
  · exact execDv_fits h ⟨heq, hlt, hsign⟩ hlow hhigh
  · have hnone : quotient s.ab.toInt (s16 (s.operand m)) = none :=
      quotient_impossible (himp.imp_right fun hout q r ⟨heq, hlt, hsign⟩ => hout q r heq hlt hsign)
    obtain ⟨a, b, n, hdiv⟩ := divide_impossible hnone
    exact ⟨a, b, n, hdiv ▸ execDv_ok h⟩

end Sys2Proof.Machine
end

section
/-! SUPPORT. The obligations on logical operations, shifts and bit operations (42_logic_shift_bit.md R200 to R229, 43_byte_misc.md
R245): manual bits as the library counts bits from the left, the shifts of a word of any width as numbers, then the
instructions. -/

namespace Sys2Proof.Machine

variable {s : State} {m : MemRef} {w p i k : Nat}

/-! Manual bits, counted from the left (00_scope.md R6). -/

theorem bit_eq_getMsbD (v : Word) (i : Nat) : bit v i = v.getMsbD i := by
  rw [bit, BitVec.getMsbD_eq_getLsbD]
  split <;> simp [*]

theorem pairBit_eq_getMsbD (d : BitVec 32) (i : Nat) : pairBit d i = d.getMsbD i := by
  rw [pairBit, BitVec.getMsbD_eq_getLsbD]
  split <;> simp [*]

theorem bit_xor (a b : Word) (i : Nat) : bit (a ^^^ b) i = (bit a i ^^ bit b i) := by
  simp only [bit_eq_getMsbD, BitVec.getMsbD_xor]

theorem bit_andNot (a b : Word) (i : Nat) : bit (a &&& ~~~ b) i = (bit a i && !bit b i) := by
  rw [bit_and]
  by_cases hi : i < 16
  · rw [bit_not b i hi]
  · rw [bit_ge a i hi]; rfl

theorem pairBit_pairMask (hk : k < 32) (i : Nat) : pairBit (pairMask k) i = decide (i = k) := by
  rw [pairBit_eq_getMsbD, pairMask, if_pos hk, ← BitVec.twoPow_eq, BitVec.getMsbD_twoPow, decide_eq_true (by omega),
    Bool.true_and, decide_eq_decide]
  omega

/-! Logical operations. -/

/-- A logical operation of A with the operand word (R200, R203, R206). -/
theorem execute_logicMem (h : s.operandOk m = true) (op : Word → Word → Word) :
    execute (logicMem op m) s = .next ((s.setReg .a (op s.r.A (s.operand m))).ends 1) :=
  execute_operand_finish (f := fun v s => s.setReg .a (op s.r.A v)) h rfl

/-- A logical operation of A with the immediate (R201, R204, R207). -/
theorem execute_logicImm (s : State) (n : Imm9) (op : Word → Word → Word) :
    execute (logicImm op n) s = .next ((s.setReg .a (op s.r.A (immValue n))).ends 1) :=
  execute_finish (f := fun s => s.setReg .a (op s.r.A (immValue n))) rfl

/-- A logical operation of two registers (R202, R205, R208, R209). -/
theorem execute_logicReg (s : State) (rs rd : Reg) (op : Word → Word → Word) :
    execute (logicReg op rs rd) s = .next ((s.setReg rd (op (s.reg rd) (s.reg rs))).ends 1) :=
  execute_setReg s rd (v := fun s => op (s.reg rd) (s.reg rs)) (by simp only [State.reg_completed])

/-- CMR complements a register (R210). -/
theorem execCmr_ok (s : State) (rs rd : Reg) : execCmr rs rd s = .next ((s.setReg rd (~~~ s.reg rs)).ends 1) :=
  execute_setReg s rd (v := fun s => ~~~ s.reg rs) (by simp only [State.reg_completed])

/-- The first word of an instruction on two registers, as a sum (30_encoding.md R106, R121). -/
theorem eq_regWord {key : BitVec 5} {c : Word} (hc : c.toNat = 10240 + key.toNat * 64) (rs rd : Reg) :
    c + BitVec.ofNat 16 (rs.code.toNat * 8 + rd.code.toNat) = regWord key rs rd := by
  have hkey := key.isLt
  have hrs := rs.code.isLt
  have hrd := rd.code.isLt
  apply BitVec.eq_of_toNat_eq
  rw [toNat_regWord, BitVec.toNat_add, BitVec.toNat_ofNat, hc]
  omega

/-- The encodings of EORR, CLSR and CMR (R208 to R210). -/
theorem decode_eorr_clsr_cmr (k : IspCoding) (rs rd : Reg) :
    decodeWords k [0x2CC0#16 + BitVec.ofNat 16 (rs.code.toNat * 8 + rd.code.toNat)] = .instr (.eorr rs rd) []
    ∧ decodeWords k [0x2D40#16 + BitVec.ofNat 16 (rs.code.toNat * 8 + rd.code.toNat)] = .instr (.clsr rs rd) []
    ∧ decodeWords k [0x2E80#16 + BitVec.ofNat 16 (rs.code.toNat * 8 + rd.code.toNat)] = .instr (.cmr rs rd) [] := by
  rw [eq_regWord (key := 0x13#5) rfl, eq_regWord (key := 0x15#5) rfl, eq_regWord (key := 0x1A#5) rfl]
  refine ⟨(decode_reg k _ rs rd).trans ?_, (decode_reg k _ rs rd).trans ?_, (decode_reg k _ rs rd).trans ?_⟩
  all_goals simp [regInstr]

/-- Settles O6: each instruction is one bitwise operation, on A or on its destination. -/
theorem logicOperations : Obligations.LogicOperations := by
  refine ⟨decode_eorr_clsr_cmr, fun s => ⟨fun n => ?_, fun m h => ?_, fun rs rd => ?_⟩⟩
  · exact ⟨_, _, _, bit_and _ _, bit_or _ _, bit_xor _ _, execute_logicImm s n _, execute_logicImm s n _, execute_logicImm s n _⟩
  · exact ⟨_, _, _, bit_and _ _, bit_or _ _, bit_xor _ _, execute_logicMem h _, execute_logicMem h _, execute_logicMem h _⟩
  · exact ⟨_, _, _, _, _, bit_and _ _, bit_or _ _, bit_xor _ _, bit_andNot _ _, bit_not _, execute_logicReg s rs rd _,
      execute_logicReg s rs rd _, execute_logicReg s rs rd _, execute_logicReg s rs rd fun d v => d &&& ~~~ v, execCmr_ok s rs rd⟩

/-! The shifts of a word of any width, as numbers (R212, R215 to R218, R223, R224). -/

section Shifts

variable {x : BitVec w}

/-- A logical shift to the right: the quotient, and the last bit out. -/
def ShiftedRight (x : BitVec w) (p : Nat) (r : BitVec w × Bool) : Prop :=
  r.1.toNat = x.toNat / 2 ^ p ∧ (r.2 = true ↔ p ≠ 0 ∧ x.toNat / 2 ^ (p - 1) % 2 = 1)

/-- A shift to the left: the product modulo the width, and the last bit out. -/
def ShiftedLeft (x : BitVec w) (p : Nat) (r : BitVec w × Bool) : Prop :=
  r.1.toNat = x.toNat * 2 ^ p % 2 ^ w ∧ (r.2 = true ↔ x.toNat * 2 ^ p / 2 ^ w % 2 = 1)

/-- An arithmetic shift to the right: the quotient of the signed value, rounded down, and the last bit out. -/
def ShiftedSigned (x : BitVec w) (p : Nat) (r : BitVec w × Bool) : Prop :=
  r.1.toInt = x.toInt / 2 ^ p ∧ (r.2 = true ↔ p ≠ 0 ∧ x.toInt / 2 ^ (p - 1) % 2 = 1)

/-- The last of p bits shifted out to the right. -/
theorem getMsbD_sub (h0 : p ≠ 0) (hp : p ≤ w) : x.getMsbD (w - p) = x.getLsbD (p - 1) := by
  rw [BitVec.getMsbD_eq_getLsbD, decide_eq_true (by omega), Bool.true_and]
  congr 1; omega

theorem shiftedRight_zero (x : BitVec w) : ShiftedRight x 0 (x, false) := by simp [ShiftedRight]

theorem shiftedRight_ushiftRight (h0 : p ≠ 0) (hp : p ≤ w) : ShiftedRight x p (x >>> p, x.getMsbD (w - p)) := by
  refine ⟨?_, ?_⟩
  · rw [BitVec.toNat_ushiftRight, Nat.shiftRight_eq_div_pow]
  · rw [getMsbD_sub h0 hp, getLsbD_eq, decide_eq_true_eq]
    exact (and_iff_right h0).symm

/-- Beyond the width nothing is left, in the word or to shift out. -/
theorem shiftedRight_beyond (h : w < p) : ShiftedRight x p (0#w, false) := by
  have hout {n : Nat} (hn : w ≤ n) : x.toNat / 2 ^ n = 0 :=
    Nat.div_eq_of_lt (x.isLt.trans_le (Nat.pow_le_pow_right (by decide) hn))
  simp [ShiftedRight, hout h.le, hout (Nat.le_sub_one_of_lt h)]

/-- The bit that a shift to the left brings in the place above the word. -/
theorem testBit_shiftLeft_width (x : BitVec w) (p : Nat) :
    (x.toNat <<< p).testBit w = true ↔ x.toNat * 2 ^ p / 2 ^ w % 2 = 1 := by
  rw [Nat.testBit_eq_decide_div_mod_eq, decide_eq_true_eq, Nat.shiftLeft_eq]

theorem shiftedLeft_iff {r : BitVec w × Bool} :
    ShiftedLeft x p r ↔ r.1 = x <<< p ∧ r.2 = (x.toNat <<< p).testBit w := by
  rw [ShiftedLeft, ← testBit_shiftLeft_width, ← Bool.eq_iff_iff, ← BitVec.toNat_inj, BitVec.toNat_shiftLeft, Nat.shiftLeft_eq]

theorem shiftedLeft_zero (x : BitVec w) : ShiftedLeft x 0 (x, false) :=
  shiftedLeft_iff.mpr ⟨(BitVec.shiftLeft_zero x).symm, (Nat.testBit_lt_two_pow x.isLt).symm⟩

theorem shiftedLeft_shiftLeft (h0 : p ≠ 0) (hp : p ≤ w) : ShiftedLeft x p (x <<< p, x.getMsbD (p - 1)) := by
  refine shiftedLeft_iff.mpr ⟨rfl, ?_⟩
  have hin : p - 1 < w := by omega
  have hplace : w - 1 - (p - 1) = w - p := by omega
  rw [BitVec.getMsbD_eq_getLsbD, decide_eq_true hin, Bool.true_and, Nat.testBit_shiftLeft, decide_eq_true hp,
    Bool.true_and, BitVec.getLsbD, hplace]

theorem shiftedLeft_beyond (h : w < p) : ShiftedLeft x p (0#w, false) := by
  refine shiftedLeft_iff.mpr ⟨(BitVec.shiftLeft_eq_zero h.le).symm, ?_⟩
  rw [Nat.testBit_shiftLeft, decide_eq_false (by omega)]; rfl

/-- Bit 0 from the right says whether the signed value is odd. -/
theorem toInt_mod_two (hw : 0 < w) (x : BitVec w) : x.toInt % 2 = 1 ↔ x.getLsbD 0 = true := by
  obtain ⟨n, hn⟩ : 2 ∣ 2 ^ w := dvd_pow_self 2 hw.ne'
  rw [getLsbD_eq, decide_eq_true_eq, BitVec.toInt_eq_toNat_cond, pow_zero, hn]
  split <;> push_cast <;> omega

theorem toInt_sshiftRight_div (x : BitVec w) (n : Nat) : (x.sshiftRight n).toInt = x.toInt / 2 ^ n := by
  rw [BitVec.toInt_sshiftRight, Int.shiftRight_eq_div_pow]; norm_cast

/-- The last bit out of an arithmetic shift: one of the word, or beyond the width its sign. -/
theorem toInt_div_mod_two (hw : 0 < w) (x : BitVec w) (n : Nat) :
    x.toInt / 2 ^ n % 2 = 1 ↔ (if n < w then x.getLsbD n else x.msb) = true := by
  rw [← toInt_sshiftRight_div, toInt_mod_two hw, BitVec.getLsbD_sshiftRight]
  simp [hw.ne']

theorem shiftedSigned_zero (x : BitVec w) : ShiftedSigned x 0 (x, false) := by simp [ShiftedSigned]

theorem shiftedSigned_sshiftRight (h0 : p ≠ 0) (hp : p ≤ w) :
    ShiftedSigned x p (x.sshiftRight p, x.getMsbD (w - p)) := by
  refine ⟨toInt_sshiftRight_div x p, ?_⟩
  rw [toInt_div_mod_two (by omega), if_pos (by omega), getMsbD_sub h0 hp]
  exact (and_iff_right h0).symm

theorem shiftedSigned_beyond (hw : 0 < w) (h : w < p) : ShiftedSigned x p (x.sshiftRight p, x.getMsbD 0) := by
  refine ⟨toInt_sshiftRight_div x p, ?_⟩
  rw [toInt_div_mod_two hw, if_neg (by omega)]
  exact (and_iff_right (by omega)).symm

/-- Once every bit is the sign, a further arithmetic shift changes nothing. -/
theorem sshiftRight_min (x : BitVec w) (p : Nat) : x.sshiftRight (min p (w - 1)) = x.sshiftRight p := by
  apply BitVec.eq_of_getLsbD_eq
  intro i hi
  rw [BitVec.getLsbD_sshiftRight, BitVec.getLsbD_sshiftRight]
  congr 1
  rcases Nat.lt_or_ge p w with h | h
  · rw [Nat.min_eq_left (by omega)]
  · rw [Nat.min_eq_right (by omega), if_neg (by omega : ¬ p + i < w), BitVec.msb_eq_getLsbD_last]
    split
    · congr 1; omega
    · rfl

end Shifts

/-! The ten shifts of the model. -/

theorem shiftSlrs_right (a : Word) (p : Nat) : ShiftedRight a p (shiftSlrs a p) := by
  unfold shiftSlrs
  split
  case isTrue h => exact h ▸ shiftedRight_zero a
  case isFalse h0 =>
    split
    case isTrue hp => exact bit_eq_getMsbD a _ ▸ shiftedRight_ushiftRight h0 hp
    case isFalse hp => exact shiftedRight_beyond (by omega)

theorem shiftSlrd_right (d : BitVec 32) (hp : p < 32) : ShiftedRight d p (shiftSlrd d p) := by
  unfold shiftSlrd
  split
  case isTrue h => exact h ▸ shiftedRight_zero d
  case isFalse h0 => exact pairBit_eq_getMsbD d _ ▸ shiftedRight_ushiftRight h0 hp.le

theorem shiftSlls_left (a : Word) (p : Nat) : ShiftedLeft a p (shiftSlls a p) := by
  unfold shiftSlls
  split
  case isTrue h => exact h ▸ shiftedLeft_zero a
  case isFalse h0 =>
    split
    case isTrue hp => exact bit_eq_getMsbD a _ ▸ shiftedLeft_shiftLeft h0 hp
    case isFalse hp => exact shiftedLeft_beyond (by omega)

theorem shiftSlld_left (d : BitVec 32) (hp : p < 32) : ShiftedLeft d p (shiftSlld d p) := by
  unfold shiftSlld
  split
  case isTrue h => exact h ▸ shiftedLeft_zero d
  case isFalse h0 => exact pairBit_eq_getMsbD d _ ▸ shiftedLeft_shiftLeft h0 hp.le

theorem shiftSars_signed (a : Word) (p : Nat) : ShiftedSigned a p (shiftSars a p) := by
  unfold shiftSars
  rw [sshiftRight_min, bit_eq_getMsbD, bit_eq_getMsbD]
  split
  case isTrue h => subst h; exact BitVec.sshiftRight_zero ▸ shiftedSigned_zero a
  case isFalse h0 =>
    split
    case isTrue hp => exact shiftedSigned_sshiftRight h0 hp
    case isFalse hp => exact shiftedSigned_beyond (by decide) (by omega)

theorem shiftSard_signed (d : BitVec 32) (hp : p < 32) : ShiftedSigned d p (shiftSard d p) := by
  unfold shiftSard
  rw [pairBit_eq_getMsbD]
  split
  case isTrue h => subst h; exact BitVec.sshiftRight_zero ▸ shiftedSigned_zero d
  case isFalse h0 => exact shiftedSigned_sshiftRight h0 hp.le

/-- A rotation to the right, by at most 31 positions (R213, R219). -/
theorem bit_shiftScrs (a : Word) (hp : p < 32) (hi : i < 16) : bit (shiftScrs a p).1 i = bit a ((i + 32 - p) % 16) := by
  simp only [shiftScrs, bit_eq_getMsbD, BitVec.getMsbD_rotateRight, decide_eq_true hi, Bool.true_and]
  split <;> congr 1 <;> omega

theorem pairBit_shiftScrd (d : BitVec 32) (hp : p < 32) (hi : i < 32) :
    pairBit (shiftScrd d p).1 i = pairBit d ((i + 32 - p) % 32) := by
  simp only [shiftScrd, pairBit_eq_getMsbD, BitVec.getMsbD_rotateRight, decide_eq_true hi, Bool.true_and]
  split <;> congr 1 <;> omega

theorem bit_shiftScls (a : Word) (p : Nat) (hi : i < 16) : bit (shiftScls a p).1 i = bit a ((i + p) % 16) := by
  simp only [shiftScls, bit_eq_getMsbD, BitVec.getMsbD_rotateLeft, decide_eq_true hi, Bool.true_and]
  congr 1; omega

theorem pairBit_shiftScld (d : BitVec 32) (p : Nat) (hi : i < 32) :
    pairBit (shiftScld d p).1 i = pairBit d ((i + p) % 32) := by
  simp only [shiftScld, pairBit_eq_getMsbD, BitVec.getMsbD_rotateLeft, decide_eq_true hi, Bool.true_and]
  congr 1; omega

/-- Cf of a rotation is the bit that came round, unless nothing moved (R212). -/
theorem rotation_flag (p : Nat) (b : Bool) : (if p = 0 then false else b) = true ↔ p ≠ 0 ∧ b = true := by
  split <;> simp [*]

/-! The instructions. -/

/-- Reducing modulo 32 changes nothing where the count is not indexed (30_encoding.md R108). -/
theorem count_eq_positions (s : State) (c : Count) : s.count c = s.positions c := by
  have hn := c.n.isLt
  unfold State.count State.positions
  cases c.ix with
  | false => simp; omega
  | true => simp

theorem positions_lt (s : State) (c : Count) : s.positions c < 32 := Nat.mod_lt _ (by decide)

theorem execute_shiftSingle (s : State) (c : Count) (op : Word → Nat → Word × Bool) :
    execute (shiftSingle op c) s = .next (((s.setReg .a (op s.r.A (s.positions c)).1).setVC false
      (op s.r.A (s.positions c)).2).ends 1) := by
  rw [← count_eq_positions]
  exact execute_finish (f := fun s => (s.setReg .a (op s.r.A (s.count c)).1).setVC false (op s.r.A (s.count c)).2) rfl

theorem execute_shiftDouble (s : State) (c : Count) (op : BitVec 32 → Nat → BitVec 32 × Bool) :
    execute (shiftDouble op c) s = .next (((s.setAB (op s.ab (s.positions c)).1).setVC false
      (op s.ab (s.positions c)).2).ends 1) := by
  rw [← count_eq_positions]
  exact execute_finish (f := fun s => (s.setAB (op s.ab (s.count c)).1).setVC false (op s.ab (s.count c)).2) rfl

/-- Settles O7: each of the ten instructions applies its shift to A or A::B, and the shift is the quotient, the product or the
rotation. -/
theorem shifts : Obligations.Shifts := by
  refine ⟨?_, ?_⟩
  · rintro s c _ rfl
    have hp := positions_lt s c
    obtain ⟨hr, hcr⟩ := shiftSlrs_right s.r.A (s.positions c)
    obtain ⟨hl, hcl⟩ := shiftSlls_left s.r.A (s.positions c)
    obtain ⟨hz, hcz⟩ := shiftSars_signed s.r.A (s.positions c)
    exact ⟨_, _, _, _, _, _, _, _, _, _, hr, hcr, hl, hcl, fun _ => bit_shiftScrs _ hp, rotation_flag _ _,
      fun _ => bit_shiftScls _ _, rotation_flag _ _, hz, hcz, execute_shiftSingle s c _, execute_shiftSingle s c _,
      execute_shiftSingle s c _, execute_shiftSingle s c _, execute_shiftSingle s c _⟩
  · rintro s c _ rfl
    have hp := positions_lt s c
    obtain ⟨hr, hcr⟩ := shiftSlrd_right s.ab hp
    obtain ⟨hl, hcl⟩ := shiftSlld_left s.ab hp
    obtain ⟨hz, hcz⟩ := shiftSard_signed s.ab hp
    exact ⟨_, _, _, _, _, _, _, _, _, _, hr, hcr, hl, hcl, fun _ => pairBit_shiftScrd _ hp, rotation_flag _ _,
      fun _ => pairBit_shiftScld _ _, rotation_flag _ _, hz, hcz, execute_shiftDouble s c _, execute_shiftDouble s c _,
      execute_shiftDouble s c _, execute_shiftDouble s c _, execute_shiftDouble s c _⟩

/-! Bit operations on A::B. -/

/-- An instruction that writes A::B by a value taken from A::B and the rank (R225 to R227). -/
theorem execute_setAB (s : State) (c : Count) (v : BitVec 32 → Nat → BitVec 32) :
    execute (fun s => finish (s.setAB (v s.ab (s.count c)))) s = .next ((s.setAB (v s.ab (s.positions c))).ends 1) := by
  rw [← count_eq_positions]
  exact execute_finish (f := fun s => s.setAB (v s.ab (s.count c))) rfl

theorem execTbt_ok (s : State) (c : Count) :
    execTbt c s = .next ((s.setVC false (pairBit s.ab (s.positions c))).ends 1) := by
  rw [← count_eq_positions]
  exact execute_finish (f := fun s => s.setVC false (pairBit s.ab (s.count c))) rfl

theorem pairBit_clear (d : BitVec 32) (hk : k < 32) (hi : i < 32) :
    pairBit (d &&& ~~~ pairMask k) i = (pairBit d i && decide (i ≠ k)) := by
  have hmask := pairBit_pairMask hk i
  rw [pairBit_eq_getMsbD] at hmask
  simp only [pairBit_eq_getMsbD, BitVec.getMsbD_and, BitVec.getMsbD_not, hmask, decide_eq_true hi, Bool.true_and, decide_not]

theorem pairBit_set (d : BitVec 32) (hk : k < 32) (i : Nat) :
    pairBit (d ||| pairMask k) i = (pairBit d i || decide (i = k)) := by
  rw [← pairBit_pairMask hk i]
  simp only [pairBit_eq_getMsbD, BitVec.getMsbD_or]

theorem pairBit_invert (d : BitVec 32) (hk : k < 32) (i : Nat) :
    pairBit (d ^^^ pairMask k) i = (pairBit d i ^^ decide (i = k)) := by
  rw [← pairBit_pairMask hk i]
  simp only [pairBit_eq_getMsbD, BitVec.getMsbD_xor]

/-- The leftmost 1 is where the base-2 logarithm puts it (R229). -/
theorem leftmostPair_eq {d : BitVec 32} (hi : i < 32) (hone : pairBit d i = true) (hzero : ∀ j, j < i → pairBit d j = false) :
    leftmostPair d = i := by
  rw [pairBit, if_pos hi] at hone
  have hlow : 2 ^ (31 - i) ≤ d.toNat := Nat.ge_two_pow_of_testBit hone
  have hhigh : d.toNat < 2 ^ (31 - i + 1) := by
    refine Nat.lt_pow_two_of_testBit _ fun n hn => ?_
    by_cases hn32 : n < 32
    · have hbit := hzero (31 - n) (by omega)
      rwa [pairBit, if_pos (by omega), Nat.sub_sub_self (by omega)] at hbit
    · exact BitVec.getLsbD_of_ge d n (by omega)
  have hpos : d.toNat ≠ 0 := (Nat.two_pow_pos _).trans_le hlow |>.ne'
  rw [leftmostPair, (Nat.log2_eq_iff hpos).mpr ⟨hlow, hhigh⟩]
  omega

/-- DBT on a pair that is zero (R229). -/
theorem execDbt_zero (h : s.ab = 0#32) : execDbt s = .next ((s.setVC false true).ends 1) :=
  execute_ok (by rw [State.ab_completed, if_pos h]; rfl)

/-- DBT on any other pair (R229). -/
theorem execDbt_nonzero (h : s.ab ≠ 0#32) :
    execDbt s = .next (((s.setReg .x (BitVec.ofNat 16 (leftmostPair s.ab))).setVC false false).ends 1) :=
  execute_ok (by rw [State.ab_completed, if_neg h]; rfl)

/-! The parity of a byte (43_byte_misc.md R245). -/

/-- A sum modulo 2 of Booleans says whether the number of those that are true is odd. -/
theorem foldl_xor_eq_countP {α : Type} (f : α → Bool) (l : List α) (b : Bool) :
    l.foldl (fun acc x => acc ^^ f x) b = (b ^^ decide (l.countP f % 2 = 1)) := by
  induction l generalizing b with
  | nil => simp
  | cons x l ih =>
    rw [List.foldl_cons, ih, List.countP_cons]
    cases hx : f x with
    | false => simp
    | true =>
      rcases Nat.mod_two_eq_zero_or_one (l.countP f) with h | h <;> simp [h, Nat.add_mod]

/-- The bits of the right byte of a word are its manual bits 8 to 15, read from the right. -/
theorem countP_rightByte (v : Word) :
    (List.range 8).countP (fun i => bit v (8 + i)) = (List.range 8).countP (fun i => (lo v).getLsbD i) := by
  have hreverse : (List.range 8).reverse = (List.range 8).map (7 - ·) := rfl
  rw [← List.countP_reverse, hreverse, List.countP_map]
  refine List.countP_congr fun i hi => ?_
  have hi8 : i < 8 := List.mem_range.mp hi
  have hplace : 15 - (8 + (7 - i)) = i := by omega
  rw [Function.comp_apply, bit, if_pos (by omega), hplace, lo, BitVec.getLsbD_extractLsb', decide_eq_true hi8, Bool.true_and,
    Nat.zero_add]

theorem oddParity_lo (v : Word) :
    oddParity (lo v) = true ↔ ((List.range 8).countP fun i => bit v (8 + i)) % 2 = 1 := by
  rw [countP_rightByte, oddParity, foldl_xor_eq_countP, Bool.false_xor, decide_eq_true_eq]

/-- Settles O8: the mask of a rank has one bit, the logarithm gives the leftmost, and the exclusive-or of the bits of a byte is
its parity. -/
theorem bitOperations : Obligations.BitOperations := fun s => by
  refine ⟨fun c => ?_, execDbt_zero, fun i hi hone hzero => ?_, _, oddParity_lo _,
    execute_finish (f := fun s => s.setVC false (oddParity (lo s.r.A))) rfl⟩
  · have hk := positions_lt s c
    exact ⟨_, _, _, fun _ => pairBit_clear _ hk, fun i _ => pairBit_set _ hk i, fun i _ => pairBit_invert _ hk i,
      execute_setAB s c fun d k => d &&& ~~~ pairMask k, execute_setAB s c fun d k => d ||| pairMask k,
      execute_setAB s c fun d k => d ^^^ pairMask k, execTbt_ok s c⟩
  · have hne : s.ab ≠ 0#32 := fun h => by simp [h, pairBit] at hone
    exact leftmostPair_eq hi hone hzero ▸ execDbt_nonzero hne

end Sys2Proof.Machine
end

section
/-! SUPPORT. The obligations on the stack at Y and on the search of a byte (43_byte_misc.md R244, R254, R255). -/

namespace Sys2Proof.Machine

variable {s t : State} {h : Word}

/-- A sequence whose first part answers comes to what its second part does from there. -/
theorem Res.bind_of_ok {α β : Type} {m : Res α} {f : α → State → Res β} {a : α} {r : Res β} (hm : m = .ok a s)
    (hf : f a s = r) : m.bind f = r := by
  rw [hm, Res.bind_ok, hf]

/-! The option. -/

/-- Where the option is absent PUSH, PULL and SBS meet alarm 3 and do nothing else. -/
theorem execute_pushPullAbsent (ho : s.cfg.hasPushPullSbs = false) (body : State → Res Unit) :
    execute (fun s => (pushPullCheck s).bind fun _ s => body s) s = (takeAlarm s.P .absentOption s.completed).outcome :=
  execute_alarm (by simp [pushPullCheck, ho])

/-- Where it is present they run. -/
theorem pushPullCheck_bind (ho : s.cfg.hasPushPullSbs = true) (body : State → Res Unit) :
    ((pushPullCheck s.completed).bind fun _ s => body s) = body s.completed := by
  simp [pushPullCheck, ho]

/-! Bytes as words. -/

theorem zext8_eq_ofNat (b : Byte) : zext8 b = BitVec.ofNat 16 b.toNat := (BitVec.ofNat_toNat 16 b).symm

theorem ofBytes_eq_ofNat (l r : Byte) : ofBytes l r = BitVec.ofNat 16 (256 * l.toNat + r.toNat) := by
  rw [← toNat_ofBytes, BitVec.ofNat_toNat, BitVec.setWidth_eq]

/-! PUSH and PULL: `h` is the header N :: n. -/

theorem pushOn_full (hf : (hi h).toNat ≤ (lo h).toNat) : pushOn h s.completed = .ok () ((s.setVC true false).ends 1) :=
  if_pos hf

theorem pullFrom_empty (he : (lo h).toNat = 0) : pullFrom h s.completed = .ok () ((s.setVC true false).ends 1) :=
  if_pos (BitVec.eq_of_toNat_eq he)

/-- There is room: the index goes up, and A goes in the word it then designates (R254). -/
theorem pushOn_room (hlt : (lo h).toNat < (hi h).toNat) (hY : s.canWrite s.relocated s.r.Y = true)
    (hw : s.canWrite s.relocated (s.r.Y + BitVec.ofNat 16 ((lo h).toNat + 1)) = true) :
    pushOn h s.completed = .ok () ((((s.put s.relocated s.r.Y (BitVec.ofNat 16 (256 * (hi h).toNat + (lo h).toNat + 1))).put
      s.relocated (s.r.Y + BitVec.ofNat 16 ((lo h).toNat + 1)) s.r.A).setVC false
      (decide ((lo h).toNat + 1 = (hi h).toNat))).ends 1) := by
  have hindex : (lo h + 1#8).toNat = (lo h).toNat + 1 := by bv_omega
  have hfull : lo h + 1#8 = hi h ↔ (lo h).toNat + 1 = (hi h).toNat := by rw [← hindex, BitVec.toNat_inj]
  have hadr : zext8 (lo h + 1#8) = BitVec.ofNat 16 ((lo h).toNat + 1) := by rw [zext8_eq_ofNat, hindex]
  have hhead : ofBytes (hi h) (lo h + 1#8) = BitVec.ofNat 16 (256 * (hi h).toNat + (lo h).toNat + 1) := by
    rw [ofBytes_eq_ofNat, hindex, Nat.add_assoc]
  have hfirst := memWrite_completed (v := BitVec.ofNat 16 (256 * (hi h).toNat + (lo h).toNat + 1)) hY
  have hsecond (w : Word) := memWrite_completed (s := s.put s.relocated s.r.Y w) (v := s.r.A) (canWrite_store hw _ w)
  rw [pushOn, if_neg (not_le.mpr hlt), hadr, hhead]
  simp only [hfull]
  exact Res.bind_of_ok hfirst (Res.bind_of_ok (hsecond _) rfl)

/-- There is an element: A takes the word the index designates, and the index goes down (R255). -/
theorem pullFrom_element (hpos : 0 < (lo h).toNat) (hY : s.canWrite s.relocated s.r.Y = true)
    (hr : s.canRead s.relocated (s.r.Y + BitVec.ofNat 16 (lo h).toNat) = true) :
    pullFrom h s.completed = .ok () ((((s.put s.relocated s.r.Y
      (BitVec.ofNat 16 (256 * (hi h).toNat + (lo h).toNat - 1))).setReg .a
      (s.wordAt s.relocated (s.r.Y + BitVec.ofNat 16 (lo h).toNat))).setVC false (decide ((lo h).toNat = 1))).ends 1) := by
  have hne : lo h ≠ 0#8 := by bv_omega
  have hindex : (lo h - 1#8).toNat = (lo h).toNat - 1 := by bv_omega
  have hempty : lo h - 1#8 = 0#8 ↔ (lo h).toNat = 1 := by bv_omega
  have hhead : ofBytes (hi h) (lo h - 1#8) = BitVec.ofNat 16 (256 * (hi h).toNat + (lo h).toNat - 1) := by
    rw [ofBytes_eq_ofNat, hindex, Nat.add_sub_assoc hpos]
  have hread := memRead_completed hr
  have hwrite := memWrite_completed (s := s.setReg .a (s.wordAt s.relocated (s.r.Y + BitVec.ofNat 16 (lo h).toNat)))
    (v := BitVec.ofNat 16 (256 * (hi h).toNat + (lo h).toNat - 1)) hY
  rw [pullFrom, if_neg hne, zext8_eq_ofNat, hhead]
  simp only [hempty]
  exact Res.bind_of_ok hread (Res.bind_of_ok hwrite rfl)

/-- PUSH and PULL read the header first. -/
theorem execute_header (ho : s.cfg.hasPushPullSbs = true) (hr : s.canRead s.relocated s.r.Y = true)
    {f : Word → State → Res Unit} (hf : f (s.wordAt s.relocated s.r.Y) s.completed = .ok () t) :
    execute (fun s => (pushPullCheck s).bind fun _ s => (memRead s.r.Y s).bind f) s = .next t := by
  refine execute_ok ?_
  rw [pushPullCheck_bind ho, State.completed_r, memRead_completed hr]
  exact hf

/-- Settles O19: the header is split in its bytes, and the new one and the word at the index are stored or read. -/
theorem pushPull : Obligations.PushPull := by
  refine fun s => ⟨fun ho => ?_, fun ho hr h N n hh hsum hn => ?_⟩
  · simp only [List.forall_mem_cons]
    exact ⟨execute_pushPullAbsent ho _, execute_pushPullAbsent ho _, execute_pushPullAbsent ho _,
      fun _ hi => absurd hi List.not_mem_nil⟩
  · obtain rfl : N = (hi h).toNat := by rw [toNat_hi]; omega
    obtain rfl : n = (lo h).toNat := by rw [toNat_lo]; omega
    have hY := canRead_canWrite hr
    subst hh
    exact ⟨fun hf => execute_header ho hr (pushOn_full hf), fun hlt hw => execute_header ho hr (pushOn_room hlt hY hw),
      fun he => execute_header ho hr (pullFrom_empty he), fun hpos hw => execute_header ho hr (pullFrom_element hpos hY hw)⟩

/-! SBS. -/

theorem s16_of_nonneg {x : Word} (hx : 0 ≤ s16 x) : s16 x = x.toNat :=
  BitVec.toInt_eq_toNat_of_lt (not_le.mp fun hsign => not_lt.mpr hx (BitVec.toInt_neg_iff.mpr hsign))

/-- The word of a rank that is not negative. -/
theorem half_of_nonneg {x : Word} (hx : 0 ≤ s16 x) : half x = BitVec.ofNat 16 (x.toNat / 2) := by
  have hvalue := s16_of_nonneg hx
  have hquotient : (BitVec.ofNat 16 (x.toNat / 2)).toNat = x.toNat / 2 := by simp; omega
  have hb := s16_bounds x
  apply BitVec.eq_of_toInt_eq
  rw [toInt_half, hvalue, BitVec.toInt_eq_toNat_of_lt (by omega), hquotient]
  omega

theorem s16_add_one {x : Word} (hx : s16 x < 32767) : s16 (x + 1#16) = s16 x + 1 := by
  have hsum : s16 (x + 1#16) = (s16 x + 1).bmod 65536 := BitVec.toInt_add x 1#16
  have hb := s16_bounds x
  rw [hsum, Int.bmod_eq_of_le_mul_two (by omega) (by omega)]

/-- SBS runs where its option is present. -/
theorem execSbs_ok (ho : s.cfg.hasPushPullSbs = true) (hs : searchByte s.completed = .ok () t) : execSbs s = .next t :=
  execute_ok ((pushPullCheck_bind ho _).trans hs)

theorem execSbs_refused (ho : s.cfg.hasPushPullSbs = true) {r : Refusal} (hs : searchByte s.completed = .refuse r) :
    execSbs s = .refused r :=
  execute_refuse ((pushPullCheck_bind ho _).trans hs)

/-- The byte of rank X, where bytes are left. -/
theorem sbsByte_ok (hx : 0 ≤ s16 s.r.X) (hr : s.canRead s.relocated (s.r.B + BitVec.ofNat 16 (s.r.X.toNat / 2)) = true) :
    sbsByte s.completed = .ok (byteOf (s.wordAt s.relocated (s.r.B + BitVec.ofNat 16 (s.r.X.toNat / 2)))
      (decide (s.r.X.toNat % 2 = 1))) s.completed := by
  rw [sbsByte, State.completed_r, half_of_nonneg hx, bit_last]
  exact byteRead_ok (s := s.completed) hr

/-- What SBS does with the byte `b` of rank X, where bytes are left. -/
theorem searchByte_compares (hlt : s16 s.r.X < s16 s.r.Y) (hx : 0 ≤ s16 s.r.X) {b : Byte}
    (hb : sbsByte s.completed = .ok b s.completed) :
    searchByte s.completed = if s.r.A = zext8 b then .ok () ((s.setVC false false).ends 1)
      else if s16 s.r.X + 1 < s16 s.r.Y then .ok () (s.setReg .x (s.r.X + 1#16)).paused
      else .ok () (((s.setReg .x (s.r.X + 1#16)).setVC false true).ends 1) := by
  have hnext : s16 (s.r.X + 1#16) = s16 s.r.X + 1 := s16_add_one (by have := s16_bounds s.r.Y; omega)
  rw [searchByte, State.completed_r, if_neg (not_le.mpr hlt), if_neg (not_lt.mpr hx), hb, Res.bind_ok, State.completed_r, hnext]
  rfl

/-- SBS compares the whole of A with the byte. -/
theorem eq_zext8_byteOf_iff (a w : Word) {n : Nat} :
    a = zext8 (byteOf w (decide (n % 2 = 1))) ↔ a.toNat = if n % 2 = 1 then w.toNat % 256 else w.toNat / 256 := by
  rw [← BitVec.toNat_inj, toNat_zext8_byteOf]
  simp only [decide_eq_true_eq]

/-- Settles O20: the ranks left are compared first, then the byte of rank X. -/
theorem byteSearch : Obligations.ByteSearch := by
  refine fun s ho => ⟨fun hle => execSbs_ok ho (if_pos hle), fun hlt hneg => ?_, ?_⟩
  · exact execSbs_refused ho ((if_neg (not_le.mpr hlt)).trans (if_pos hneg))
  · rintro hlt hx a b rfl hr rfl
    have hs := searchByte_compares hlt hx (sbsByte_ok hx hr)
    simp only [eq_zext8_byteOf_iff] at hs
    exact ⟨fun hfound => execSbs_ok ho (hs.trans (if_pos hfound)),
      fun hdiff hleft => execSbs_ok ho (hs.trans ((if_neg hdiff).trans (if_pos hleft))),
      fun hdiff hlast => execSbs_ok ho (hs.trans ((if_neg hdiff).trans (if_neg hlast.not_lt)))⟩

end Sys2Proof.Machine
end

section
/-! SUPPORT. The obligations on block moves (43_byte_misc.md R256, 45_system.md R326, R327, 48_cda_lists.md R398, R401, R402,
49_isp16.md R420): one slice, then MOVE run to its end. -/

namespace Sys2Proof.Machine

variable {s t : State} {len : Nat} {src dst : PAddr} {lim : Word × Word} {o : IspArgs}

/-! One slice. -/

/-- No word is left: X - 1 is negative (D20). -/
theorem blockMove_empty {move : Word → State → Res Unit} (hx : 32768 ≤ (s.r.X - 1#16).toNat) :
    blockMove len move s.completed = .ok () (s.ends len) :=
  if_pos ((bit_first _).trans (decide_eq_true hx))

/-- The word of rank X - 1 moves, and the slice pauses. -/
theorem blockMove_slice {move : Word → State → Res Unit} (hx : (s.r.X - 1#16).toNat < 32768)
    (hm : move (s.r.X - 1#16) s.completed = .ok () (s.store dst (readWord s.mem src)).completed) :
    blockMove len move s.completed = .ok () (s.moved src dst) :=
  (if_neg (by rw [State.completed_r, bit_first]; simpa using hx)).trans (Res.bind_of_ok hm rfl)

/-! The transfers. -/

theorem relRead_completed {a : Word} (h : s.canRead s.cfg.hasDrps a = true) :
    relRead a s.completed = .ok (s.wordAt s.cfg.hasDrps a) s.completed :=
  relRead_ok (s := s.completed) h

theorem relWrite_completed {a v : Word} (h : s.canWrite s.cfg.hasDrps a = true) :
    relWrite a v s.completed = .ok () (s.put s.cfg.hasDrps a v).completed :=
  relWrite_ok (s := s.completed) h v

theorem execMove_empty (hx : 32768 ≤ (s.r.X - 1#16).toNat) : execMove s = .next (s.ends 1) := execute_ok (blockMove_empty hx)

theorem execMove_slice {x : Word} (he : x = s.r.X - 1#16) (hx : x.toNat < 32768) (hr : s.canRead s.relocated (s.r.A + x) = true)
    (hw : s.canWrite s.relocated (s.r.B + x) = true) :
    execMove s = .next (s.moved (s.place s.relocated (s.r.A + x)) (s.place s.relocated (s.r.B + x))) := by
  subst he
  exact execute_ok (blockMove_slice hx (Res.bind_of_ok (memRead_completed hr) (memWrite_completed hw)))

/-- MVTM and MVTS out of slave mode, when nothing is left. -/
theorem execute_privilegedMove_empty {move : Word → State → Res Unit} (hs : s.slave = false)
    (hx : 32768 ≤ (s.r.X - 1#16).toNat) : execute (privileged (blockMove len move)) s = .next (s.ends len) :=
  execute_ok ((privileged_ok hs).trans (blockMove_empty hx))

theorem execMvtm_slice (hs : s.slave = false) (hx : (s.r.X - 1#16).toNat < 32768)
    (hr : s.canRead s.cfg.hasDrps (s.r.A + (s.r.X - 1#16)) = true)
    (hw : s.storable (absolute (s.r.B + (s.r.X - 1#16))) = true) :
    execMvtm s = .next (s.moved (s.place s.cfg.hasDrps (s.r.A + (s.r.X - 1#16))) (absolute (s.r.B + (s.r.X - 1#16)))) :=
  execute_ok ((privileged_ok hs).trans (blockMove_slice hx
    (Res.bind_of_ok (relRead_completed hr) (writeAt_completed hw))))

theorem execMvts_slice (hs : s.slave = false) (hx : (s.r.X - 1#16).toNat < 32768)
    (hr : s.sound (absolute (s.r.A + (s.r.X - 1#16))) = true)
    (hw : s.canWrite s.cfg.hasDrps (s.r.B + (s.r.X - 1#16)) = true) :
    execMvts s = .next (s.moved (absolute (s.r.A + (s.r.X - 1#16))) (s.place s.cfg.hasDrps (s.r.B + (s.r.X - 1#16)))) :=
  execute_ok ((privileged_ok hs).trans (blockMove_slice hx
    (Res.bind_of_ok (readAt_completed hr) (relWrite_completed hw))))

/-! RCDA and WCDA. -/

section
variable {move : Word × Word → Word → State → Res Unit}

theorem cdaMove_empty (hx : 32768 ≤ (s.r.X - 1#16).toNat) : cdaMove move s.completed = .ok () ((s.keeps none).ends 2) :=
  if_pos ((bit_first _).trans (decide_eq_true hx))

/-- A slice between limits that hold. -/
theorem cdaMove_left (hx : (s.r.X - 1#16).toNat < 32768) :
    cdaMove move s.completed
      = (heldOr cdaZone s.completed).bind fun lim s => keeping lim (blockMove 2 (move lim) s) :=
  if_neg (by rw [State.completed_r, bit_first]; simpa using hx)

/-- The zone goes beyond the common data area (D37): alarm 1 before the first word. -/
theorem cdaMove_beyond (hx : (s.r.X - 1#16).toNat < 32768) (hh : s.heldOperands = none) (hc : s.cdaReady = true)
    (hz : s.cdaLim.2.toNat * 16 + 15 < s.cdaLim.1.toNat * 16 + (s.r.A.toNat + (s.r.X - 1#16).toNat)) :
    cdaMove move s.completed = .alarm .memoryProtection s.completed := by
  have hzone : cdaZone s.completed = .alarm .memoryProtection s.completed :=
    Res.bind_of_ok (cdaLimits_ok hc) (if_neg (by simpa [cdaOk] using hz))
  rw [cdaMove_left hx, heldOr_read (s := s.completed) hh, hzone, Res.bind_alarm]

theorem cdaMove_slice (hx : (s.r.X - 1#16).toNat < 32768) (hz : s.zoneOk lim)
    (hm : move lim (s.r.X - 1#16) s.completed = .ok () (s.store dst (readWord s.mem src)).completed) :
    cdaMove move s.completed = .ok () ((s.moved src dst).keeps (some lim)) := by
  rw [cdaMove_left hx, heldOr_cdaZone hz, Res.bind_ok, blockMove_slice hx hm]
  rfl

end

/-! BMOVE. -/

theorem execBmove_empty (hl : s.longOk o = true) (hx : 32768 ≤ (s.r.X - 1#16).toNat) (ix : Bool) :
    execBmove ix o s = .next ((s.keeps none).ends (paramWords o)) :=
  execute_ok ((longDispatch_ok hl).trans (congrArg (keeping (s.paramsHeld o)) (blockMove_empty hx)))

theorem execBmove_slice (hl : s.longOk o = true) (hx : (s.r.X - 1#16).toNat < 32768)
    (hr : s.sound (basedEA (s.paramsHeld o).1 (s.r.A + (s.r.X - 1#16))) = true)
    (hw : s.storable (basedEA (s.paramsHeld o).2 (s.r.B + (s.r.X - 1#16))) = true) (ix : Bool) :
    execBmove ix o s = .next ((s.moved (basedEA (s.paramsHeld o).1 (s.r.A + (s.r.X - 1#16)))
      (basedEA (s.paramsHeld o).2 (s.r.B + (s.r.X - 1#16)))).keeps (some (s.paramsHeld o))) :=
  execute_ok ((longDispatch_ok hl).trans (Res.bind_of_ok (blockMove_slice hx
    (Res.bind_of_ok (readAt_completed hr) (writeAt_completed hw))) rfl))

/-- Settles O21: each block move is a slice of `blockMove` with its own transfer, between the limits or on the parameters held. -/
theorem blockMoves : Obligations.BlockMoves := by
  rintro s x rfl
  refine ⟨fun hx => ⟨execMove_empty hx, fun hs => ?_, fun hc => ?_, fun ix o hl => execBmove_empty hl hx ix⟩, fun hx =>
    ⟨execMove_slice rfl hx, fun hs => execMvtm_slice hs hx, fun hs => execMvts_slice hs hx, fun hc => ⟨fun hh hr hz => ?_,
      fun lim hz => ⟨fun hr hw => ?_, fun hr hw => ?_⟩⟩, ?_⟩⟩
  · exact ⟨execute_privilegedMove_empty hs hx, execute_privilegedMove_empty hs hx⟩
  · have hend {move} := execute_ok ((cdaDispatch_moves hc).trans (cdaMove_empty (move := move) hx))
    exact ⟨hend, hend⟩
  · simp only [List.forall_mem_cons]
    have halarm {move} := execute_alarm ((cdaDispatch_moves hc).trans (cdaMove_beyond (move := move) hx hh hr hz))
    exact ⟨halarm, halarm, fun _ hi => absurd hi List.not_mem_nil⟩
  · exact execute_ok ((cdaDispatch_moves hc).trans (cdaMove_slice hx hz
      (Res.bind_of_ok (readAt_completed hr) (memWrite_completed hw))))
  · exact execute_ok ((cdaDispatch_moves hc).trans (cdaMove_slice hx hz
      (Res.bind_of_ok (memRead_completed hr) (writeAt_completed hw))))
  · rintro ix o p hl rfl hr hw
    exact execBmove_slice hl hx hr hw ix

/-! MOVE run to its end. -/

@[simp] theorem relocated_moved (s : State) (src dst : PAddr) : (s.moved src dst).relocated = s.relocated := rfl
@[simp] theorem place_moved (s : State) (src dst : PAddr) (b : Bool) (a : Word) : (s.moved src dst).place b a = s.place b a := rfl
@[simp] theorem moved_mem (s : State) (src dst : PAddr) : (s.moved src dst).mem = writeWord s.mem dst (readWord s.mem src) := rfl
@[simp] theorem moved_r (s : State) (src dst : PAddr) : (s.moved src dst).r = { s.r with X := s.r.X - 1#16 } := rfl

theorem canRead_moved {b : Bool} {a : Word} (h : s.canRead b a = true) : (s.moved src dst).canRead b a = true :=
  State.canRead_store h dst (readWord s.mem src)

theorem canWrite_moved {b : Bool} {a : Word} (h : s.canWrite b a = true) : (s.moved src dst).canWrite b a = true :=
  canWrite_store h dst (readWord s.mem src)

/-- The first `n` words at B of `s` hold in `t` what the first `n` words at A held in `s`, and every other byte is as it was. -/
structure State.BlockCopied (s t : State) (n : Nat) : Prop where
  copied : ∀ i, i < n →
    readWord t.mem (s.place s.relocated (s.r.B + BitVec.ofNat 16 i)) = s.wordAt s.relocated (s.r.A + BitVec.ofNat 16 i)
  kept : ∀ a, (∀ i, i < n → a / 2 ≠ (s.place s.relocated (s.r.B + BitVec.ofNat 16 i)).toNat) →
    readByte t.mem a = readByte s.mem a

/-- Program addresses lie where they did. -/
theorem place_of_sameSystem (h : s.sameSystem t) (b : Bool) (a : Word) : t.place b a = s.place b a := by
  obtain ⟨-, hSLO, -⟩ := h
  rw [State.place, State.relocate, hSLO]
  rfl

/-- A word none of whose bytes changed. -/
theorem readWord_congr {m m' : Memory} {pa : PAddr} (h : ∀ a, a / 2 = pa.toNat → readByte m' a = readByte m a) :
    readWord m' pa = readWord m pa := by
  rw [readWord, readWord, h _ (by omega), h _ (by omega)]

theorem State.BlockCopied.zero (s : State) : s.BlockCopied (s.ends 1) 0 := ⟨nofun, fun _ _ => rfl⟩

/-- The words below rank `n` after the word of rank `n`, which the source is not to give any more. -/
theorem State.BlockCopied.succ {n : Nat} (hn : n < 65536) (hwf : Memory.wf s.mem = true)
    (hapart : ∀ i, i < n → s.r.A + BitVec.ofNat 16 i ≠ s.r.B + BitVec.ofNat 16 n)
    (h : (s.moved (s.place s.relocated (s.r.A + BitVec.ofNat 16 n))
      (s.place s.relocated (s.r.B + BitVec.ofNat 16 n))).BlockCopied t n) :
    s.BlockCopied t (n + 1) := by
  obtain ⟨hcopied, hkept⟩ := h
  simp only [relocated_moved, place_moved, moved_mem, moved_r, State.wordAt] at hcopied hkept
  refine ⟨fun i hi => ?_, fun a ha => ?_⟩
  · rcases Nat.lt_succ_iff_lt_or_eq.mp hi with hlt | rfl
    · have hother : s.place s.relocated (s.r.A + BitVec.ofNat 16 i) ≠ s.place s.relocated (s.r.B + BitVec.ofNat 16 n) :=
        fun he => hapart i hlt (place_inj he)
      exact (hcopied i hlt).trans (readWord_writeWord_other _ _ hother)
    · have hfirst := readWord_congr (pa := s.place s.relocated (s.r.B + BitVec.ofNat 16 i)) fun a ha => hkept a fun j hj he =>
        address_add_ne s.r.B (by omega) hn hj.ne (place_inj (BitVec.eq_of_toNat_eq (he.symm.trans ha)))
      exact hfirst.trans (readWord_writeWord_same hwf _ _)
  · exact (hkept a fun j hj => ha j (by omega)).trans (readByte_store_other s _ (ha n (by omega)))

theorem repeated_succ {i : Instr} {n : Nat} (h : exec i s = .next t) : repeated i (n + 1) s = repeated i n t := by
  rw [repeated, h]

/-- What `n` words of MOVE and the execution that finds none left come to. -/
theorem repeated_move {n : Nat} (hwf : Memory.wf s.mem = true) (hX : s.r.X.toNat = n) (hn : n ≤ 32768)
    (hok : ∀ i, i < n → s.canRead s.relocated (s.r.A + BitVec.ofNat 16 i) = true
      ∧ s.canWrite s.relocated (s.r.B + BitVec.ofNat 16 i) = true)
    (hapart : ∀ i j, i < j → j < n → s.r.A + BitVec.ofNat 16 i ≠ s.r.B + BitVec.ofNat 16 j) :
    ∃ t, repeated .move (n + 1) s = .next t ∧ t.r = { s.r with X := 0#16 } ∧ t.P = s.P + 1#16 ∧ t.phase = .completed
      ∧ t.st = s.st ∧ s.sameSystem t ∧ s.BlockCopied t n := by
  induction n generalizing s with
  | zero =>
    have hX0 : s.r.X = 0#16 := BitVec.eq_of_toNat_eq hX
    have hexec : exec .move s = .next (s.ends 1) := execMove_empty (by rw [hX0]; decide)
    refine ⟨s.ends 1, repeated_succ hexec, ?_, rfl, rfl, rfl, ?_, .zero s⟩
    · rw [← hX0]; rfl
    · exact ⟨rfl, rfl, rfl, rfl, rfl, rfl, rfl, rfl, rfl, rfl, rfl, rfl, rfl, rfl, rfl, rfl, rfl, rfl, rfl⟩
  | succ n ih =>
    have hrank : BitVec.ofNat 16 n = s.r.X - 1#16 := by apply BitVec.eq_of_toNat_eq; simp; omega
    have hcount : (s.r.X - 1#16).toNat = n := by rw [← hrank]; simp; omega
    obtain ⟨hr, hw⟩ := hok n (by omega)
    have hexec : exec .move s = .next (s.moved (s.place s.relocated (s.r.A + BitVec.ofNat 16 n))
        (s.place s.relocated (s.r.B + BitVec.ofNat 16 n))) := execMove_slice hrank (by rw [hrank]; omega) hr hw
    obtain ⟨t, hrun, hrt, hPt, hpt, hst, hsys, hcopy⟩ := ih (s := s.moved _ _) (store_wf hwf _ _) hcount (by omega)
      (fun i hi => ⟨canRead_moved (hok i (by omega)).1, canWrite_moved (hok i (by omega)).2⟩)
      (fun i j hij hj => hapart i j hij (by omega))
    exact ⟨t, (repeated_succ hexec).trans hrun, hrt, hPt, hpt, hst, hsys,
      hcopy.succ (by omega) hwf fun i hi => hapart i n hi (by omega)⟩

/-- Settles O22: by induction on the words left, each slice being one word of the copy. -/
theorem moveCopiesBlock : Obligations.MoveCopiesBlock := by
  intro s n hwf hX _ hn hok hapart
  obtain ⟨t, hrun, hr, hP, hphase, hst, hsys, hcopied, hkept⟩ := repeated_move hwf hX hn hok hapart
  refine ⟨t, hrun, hr, hP, hphase, hst, hsys, fun i hi => ?_, hkept⟩
  rw [State.wordAt, place_of_sameSystem hsys]
  exact hcopied i hi

end Sys2Proof.Machine
end

section
/-! SUPPORT. The obligation on PSR, PLR and LRM (43_byte_misc.md R251 to R253). -/

namespace Sys2Proof.Machine

variable {s t u : State} {l : List Reg}

/-! The order of the registers. -/

/-- K comes last among the registers selected, each of which comes once. -/
theorem selectedRegs_split (mask : Byte) :
    ∃ l : List Reg, .k ∉ l ∧ l.Nodup ∧ (selectedRegs mask = l ∨ selectedRegs mask = l ++ [.k]) := by
  have hall : allRegs = allRegs.dropLast ++ [Reg.k] := rfl
  refine ⟨allRegs.dropLast.filter (selected mask), fun hk => absurd (List.mem_of_mem_filter hk) (by decide),
    List.Nodup.filter _ (by decide), ?_⟩
  rw [selectedRegs, hall, List.filter_append]
  cases hsel : selected mask .k with
  | false => exact .inl (by simp [hsel])
  | true => exact .inr (by simp [hsel])

theorem selectedRegs_nodup (mask : Byte) : (selectedRegs mask).Nodup := List.Nodup.filter _ (by decide)

theorem selectedRegs_length_le (mask : Byte) : (selectedRegs mask).length ≤ 8 := List.length_filter_le _ allRegs

theorem add_one_add_ofNat (k : Word) (i : Nat) : k + 1#16 + BitVec.ofNat 16 i = k + BitVec.ofNat 16 (i + 1) := by
  rw [Nat.add_comm i, BitVec.ofNat_add, BitVec.add_assoc]

theorem sub_one_sub_ofNat (k : Word) (i : Nat) : k - 1#16 - BitVec.ofNat 16 i = k - BitVec.ofNat 16 (i + 1) := by
  apply BitVec.eq_of_toNat_eq; simp; omega

/-! PSR. -/

/-- The registers of the list pushed one after the other. -/
def State.pushedAll (s : State) : List Reg → State
  | [] => s
  | r :: l => (s.pushed (s.reg r)).pushedAll l

@[simp] theorem stackRelocated_pushed (s : State) (v : Word) : (s.pushed v).stackRelocated = s.stackRelocated := rfl
@[simp] theorem place_pushed (s : State) (v : Word) (b : Bool) (a : Word) : (s.pushed v).place b a = s.place b a := rfl
@[simp] theorem pushed_K (s : State) (v : Word) : (s.pushed v).r.K = s.r.K + 1#16 := rfl

theorem reg_pushed_other (s : State) (v : Word) {q : Reg} (hq : q ≠ .k) : (s.pushed v).reg q = s.reg q := by
  rw [State.pushed, State.reg_setReg_other _ _ hq]
  exact State.reg_store s _ _ q

theorem canWrite_pushed {b : Bool} {a : Word} (h : s.canWrite b a = true) (v : Word) : (s.pushed v).canWrite b a = true :=
  canWrite_store h _ v

theorem canRead_pushed {b : Bool} {a : Word} (h : s.canRead b a = true) (v : Word) : (s.pushed v).canRead b a = true :=
  State.canRead_store h _ v

/-- A word can be read once it has been stored in (20_memory.md R73). -/
theorem canRead_pushed_top (h : s.canWrite s.stackRelocated (s.r.K + 1#16) = true) (v : Word) :
    (s.pushed v).canRead s.stackRelocated (s.r.K + 1#16) = true := by
  have hstorable := canWrite_storable h
  simp only [State.storable, Bool.and_eq_true] at hstorable
  have hsound : (s.put s.stackRelocated (s.r.K + 1#16) v).sound (s.place s.stackRelocated (s.r.K + 1#16)) = true := by
    rw [State.sound, State.put, badWord_store_same, State.store_cfg, hstorable.1]; rfl
  exact Bool.and_eq_true_iff.mpr ⟨canWrite_allowed (s := s) h, hsound⟩

theorem pushRegs_ok (h : ∀ i, i < l.length → s.canWrite s.stackRelocated (s.r.K + BitVec.ofNat 16 (i + 1)) = true) :
    pushRegs l s = .ok () (s.pushedAll l) := by
  induction l generalizing s with
  | nil => rfl
  | cons r l ih =>
    have hfirst := stackWrite_ok (h 0 (by simp)) (s.reg r)
    refine Res.bind_of_ok hfirst (ih (s := s.pushed (s.reg r)) fun i hi => ?_)
    rw [pushed_K, add_one_add_ofNat]
    exact canWrite_pushed (h (i + 1) (by simpa using hi)) _

theorem pushedAll_completed (s : State) (l : List Reg) : s.completed.pushedAll l = (s.pushedAll l).completed := by
  induction l generalizing s with
  | nil => rfl
  | cons r l ih =>
    have hpushed : s.completed.pushed (s.completed.reg r) = (s.pushed (s.reg r)).completed := by rw [State.reg_completed]; rfl
    rw [State.pushedAll, hpushed, ih]
    rfl

theorem pushedAll_r (s : State) (l : List Reg) : (s.pushedAll l).r = { s.r with K := s.r.K + BitVec.ofNat 16 l.length } := by
  induction l generalizing s with
  | nil => simp [State.pushedAll]
  | cons r l ih =>
    rw [State.pushedAll, ih, pushed_K, add_one_add_ofNat]
    rfl

/-- Pushes change the registers and memory, and nothing else. -/
theorem pushedAll_frame (s : State) (l : List Reg) : s.pushedAll l
    = { s with r := (s.pushedAll l).r, mem := (s.pushedAll l).mem, badParity := (s.pushedAll l).badParity } := by
  induction l generalizing s with
  | nil => rfl
  | cons r l ih => exact ih (s.pushed (s.reg r))

@[simp] theorem place_pushedAll (s : State) (l : List Reg) (b : Bool) (a : Word) : (s.pushedAll l).place b a = s.place b a := by
  rw [pushedAll_frame]; rfl

@[simp] theorem stackRelocated_pushedAll (s : State) (l : List Reg) : (s.pushedAll l).stackRelocated = s.stackRelocated := by
  rw [pushedAll_frame]; rfl

@[simp] theorem pushedAll_P (s : State) (l : List Reg) : (s.pushedAll l).P = s.P := by rw [pushedAll_frame]
@[simp] theorem pushedAll_st (s : State) (l : List Reg) : (s.pushedAll l).st = s.st := by rw [pushedAll_frame]

/-- Every byte but those of the words pushed is as it was. -/
theorem readByte_pushedAll {a : Nat}
    (h : ∀ i, i < l.length → a / 2 ≠ (s.place s.stackRelocated (s.r.K + BitVec.ofNat 16 (i + 1))).toNat) :
    readByte (s.pushedAll l).mem a = readByte s.mem a := by
  induction l generalizing s with
  | nil => rfl
  | cons r l ih =>
    refine (ih fun i hi => ?_).trans (readByte_store_other s (s.reg r) (h 0 (by simp)))
    rw [pushed_K, add_one_add_ofNat]
    exact h (i + 1) (by simpa using hi)

/-- The words pushed, in order; K as it is when its turn comes. -/
theorem wordAt_pushedAll (hwf : Memory.wf s.mem = true) (hlen : l.length < 65536) {i : Nat} {r : Reg} (hi : l[i]? = some r) :
    (s.pushedAll l).wordAt s.stackRelocated (s.r.K + BitVec.ofNat 16 (i + 1))
      = if r = .k then s.r.K + BitVec.ofNat 16 i else s.reg r := by
  induction l generalizing s i with
  | nil => simp at hi
  | cons q l ih =>
    rw [List.length_cons] at hlen
    cases i with
    | zero =>
      obtain rfl : q = r := by simpa using hi
      have hkept : readWord ((s.pushed (s.reg q)).pushedAll l).mem (s.place s.stackRelocated (s.r.K + 1#16))
          = readWord (s.pushed (s.reg q)).mem (s.place s.stackRelocated (s.r.K + 1#16)) := by
        refine readWord_congr fun a ha => readByte_pushedAll fun j hj he => ?_
        rw [pushed_K, add_one_add_ofNat] at he
        exact address_add_ne s.r.K (by omega) (by omega) (by omega : 1 ≠ j + 1 + 1)
          (place_inj (BitVec.eq_of_toNat_eq (ha.symm.trans he)))
      have hstored : readWord (s.pushed (s.reg q)).mem (s.place s.stackRelocated (s.r.K + 1#16)) = s.reg q :=
        readWord_writeWord_same hwf _ _
      have hvalue : s.reg q = if q = .k then s.r.K + BitVec.ofNat 16 0 else s.reg q := by
        split
        · subst q; simp [State.reg]
        · rfl
      rw [State.wordAt, State.pushedAll, place_pushedAll]
      exact (hkept.trans hstored).trans hvalue
    | succ i =>
      have hrest := ih (s := s.pushed (s.reg q)) (store_wf hwf _ _) (by omega) (by simpa using hi)
      rw [pushed_K, add_one_add_ofNat, add_one_add_ofNat] at hrest
      refine hrest.trans ?_
      split
      · rfl
      · exact reg_pushed_other s _ ‹_›

theorem canRead_pushedAll {b : Bool} {a : Word} (h : s.canRead b a = true) (l : List Reg) :
    (s.pushedAll l).canRead b a = true := by
  induction l generalizing s with
  | nil => exact h
  | cons r l ih => exact ih (canRead_pushed h _)

/-- The words pushed can be read. -/
theorem canRead_pushedAll_top (h : ∀ i, i < l.length → s.canWrite s.stackRelocated (s.r.K + BitVec.ofNat 16 (i + 1)) = true)
    {i : Nat} (hi : i < l.length) : (s.pushedAll l).canRead s.stackRelocated (s.r.K + BitVec.ofNat 16 (i + 1)) = true := by
  induction l generalizing s i with
  | nil => simp at hi
  | cons r l ih =>
    cases i with
    | zero => exact canRead_pushedAll (canRead_pushed_top (h 0 (by simp)) _) l
    | succ i =>
      have hrest := ih (s := s.pushed (s.reg r)) (i := i) (fun j hj => by
        rw [pushed_K, add_one_add_ofNat]
        exact canWrite_pushed (h (j + 1) (by simpa using hj)) _) (by simpa using hi)
      rwa [pushed_K, add_one_add_ofNat] at hrest

theorem execPsr_ok {mask : Byte} (h : ∀ i, i < (selectedRegs mask).length →
    s.canWrite s.stackRelocated (s.r.K + BitVec.ofNat 16 (i + 1)) = true) :
    execPsr mask s = .next ((s.pushedAll (selectedRegs mask)).ends 1) := by
  have hpush := pushRegs_ok (s := s.completed) h
  rw [pushedAll_completed] at hpush
  exact execute_ok (Res.bind_of_ok hpush rfl)

/-! Loads of a list of registers. -/

/-- The state with other general registers. -/
def State.withRegs (s : State) (ρ : Regs) : State := { s with r := ρ }

/-- The registers of the list hold the words `w 0`, `w 1` and so on in `t`, the others what they held in `s`. -/
structure State.LoadedFrom (s t : State) (l : List Reg) (w : Nat → Word) : Prop where
  loaded : ∀ i r, l[i]? = some r → t.reg r = w i
  kept : ∀ r, r ∉ l → t.reg r = s.reg r

theorem State.LoadedFrom.nil {w : Nat → Word} (h : ∀ r, t.reg r = s.reg r) : s.LoadedFrom t [] w := ⟨nofun, fun r _ => h r⟩

/-- `u` differs from `s` in the first register, which holds the first word. -/
theorem State.LoadedFrom.cons {r : Reg} {w : Nat → Word} (hr : r ∉ l) (hfirst : u.reg r = w 0)
    (hother : ∀ q, q ≠ r → u.reg q = s.reg q) (h : u.LoadedFrom t l fun i => w (i + 1)) : s.LoadedFrom t (r :: l) w := by
  obtain ⟨hloaded, hkept⟩ := h
  refine ⟨fun i q hi => ?_, fun q hq => ?_⟩
  · cases i with
    | zero =>
      obtain rfl : r = q := by simpa using hi
      exact (hkept r hr).trans hfirst
    | succ i => exact hloaded i q (by simpa using hi)
  · obtain ⟨hne, hq⟩ := not_or.mp (mt List.mem_cons.mpr hq)
    exact (hkept q hq).trans (hother q hne)

/-! LRM. -/

theorem loadInline_ok (hd : l.Nodup) {a : Word} (h : ∀ i, i < l.length → s.canRead s.relocated (a + BitVec.ofNat 16 i) = true) :
    ∃ ρ, loadInline a l s = .ok () { s.withRegs ρ with P := a + BitVec.ofNat 16 l.length }
      ∧ s.LoadedFrom (s.withRegs ρ) l fun i => s.wordAt s.relocated (a + BitVec.ofNat 16 i) := by
  induction l generalizing s a with
  | nil => exact ⟨s.r, by simp [loadInline, State.withRegs], .nil fun _ => rfl⟩
  | cons r l ih =>
    obtain ⟨hr, hd⟩ := List.nodup_cons.mp hd
    have hfirst : s.canRead s.relocated a = true := by simpa using h 0 (by simp)
    obtain ⟨ρ, hrun, hload⟩ := ih (s := s.setReg r (s.wordAt s.relocated a)) (a := a + 1#16) hd fun i hi => by
      simpa [add_one_add_ofNat] using h (i + 1) (by simpa using hi)
    have hregs : (s.setReg r (s.wordAt s.relocated a)).withRegs ρ = s.withRegs ρ := by cases r <;> rfl
    rw [hregs, add_one_add_ofNat] at hrun
    simp only [hregs, State.wordAt_setReg, State.relocated_setReg, add_one_add_ofNat] at hload
    refine ⟨ρ, Res.bind_of_ok (memRead_ok hfirst) hrun, .cons hr ?_ (fun q hq => State.reg_setReg_other _ _ hq) hload⟩
    simp

theorem execLrm_ok {mask : Byte}
    (h : ∀ i, i < (selectedRegs mask).length → s.canRead s.relocated (s.P + BitVec.ofNat 16 (i + 1)) = true) :
    ∃ ρ, execLrm mask s = .next ((s.withRegs ρ).ends ((selectedRegs mask).length + 1))
      ∧ s.LoadedFrom (s.withRegs ρ) (selectedRegs mask) fun i => s.wordAt s.relocated (s.P + BitVec.ofNat 16 (i + 1)) := by
  obtain ⟨ρ, hrun, hload⟩ := loadInline_ok (s := s.completed) (a := s.P + 1#16) (selectedRegs_nodup mask) fun i hi => by
    rw [add_one_add_ofNat]; exact h i hi
  rw [add_one_add_ofNat] at hrun
  simp only [add_one_add_ofNat] at hload
  refine ⟨ρ, execute_ok hrun, ?_, ?_⟩
  · exact fun i r hi => (State.reg_completed _ r).symm.trans (hload.loaded i r hi)
  · exact fun r hr => (State.reg_completed _ r).symm.trans ((hload.kept r hr).trans (State.reg_completed s r))

/-! PLR. -/

/-- K goes down, and the register takes the word K designated. -/
def State.pulled (s : State) (r : Reg) : State := (s.setReg .k (s.r.K - 1#16)).setReg r (s.wordAt s.stackRelocated s.r.K)

theorem pulled_withRegs (s : State) (r : Reg) (ρ : Regs) : (s.pulled r).withRegs ρ = s.withRegs ρ := by cases r <;> rfl

theorem reg_pulled_other (s : State) {r q : Reg} (hq : q ≠ r) : (s.pulled r).reg q = (s.setReg .k (s.r.K - 1#16)).reg q :=
  State.reg_setReg_other _ _ hq

@[simp] theorem stackRelocated_pulled (s : State) (r : Reg) : (s.pulled r).stackRelocated = s.stackRelocated := by
  simp [State.pulled]

@[simp] theorem canRead_pulled (s : State) (r : Reg) (b : Bool) (a : Word) : (s.pulled r).canRead b a = s.canRead b a := by
  simp [State.pulled]

@[simp] theorem wordAt_pulled (s : State) (r : Reg) (b : Bool) (a : Word) : (s.pulled r).wordAt b a = s.wordAt b a := by
  simp [State.pulled]

theorem pullRegs_cons {r : Reg} (h : s.canRead s.stackRelocated s.r.K = true) :
    pullRegs (r :: l) s = pullRegs l (s.pulled r) := by
  have hread := stackRead_ok (s := s.setReg .k (s.r.K - 1#16)) (a := s.r.K) h
  have hK : (s.setReg .k (s.r.K - 1#16)).r.K + 1#16 = s.r.K := BitVec.sub_add_cancel _ _
  rw [pullRegs, hK, hread]
  rfl

theorem pullRegs_ok (hk : .k ∉ l) (hd : l.Nodup)
    (h : ∀ i, i < l.length → s.canRead s.stackRelocated (s.r.K - BitVec.ofNat 16 i) = true) :
    ∃ ρ, pullRegs l s = .ok () (s.withRegs ρ)
      ∧ (s.setReg .k (s.r.K - BitVec.ofNat 16 l.length)).LoadedFrom (s.withRegs ρ) l
        fun i => s.wordAt s.stackRelocated (s.r.K - BitVec.ofNat 16 i) := by
  induction l generalizing s with
  | nil => exact ⟨s.r, rfl, .nil fun q => by cases q <;> simp [State.reg, State.setReg, State.withRegs]⟩
  | cons r l ih =>
    obtain ⟨hr, hd⟩ := List.nodup_cons.mp hd
    obtain ⟨hkr, hk⟩ := not_or.mp (mt List.mem_cons.mpr hk)
    have hK : (s.pulled r).r.K = s.r.K - 1#16 := reg_pulled_other s hkr
    obtain ⟨ρ, hrun, hload⟩ := ih (s := s.pulled r) hk hd fun i hi => by
      simpa [hK, sub_one_sub_ofNat] using h (i + 1) (by simpa using hi)
    rw [pulled_withRegs] at hrun
    simp only [pulled_withRegs, hK, sub_one_sub_ofNat, stackRelocated_pulled, wordAt_pulled] at hload
    refine ⟨ρ, (pullRegs_cons (by simpa using h 0 (by simp))).trans hrun, .cons hr ?_ (fun q hq => ?_) hload⟩
    · rw [State.reg_setReg_other _ _ (Ne.symm hkr)]
      simp [State.pulled]
    · by_cases hqk : q = .k
      · subst q; simp
      · simp only [State.reg_setReg_other _ _ hqk, reg_pulled_other s hq]

/-- `n` words have been pulled from `top` downward, the last register of the list but K first. -/
structure State.PulledDown (s t : State) (l : List Reg) (top : Word) (n : Nat) : Prop where
  pointer : t.r.K = top - BitVec.ofNat 16 n
  loaded : ∀ i r, l[i]? = some r → r ≠ .k → t.reg r = s.wordAt s.stackRelocated (top - BitVec.ofNat 16 (n - 1 - i))
  kept : ∀ r, r ∉ l → r ≠ .k → t.reg r = s.reg r

/-- A list without K, pulled from its end. -/
theorem pullRegs_reverse (hk : .k ∉ l) (hd : l.Nodup)
    (h : ∀ i, i < l.length → s.canRead s.stackRelocated (s.r.K - BitVec.ofNat 16 i) = true) :
    ∃ ρ, pullRegs l.reverse s = .ok () (s.withRegs ρ) ∧ s.PulledDown (s.withRegs ρ) l s.r.K l.length := by
  obtain ⟨ρ, hrun, hloaded, hkept⟩ := pullRegs_ok (s := s) (l := l.reverse) (by simpa using hk) (List.nodup_reverse.mpr hd)
    (by simpa using h)
  rw [List.length_reverse] at hkept
  refine ⟨ρ, hrun, ⟨?_, fun i r hi _ => ?_, fun r hr hrk => ?_⟩⟩
  · exact (hkept .k (by simpa using hk)).trans (State.reg_setReg_same _ _ _)
  · have hlt : i < l.length := (List.getElem?_eq_some_iff.mp hi).1
    refine hloaded (l.length - 1 - i) r ?_
    rw [List.getElem?_reverse (by omega), ← hi]
    congr 1
    omega
  · exact (hkept r (by simpa using hr)).trans (State.reg_setReg_other _ _ hrk)

/-- Where PLR begins: at the K it restores first if K is selected, which leaves one word less, else at K. -/
def State.PullsFrom (s : State) (l : List Reg) (top : Word) (n : Nat) : Prop :=
  if Reg.k ∈ l then s.canRead s.stackRelocated s.r.K = true ∧ top = s.wordAt s.stackRelocated s.r.K ∧ n + 1 = l.length
  else top = s.r.K ∧ n = l.length

/-- What a list holds but its last element is in the list before it. -/
theorem getElem?_of_concat {i : Nat} {r q : Reg} (hi : (l ++ [q])[i]? = some r) (hr : r ≠ q) : l[i]? = some r := by
  rw [List.getElem?_append] at hi
  split at hi
  · exact hi
  · exact absurd (List.mem_singleton.mp (List.mem_of_getElem? hi)) hr

/-- The list of PLR begins with K if it is selected, and goes on without it. -/
theorem pullRegs_selected {mask : Byte} {top : Word} {n : Nat} (hfrom : s.PullsFrom (selectedRegs mask) top n)
    (h : ∀ i, i < n → s.canRead s.stackRelocated (top - BitVec.ofNat 16 i) = true) :
    ∃ ρ, pullRegs (selectedRegs mask).reverse s = .ok () (s.withRegs ρ)
      ∧ s.PulledDown (s.withRegs ρ) (selectedRegs mask) top n := by
  obtain ⟨l, hk, hd, hl | hl⟩ := selectedRegs_split mask
  · rw [hl] at hfrom ⊢
    obtain ⟨rfl, rfl⟩ := (if_neg hk).mp hfrom
    exact pullRegs_reverse hk hd h
  · rw [hl] at hfrom ⊢
    obtain ⟨hread, rfl, hn⟩ := (if_pos (by simp)).mp hfrom
    obtain rfl : n = l.length := by simpa using hn
    have hK : (s.pulled .k).r.K = s.wordAt s.stackRelocated s.r.K := rfl
    obtain ⟨ρ, hrun, hpointer, hloaded, hkept⟩ := pullRegs_reverse (s := s.pulled .k) hk hd (by simpa [hK] using h)
    simp only [pulled_withRegs, hK, stackRelocated_pulled, wordAt_pulled] at hrun hpointer hloaded hkept
    refine ⟨ρ, ?_, hpointer, fun i r hi hr => hloaded i r ?_ hr, fun r hr hrk => ?_⟩
    · rw [List.reverse_concat, pullRegs_cons hread, hrun]
    · exact getElem?_of_concat hi hr
    · refine (hkept r (fun hm => hr (List.mem_append_left _ hm)) hrk).trans ?_
      rw [reg_pulled_other s hrk, State.reg_setReg_other _ _ hrk]

theorem execPlr_ok {mask : Byte} {top : Word} {n : Nat} (hfrom : s.PullsFrom (selectedRegs mask) top n)
    (h : ∀ i, i < n → s.canRead s.stackRelocated (top - BitVec.ofNat 16 i) = true) :
    ∃ ρ, execPlr mask s = .next ((s.withRegs ρ).ends 1) ∧ s.PulledDown (s.withRegs ρ) (selectedRegs mask) top n := by
  obtain ⟨ρ, hrun, hpointer, hloaded, hkept⟩ := pullRegs_selected (s := s.completed) hfrom h
  refine ⟨ρ, execute_ok (Res.bind_of_ok hrun rfl), hpointer, ?_, ?_⟩
  · exact fun i r hi hr => (State.reg_completed _ r).symm.trans (hloaded i r hi hr)
  · exact fun r hr hrk => (State.reg_completed _ r).symm.trans ((hkept r hr hrk).trans (State.reg_completed s r))

/-! PLR after PSR. -/

theorem regs_ext (h : ∀ q, s.reg q = t.reg q) : s.r = t.r :=
  calc s.r = ⟨s.reg .a, s.reg .b, s.reg .x, s.reg .y, s.reg .c, s.reg .l, s.reg .w, s.reg .k⟩ := rfl
    _ = ⟨t.reg .a, t.reg .b, t.reg .x, t.reg .y, t.reg .c, t.reg .l, t.reg .w, t.reg .k⟩ := by simp only [h]
    _ = t.r := rfl

/-- A step down from an address reached by steps up. -/
theorem add_ofNat_sub_ofNat (k : Word) {i n : Nat} (h : i ≤ n) :
    k + BitVec.ofNat 16 n - BitVec.ofNat 16 i = k + BitVec.ofNat 16 (n - i) := by
  obtain ⟨m, rfl⟩ := Nat.exists_eq_add_of_le' h
  rw [BitVec.ofNat_add, ← BitVec.add_assoc, BitVec.add_sub_cancel, Nat.add_sub_cancel]

theorem reg_pushedAll_other (s : State) (l : List Reg) {q : Reg} (hq : q ≠ .k) : (s.pushedAll l).reg q = s.reg q := by
  induction l generalizing s with
  | nil => rfl
  | cons r l ih => exact (ih _).trans (reg_pushed_other s _ hq)

/-- After PSR, PLR begins at the word of the last register but K. -/
theorem pullsFrom_pushedAll {mask : Byte} (hwf : Memory.wf s.mem = true)
    (h : ∀ i, i < (selectedRegs mask).length → s.canWrite s.stackRelocated (s.r.K + BitVec.ofNat 16 (i + 1)) = true) :
    ∃ n, n ≤ (selectedRegs mask).length ∧ (∀ i r, (selectedRegs mask)[i]? = some r → r ≠ .k → i < n)
      ∧ ((s.pushedAll (selectedRegs mask)).ends 1).PullsFrom (selectedRegs mask) (s.r.K + BitVec.ofNat 16 n) n := by
  have hK : ((s.pushedAll (selectedRegs mask)).ends 1).r.K = s.r.K + BitVec.ofNat 16 (selectedRegs mask).length :=
    congrArg Regs.K (pushedAll_r s _)
  have hrelocated : ((s.pushedAll (selectedRegs mask)).ends 1).stackRelocated = s.stackRelocated := stackRelocated_pushedAll s _
  have hlen := selectedRegs_length_le mask
  unfold State.PullsFrom
  rw [hK, hrelocated]
  obtain ⟨l, hk, -, hl | hl⟩ := selectedRegs_split mask
  · rw [hl]
    exact ⟨l.length, le_rfl, fun i r hi _ => (List.getElem?_eq_some_iff.mp hi).1, (if_neg hk).mpr ⟨rfl, rfl⟩⟩
  · rw [hl] at h hlen ⊢
    rw [List.length_append, List.length_singleton] at hlen ⊢
    exact ⟨l.length, by omega, fun i r hi hr => (List.getElem?_eq_some_iff.mp (getElem?_of_concat hi hr)).1,
      (if_pos (by simp)).mpr ⟨canRead_pushedAll_top h (by simp),
        (wordAt_pushedAll (r := .k) hwf (by simp; omega) (by simp)).symm, rfl⟩⟩

/-- PLR restores what PSR has saved. -/
theorem execPlr_pushedAll {mask : Byte} (hwf : Memory.wf s.mem = true)
    (h : ∀ i, i < (selectedRegs mask).length → s.canWrite s.stackRelocated (s.r.K + BitVec.ofNat 16 (i + 1)) = true) :
    execPlr mask ((s.pushedAll (selectedRegs mask)).ends 1)
      = .next ((((s.pushedAll (selectedRegs mask)).ends 1).withRegs s.r).ends 1) := by
  obtain ⟨n, hn, hbelow, hfrom⟩ := pullsFrom_pushedAll hwf h
  have hlen := selectedRegs_length_le mask
  have hrelocated : ((s.pushedAll (selectedRegs mask)).ends 1).stackRelocated = s.stackRelocated := stackRelocated_pushedAll s _
  obtain ⟨ρ, hexec, hpointer, hloaded, hkept⟩ := execPlr_ok hfrom fun i hi => by
    rw [hrelocated, add_ofNat_sub_ofNat _ hi.le, show n - i = n - i - 1 + 1 by omega]
    exact canRead_pushedAll_top h (by omega)
  have hρ : ρ = s.r := regs_ext (s := ((s.pushedAll (selectedRegs mask)).ends 1).withRegs ρ) fun q => ?_
  · rw [hexec, hρ]
  · by_cases hq : q = .k
    · subst q
      exact hpointer.trans (BitVec.add_sub_cancel _ _)
    · by_cases hmem : q ∈ selectedRegs mask
      · obtain ⟨i, hi⟩ := List.getElem?_of_mem hmem
        have hlt := hbelow i q hi hq
        rw [hloaded i q hi hq, hrelocated, add_ofNat_sub_ofNat _ (by omega), show n - (n - 1 - i) = i + 1 by omega]
        exact (wordAt_pushedAll hwf (by omega) hi).trans (if_neg hq)
      · exact (hkept q hmem hq).trans (reg_pushedAll_other s _ hq)

/-- Settles O18: PSR is a row of pushes, LRM and PLR are rows of loads, and the words PLR finds are those PSR has pushed. -/
theorem registerStacks : Obligations.RegisterStacks := by
  rintro s mask l rfl
  refine ⟨fun hwf h => ?_, fun top n hfrom h => ?_, fun h => ?_, fun hwf h => ?_⟩
  · have hlen : (selectedRegs mask).length < 65536 := (selectedRegs_length_le mask).trans_lt (by decide)
    exact ⟨_, execPsr_ok h, pushedAll_r s _, fun i r hi => wordAt_pushedAll hwf hlen hi, fun a ha => readByte_pushedAll ha,
      pushedAll_frame s _⟩
  · obtain ⟨ρ, hexec, hpointer, hloaded, hkept⟩ := execPlr_ok hfrom h
    exact ⟨s.withRegs ρ, hexec, hpointer, hloaded, hkept, rfl⟩
  · obtain ⟨ρ, hexec, hloaded, hkept⟩ := execLrm_ok h
    exact ⟨s.withRegs ρ, hexec, hloaded, hkept, rfl⟩
  · refine ⟨_, _, execPsr_ok h, execPlr_pushedAll hwf h, rfl, ?_, ?_, rfl⟩
    · exact (congrArg (· + 1#16 + 1#16) (pushedAll_P s _)).trans (BitVec.add_assoc _ _ _)
    · exact pushedAll_st s _

end Sys2Proof.Machine
end

section
/-! SUPPORT. The obligations on calls and returns: BSR, RSR, SVC and RSV (44_branch.md R273, R274, R276, R277). -/

namespace Sys2Proof.Machine

variable {s : State} {m : MemRef}

/-! Calls. -/

/-- A part that pushes a word on the K stack goes on from the state pushed. -/
theorem push_bind (h : s.canWrite s.stackRelocated (s.r.K + 1#16) = true) (v : Word) (f : State → Res Unit) :
    ((push v s.completed).bind fun _ s => f s) = f (s.pushed v).completed :=
  Res.bind_of_ok (push_ok (s := s.completed) h) rfl

/-- BSR reads its relay before the push and its operand after it (R273). -/
theorem execBsr_ok (hr : s.relayOk m = true) (hk : s.canWrite s.stackRelocated (s.r.K + 1#16) = true)
    (h : s.canRead s.relocated (s.effective m) = true) :
    execBsr m s = .next ((s.pushed (s.P + 1#16)).goes
      ((s.pushed (s.P + 1#16)).wordAt s.relocated (s.effective m))) := by
  have hea := eaWord_ok (s := s.completed) hr
  have hread := memRead_ok (s := (s.pushed (s.P + 1#16)).completed) (canRead_pushed h (s.P + 1#16))
  exact execute_ok (Res.bind_of_ok hea ((push_bind hk _ _).trans (Res.bind_of_ok hread rfl)))

/-- SVC (R276). -/
theorem execSvc_ok (h : s.svcOk = true) (n : Byte) : execSvc n s = .next (s.svcDone n (s.P + 1#16)) :=
  execute_ok (supervisorCall_ok h)

/-! Returns. -/

/-- A part that reads the word on top of the K stack goes on with it. -/
theorem stackTop_bind (h : s.canRead s.stackRelocated s.r.K = true) (f : Word → State → Res Unit) :
    (stackRead s.completed.r.K s.completed).bind f = f (s.wordAt s.stackRelocated s.r.K) s.completed :=
  Res.bind_of_ok (stackRead_ok (s := s.completed) h) rfl

/-- RSR pulls P (R274). -/
theorem execRsr_ok (h : s.canRead s.stackRelocated s.r.K = true) :
    execRsr s = .next ((s.setReg .k (s.r.K - 1#16)).goes (s.wordAt s.stackRelocated s.r.K)) :=
  execute_ok (stackTop_bind h _)

/-- RSV pulls P and clears MS and SVCS, where the machine has it (R277). -/
theorem execRsv_ok (hc : s.cfg.is0405 = false) (h : s.canRead s.stackRelocated s.r.K = true) :
    execRsv s = .next { (s.setReg .k (s.r.K - 1#16)).goes (s.wordAt s.stackRelocated s.r.K) with
      st := { s.st with MS := false, SVCS := false } } := by
  refine execute_ok ?_
  rw [State.completed_cfg, hc, if_neg Bool.false_ne_true]
  exact stackTop_bind h _

/-- A 04/05 has no RSV (R277, D22). -/
theorem execRsv_absent (hc : s.cfg.is0405 = true) : execRsv s = (takeAlarm s.P .absentOption s.completed).outcome := by
  refine execute_alarm ?_
  rw [State.completed_cfg, if_pos hc]

/-- Settles O15: BSR is a push between the effective address and the read of its operand, RSR a read of the top of the stack. -/
theorem subroutines : Obligations.Subroutines := fun _ =>
  ⟨fun _ hr hk h => execBsr_ok hr hk h, fun h => execRsr_ok h⟩

/-- Settles O16: SVC is the shared supervisor call, RSV a read of the top of the stack where the machine has
it. The plain name `supervisorCall` is that of the model's own operation. -/
theorem supervisorCall_holds : Obligations.SupervisorCall := fun _ =>
  ⟨fun n h => execSvc_ok h n, fun hc h => execRsv_ok hc h, fun hc => execRsv_absent hc⟩

end Sys2Proof.Machine
end

section
/-! SUPPORT. The obligation on slave mode: what the parts of an instruction keep while MS is 0, then the call of the supervisor that
ends slave mode, and the confinement of every instruction (45_system.md R300, 20_memory.md R66, 44_branch.md R276). -/

namespace Sys2Proof.Machine

/-! What a part leads to when it answers; of an alarm it meets nothing is asked. -/

/-- The state a part leaves has the property, if the part answers. -/
def Res.Ends {α : Type} (Q : State → Prop) (m : Res α) : Prop := ∀ a t, m = .ok a t → Q t

theorem Res.All.ends {α : Type} {Q Q' : State → Prop} {m : Res α} (h : m.All Q) (hq : ∀ t, Q t → Q' t) : m.Ends Q' :=
  fun _ t e => hq t (h.of_ok e)

theorem Res.All.bind_ends {α β : Type} {Q Q' : State → Prop} {m : Res α} {f : α → State → Res β} (hm : m.All Q)
    (hf : ∀ a s, Q s → (f a s).Ends Q') : (m.bind f).Ends Q' := by
  intro b t e
  obtain ⟨a, u, hu, ht⟩ := Res.bind_eq_ok.mp e
  exact hf a u (hm.of_ok hu) b t ht

theorem Res.Ends.ite {α : Type} {Q : State → Prop} {p : Prop} [Decidable p] {m n : Res α} (hm : p → m.Ends Q)
    (hn : ¬p → n.Ends Q) : (if p then m else n).Ends Q := by
  split
  · rename_i h; exact hm h
  · rename_i h; exact hn h

/-- An execution that ends in no alarm has what its body has when it answers. -/
theorem execute_ends {Q : State → Prop} {s : State} {body : State → Res Unit} (hb : (body s.completed).Ends Q) :
    endsIn Q (execute body s) := by
  cases hr : body s.completed with
  | ok u t => rw [execute_ok hr]; exact fun _ => hb u t hr
  | alarm n t => rw [execute_alarm hr]; exact (takeAlarm_abandoned s.P n t).outcome.imp fun _ ha hn => absurd ha hn
  | refuse r => rw [execute_refuse hr]; trivial
  | stuck r => rw [execute_stuck hr]; trivial

/-! The predicates: `o` is the state before the instruction, which may store outside the zone of the program where `free`. -/

/-- The system registers, the requests, the couplers and channels and the bits of ST but MS, SVCS, V and Cf are those of `o`. -/
def State.SystemKept (o t : State) : Prop :=
  (t.cfg = o.cfg ∧ t.SLO = o.SLO ∧ t.SLE = o.SLE ∧ t.IM = o.IM ∧ t.HV = o.HV ∧ t.ipiRequest = o.ipiRequest
    ∧ t.othersIpi = o.othersIpi ∧ t.powerFailPending = o.powerFailPending ∧ t.powerFailActive = o.powerFailActive
    ∧ t.stepArmed = o.stepArmed ∧ t.alarmStop = o.alarmStop ∧ t.autoRestartInhibited = o.autoRestartInhibited
    ∧ t.stopDelay = o.stopDelay ∧ t.couplers = o.couplers ∧ t.channels = o.channels ∧ t.inputs = o.inputs)
  ∧ t.st.PR = o.st.PR ∧ t.st.DEBUG = o.st.DEBUG ∧ t.st.LCM = o.st.LCM ∧ t.st.IPM = o.st.IPM ∧ t.st.IOM = o.st.IOM
    ∧ t.st.MAINT = o.st.MAINT ∧ t.st.SCHED = o.st.SCHED ∧ t.st.STOP = o.st.STOP ∧ t.st.POP = o.st.POP

/-- With DRPS, every byte is that of `o` but those of the words that the addresses 0 to the limit designate (20_memory.md R66). -/
def State.ZoneKept (o : State) (free : Bool) (mem : Memory) : Prop :=
  free = false → o.cfg.hasDrps = true → ∀ a : Nat, (∀ x : Word, x.toNat ≤ o.limit → a / 2 ≠ (o.relocate x).toNat) →
    readByte mem a = readByte o.mem a

/-- Inside an instruction in slave mode. -/
def State.Confined (o : State) (free : Bool) (t : State) : Prop :=
  o.SystemKept t ∧ t.st.MS = false ∧ o.ZoneKept free t.mem

/-- At the end of an instruction in slave mode: the program is in slave mode, or at the entry of the supervisor (44_branch.md
R276). -/
def State.Contained (o : State) (free : Bool) (t : State) : Prop :=
  o.SystemKept t ∧ (t.st.MS = true → t.P = t.abs 0x0005#16) ∧ o.ZoneKept free t.mem

variable {o s : State} {free : Bool} {α : Type}

theorem State.Confined.contained (h : o.Confined free s) : o.Contained free s := by
  obtain ⟨hkept, hms, hzone⟩ := h
  exact ⟨hkept, fun e => absurd (hms.symm.trans e) Bool.false_ne_true, hzone⟩

theorem slave_iff : s.slave = true ↔ s.cfg.is0405 = false ∧ s.st.MS = false ∧ (s.cfg.hasPrivMode && s.st.PR) = false := by
  simp only [State.slave, Bool.and_eq_true, Bool.not_eq_true', and_assoc]

/-- An instruction starts confined. -/
theorem confined_completed (hs : o.slave = true) (free : Bool) : o.Confined free o.completed :=
  ⟨⟨⟨rfl, rfl, rfl, rfl, rfl, rfl, rfl, rfl, rfl, rfl, rfl, rfl, rfl, rfl, rfl, rfl⟩, rfl, rfl, rfl, rfl, rfl, rfl, rfl, rfl, rfl⟩,
    (slave_iff.mp hs).2.1, fun _ _ _ _ => rfl⟩

theorem State.Confined.slave (hs : o.slave = true) (h : o.Confined free s) : s.slave = true := by
  obtain ⟨⟨⟨hcfg, -⟩, hPR, -⟩, hMS, -⟩ := h
  obtain ⟨h04, -, hpriv⟩ := slave_iff.mp hs
  exact slave_iff.mpr ⟨hcfg ▸ h04, hMS, by rw [hcfg, hPR]; exact hpriv⟩

theorem State.Confined.setReg (h : o.Confined free s) (r : Reg) (v : Word) : o.Confined free (s.setReg r v) := by
  cases r <;> exact h

theorem confined_ite {p : Prop} [Decidable p] {t u : State} (ht : o.Confined free t) (hu : o.Confined free u) :
    o.Confined free (if p then t else u) := by
  split
  · exact ht
  · exact hu

theorem markFree_confined : MarkFree (o.Confined free) where
  seeBreak s h := by unfold State.seeBreak; split <;> exact h
  fresh _ h := h

/-! Accesses. -/

/-- In slave mode every program address is relocated with DRPS, and the zone is that of `o`. -/
theorem State.Confined.place (h : o.Confined free s) (a : Word) : s.place o.cfg.hasDrps a = o.place o.cfg.hasDrps a := by
  obtain ⟨⟨⟨-, hSLO, -⟩, -⟩, -⟩ := h
  rw [State.place, State.relocate, hSLO]; rfl

theorem State.Confined.relocated (h : o.Confined free s) : s.relocated = o.cfg.hasDrps := by
  obtain ⟨⟨⟨hcfg, -⟩, -⟩, hMS, -⟩ := h
  rw [State.relocated, hcfg, hMS, Bool.not_false, Bool.and_true]

theorem State.Confined.stackRelocated (h : o.Confined free s) : s.stackRelocated = o.cfg.hasDrps := by
  obtain ⟨⟨⟨hcfg, -⟩, -⟩, hMS, -⟩ := h
  rw [State.stackRelocated, hcfg, hMS, Bool.false_and, Bool.not_false, Bool.and_true]

theorem State.Confined.limit (h : o.Confined free s) : s.limit = o.limit := by
  obtain ⟨⟨⟨-, hSLO, hSLE, -⟩, -⟩, -⟩ := h
  rw [State.limit, hSLO, hSLE]; rfl

/-- A store at an address that the protection lets through stays in the zone. -/
theorem State.Confined.storeInZone (h : o.Confined free s) {a : Word} (ha : s.allowed o.cfg.hasDrps a = true) (v : Word) :
    o.Confined free (s.store (s.place o.cfg.hasDrps a) v) := by
  have hplace := h.place a
  have hlimit := h.limit
  obtain ⟨hkept, hms, hzone⟩ := h
  refine ⟨hkept, hms, fun hfree hdrps b hb => ?_⟩
  have hle : a.toNat ≤ o.limit := by simpa [State.allowed, hdrps, hlimit] using ha
  have hne : b / 2 ≠ (s.place o.cfg.hasDrps a).toNat := by
    rw [hplace, State.place, hdrps]; exact hb a hle
  exact (readByte_store_other s v hne).trans (hzone hfree hdrps b hb)

/-- An instruction that may store in the common data area is not held to the zone. -/
theorem State.Confined.storeFree (h : o.Confined true s) (pa : PAddr) (v : Word) : o.Confined true (s.store pa v) :=
  ⟨h.1, h.2.1, nofun⟩

theorem writeAt_free (h : o.Confined true s) (pa : PAddr) (v : Word) : (writeAt pa v s).All (o.Confined true) :=
  writeAt_all markFree_confined h fun _ => h.storeFree pa v

/-- What is done at an address that the protection lets through. -/
theorem resolve_confined (h : o.Confined free s) {b : Bool} (hb : b = o.cfg.hasDrps) {a : Word} {f : PAddr → State → Res α}
    (hf : s.allowed o.cfg.hasDrps a = true → (f (s.place o.cfg.hasDrps a) s).All (o.Confined free)) :
    ((resolve b a s).bind f).All (o.Confined free) := by
  subst hb
  rw [resolve_eq]
  split
  · rename_i ha; exact hf ha
  · exact h

theorem resolvedWrite_confined (h : o.Confined free s) {b : Bool} (hb : b = o.cfg.hasDrps) (a v : Word) :
    ((resolve b a s).bind fun pa s => writeAt pa v s).All (o.Confined free) :=
  resolve_confined h hb fun ha => writeAt_all markFree_confined h fun _ => h.storeInZone ha v

theorem memRead_confined (h : o.Confined free s) (a : Word) : (memRead a s).All (o.Confined free) :=
  memRead_all markFree_confined h a

theorem memWrite_confined (h : o.Confined free s) (a v : Word) : (memWrite a v s).All (o.Confined free) :=
  resolvedWrite_confined h h.relocated a v

theorem stackWrite_confined (h : o.Confined free s) (a v : Word) : (stackWrite a v s).All (o.Confined free) :=
  resolvedWrite_confined h h.stackRelocated a v

theorem push_confined (h : o.Confined free s) (v : Word) : (push v s).All (o.Confined free) :=
  stackWrite_confined (h.setReg .k _) _ v

theorem eaWord_confined (h : o.Confined free s) (m : MemRef) : (eaWord m s).All (o.Confined free) :=
  eaWord_all markFree_confined h m

theorem byteWrite_confined (h : o.Confined free s) (wa : Word) (right : Bool) (b : Byte) :
    (byteWrite wa right b s).All (o.Confined free) :=
  (memRead_confined h wa).bind fun _ _ h => memWrite_confined h wa _

theorem writeOperand_confined (h : o.Confined free s) (m : MemRef) (v : State → Word) :
    (writeOperand m v s).All (o.Confined free) :=
  (eaWord_confined h m).bind fun ea _ h => memWrite_confined h ea _

theorem physRead_confined (h : o.Confined free s) (a : Word) : (physRead a s).All (o.Confined free) :=
  readAt_all markFree_confined h _

theorem cdaLimits_confined (h : o.Confined free s) : (cdaLimits s).All (o.Confined free) :=
  (physRead_confined h _).bind fun _ _ h => (physRead_confined h _).bind fun _ _ h => h

theorem ispPointer_confined (h : o.Confined free s) (w : Word) : (ispPointer w s).All (o.Confined free) := by
  unfold ispPointer; split
  · exact h
  · split
    · exact eaWord_confined h _
    · exact h

/-! The parts of the instructions that store. -/

/-- The exchange of A with a word that the instruction may store in. -/
theorem exchangeA_confined (h : o.Confined free s) {pa : PAddr}
    (hstore : ∀ t : State, o.Confined free t → (writeAt pa t.r.A t).All (o.Confined free)) :
    (exchangeA pa s).All (o.Confined free) :=
  (readAt_all markFree_confined h pa).bind fun _ t h => (hstore t h).bind fun _ _ h => h

/-- The exchange of A with the word at an address that the protection lets through. -/
theorem exchangeInZone_confined (h : o.Confined free s) {b : Bool} (hb : b = o.cfg.hasDrps) (a : Word) :
    ((resolve b a s).bind fun pa s => (exchangeA pa s).bind fun _ s => finish s).All (o.Confined free) :=
  resolve_confined h hb fun ha => (exchangeA_confined h fun t ht => writeAt_all markFree_confined ht fun _ => by
    have hallowed : t.allowed o.cfg.hasDrps a = true := by
      rw [State.allowed, ht.limit, ← h.limit]; exact ha
    rw [h.place, ← ht.place]
    exact ht.storeInZone hallowed _).bind fun _ _ h => h

theorem stepWord_confined (h : o.Confined free s) (d : Word) (m : MemRef) : (stepWord d m s).All (o.Confined free) :=
  (eaWord_confined h m).bind fun ea _ h => (memRead_confined h ea).bind fun _ _ h =>
    (memWrite_confined h ea _).bind fun _ _ h => h

theorem pushRegs_confined (l : List Reg) (h : o.Confined free s) : (pushRegs l s).All (o.Confined free) := by
  induction l generalizing s with
  | nil => exact h
  | cons r l ih => exact (stackWrite_confined h _ _).bind fun _ _ h => ih (h.setReg .k _)

theorem pushPullCheck_confined (h : o.Confined free s) : (pushPullCheck s).All (o.Confined free) :=
  .ite (fun _ => h) fun _ => h

theorem pushOn_confined (h : o.Confined free s) (w : Word) : (pushOn w s).All (o.Confined free) :=
  .ite (fun _ => h) fun _ => (memWrite_confined h _ _).bind fun _ _ h => (memWrite_confined h _ _).bind fun _ _ h => h

theorem pullFrom_confined (h : o.Confined free s) (w : Word) : (pullFrom w s).All (o.Confined free) :=
  .ite (fun _ => h) fun _ => (memRead_confined h _).bind fun v _ h =>
    (memWrite_confined (h.setReg .a v) _ _).bind fun _ _ h => h

theorem blockMove_confined (h : o.Confined free s) (len : Nat) {move : Word → State → Res Unit}
    (hm : ∀ i, (move i s).All (o.Confined free)) : (blockMove len move s).All (o.Confined free) :=
  .ite (fun _ => h) fun _ => (hm _).bind fun _ _ h => h

/-! Calls of the supervisor. -/

/-- Out of slave mode the supervisor is entered by word '0005 (44_branch.md R276). -/
theorem enterSupervisor_contained (hs : o.slave = true) (h : o.Confined free s) :
    (enterSupervisor s).Ends (o.Contained free) := by
  obtain ⟨h04, hMS, hpriv⟩ := slave_iff.mp (h.slave hs)
  obtain ⟨hkept, -, hzone⟩ := h
  have hvector : enterSupervisor s
      = (physRead 0x0005#16 { s with st := { s.st with MS := true, SVCS := true } }).bind fun p s => .ok () { s with P := p } := by
    rw [enterSupervisor, hMS, h04, hpriv]; rfl
  have hentry : ∀ {t : State}, o.SystemKept t → o.ZoneKept free t.mem → o.Contained free { t with P := t.abs 0x0005#16 } :=
    fun hk hz => ⟨hk, fun _ => rfl, hz⟩
  rw [hvector]
  intro _ t e
  obtain ⟨p, u, hr, ht⟩ := Res.bind_eq_ok.mp e
  cases ht
  rcases readAt_cases hr with ⟨rfl, rfl, -⟩ | ⟨rfl, rfl, -⟩ | ⟨-, -, he⟩
  · exact hentry hkept hzone
  · unfold State.seeBreak
    split
    · exact hentry hkept hzone
    · exact hentry (t := { s with st := { s.st with MS := true, SVCS := true }, breakSeen := true }) hkept hzone
  · rw [physRead, readAt_absent he h04] at hr; cases hr

theorem supervisorCall_contained (hs : o.slave = true) (h : o.Confined free s) (n : Byte) (ret : Word) :
    (supervisorCall n ret s).Ends (o.Contained free) :=
  (push_confined (h.setReg .x _) ret).bind_ends fun _ _ h => enterSupervisor_contained hs h

theorem absentExtension_contained (hs : o.slave = true) (h : o.Confined free s) (n : Byte) :
    (absentExtension n s).Ends (o.Contained free) :=
  (push_confined h _).bind_ends fun _ _ h => supervisorCall_contained hs h n _

/-! The executions. -/

/-- An instruction that calls no supervisor. -/
theorem execute_confined (hs : o.slave = true) {body : State → Res Unit}
    (hb : ∀ t, o.Confined free t → (body t).All (o.Confined free)) : endsIn (o.Contained free) (execute body o) :=
  execute_ends ((hb _ (confined_completed hs free)).ends fun _ h => h.contained)

/-- An instruction that calls the supervisor in some states. -/
theorem execute_contained (hs : o.slave = true) {body : State → Res Unit}
    (hb : ∀ t, o.Confined free t → (body t).Ends (o.Contained free)) : endsIn (o.Contained free) (execute body o) :=
  execute_ends (hb _ (confined_completed hs free))

/-- The privilege check answers in no state of an instruction in slave mode (45_system.md R300). -/
theorem privCheck_bind_alarm (hs : s.slave = true) {f : Unit → State → Res α} :
    (privCheck s).bind f = .alarm .privileged s := by
  rw [privCheck_eq, hs]; rfl

/-- A privileged instruction ends in alarm 4. -/
theorem execute_privileged_contained (hs : o.slave = true) (body : State → Res Unit) :
    endsIn (o.Contained free) (execute (privileged body) o) :=
  execute_confined hs fun t h => by
    rw [privileged, privCheck_bind_alarm (h.slave hs)]; exact h

/-- The scheduler instructions look for their option first (47_scheduler.md R383). -/
theorem schedPrologue_absent (ho : s.cfg.hasSched = false) (privileged deferredOnly : Bool) :
    schedPrologue privileged deferredOnly s = .alarm .absentOption s := by
  rw [schedPrologue, ho]; rfl

/-- Then for the mode (47_scheduler.md R383). -/
theorem schedPrologue_slave (ho : s.cfg.hasSched = true) (hs : s.slave = true) (deferredOnly : Bool) :
    schedPrologue true deferredOnly s = .alarm .privileged s := by
  rw [schedPrologue, ho, if_pos rfl, privCheck_bind_alarm hs]; rfl

/-- A privileged scheduler instruction ends in alarm 3 or 4. -/
theorem execute_schedPrologue_contained (hs : o.slave = true) {deferredOnly : Bool} {f : Unit → State → Res Unit} :
    endsIn (o.Contained free) (execute (fun s => (schedPrologue true deferredOnly s).bind f) o) :=
  execute_confined hs fun t h => by
    cases ho : t.cfg.hasSched with
    | false => rw [schedPrologue_absent ho]; exact h
    | true => rw [schedPrologue_slave ho (h.slave hs)]; exact h

/-! Floating point. -/

/-- A floating-point instruction, or SVC 0. -/
theorem execute_floatDispatch_contained (hs : o.slave = true) {ucode : Bool} {body : State → Res Unit}
    (hb : ∀ t, o.Confined free t → (body t).Ends (o.Contained free)) :
    endsIn (o.Contained free) (execute (floatDispatch ucode body) o) :=
  execute_contained hs fun _ h => .ite (fun _ => hb _ h) fun _ => absentExtension_contained hs h 0#8

/-- A floating-point instruction that calls no supervisor where its option is present. -/
theorem execute_float_confined (hs : o.slave = true) {ucode : Bool} {body : State → Res Unit}
    (hb : ∀ t, o.Confined free t → (body t).All (o.Confined free)) :
    endsIn (o.Contained free) (execute (floatDispatch ucode body) o) :=
  execute_floatDispatch_contained hs fun t h => (hb t h).ends fun _ h => h.contained

theorem recordEvent_confined (h : o.Confined free s) (mask : Word) : (recordEvent mask s).All (o.Confined free) :=
  (memRead_confined h _).bind fun _ _ h => memWrite_confined h _ _

theorem deliver_confined (h : o.Confined free s) (x : FloatResult) : (deliver x s).All (o.Confined free) := by
  have hopen : o.Confined free (openResult s) := h
  cases x with
  | value w => exact h
  | underflow => exact (recordEvent_confined (s := (s.setPair fzero).setVC false true) h _).bind fun _ _ h => h
  | overflow | divideByZero | fixImpossible => exact (recordEvent_confined hopen _).bind fun _ _ h => h

theorem readPair_confined (h : o.Confined free s) (m : MemRef) : (readPair m s).All (o.Confined free) :=
  (eaWord_confined h m).bind fun ea _ h => (memRead_confined h ea).bind fun _ _ h =>
    (memRead_confined h (ea + 1#16)).bind fun _ _ h => h

/-- An operand that is not normalised is left to the supervisor (46_float.md R340). -/
theorem execute_floatBinary_contained (hs : o.slave = true) {op : Word × Word → Word × Word → State → Res Unit} {m : MemRef}
    (hop : ∀ x y t, o.Confined free t → (op x y t).All (o.Confined free)) :
    endsIn (o.Contained free) (execute (floatDispatch false (floatBinary op m)) o) :=
  execute_floatDispatch_contained hs fun _ h => (readPair_confined h m).bind_ends fun y t h =>
    .ite (fun _ => absentExtension_contained hs h 0#8) fun _ => (hop _ y t h).ends fun _ h => h.contained

theorem floatLoad_confined (h : o.Confined free s) (m : MemRef) : (floatLoad m s).All (o.Confined free) :=
  (eaWord_confined h m).bind fun ea _ h => (memRead_confined h ea).bind fun a _ h =>
    (memRead_confined (h.setReg .a a) (ea + 1#16)).bind fun _ _ h => h

theorem floatStore_confined (h : o.Confined free s) (m : MemRef) : (floatStore m s).All (o.Confined free) :=
  (eaWord_confined h m).bind fun ea _ h => (memWrite_confined h ea _).bind fun _ _ h =>
    (memWrite_confined h (ea + 1#16) _).bind fun _ _ h => h

/-! CDA16. -/

/-- An instruction of CDA16, or SVC 7. -/
theorem execute_cda_confined (hs : o.slave = true) {moves : Bool} {body : State → Res Unit}
    (hb : ∀ t, o.Confined free t → (body t).All (o.Confined free)) :
    endsIn (o.Contained free) (execute (cdaDispatch moves body) o) :=
  execute_contained hs fun t h => .ite (fun _ => (hb t h).ends fun _ h => h.contained) fun _ =>
    absentExtension_contained hs h 7#8

theorem cdaZone_confined (h : o.Confined free s) : (cdaZone s).All (o.Confined free) :=
  (cdaLimits_confined h).bind fun _ _ h => .ite (fun _ => h) fun _ => h

theorem heldOr_confined {read : State → Res (Word × Word)} (h : o.Confined free s) (hr : (read s).All (o.Confined free)) :
    (heldOr read s).All (o.Confined free) := by
  unfold heldOr; split
  · exact h
  · exact hr

theorem cdaMove_confined (h : o.Confined free s) {move : Word × Word → Word → State → Res Unit}
    (hm : ∀ lim i t, o.Confined free t → (move lim i t).All (o.Confined free)) : (cdaMove move s).All (o.Confined free) :=
  .ite (fun _ => h) fun _ => (heldOr_confined h (cdaZone_confined h)).bind fun lim t h =>
    (blockMove_confined h 2 fun i => hm lim i t h).bind fun _ _ h => h

theorem writeBit_confined (h : o.Confined free s) (r : Int) (b : Bool) : (writeBit r b s).All (o.Confined free) :=
  (memRead_confined h _).bind fun _ _ h => (memWrite_confined h _ _).bind fun _ _ h => h

theorem detectReset_confined (h : o.Confined free s) : (detectReset s).All (o.Confined free) := by
  refine .ite (fun _ => h) fun _ => (memRead_confined h _).bind fun v t h => ?_
  split
  · exact (memWrite_confined h _ _).bind fun _ _ h => h
  · exact .ite (fun _ => h) fun _ => h

theorem insertElement_confined (h : o.Confined free s) : (insertElement s).All (o.Confined free) :=
  (memRead_confined h _).bind fun _ _ h => (memWrite_confined h _ _).bind fun _ _ h =>
  (memWrite_confined h _ _).bind fun _ _ h => (memWrite_confined h _ _).bind fun _ _ h =>
  (memWrite_confined h _ _).bind fun _ _ h => h

theorem suppressElement_confined (h : o.Confined free s) : (suppressElement s).All (o.Confined free) :=
  (memRead_confined h _).bind fun _ _ h => (memRead_confined h _).bind fun _ _ h => .ite (fun _ => h) fun _ =>
  (memWrite_confined h _ _).bind fun _ _ h => (memWrite_confined h _ _).bind fun _ _ h => h

theorem suppressFirst_confined (h : o.Confined free s) : (suppressFirst s).All (o.Confined free) :=
  (memRead_confined h _).bind fun _ _ h => .ite (fun _ => h) fun _ => (memRead_confined h _).bind fun _ _ h =>
  (memWrite_confined h _ _).bind fun _ _ h => (memWrite_confined h _ _).bind fun _ _ h => h

theorem suppressLast_confined (h : o.Confined free s) : (suppressLast s).All (o.Confined free) :=
  (memRead_confined h _).bind fun _ _ h => .ite (fun _ => h) fun _ => (memRead_confined h _).bind fun _ _ h =>
  (memWrite_confined h _ _).bind fun _ _ h => (memWrite_confined h _ _).bind fun _ _ h => h

/-! ISP16. -/

/-- An instruction of ISP16, or SVC 4. -/
theorem execute_isp_confined (hs : o.slave = true) {body : State → Res Unit}
    (hb : ∀ t, o.Confined free t → (body t).All (o.Confined free)) :
    endsIn (o.Contained free) (execute (ispDispatch body) o) :=
  execute_contained hs fun t h => .ite (fun _ => (hb t h).ends fun _ h => h.contained) fun _ =>
    absentExtension_contained hs h 4#8

/-- A based instruction ends in alarm 4, or is SVC 4 (49_isp16.md R410). -/
theorem execute_based_contained (hs : o.slave = true) {f : Unit → State → Res Unit} :
    endsIn (o.Contained free) (execute (ispDispatch fun s => (privCheck s).bind f) o) :=
  execute_isp_confined hs fun _ h => by rw [privCheck_bind_alarm (h.slave hs)]; exact h

/-- An instruction on the common data area: its operand, then an action there. -/
theorem execute_cdaOperand_confined (hs : o.slave = true) {w2 : Word} {disp : State → Word → Word}
    {f : (Word × Word) × Word → State → Res Unit} (hf : ∀ p t, o.Confined free t → (f p t).All (o.Confined free)) :
    endsIn (o.Contained free) (execute (ispDispatch fun s => (cdaOperand w2 disp s).bind f) o) :=
  execute_isp_confined hs fun _ h => Res.All.bind ((ispPointer_confined h w2).bind fun a _ h =>
    (memRead_confined h a).bind fun _ _ h => (cdaLimits_confined h).bind fun _ _ h => .ite (fun _ => h) fun _ => h) hf

theorem loadAt_confined (h : o.Confined free s) (pa : PAddr) : (loadAt pa s).All (o.Confined free) :=
  (readAt_all markFree_confined h pa).bind fun _ _ h => h

theorem loadPairAt_confined (h : o.Confined free s) (pa pb : PAddr) : (loadPairAt pa pb s).All (o.Confined free) :=
  (loadAt_confined h pa).bind fun _ _ h => (readAt_all markFree_confined h pb).bind fun _ _ h => h

theorem loadByteAt_confined (h : o.Confined free s) (pa : PAddr) : (loadByteAt pa s).All (o.Confined free) :=
  (readAt_all markFree_confined h pa).bind fun _ _ h => h

/-! Every instruction. -/

theorem acknowledge_confined (h : o.Confined free s) (i : Nat) : o.Confined free (acknowledge i s) := by
  unfold acknowledge
  split
  · exact h
  · split
    · exact h
    · split <;> exact h

/-- An instruction that leaves the system alone and stores nothing is confined by its frame. -/
theorem contained_of_within {rs : List Reg} {flags : Bool} (hs : o.slave = true)
    (h : o.Within rs flags o.memoryKept s) : o.Contained free s := by
  obtain ⟨⟨hsystem, hmodes, -⟩, hmem, -⟩ := h
  obtain ⟨hcfg, hSLO, hSLE, hIM, hHV, hipi, hothers, hpend, hact, hstep, hstop, hauto, -, -, -, hdelay, hcoup, hchan, hin⟩ := hsystem
  have hMS : s.st.MS = false := by rw [hmodes]; exact (slave_iff.mp hs).2.1
  refine ⟨⟨⟨hcfg, hSLO, hSLE, hIM, hHV, hipi, hothers, hpend, hact, hstep, hstop, hauto, hdelay, hcoup, hchan, hin⟩, ?_⟩,
    fun e => absurd (hMS.symm.trans e) Bool.false_ne_true, fun _ _ a _ => by rw [hmem]⟩
  rw [hmodes]
  exact ⟨rfl, rfl, rfl, rfl, rfl, rfl, rfl, rfl, rfl⟩

/-- Every instruction in slave mode, QUIT aside, is contained. The arms of one shape stand together. -/
theorem exec_contained (hs : o.slave = true) {i : Instr} (hq : i ≠ .quit) :
    endsIn (o.Contained (Instr.cdaStore i)) (exec i o) := by
  cases hf : Instr.frame i with
  | some p => exact (exec_frame o hf).imp fun _ h hp => contained_of_within hs (h hp)
  | none =>
    unfold exec
    cases i with
    -- Stores at program addresses.
    | sta m | stb m | stx m | sty m | stz m =>
      exact execute_confined hs fun _ h => (writeOperand_confined h m _).bind fun _ _ h => h
    | stby m =>
      exact execute_confined hs fun _ h => (eaByte_all markFree_confined h m).bind fun p _ h =>
        (byteWrite_confined h p.1 p.2 _).bind fun _ _ h => h
    | xm m =>
      exact execute_confined hs fun _ h => (eaWord_confined h m).bind fun ea _ h =>
        exchangeInZone_confined h h.relocated ea
    | ic m | dc m => exact execute_confined hs fun _ h => stepWord_confined h _ m
    | psr mask => exact execute_confined hs fun _ h => (pushRegs_confined (selectedRegs mask) h).bind fun _ _ h => h
    | push =>
      exact execute_confined hs fun _ h => (pushPullCheck_confined h).bind fun _ _ h =>
        (memRead_confined h _).bind fun v _ h => pushOn_confined h v
    | pull =>
      exact execute_confined hs fun _ h => (pushPullCheck_confined h).bind fun _ _ h =>
        (memRead_confined h _).bind fun v _ h => pullFrom_confined h v
    | move =>
      exact execute_confined hs fun _ h => blockMove_confined h 1 fun _ =>
        (memRead_confined h _).bind fun _ _ h => memWrite_confined h _ _
    | xmr =>
      exact execute_contained hs fun _ h => .ite (fun _ => absentExtension_contained hs h _) fun _ =>
        (exchangeInZone_confined h (congrArg Config.hasDrps h.1.1.1) _).ends fun _ h => h.contained
    -- Calls and returns.
    | bsr m =>
      exact execute_confined hs fun _ h => (eaWord_confined h m).bind fun ea _ h => (push_confined h _).bind fun _ _ h =>
        (memRead_confined h ea).bind fun _ _ h => h
    | svc n => exact execute_contained hs fun _ h => supervisorCall_contained hs h n _
    | rsv =>
      exact execute_confined hs fun _ h => .ite (fun _ => h) fun _ =>
        (stackRead_all markFree_confined h _).bind fun _ _ h => ⟨h.1, rfl, h.2.2⟩
    | dap16 | vss16 | ffm16 => exact execute_contained hs fun _ h => absentExtension_contained hs h _
    -- HALT, ACTD and ACK are not privileged.
    | halt => exact execute_confined hs fun _ h => .ite (fun _ => h) fun _ => h
    | actd => exact execute_confined hs fun _ h => h
    | ack => exact execute_confined hs fun _ h => confined_ite h (acknowledge_confined h _)
    -- The privileged instructions.
    | acq | step | romb | dit | eit | sst | rst | rdhv | ipi | rdsi | rdoe | woe | ximr | sio | dbp | sbp | rbp | lar | star
    | mvtm | mvts => exact execute_privileged_contained hs _
    | arm | rqst | rlse | wait | act => exact execute_schedPrologue_contained hs
    | quit => exact absurd rfl hq
    -- Floating point.
    | fneg | fcaz => exact execute_float_confined hs fun _ h => h
    | fabs => exact execute_float_confined hs fun _ h => confined_ite h h
    | fix =>
      refine execute_float_confined hs fun _ h => ?_
      split
      · exact h
      · exact deliver_confined h _
    | flt | norm => exact execute_float_confined hs fun _ h => deliver_confined h _
    | fld m => exact execute_float_confined hs fun _ h => floatLoad_confined h m
    | fst m => exact execute_float_confined hs fun _ h => floatStore_confined h m
    | fad | fsb | fmp | fdv => exact execute_floatBinary_contained hs fun _ _ _ h => deliver_confined h _
    | fcmz m => exact execute_float_confined hs fun _ h => (readPair_confined h m).bind fun _ _ h => h
    | fcam => exact execute_floatBinary_contained hs fun _ _ _ h => h
    -- CDA16.
    | rcda =>
      exact execute_cda_confined hs fun _ h => cdaMove_confined h fun _ _ _ h =>
        (readAt_all markFree_confined h _).bind fun _ _ h => memWrite_confined h _ _
    | wcda =>
      exact execute_cda_confined hs fun _ h => cdaMove_confined h fun _ _ _ h =>
        (memRead_confined h _).bind fun _ _ h => writeAt_free h _ _
    | drbm => exact execute_cda_confined hs fun _ h => detectReset_confined h
    | insq => exact execute_cda_confined hs fun _ h => insertElement_confined h
    | supq => exact execute_cda_confined hs fun _ h => suppressElement_confined h
    | sfq => exact execute_cda_confined hs fun _ h => suppressFirst_confined h
    | slq => exact execute_cda_confined hs fun _ h => suppressLast_confined h
    | sbtm | rbtm => exact execute_cda_confined hs fun _ h => writeBit_confined h _ _
    -- ISP16.
    | bla | bsta | bxm | bdld | bdst | blby | bstby | brbtm | bsbtm | bmove | bdbtm => exact execute_based_contained hs
    | cla => exact execute_cdaOperand_confined hs fun _ _ h => (loadAt_confined h _).bind fun _ _ h => h
    | cdld =>
      exact execute_cdaOperand_confined hs fun _ _ h => .ite
        (fun _ => (loadPairAt_confined h _ _).bind fun _ _ h => h) fun _ => h
    | clby => exact execute_cdaOperand_confined hs fun _ _ h => (loadByteAt_confined h _).bind fun _ _ h => h
    | csta => exact execute_cdaOperand_confined hs fun _ _ h => (writeAt_free h _ _).bind fun _ _ h => h
    | cxm =>
      exact execute_cdaOperand_confined hs fun _ _ h =>
        (exchangeA_confined h fun _ h => writeAt_free h _ _).bind fun _ _ h => h
    | cdst =>
      exact execute_cdaOperand_confined hs fun _ _ h => .ite (fun _ => ((writeAt_free h _ _).bind fun _ _ h =>
        writeAt_free h _ _).bind fun _ _ h => h) fun _ => h
    | cstby =>
      exact execute_cdaOperand_confined hs fun _ _ h => ((readAt_all markFree_confined h _).bind fun _ _ h =>
        writeAt_free h _ _).bind fun _ _ h => h
    | xent | xsor => exact execute_isp_confined hs fun _ _ => trivial
    | xctx =>
      exact execute_isp_confined hs fun _ h => .ite (fun _ => trivial) fun _ => .ite (fun _ => h) fun _ => trivial
    | _ => cases hf

/-- Settles O59: an instruction in slave mode stays confined up to its call of the supervisor, if it makes one. -/
theorem slaveConfined : Obligations.SlaveConfined := by
  intro i s t hs hq he hp
  obtain ⟨⟨⟨hcfg, hSLO, hSLE, hIM, hHV, hipi, hothers, hpend, hact, hstep, hstop, hauto, hdelay, hcoup, hchan, hin⟩,
    hPR, hDEBUG, hLCM, hIPM, hIOM, hMAINT, hSCHED, hSTOP, hPOP⟩, hentry, hzone⟩ := (exec_contained hs hq).of_next he hp
  have hst : t.st = { s.st with MS := t.st.MS, SVCS := t.st.SVCS, V := t.st.V, Cf := t.st.Cf } := by
    simp only [← hPR, ← hDEBUG, ← hLCM, ← hIPM, ← hIOM, ← hMAINT, ← hSCHED, ← hSTOP, ← hPOP]
  exact ⟨hcfg, hSLO, hSLE, hIM, hHV, hipi, hothers, hpend, hact, hstep, hstop, hauto, hdelay, hcoup, hchan, hin, hst, hentry,
    fun hdrps hfree => hzone hfree hdrps⟩

end Sys2Proof.Machine
end

section
/-! SUPPORT. The obligations on privileged instructions, on the system registers, on ACK, on the accesses relative to SLO and on
breakpoints (45_system.md R300, R303 to R305, R307 to R309, R312, R313, R323 to R325, R328 to R331, R335). -/

namespace Sys2Proof.Machine

variable {s : State}

/-! Privileged executions. -/

section
variable {body : State → Res Unit} {t : State}

theorem execute_privileged_ok (hs : s.slave = false) (h : body s.completed = .ok () t) :
    execute (privileged body) s = .next t :=
  execute_ok ((privileged_ok hs).trans h)

theorem execute_privileged_alarm (hs : s.slave = false) {n : Alarm} (h : body s.completed = .alarm n t) :
    execute (privileged body) s = (takeAlarm s.P n t).outcome :=
  execute_alarm ((privileged_ok hs).trans h)

theorem execute_privileged_refuse (hs : s.slave = false) {r : Refusal} (h : body s.completed = .refuse r) :
    execute (privileged body) s = .refused r :=
  execute_refuse ((privileged_ok hs).trans h)

/-- A privileged instruction that only changes the state by `f`, which does not look at the mark of the execution. -/
theorem execute_privileged_finish (hs : s.slave = false) {f : State → State} (hf : f s.completed = (f s).completed) :
    execute (privileged fun s => finish (f s)) s = .next ((f s).ends 1) :=
  execute_privileged_ok hs (by rw [hf]; rfl)

/-- In slave mode the alarm comes before anything else (45_system.md R300). -/
theorem execute_privileged_slave (hs : s.slave = true) (body : State → Res Unit) :
    execute (privileged body) s = (takeAlarm s.P .privileged s.completed).outcome :=
  execute_alarm (privCheck_bind_alarm (s := s.completed) hs)

end

/-! The scheduler instructions (47_scheduler.md R383). -/

section
variable {f : Unit → State → Res Unit} {p d : Bool}

/-- An alarm of the prologue is that of the instruction. -/
theorem execute_schedPrologue_alarm {n : Alarm} (h : schedPrologue p d s.completed = .alarm n s.completed) :
    execute (fun s => (schedPrologue p d s).bind f) s = (takeAlarm s.P n s.completed).outcome :=
  execute_alarm (by rw [h]; rfl)

theorem execute_schedPrologue_slave (ho : s.cfg.hasSched = true) (hs : s.slave = true) :
    execute (fun s => (schedPrologue true d s).bind f) s = (takeAlarm s.P .privileged s.completed).outcome :=
  execute_schedPrologue_alarm (schedPrologue_slave (s := s.completed) ho hs d)

/-- The instructions of deferred tasks are forbidden in immediate ones, where the mode allows them. -/
theorem schedPrologue_immediate (ho : s.cfg.hasSched = true) (hs : p = true → s.slave = false) (hi : s.inImmediate = true) :
    schedPrologue p true s = .alarm .forbiddenInImmediate s := by
  rw [schedPrologue, ho, privCheck_eq]
  cases p with
  | false => simp [hi]
  | true => simp [hi, hs rfl]

end

/-- A based instruction of ISP16 in slave mode (49_isp16.md R410). -/
theorem execute_based_slave (ho : s.cfg.hasIsp16 = true) (hs : s.slave = true) {f : Unit → State → Res Unit} :
    execute (ispDispatch fun s => (privCheck s).bind f) s = (takeAlarm s.P .privileged s.completed).outcome :=
  execute_alarm ((ispDispatch_ok ho).trans (privCheck_bind_alarm (s := s.completed) hs))

theorem hasIsp16_of_hasXctx {c : Config} (h : c.hasXctx = true) : c.hasIsp16 = true := by
  rw [Config.hasXctx, Bool.and_eq_true] at h; exact h.1

/-- XCTX out of master mode (49_isp16.md R433). -/
theorem execXctx_privileged (ho : s.cfg.hasXctx = true) (hs : s.st.MS = false) (ix : Bool) (w : Word) :
    execXctx ix w s = (takeAlarm s.P .privileged s.completed).outcome :=
  execute_alarm ((ispDispatch_ok (hasIsp16_of_hasXctx ho)).trans (by simp [ho, hs]))

/-- The privileged instructions in slave mode (45_system.md R300, 60_exceptions.md R490). -/
theorem exec_privileged_slave {i : Instr} (hs : s.slave = true) (hi : Instr.privileged s.cfg i = true) :
    exec i s = (takeAlarm s.P .privileged s.completed).outcome := by
  unfold exec
  cases i with
  | acq | dit | eit | ximr | rdhv | step | sio | ipi | rdsi | romb | sst | rst | rdoe | woe | lar | star | mvtm | mvts | sbp
  | rbp | dbp => exact execute_privileged_slave hs _
  | arm | rqst | rlse | wait | act => exact execute_schedPrologue_slave hi hs
  | bla | bsta | bxm | bdld | bdst | blby | bstby | bmove | brbtm | bsbtm | bdbtm => exact execute_based_slave hi hs
  | _ => cases hi

/-- Settles O39: the check of the mode, or the prologue of the scheduler instructions, is the first part of each body. -/
theorem privilegedTrap : Obligations.PrivilegedTrap := by
  refine ⟨fun i s hs hi => exec_privileged_slave hs hi, fun s ix w ho _ hms => execXctx_privileged ho hms ix w,
    fun s m ix n => ⟨fun ho => ?_, fun ho => ⟨fun hs => ?_, fun hi => ?_⟩⟩⟩
  · have habsent : ∀ p d, schedPrologue p d s.completed = .alarm .absentOption s.completed := schedPrologue_absent ho
    simp only [List.forall_mem_cons]
    exact ⟨execute_schedPrologue_alarm (habsent _ _), execute_schedPrologue_alarm (habsent _ _),
      execute_schedPrologue_alarm (habsent _ _), execute_schedPrologue_alarm (habsent _ _),
      execute_schedPrologue_alarm (habsent _ _), execute_schedPrologue_alarm (habsent _ _), nofun⟩
  · simp only [List.forall_mem_cons]
    exact ⟨execute_schedPrologue_slave ho hs, execute_schedPrologue_slave ho hs, execute_schedPrologue_slave ho hs,
      execute_schedPrologue_slave ho hs, execute_schedPrologue_slave ho hs, nofun⟩
  · have himm : s.completed.inImmediate = true := by
      rcases hi with h | h <;> simp [State.inImmediate, h]
    refine ⟨fun hs => ?_, execute_schedPrologue_alarm (schedPrologue_immediate ho nofun himm)⟩
    simp only [List.forall_mem_cons]
    exact ⟨execute_schedPrologue_alarm (schedPrologue_immediate ho (fun _ => hs) himm),
      execute_schedPrologue_alarm (schedPrologue_immediate ho (fun _ => hs) himm), nofun⟩

/-! What the source has lost. -/

theorem execute_isp_refuse (ho : s.cfg.hasIsp16 = true) {body : State → Res Unit} {r : Refusal}
    (h : body s.completed = .refuse r) : execute (ispDispatch body) s = .refused r :=
  execute_refuse ((ispDispatch_ok ho).trans h)

/-- Settles O31: each body is its dispatch, then the stop. -/
theorem lostInstructions : Obligations.LostInstructions := by
  refine fun s => ⟨fun hs => execute_privileged_refuse hs rfl, fun ho ix w => ⟨execute_isp_refuse ho rfl,
    execute_isp_refuse ho rfl, fun hx hms => execute_isp_refuse ho ?_, fun hx hms => execXctx_privileged hx hms ix w,
    fun hx => execute_isp_refuse ho ?_⟩⟩
  · simp [hx, hms]
  · simp [hx]

/-! The system registers. -/

/-- DIT and EIT set IPM as they set IOM on the machines that have it so (45_system.md R308, R309). -/
theorem maskInterrupts_eq {p : Bool} (hp : p = true ↔ s.cfg.hasXmr = true ∨ s.cfg.model = .m70) (b : Bool) :
    s.maskInterrupts b = { s with st := { s.st with IOM := b, IPM := if p then b else s.st.IPM } } := by
  have hcond : (s.cfg.hasXmr || s.cfg.model = .m70) = p := by
    rw [Bool.eq_iff_iff, hp, Bool.or_eq_true, decide_eq_true_eq]
  rw [State.maskInterrupts, hcond]

/-- Settles O32: each instruction is one change of the state after the check of the mode. -/
theorem systemRegisters : Obligations.SystemRegisters := by
  intro s hs
  refine ⟨execute_privileged_finish hs rfl, execute_privileged_finish hs rfl, fun hd => ⟨?_, ?_⟩, fun hd => ⟨?_, ?_⟩, fun rd => ?_,
    fun p hp => ⟨?_, ?_⟩, List.range s.cfg.otherProcessors, fun _ => List.mem_range, execute_privileged_finish hs rfl⟩
  · exact execute_privileged_ok hs (by rw [State.completed_cfg, hd]; rfl)
  · exact execute_privileged_ok hs (by rw [State.completed_cfg, hd]; rfl)
  · exact execute_privileged_ok hs (by rw [State.completed_cfg, hd]; rfl)
  · exact execute_privileged_ok hs (by rw [State.completed_cfg, hd]; rfl)
  · exact execute_privileged_ok hs (by rw [State.reg_completed]; exact finish_setReg { s with IM := s.reg rd } rd s.IM)
  · exact execute_privileged_ok hs (by rw [maskInterrupts_eq (s := s.completed) hp]; cases p <;> rfl)
  · exact execute_privileged_ok hs (by rw [maskInterrupts_eq (s := s.completed) hp]; cases p <;> rfl)

/-! ACK. -/

theorem mem_normalSublevels {i n : Nat} : n ∈ s.normalSublevels i
    ↔ ∃ d ∈ s.couplers, d.level.toNat = i ∧ d.toChannel = false ∧ d.normalPending.map Fin.val = some n := by
  simp only [State.normalSublevels, List.mem_filterMap, Option.ite_none_right_eq_some, Bool.and_eq_true, decide_eq_true_eq,
    Bool.not_eq_true', and_assoc]

theorem mem_exceptionSublevels {i n : Nat} : n ∈ s.exceptionSublevels i
    ↔ ∃ d ∈ s.couplers, d.level.toNat = i ∧ d.exceptionPending.map Fin.val = some n := by
  simp only [State.exceptionSublevels, List.mem_filterMap, Option.ite_none_right_eq_some]

/-- The least element of a list of numbers. -/
theorem min?_of_least {l : List Nat} {n : Nat} (hn : n ∈ l) (hle : ∀ k ∈ l, n ≤ k) : l.min? = some n :=
  List.min?_eq_some_iff.mpr ⟨hn, hle⟩

theorem min?_of_none {l : List Nat} (h : ∀ k, k ∉ l) : l.min? = none :=
  List.min?_eq_none_iff.mpr (List.eq_nil_iff_forall_not_mem.mpr h)

/-- Out of the immediate tasks ACK clears V and Cf (45_system.md R304). -/
theorem execAck_deferred (h : s.powerFailActive = true ∨ s.HV = 0#16) :
    execAck s = .next ((s.setVC false false).ends 1) := by
  have hcond : (s.completed.powerFailActive || s.completed.HV = 0#16) = true := by
    rw [Bool.or_eq_true, decide_eq_true_eq]; exact h
  exact execute_ok (by rw [if_pos hcond]; rfl)

/-- In the task of level `i`, the leftmost bit at one of HV. -/
theorem execAck_level (hp : s.powerFailActive = false) {i : Nat} (hi : i < 16) (hb : bit s.HV i = true)
    (hleast : ∀ k < i, bit s.HV k = false) {t : State}
    (h : acknowledge i s.completed = t.completed) : execAck s = .next (t.ends 1) := by
  have hHV : s.HV ≠ 0#16 := fun e => by simp [e, bit_zero] at hb
  have hcond : ¬(s.completed.powerFailActive || s.completed.HV = 0#16) = true := by simp [hp, hHV]
  refine execute_ok ?_
  rw [if_neg hcond, State.completed_HV, leftmost_eq hi hb hleast, h]; rfl

/-- Settles O33: the level in progress is the leftmost bit of HV, and its sub-levels are the members of two lists. -/
theorem acknowledge_holds : Obligations.Acknowledge := by
  intro s
  refine ⟨execAck_deferred, fun hp hb => ?_, fun hp i hpos hi hb hleast N E hN hE => ⟨fun n hn hle => ?_,
    fun n hno hn hle => ?_, fun hno hne => ?_⟩⟩
  · exact execAck_level hp (by decide) hb nofun rfl
  all_goals
    have hne0 : i ≠ 0 := by omega
    have hNmem : ∀ k, k ∈ s.completed.normalSublevels i ↔ N k := fun k => mem_normalSublevels.trans (hN k).symm
    have hEmem : ∀ k, k ∈ s.completed.exceptionSublevels i ↔ E k := fun k => mem_exceptionSublevels.trans (hE k).symm
    refine execAck_level hp hi hb hleast ?_
    rw [acknowledge, if_neg hne0]
  · rw [min?_of_least ((hNmem n).mpr hn) fun k hk => hle k ((hNmem k).mp hk)]; rfl
  · rw [min?_of_none fun k hk => hno k ((hNmem k).mp hk),
      min?_of_least ((hEmem n).mpr hn) fun k hk => hle k ((hEmem k).mp hk)]; rfl
  · rw [min?_of_none fun k hk => hno k ((hNmem k).mp hk), min?_of_none fun k hk => hne k ((hEmem k).mp hk)]; rfl

/-! Accesses relative to SLO. -/

theorem allowed_eq_false {a : Word} (hd : s.cfg.hasDrps = true) (h : s.limit < a.toNat) :
    s.allowed s.cfg.hasDrps a = false := by
  simp [State.allowed, hd, h]

theorem resolveY_allowed (ha : s.allowed s.cfg.hasDrps s.r.Y = true) :
    resolve s.completed.cfg.hasDrps s.completed.r.Y s.completed = .ok (s.place s.cfg.hasDrps s.r.Y) s.completed :=
  resolve_allowed (s := s.completed) ha

theorem resolveY_beyond (hd : s.cfg.hasDrps = true) (h : s.limit < s.r.Y.toNat) :
    resolve s.completed.cfg.hasDrps s.completed.r.Y s.completed = .alarm .memoryProtection s.completed :=
  resolve_refused (s := s.completed) (allowed_eq_false hd h)

/-- Beyond the limit the instructions relative to SLO meet alarm 1 (45_system.md R323 to R325, R328, R331). -/
theorem exec_relative_beyond (hs : s.slave = false) (hd : s.cfg.hasDrps = true) (h : s.limit < s.r.Y.toNat) {i : Instr}
    (hi : i ∈ [Instr.lar, .star, .sbp, .rbp, .dbp]) : exec i s = (takeAlarm s.P .memoryProtection s.completed).outcome := by
  have hres := resolveY_beyond hd h
  simp only [List.mem_cons, List.not_mem_nil, or_false] at hi
  rcases hi with rfl | rfl | rfl | rfl | rfl
  · exact execute_privileged_alarm hs (by rw [relRead, hres]; rfl)
  · exact execute_privileged_alarm hs (by rw [relWrite, hres]; rfl)
  · exact execute_privileged_alarm hs (by rw [rewriteParity, hres]; rfl)
  · exact execute_privileged_alarm hs (by rw [rewriteParity, hres]; rfl)
  · exact execute_privileged_alarm hs (by rw [discoverBreakpoint, hres]; rfl)

/-- A sound word is exchanged with A. -/
theorem exchangeA_ok {pa : PAddr} (h : s.sound pa = true) :
    exchangeA pa s = .ok () ((s.store pa s.r.A).setReg .a (readWord s.mem pa)) := by
  rw [exchangeA, readAt_sound h, Res.bind_ok, writeAt_storable (sound_storable h)]; rfl

/-- XMR where it exists (45_system.md R335). -/
theorem execXmr_present (ho : s.cfg.hasXmr = true) : execXmr s = execute (fun s =>
    (resolve s.cfg.hasDrps s.r.Y s).bind fun pa s => (exchangeA pa s).bind fun _ s => finish s) s := by
  simp [execXmr, execute, ho]

/-- Settles O35: each access is resolved relative to SLO, and then one read, one write, or an exchange. -/
theorem relativeAccess : Obligations.RelativeAccess := by
  rintro s y rfl
  refine ⟨fun hs => ⟨fun hr => ?_, fun hw => ?_, fun hd hl i hi => exec_relative_beyond hs hd hl hi⟩,
    fun hx => ⟨fun hr => (execXmr_present hx).trans (execute_ok ?_),
      fun hd hl => (execXmr_present hx).trans (execute_alarm ?_)⟩⟩
  · exact execute_privileged_ok hs (by rw [State.completed_r, relRead_completed hr]; rfl)
  · exact execute_privileged_ok hs (by rw [State.completed_r, relWrite_completed hw]; rfl)
  · rw [resolveY_allowed (canRead_allowed hr), Res.bind_ok,
      exchangeA_ok (s := s.completed) (pa := s.place s.cfg.hasDrps s.r.Y) (canRead_sound hr)]
    rfl
  · rw [resolveY_beyond hd hl]; rfl

/-! Breakpoints. -/

section
variable {y : PAddr}

/-- A word is in bad parity for the breakpoint instructions (20_memory.md R73). -/
theorem badWord_iff : s.badWord y = true ↔ s.cfg.parity = true ∧ y.toNat ∈ s.badParity ∧ s.st.MAINT = false := by
  simp only [State.badWord, Bool.and_eq_true, List.contains_iff_mem, Bool.not_eq_true', and_assoc]

theorem breakpointWord_ok (he : s.cfg.exists y = true) (h : s.badWord y = false ∨ s.st.DEBUG = true) :
    breakpointWord y s = .ok () s := by
  rw [breakpointWord, he]
  rcases h with h | h <;> simp [h]

theorem breakpointWord_parity (he : s.cfg.exists y = true) (hb : s.badWord y = true) (hd : s.st.DEBUG = false) :
    breakpointWord y s = .alarm .parityError s := by
  rw [breakpointWord, he, hb, hd]; rfl

theorem breakpointWord_absent (he : s.cfg.exists y = false) (h04 : s.cfg.is0405 = false) :
    breakpointWord y s = .alarm .nonExistentMemory s := by
  rw [breakpointWord, he, h04]; rfl

theorem rewriteParity_ok (ha : s.allowed s.cfg.hasDrps s.r.Y = true) (hy : y = s.place s.cfg.hasDrps s.r.Y)
    (hw : breakpointWord y s.completed = .ok () s.completed) (bad : Bool) :
    rewriteParity bad s.completed = .ok () ((s.setParity y bad).ends 1) := by
  have hcomm : s.completed.setParity y bad = (s.setParity y bad).completed := by
    unfold State.setParity; rw [State.completed_cfg]; split <;> rfl
  rw [rewriteParity, resolveY_allowed ha, ← hy, Res.bind_ok, hw, Res.bind_ok, hcomm]; rfl

theorem rewriteParity_alarm (ha : s.allowed s.cfg.hasDrps s.r.Y = true) (hy : y = s.place s.cfg.hasDrps s.r.Y) {n : Alarm}
    (hw : breakpointWord y s.completed = .alarm n s.completed) (bad : Bool) :
    rewriteParity bad s.completed = .alarm n s.completed := by
  rw [rewriteParity, resolveY_allowed ha, ← hy, Res.bind_ok, hw]; rfl

/-- SBP and RBP of a word that raises nothing. -/
theorem exec_rewriteParity_ok (hs : s.slave = false) (ha : s.allowed s.cfg.hasDrps s.r.Y = true)
    (hy : y = s.place s.cfg.hasDrps s.r.Y) (hw : breakpointWord y s.completed = .ok () s.completed) :
    exec .sbp s = .next ((s.setParity y true).ends 1) ∧ exec .rbp s = .next ((s.setParity y false).ends 1) :=
  ⟨execute_privileged_ok hs (rewriteParity_ok ha hy hw true), execute_privileged_ok hs (rewriteParity_ok ha hy hw false)⟩

theorem exec_rewriteParity_alarm (hs : s.slave = false) (ha : s.allowed s.cfg.hasDrps s.r.Y = true)
    (hy : y = s.place s.cfg.hasDrps s.r.Y) {n : Alarm} (hw : breakpointWord y s.completed = .alarm n s.completed) :
    exec .sbp s = (takeAlarm s.P n s.completed).outcome ∧ exec .rbp s = (takeAlarm s.P n s.completed).outcome :=
  ⟨execute_privileged_alarm hs (rewriteParity_alarm ha hy hw true),
    execute_privileged_alarm hs (rewriteParity_alarm ha hy hw false)⟩

/-- DBP on the word at Y (45_system.md R325). -/
theorem discoverBreakpoint_eq (ha : s.allowed s.cfg.hasDrps s.r.Y = true) (hy : y = s.place s.cfg.hasDrps s.r.Y) :
    discoverBreakpoint s.completed
      = if !s.cfg.exists y && !s.cfg.is0405 then .ok () ((s.setVC true false).ends 1)
        else if s.cfg.parity && s.badParity.contains y.toNat then
          if !s.st.DEBUG && !s.st.MAINT then .alarm .parityError s.completed else .ok () ((s.setVC false true).ends 1)
        else if s.r.Y = 0#16 then .ok () ((s.setVC false false).ends 1)
        else .ok () (s.setReg .y (s.r.Y - 1#16)).pause := by
  rw [discoverBreakpoint, resolveY_allowed ha, ← hy]; rfl

end

/-- Settles O36: the word at Y by its existence, its mark and the modes. -/
theorem breakpoints : Obligations.Breakpoints := by
  intro s y hs ha hy
  have hdbp := discoverBreakpoint_eq ha hy
  refine ⟨fun he hp => ?_, fun he h04 => ?_, fun he hp => ⟨fun hok => ?_, fun hbad hm hd => ?_, fun hbad hok => ?_⟩,
    fun he h04 => ?_, fun he hgood => ?_⟩
  · have hgood : s.badWord y = false := by simp [State.badWord, hp]
    obtain ⟨hsbp, hrbp⟩ := exec_rewriteParity_ok hs ha hy (breakpointWord_ok (s := s.completed) he (.inl hgood))
    have hsame : ∀ b, s.setParity y b = s := fun b => by simp [State.setParity, hp]
    rw [hsame] at hsbp hrbp
    simpa only [List.forall_mem_cons] using ⟨hsbp, hrbp, nofun⟩
  · obtain ⟨hsbp, hrbp⟩ := exec_rewriteParity_alarm hs ha hy (breakpointWord_absent (s := s.completed) he h04)
    simpa only [List.forall_mem_cons] using ⟨hsbp, hrbp, nofun⟩
  · have hgood : s.badWord y = false ∨ s.st.DEBUG = true := by
      rw [← Bool.not_eq_true, badWord_iff]
      rcases hok with h | h | h <;> simp [h]
    obtain ⟨hsbp, hrbp⟩ := exec_rewriteParity_ok hs ha hy (breakpointWord_ok (s := s.completed) he hgood)
    have hmark : ∀ b, s.setParity y b
        = { s with badParity := if b then insertNat y.toNat s.badParity else removeNat y.toNat s.badParity } := fun b => by
      simp [State.setParity, hp, he]
    rw [hmark] at hsbp hrbp
    exact ⟨_, _, fun n => mem_insertNat, fun n => mem_removeNat.trans and_comm, hsbp, hrbp⟩
  · have hbw : s.badWord y = true := badWord_iff.mpr ⟨hp, hbad, hm⟩
    obtain ⟨hsbp, hrbp⟩ := exec_rewriteParity_alarm hs ha hy (breakpointWord_parity (s := s.completed) he hbw hd)
    have hdisc : exec .dbp s = (takeAlarm s.P .parityError s.completed).outcome :=
      execute_privileged_alarm hs (by simp [hdbp, he, hp, hbad, hm, hd])
    simpa only [List.forall_mem_cons] using ⟨hsbp, hrbp, hdisc, nofun⟩
  · exact execute_privileged_ok hs (by rcases hok with h | h <;> simp [hdbp, he, hp, hbad, h])
  · exact execute_privileged_ok hs (by simp [hdbp, he, h04])
  · have hexists : (!s.cfg.exists y && !s.cfg.is0405) = false := by rcases he with h | h <;> simp [h]
    have hmark : (s.cfg.parity && s.badParity.contains y.toNat) = false := by rcases hgood with h | h <;> simp [h]
    exact ⟨fun h0 => execute_privileged_ok hs (by rw [hdbp, hexists, hmark, if_neg nofun, if_neg nofun, if_pos h0]),
      fun h0 => execute_privileged_ok hs (by rw [hdbp, hexists, hmark, if_neg nofun, if_neg nofun, if_neg h0]; rfl)⟩

end Sys2Proof.Machine
end

section
/-! SUPPORT. The obligation on SST and RST: the image of ST and the mask of the bits written, position by position (45_system.md
R321, R322, 10_state.md R21, R22). -/

namespace Sys2Proof.Machine

variable {s : State} {c : Config}

/-! The positions of ST. -/

/-- The bits of ST with their positions, SCHED among them. -/
def namedBits (c : Config) : List (Nat × (Status → Bool)) := stBits c ++ [(c.stSched, Status.SCHED)]

/-- The value that a list of positions gives to position `i`. -/
def valueAt (l : List (Nat × (Status → Bool))) (t : Status) (i : Nat) : Bool := l.any fun b => decide (i = b.1) && b.2 t

theorem valueAt_of_mem {l : List (Nat × (Status → Bool))} (hl : (l.map Prod.fst).Nodup) (t : Status)
    {b : Nat × (Status → Bool)} (hb : b ∈ l) : valueAt l t b.1 = b.2 t := by
  rw [Bool.eq_iff_iff, valueAt, List.any_eq_true]
  constructor
  · rintro ⟨d, hd, h⟩
    simp only [Bool.and_eq_true, decide_eq_true_eq] at h
    obtain rfl : b = d := List.inj_on_of_nodup_map hl hb hd h.1
    exact h.2
  · exact fun h => ⟨b, hb, by simp [h]⟩

theorem valueAt_of_notMem {l : List (Nat × (Status → Bool))} (t : Status) {i : Nat} (hi : i ∉ l.map Prod.fst) :
    valueAt l t i = false := by
  rw [valueAt, List.any_eq_false]
  intro b hb h
  simp only [Bool.and_eq_true, decide_eq_true_eq] at h
  exact hi (h.1 ▸ List.mem_map_of_mem hb)

/-- What a legal configuration says of the positions of ST (10_state.md R21). -/
theorem stPositions_of_wf (h : c.wf = true) : c.stPositions.Nodup
    ∧ ∀ p ∈ c.stPositions, p < 16 ∧ p ≠ 0 ∧ p ≠ 1 ∧ p ≠ 2 ∧ p ≠ 6 ∧ p ≠ 7 ∧ p ≠ 8 := by
  simp only [Config.wf, Bool.and_eq_true, decide_eq_true_eq, List.all_eq_true] at h
  obtain ⟨⟨hnodup, hfree⟩, -⟩ := h
  refine ⟨hnodup, fun p hp => ?_⟩
  have := hfree p hp
  omega

theorem namedBits_nodup (h : c.wf = true) : ((namedBits c).map Prod.fst).Nodup := by
  obtain ⟨hnodup, hfree⟩ := stPositions_of_wf h
  simp only [Config.stPositions, List.forall_mem_cons] at hfree
  simp only [Config.stPositions, List.nodup_cons, List.mem_cons, List.not_mem_nil, or_false, not_or] at hnodup
  unfold namedBits stBits
  cases c.hasIpm <;> simp <;> grind

theorem position_lt (h : c.wf = true) : ∀ b ∈ namedBits c, b.1 < 16 := by
  obtain ⟨-, hfree⟩ := stPositions_of_wf h
  simp only [Config.stPositions, List.forall_mem_cons] at hfree
  obtain ⟨⟨hlcm, -⟩, ⟨hipm, -⟩, ⟨hiom, -⟩, ⟨hmaint, -⟩, ⟨hsched, -⟩, ⟨hstop, -⟩, ⟨hpop, -⟩, -⟩ := hfree
  unfold namedBits stBits
  cases c.hasIpm <;> simp [-Prod.forall, hlcm, hipm, hiom, hmaint, hsched, hstop, hpop]

theorem mem_namedBits {b : Nat × (Status → Bool)} (hb : b ∈ stBits c) : b ∈ namedBits c := List.mem_append_left _ hb

theorem sched_mem_namedBits (c : Config) : (c.stSched, Status.SCHED) ∈ namedBits c :=
  List.mem_append_right _ List.mem_cons_self

/-- SCHED has a position of its own. -/
theorem sched_notMem_stBits (h : c.wf = true) : c.stSched ∉ (stBits c).map Prod.fst := by
  have hnodup := namedBits_nodup h
  rw [namedBits, List.map_append, List.nodup_append] at hnodup
  exact fun hm => hnodup.2.2 _ hm _ List.mem_cons_self rfl

/-! The image of ST and the mask of the bits written. -/

/-- The image of ST, position by position (45_system.md R321). -/
theorem bit_stWord (h : s.cfg.wf = true) (i : Nat) : bit s.stWord i = valueAt (namedBits s.cfg) s.st i := by
  obtain ⟨-, hfree⟩ := stPositions_of_wf h
  simp only [Config.stPositions, List.forall_mem_cons] at hfree
  obtain ⟨⟨hlcm, -⟩, ⟨hipm, -⟩, ⟨hiom, -⟩, ⟨hmaint, -⟩, ⟨hsched, -⟩, ⟨hstop, -⟩, ⟨hpop, -⟩, -⟩ := hfree
  simp only [State.stWord, bit_or, bit_sWord, bit_setBit_zero _ _ _ hlcm, bit_setBit_zero _ _ _ hipm,
    bit_setBit_zero _ _ _ hiom, bit_setBit_zero _ _ _ hmaint, bit_setBit_zero _ _ _ hsched, bit_setBit_zero _ _ _ hstop,
    bit_setBit_zero _ _ _ hpop, bit_setBit_zero 8 _ _ (by decide), State.ipm]
  unfold valueAt namedBits stBits
  cases s.cfg.hasIpm <;> simp <;> ac_rfl

/-- SST and RST write the bits of ST but SCHED (45_system.md R321). -/
theorem bit_stWritable (h : c.wf = true) (i : Nat) : bit c.stWritable i = decide (i ∈ (stBits c).map Prod.fst) := by
  obtain ⟨-, hfree⟩ := stPositions_of_wf h
  simp only [Config.stPositions, List.forall_mem_cons] at hfree
  obtain ⟨⟨hlcm, -⟩, ⟨hipm, -⟩, ⟨hiom, -⟩, ⟨hmaint, -⟩, -, ⟨hstop, -⟩, ⟨hpop, -⟩, -⟩ := hfree
  unfold stBits Config.stWritable
  cases c.hasIpm <;> simp [bit_or, bit_bitMask, hlcm, hipm, hiom, hmaint, hstop, hpop] <;> ac_rfl

theorem bit_stWritable_of_mem (h : c.wf = true) {b : Nat × (Status → Bool)} (hb : b ∈ stBits c) :
    bit c.stWritable b.1 = true := by
  rw [bit_stWritable h, decide_eq_true_eq]; exact List.mem_map_of_mem hb

theorem bit_stWritable_of_notMem (h : c.wf = true) {i : Nat} (hi : i ∉ (stBits c).map Prod.fst) :
    bit c.stWritable i = false := by
  rw [bit_stWritable h, decide_eq_false_iff_not]; exact hi

theorem bit_stWord_of_mem (h : s.cfg.wf = true) {b : Nat × (Status → Bool)} (hb : b ∈ namedBits s.cfg) :
    bit s.stWord b.1 = b.2 s.st := by
  rw [bit_stWord h, valueAt_of_mem (namedBits_nodup h) s.st hb]

theorem bit_stWord_of_notMem (h : s.cfg.wf = true) {i : Nat} (hi : i ∉ (namedBits s.cfg).map Prod.fst) :
    bit s.stWord i = false := by
  rw [bit_stWord h, valueAt_of_notMem s.st hi]

/-! The load of ST. -/

theorem loadST_bit (s : State) (w : Word) : ∀ b ∈ stBits s.cfg, b.2 (s.loadST w).st = bit w b.1 := by
  unfold stBits
  cases h : s.cfg.hasIpm <;> simp [State.loadST, h]

/-- ST takes an image whose positions without a bit are 0 and whose SCHED is that of the state. -/
theorem loadST_imaged {w : Word} (hsched : bit w s.cfg.stSched = s.st.SCHED)
    (hzero : ∀ i, i ∉ (namedBits s.cfg).map Prod.fst → bit w i = false) : (s.loadST w).imaged w := by
  refine ⟨fun b hb => ?_, hzero⟩
  rcases List.mem_append.mp hb with hb | hb
  · exact (loadST_bit s w b hb).symm
  · obtain rfl := List.mem_singleton.mp hb
    exact hsched

/-- The state after SST or RST: a STOP that goes from 0 to 1 starts the latency (70_reset_and_hazards.md R558). -/
def State.statusWritten (s : State) (w : Word) : State :=
  ({ s with st := (s.loadST w).st, r := { s.r with A := w }
            stopDelay := if (s.loadST w).st.STOP = true ∧ s.st.STOP = false then s.cfg.stopLatency else s.stopDelay } : State).ends 1

theorem finish_writeST (s : State) (w : Word) : finish (s.completed.writeST w) = .ok () (s.statusWritten w) := by
  have hcond : (bit w s.cfg.stStop && !s.st.STOP) = true ↔ (s.loadST w).st.STOP = true ∧ s.st.STOP = false := by
    rw [Bool.and_eq_true, Bool.not_eq_true']; rfl
  rw [State.statusWritten, ← if_congr hcond rfl rfl]; rfl

/-- A STOP that does not go from 0 to 1 leaves the latency. -/
theorem statusWritten_of_stop {w : Word} (h : (s.loadST w).st.STOP = true → s.st.STOP = true) :
    s.statusWritten w = ({ s with st := (s.loadST w).st, r := { s.r with A := w } } : State).ends 1 := by
  have hno : ¬((s.loadST w).st.STOP = true ∧ s.st.STOP = false) := fun ⟨h1, h2⟩ => Bool.false_ne_true (h2.symm.trans (h h1))
  rw [State.statusWritten, if_neg hno]

theorem stop_mem_stBits (c : Config) : (c.stStop, Status.STOP) ∈ stBits c := by
  simp [stBits]

/-! The instructions. -/

section
variable {w : Word} (h : s.cfg.wf = true)
include h

/-- What an image of ST loaded by SST or RST does: `f` is what becomes of a bit written, by the bit of A at its position. -/
theorem writeST_spec {f : Bool → Bool → Bool}
    (hw : ∀ i, i < 16 → bit w i = if bit s.cfg.stWritable i then f (bit s.stWord i) (bit s.r.A i) else bit s.stWord i) :
    (∀ b ∈ stBits s.cfg, b.2 (s.loadST w).st = f (b.2 s.st) (bit s.r.A b.1)) ∧ (s.loadST w).imaged w := by
  have hmem : ∀ b ∈ stBits s.cfg, bit w b.1 = f (b.2 s.st) (bit s.r.A b.1) := fun b hb => by
    rw [hw _ (position_lt h b (mem_namedBits hb)), bit_stWritable_of_mem h hb, if_pos rfl,
      bit_stWord_of_mem h (mem_namedBits hb)]
  have hother : ∀ i, i ∉ (stBits s.cfg).map Prod.fst → bit w i = bit s.stWord i := fun i hi => by
    by_cases hlt : i < 16
    · rw [hw i hlt, bit_stWritable_of_notMem h hi, if_neg nofun]
    · rw [bit_ge w i hlt, bit_ge s.stWord i hlt]
  refine ⟨fun b hb => (loadST_bit s w b hb).trans (hmem b hb), loadST_imaged ?_ fun i hi => ?_⟩
  · rw [hother _ (sched_notMem_stBits h), bit_stWord_of_mem h (sched_mem_namedBits s.cfg)]
  · rw [hother i fun hm => hi ?_, bit_stWord_of_notMem h hi]
    rw [namedBits, List.map_append]; exact List.mem_append_left _ hm

end

/-- Settles O34: the two images differ from that of ST where A and the mask have ones, and ST takes them. -/
theorem statusAccess : Obligations.StatusAccess := by
  intro s hs h
  obtain ⟨hset, himage⟩ := writeST_spec (w := s.stWord ||| (s.r.A &&& s.cfg.stWritable)) (f := fun b a => b || a) h fun i _ => by
    rw [bit_or, bit_and]; cases bit s.cfg.stWritable i <;> simp
  obtain ⟨hreset, himage'⟩ := writeST_spec (w := s.stWord &&& ~~~(s.r.A &&& s.cfg.stWritable)) (f := fun b a => b && !a) h
    fun i hi => by
      rw [bit_and, bit_not _ _ hi, bit_and]; cases bit s.cfg.stWritable i <;> simp
  have hstop : (s.loadST (s.stWord &&& ~~~(s.r.A &&& s.cfg.stWritable))).st.STOP = true → s.st.STOP = true := fun e =>
    Bool.and_elim_left ((hreset _ (stop_mem_stBits s.cfg)).symm.trans e)
  exact ⟨_, _, execute_privileged_ok hs (finish_writeST s _), execute_privileged_ok hs (finish_writeST s _),
    fun b hb => ⟨hset b hb, hreset b hb⟩, rfl, rfl, himage, himage', rfl, statusWritten_of_stop hstop⟩

end Sys2Proof.Machine
end

section
/-! SUPPORT. The obligation on SIO: the operand in its two fields, and the coupler that answers (45_system.md R301, 61_io_debug.md
R511 to R513, R516, R517). -/

namespace Sys2Proof.Machine

variable {s : State} {key : BitVec 14} {d : Coupler} {m : MemRef}

/-! The operand. -/

/-- The operation of the number of bits 14 and 15 (61_io_debug.md R511). -/
def sioOpOf : Nat → SioOp
  | 0 => .dataIn
  | 1 => .dataOut
  | 2 => .statusIn
  | _ => .commandOut

theorem sioDecode_eq {w : Word} {op : Nat} (hw : w.toNat = 4 * key.toNat + op) (hop : op < 4) :
    sioDecode w = (sioOpOf op, key) := by
  have hlow : (w.extractLsb' 0 2).toNat = op := by
    rw [BitVec.extractLsb'_toNat, Nat.shiftRight_zero]; omega
  have hkey : w.extractLsb' 2 14 = key := by
    apply BitVec.eq_of_toNat_eq
    have := key.isLt
    rw [BitVec.extractLsb'_toNat, Nat.shiftRight_eq_div_pow]; omega
  rw [sioDecode, hlow, hkey]; rfl

/-! The coupler of a key. -/

theorem updateCoupler_none (h : s.coupler? key = none) (f : Coupler → Coupler) : s.updateCoupler key f = s := by
  rw [State.updateCoupler, h]

theorem updateCoupler_some (h : s.coupler? key = some d) (f : Coupler → Coupler) :
    s.updateCoupler key f = { s with couplers := putCoupler (f d) s.couplers } := by
  rw [State.updateCoupler, h]

/-- A coupler put in its own place changes nothing. -/
theorem putCoupler_self {l : List Coupler} (h : l.find? (fun e => e.key = key) = some d) : putCoupler d l = l := by
  have hkey : d.key = key := by simpa using List.find?_some h
  induction l with
  | nil => cases h
  | cons e l ih =>
    rw [List.find?_cons] at h
    split at h
    · cases h; rw [putCoupler, if_pos rfl]
    · rename_i hne
      rw [putCoupler, if_neg (by simpa [hkey] using hne), ih h]

theorem updateCoupler_same (h : s.coupler? key = some d) {f : Coupler → Coupler} (hf : f d = d) : s.updateCoupler key f = s := by
  rw [updateCoupler_some h, hf, putCoupler_self h]

/-! The exchange. -/

theorem updateCoupler_completed (s : State) (key : BitVec 14) (f : Coupler → Coupler) :
    s.completed.updateCoupler key f = (s.updateCoupler key f).completed := by
  have h : s.completed.coupler? key = s.coupler? key := rfl
  unfold State.updateCoupler
  rw [h]; split <;> rfl

theorem sioTransfer_completed (s : State) (p : SioOp × BitVec 14) : sioTransfer p s.completed = (sioTransfer p s).completed := by
  have h : s.completed.coupler? p.2 = s.coupler? p.2 := rfl
  unfold sioTransfer readData readStatus
  rw [h]
  split
  · split <;> simp only [updateCoupler_completed] <;> rfl
  · exact updateCoupler_completed s _ _
  · split <;> simp only [updateCoupler_completed] <;> rfl
  · exact updateCoupler_completed s _ _

/-- SIO out of slave mode (45_system.md R301). -/
theorem execSio_ok (hs : s.slave = false) (hm : s.operandOk m = true) {op : Nat}
    (hw : (s.operand m).toNat = 4 * key.toNat + op) (hop : op < 4) {t : State} (ht : sioTransfer (sioOpOf op, key) s = t) :
    exec (.sio m) s = .next (t.ends 1) :=
  execute_privileged_ok hs (by rw [readOperand_bind hm, sioDecode_eq hw hop, sioTransfer_completed, ht]; rfl)

/-! A device that does not answer. -/

theorem sioTransfer_absent (h : s.coupler? key = none) :
    sioTransfer (.dataIn, key) s = s.setReg .a 0#16 ∧ sioTransfer (.dataOut, key) s = s
      ∧ sioTransfer (.statusIn, key) s = s.setReg .a 0#16 ∧ sioTransfer (.commandOut, key) s = s := by
  refine ⟨?_, updateCoupler_none h _, ?_, updateCoupler_none h _⟩
  · simp only [sioTransfer, readData, h]
  · simp only [sioTransfer, readStatus, h]

/-! The four operations with the coupler `d`. -/

section
variable (h : s.coupler? key = some d)
include h

theorem sioTransfer_dataIn {v : Word} (hd : d.dataIn = some v) : sioTransfer (.dataIn, key) s
    = ({ s with couplers := putCoupler { d with normalPending := none } s.couplers } : State).setReg .a (d.useful v) := by
  simp only [sioTransfer, readData, h]
  rw [updateCoupler_some h, Coupler.served, hd]; rfl

theorem sioTransfer_dataIn_lacking (hd : d.dataIn = none) : sioTransfer (.dataIn, key) s = s.setReg .a 0#16 := by
  simp only [sioTransfer, readData, h]
  rw [updateCoupler_same h (by cases d; cases hd; rfl), hd]; rfl

theorem sioTransfer_dataOut (hd : d.dataOut ≠ none) : sioTransfer (.dataOut, key) s
    = { s with couplers := putCoupler { d with dataOut := some (d.useful s.r.A), normalPending := none } s.couplers } := by
  obtain ⟨v, hv⟩ := Option.ne_none_iff_exists'.mp hd
  rw [sioTransfer, writeData, updateCoupler_some h, Coupler.served, hv]; rfl

theorem sioTransfer_dataOut_lacking (hd : d.dataOut = none) : sioTransfer (.dataOut, key) s = s :=
  updateCoupler_same h (by cases d; cases hd; rfl)

theorem sioTransfer_statusIn {v : Word} (hd : d.statusIn = some v) : sioTransfer (.statusIn, key) s
    = ({ s with couplers := putCoupler { d with exceptionPending := none } s.couplers } : State).setReg .a v := by
  simp only [sioTransfer, readStatus, h]
  rw [updateCoupler_some h, hd]; rfl

theorem sioTransfer_statusIn_lacking (hd : d.statusIn = none) : sioTransfer (.statusIn, key) s = s.setReg .a 0#16 := by
  simp only [sioTransfer, readStatus, h]
  rw [updateCoupler_same h (by cases d; cases hd; rfl), hd]; rfl

theorem sioTransfer_commandOut (hd : d.command ≠ none) : sioTransfer (.commandOut, key) s
    = { s with couplers := putCoupler { d with command := some s.r.A } s.couplers } := by
  obtain ⟨v, hv⟩ := Option.ne_none_iff_exists'.mp hd
  rw [sioTransfer, writeCommand, updateCoupler_some h, hv]; rfl

theorem sioTransfer_commandOut_lacking (hd : d.command = none) : sioTransfer (.commandOut, key) s = s :=
  updateCoupler_same h (by cases d; cases hd; rfl)

end

/-- Settles O37: the operand names the operation and the coupler, whose registers are there or not. -/
theorem inputOutput : Obligations.InputOutput := by
  intro s m key op hs hm hw hop
  have hrun : ∀ t, sioTransfer (sioOpOf op, key) s = t → exec (.sio m) s = .next (t.ends 1) :=
    fun _ ht => execSio_ok hs hm hw hop ht
  refine ⟨fun h => ?_, fun d h f swap hf hswap => ?_⟩
  · obtain ⟨hin, hout, hstatus, hcommand⟩ := sioTransfer_absent h
    refine ⟨fun heven => hrun _ ?_, fun hodd => hrun _ ?_⟩
    · obtain rfl | rfl : op = 0 ∨ op = 2 := by omega
      · exact hin
      · exact hstatus
    · obtain rfl | rfl : op = 1 ∨ op = 3 := by omega
      · exact hout
      · exact hcommand
  · have huseful : ∀ v, d.useful v = f v := fun v => (hf v).symm
    refine ⟨?_, ?_, ?_, ?_, ?_, ?_, ?_, ?_⟩
    · rintro v rfl hd; exact hrun _ (by rw [hswap, ← huseful]; exact sioTransfer_dataIn h hd)
    · rintro rfl hd; exact hrun _ (sioTransfer_dataIn_lacking h hd)
    · rintro rfl hd; exact hrun _ (by rw [hswap, ← huseful]; exact sioTransfer_dataOut h hd)
    · rintro rfl hd; exact hrun _ (sioTransfer_dataOut_lacking h hd)
    · rintro v rfl hd; exact hrun _ (by rw [hswap]; exact sioTransfer_statusIn h hd)
    · rintro rfl hd; exact hrun _ (sioTransfer_statusIn_lacking h hd)
    · rintro rfl hd; exact hrun _ (by rw [hswap]; exact sioTransfer_commandOut h hd)
    · rintro rfl hd; exact hrun _ (sioTransfer_commandOut_lacking h hd)

end Sys2Proof.Machine
end

section
/-! SUPPORT. The obligation on HALT: its own execution, its periods, and an event that ends it (45_system.md R306, R311). -/

namespace Sys2Proof.Machine

variable {s : State}

/-! The execution of HALT. -/

theorem execHalt_one (hx : s.r.X = 1#16) : execHalt s = .next ((s.setReg .x 0#16).ends 1) :=
  execute_ok (by rw [State.completed_r, if_pos hx]; rfl)

/-- The periods left after the first one (45_system.md R306). -/
theorem execHalt_more (hx : s.r.X ≠ 1#16) {n : Nat} (hn : n = if s.r.X = 0#16 then 65536 else s.r.X.toNat) :
    execHalt s = .next { s with P := s.P + 1#16, haltLeft := n - 1, phase := .interrupted } := by
  have hleft : (if s.r.X = 0#16 then 65535 else s.r.X.toNat - 1) = n - 1 := by rw [hn]; split <;> rfl
  exact execute_ok (by rw [State.completed_r, if_neg hx, hleft]; rfl)

/-! The periods. -/

/-- The state in which a HALT has ended with `x` in X. -/
def State.haltEnded (s : State) (x : Word) : State := { (s.setReg .x x).completed with haltLeft := 0 }

/-- The end of a HALT is that of an instruction (45_system.md R311). -/
theorem endCompleted_haltEnded (hb : s.breakSeen = false) (x : Word) :
    (s.stepArmed = false → (endCompleted s.stepArmed (s.haltEnded x)).outcome = .next (s.haltEnded x))
    ∧ (s.stepArmed = true → (endCompleted s.stepArmed (s.haltEnded x)).outcome
      = (raiseAlarm .singleStep { s.haltEnded x with stepArmed := false }).outcome) :=
  ⟨fun ha => by rw [endCompleted_ok (s := s.haltEnded x) ha hb]; rfl,
    fun ha => by rw [endCompleted_step (s := s.haltEnded x) ha hb]⟩

/-- A machine in a HALT that runs, with no event first and no breakpoint remembered. -/
structure State.Halting (s : State) (r : Nat) : Prop where
  left : s.haltLeft = r
  positive : 0 < r
  noInput : s.inputs = []
  running : s.st.STOP = false ∧ s.alarmStop = false
  noBreak : s.breakSeen = false

variable {r : Nat}

theorem State.Halting.step (h : s.Halting r) : step s = runningStep exec s :=
  step_running h.noInput h.running.1 h.running.2

/-- A period goes by in a step (log 20). -/
theorem step_halt_idle (h : s.Halting r) (he : s.electable = .idle) : step s = haltStep s := by
  have hleft : s.haltLeft ≠ 0 := by rw [h.left]; exact h.positive.ne'
  rw [h.step, runningStep, he]; exact if_pos hleft

/-- The last period. -/
theorem step_halt_last (h : s.Halting 1) (he : s.electable = .idle) :
    step s = (endCompleted s.stepArmed (s.haltEnded 0#16)).outcome := by
  rw [step_halt_idle h he, haltStep, if_pos h.left]; rfl

theorem step_halt_next (h : s.Halting (r + 2)) (he : s.electable = .idle) : step s = .next { s with haltLeft := r + 1 } := by
  have hne : s.haltLeft ≠ 1 := by rw [h.left]; omega
  rw [step_halt_idle h he, haltStep, if_neg hne, h.left]; rfl

theorem steps_one (s : State) : steps 1 s = step s := by
  rw [steps]; cases step s <;> rfl

/-- The periods left go by one a step (45_system.md R306). -/
theorem steps_halt (h : s.Halting r) (he : s.electable = .idle) :
    steps r s = (endCompleted s.stepArmed (s.haltEnded 0#16)).outcome := by
  induction r generalizing s with
  | zero => exact absurd h.positive (Nat.lt_irrefl 0)
  | succ r ih =>
    cases r with
    | zero => rw [steps_one, step_halt_last h he]
    | succ r =>
      have hnext : ({ s with haltLeft := r + 1 } : State).Halting (r + 1) := { h with left := rfl, positive := Nat.succ_pos r }
      rw [steps, step_halt_next h he]
      exact ih hnext he

/-- A task to start ends the HALT in a step of its own, r periods being left (45_system.md R306, log 20). -/
theorem step_halt_event (h : s.Halting r) (he : s.electable = .powerFail ∨ ∃ j, s.electable = .level j) :
    step s = (endCompleted s.stepArmed (s.haltEnded (BitVec.ofNat 16 r))).outcome := by
  have hleft : s.haltLeft ≠ 0 := by rw [h.left]; exact h.positive.ne'
  have hends : haltEnds s = endCompleted s.stepArmed (s.haltEnded (BitVec.ofNat 16 r)) := by
    rw [haltEnds, if_neg hleft, State.endHalt, if_neg hleft, h.left]; rfl
  have hstart : ∀ start, startTask start s = (endCompleted s.stepArmed (s.haltEnded (BitVec.ofNat 16 r))).outcome := fun start => by
    rw [startTask, if_pos hleft, hends]
  rw [h.step, runningStep]
  rcases he with he | ⟨j, he⟩
  · rw [he, ← hstart powerFailSequence]; exact if_neg (h.noBreak ▸ Bool.false_ne_true)
  · rw [he, ← hstart (launch j)]; exact if_neg (h.noBreak ▸ Bool.false_ne_true)

/-- Settles O38: by induction on the periods left; an event ends the HALT as its last period does. -/
theorem haltCounts : Obligations.HaltCounts := by
  refine ⟨fun s n hn => ⟨fun h1 => execHalt_one ?_, fun h1 => execHalt_more ?_ hn⟩,
    fun s r ended hleft hr hin hst ha hb hended => ?_⟩
  · apply BitVec.eq_of_toNat_eq
    split at hn
    · omega
    · rw [← hn, h1]; rfl
  · intro hx
    rw [hx, if_neg (by decide)] at hn
    exact absurd hn (Nat.ne_of_gt h1)
  · have h : s.Halting r := ⟨hleft, hr, hin, ⟨hst, ha⟩, hb⟩
    obtain rfl : ended = s.haltEnded := funext hended
    refine ⟨fun he => ?_, fun he => ?_⟩
    · rw [steps_halt h he]; exact endCompleted_haltEnded hb _
    · rw [step_halt_event h he]; exact endCompleted_haltEnded hb _

end Sys2Proof.Machine
end

section
/-! SUPPORT. The obligation on ACQ and STEP: the end of the immediate task, then the election, one lemma a branch (45_system.md R302,
R311, 60_exceptions.md R453, R456, R475). -/

namespace Sys2Proof.Machine

variable {s t z : State}

/-! The end of the immediate task. -/

/-- The state in which the task of level `i` has been left for the one it interrupted (45_system.md R302). -/
def State.acquitted (s : State) (i : Nat) : State :=
  ({ s.unmask.ends 1 with HV := setBit s.HV i false } : State).exchanged (s.psthOf i)

/-- `LeaveImmediate(i)` where nothing is raised (45_system.md R302). -/
theorem leaveImmediate_ok {i : Nat} (h : s.calm (0x0002#16 :: contextAt (s.psthOf i))) :
    leaveImmediate i s = .ok () (({ s with HV := setBit s.HV i false } : State).exchanged (s.psthOf i)) := by
  obtain ⟨hpsth, hcontext⟩ := calm_cons.mp h
  rw [leaveImmediate, psth_ok (by exact hpsth), Res.bind_ok]
  exact exchangePartial_ok hcontext

theorem acquit_eq {i : Nat} (hi : i < 16) (hb : bit s.HV i = true) (hleast : ∀ k < i, bit s.HV k = false)
    (hc : s.calm (0x0002#16 :: contextAt (s.psthOf i))) : acquit s.completed = electAfterAcq (s.acquitted i) := by
  have hleave : leaveImmediate i (s.unmask.ends 1) = .ok () (s.acquitted i) := leaveImmediate_ok (s := s.unmask.ends 1) hc
  rw [acquit, State.completed_HV, leftmost_eq hi hb hleast]
  exact Res.bind_of_ok hleave rfl

theorem HV_ne_zero {i : Nat} (hb : bit s.HV i = true) : s.HV ≠ 0#16 := fun e => by simp [e, bit_zero] at hb

/-- ACQ and STEP end as the election does; STEP arms alarm 7 (45_system.md R311). -/
theorem exec_acq_step (hs : s.slave = false) (hp : s.powerFailActive = false) (hHV : s.HV ≠ 0#16)
    (h : acquit s.completed = .ok () z) : exec .acq s = .next z ∧ exec .step s = .next { z with stepArmed := true } := by
  refine ⟨execute_privileged_ok hs ?_, execute_privileged_ok hs ?_⟩
  · rw [State.completed_powerFailActive, hp, if_neg nofun, State.completed_HV, if_neg hHV, h]
  · have hcond : ¬(s.completed.powerFailActive || s.completed.HV = 0#16) = true := by simp [hp, hHV]
    rw [if_neg hcond, h]; rfl

/-! The election (45_system.md R302). -/

theorem electAfterAcq_powerFail (hp : t.powerFailPending = true) (hc : t.calm (0x0006#16 :: contextAt (t.abs 0x0006#16))) :
    electAfterAcq t = .ok () (({ t with powerFailPending := false, powerFailActive := true
                                        st := { t.st with IOM := true, IPM := t.cfg.hasIpm, LCM := true } } : State).exchanged
      (t.abs 0x0006#16)) := by
  obtain ⟨hword, hcontext⟩ := calm_cons.mp hc
  rw [electAfterAcq, if_pos hp, powerFailSequence, physRead_ok (by exact hword), Res.bind_ok]
  exact exchangePartial_ok hcontext

/-- The service of an inter-processor interrupt that meets an alarm. -/
theorem electAfterAcq_ipi_alarm (hp : t.powerFailPending = false) (hi : t.ipiRequest = true) {n : Alarm} {u v : State}
    (hserve : serveIpi t = .alarm n u) (hraise : raiseAlarm n { u with phase := .abandoned } = .ok () v) :
    electAfterAcq t = .ok () v := by
  rw [electAfterAcq, hp, if_neg nofun, if_pos hi, takeIpi_alarm hserve hraise]; rfl

theorem electAfterAcq_level (hp : t.powerFailPending = false) (hi : t.ipiRequest = false) :
    electAfterAcq t = electLevelAfterAcq t := by
  rw [electAfterAcq, hp, if_neg nofun, hi, if_neg nofun]

/-- The level to start is the least pending and unmasked one, above the tasks left (60_exceptions.md R453). -/
theorem electLevel_eq_level (hm : t.st.IOM = false) {j : Nat} (hw : t.wantedLevel = some j) (hfree : ∀ k ≤ j, bit t.HV k = false) :
    t.electLevel = .level j := by
  have hj : j ≤ 15 := (wantedLevel_eq_some.mp hw).2.1
  rw [State.electLevel, hm, hw, if_neg nofun]; exact if_pos ((leftmost_lt hj).mpr hfree)

/-- No level is to be started: each pending one is masked, or not above the tasks left (60_exceptions.md R453). -/
theorem electLevel_eq_idle (h : ∀ l, 1 ≤ l → l < 16 → t.pending l = true → bit t.IM l = true ∨ ∃ k ≤ l, bit t.HV k = true) :
    t.electLevel = .idle := by
  rw [State.electLevel]
  split
  · rfl
  · split
    · rename_i j hw
      obtain ⟨h1, h15, hpend, hmask, -⟩ := wantedLevel_eq_some.mp hw
      obtain ⟨k, hk, hbusy⟩ := (h j h1 (by omega) hpend).resolve_left (by rw [hmask]; exact Bool.false_ne_true)
      refine if_neg fun hlt => ?_
      have hfree := (leftmost_lt h15).mp hlt k hk
      exact Bool.false_ne_true (hfree.symm.trans hbusy)
    · rfl

theorem electLevelAfterAcq_level {j : Nat} (he : t.electLevel = .level j) (hc : t.calm (0x0002#16 :: contextAt (t.psthOf j)))
    (hm : t.psthMaster j) :
    electLevelAfterAcq t = .ok () (({ t with HV := setBit t.HV j true } : State).exchanged (t.psthOf j)) := by
  rw [electLevelAfterAcq, he]; exact launch_ok hc hm

/-- Immediate tasks are left, or the scheduler is absent: the task resumed goes on. -/
theorem electLevelAfterAcq_resumes (he : t.electLevel = .idle) (h : t.HV ≠ 0#16 ∨ t.cfg.hasSched = false) :
    electLevelAfterAcq t = .ok () t := by
  have hcond : ¬(t.HV = 0#16 && t.cfg.hasSched) = true := by rcases h with h | h <;> simp [h]
  rw [electLevelAfterAcq, he]; exact if_neg hcond

/-- With no immediate task left a deferred one is elected. -/
theorem electLevelAfterAcq_deferred (he : t.electLevel = .idle) (hHV : t.HV = 0#16) (ho : t.cfg.hasSched = true)
    (hx : t.cfg.exists 0x0000F#20 = true) (hok : t.electionOk) : electLevelAfterAcq t
      = .ok () { t.elects.store 0x0000F#20 (Config.freeWord t.freeCount) with freeCount := t.freeCount + 1 } := by
  have hcond : (t.HV = 0#16 && t.cfg.hasSched) = true := by simp [hHV, ho]
  have hagain : electAgain t = .ok () t.elects.scribbleWsched := by
    rw [electAgain, if_pos hcond, reschedule_ok hok]; rfl
  rw [electLevelAfterAcq, he]
  exact hagain.trans (by rw [scribbleWsched_eq (by rw [elects_cfg]; exact hx), elects_freeCount])

/-! ACQ in a deferred task. -/

/-- It is the epilogue of a scheduler instruction (45_system.md R302). -/
theorem execAcq_deferred (hs : s.slave = false) (hp : s.powerFailActive = false) (hHV : s.HV = 0#16)
    (ho : s.cfg.hasSched = true) (h : s.schedulable) : ∃ v, exec .acq s = .next (s.epilogue v) := by
  obtain ⟨v, hv⟩ := schedEpilogue_ok h
  have himm : ¬s.inImmediate = true := by simp [State.inImmediate, hp, hHV]
  refine ⟨v, execute_privileged_ok hs ?_⟩
  rw [State.completed_powerFailActive, hp, if_neg nofun, State.completed_HV, if_pos hHV, acquitDeferred, State.completed_cfg,
    if_pos ho, ← hv, schedEpilogue]
  exact congrArg (Res.bind · fun _ s => .ok () s.scribbleWsched) (if_neg himm).symm

/-- Settles O41: ACQ and STEP come to the election, whose branches are told apart by what is pending. -/
theorem acquitReturns : Obligations.AcquitReturns := by
  intro s hs hp
  refine ⟨fun i hi hb hleast hc t goes ht hgoes => ?_, fun hHV ho h => execAcq_deferred hs hp hHV ho h⟩
  have hgo : ∀ z, electAfterAcq t = .ok () z → goes z := fun z hz => (hgoes z).mpr
    (exec_acq_step hs hp (HV_ne_zero hb) ((acquit_eq hi hb hleast hc).trans (by rw [← hz, ht]; rfl)))
  have hpend : t.powerFailPending = s.powerFailPending := by rw [ht]; rfl
  have hipi : t.ipiRequest = s.ipiRequest := by rw [ht]; rfl
  have hcfg : t.cfg = s.cfg := by rw [ht]; rfl
  have hfree : t.freeCount = s.freeCount := by rw [ht]; rfl
  have hIOM : t.st.IOM = false := by rw [ht]; rfl
  have hpending : ∀ l, t.pending l = s.pending l := fun l => by rw [ht]; rfl
  have hIM : t.IM = s.IM := by rw [ht]; rfl
  refine ⟨fun hpf hcalm => ?_, fun hpf hi n u v hserve hraise => ?_, fun hpf hi => ⟨fun j h1 h16 hpj hmj hleastj hfreej hcj hmaster => ?_,
    fun hno => ⟨fun hor => ?_, fun hHV ho hx hok => ?_⟩⟩⟩
  · exact hgo _ (hcfg ▸ electAfterAcq_powerFail (hpend.trans hpf) hcalm)
  · exact hgo _ (electAfterAcq_ipi_alarm (hpend.trans hpf) (hipi.trans hi) hserve hraise)
  · have hwanted : t.wantedLevel = some j := wantedLevel_eq_some.mpr
      ⟨h1, by omega, (hpending j).trans hpj, hIM ▸ hmj, fun k hk hkj hpk => hIM ▸ hleastj k hk hkj ((hpending k).symm.trans hpk)⟩
    exact hgo _ ((electAfterAcq_level (hpend.trans hpf) (hipi.trans hi)).trans
      (electLevelAfterAcq_level (electLevel_eq_level hIOM hwanted hfreej) hcj hmaster))
  all_goals
    have hidle : t.electLevel = .idle := electLevel_eq_idle fun l h1 h16 hpl =>
      hIM ▸ hno l h1 h16 ((hpending l).symm.trans hpl)
    have helect := electAfterAcq_level (hpend.trans hpf) (hipi.trans hi)
  · exact hgo _ (helect.trans (electLevelAfterAcq_resumes hidle (hcfg ▸ hor)))
  · exact ⟨_, hgo _ (helect.trans (hfree ▸ electLevelAfterAcq_deferred hidle hHV (hcfg ▸ ho) (hcfg ▸ hx) hok))⟩

end Sys2Proof.Machine
end

section
/-! SUPPORT. The obligation on the service of the inter-processor interrupt: the two boxes, then the wake-up (45_system.md R303,
60_exceptions.md R468). -/

namespace Sys2Proof.Machine

variable {s t u v : State} {b box : Word} {pa : PAddr}

/-! ABOX2. -/

theorem serveAbox2_lacking (ho : u.cfg.hasXmr = false) : serveAbox2 u = .ok false u := by
  rw [serveAbox2, ho]; rfl

theorem serveAbox2_empty (ho : u.cfg.hasXmr = true) (hword : u.sound (absolute 0x001E#16) = true) (hb : u.abs 0x001E#16 = 0#16) :
    serveAbox2 u = .ok false u := by
  rw [serveAbox2, ho, if_neg nofun, physRead_ok hword, Res.bind_ok, if_pos hb]

/-- The box that word '001E leads to. -/
theorem serveAbox2_box (ho : u.cfg.hasXmr = true) (hword : u.sound (absolute 0x001E#16) = true) (hb : u.abs 0x001E#16 ≠ 0#16)
    (hpa : pa = basedEA (u.abs 0x001E#16) (BitVec.ofNat 16 u.cfg.procId)) (hsound : u.sound pa = true) :
    serveAbox2 u = if readWord u.mem pa = 0x8000#16 then .ok true (u.store pa 0#16) else .ok false u := by
  subst hpa
  rw [serveAbox2, ho, if_neg nofun, physRead_ok hword, Res.bind_ok, if_neg hb, readAt_sound hsound, Res.bind_ok,
    writeAt_storable (sound_storable hsound)]
  rfl

/-- ABOX2 wakes nobody: no such box, or an empty word '001E, or a box that does not hold '8000. -/
theorem serveAbox2_idle (hb : b = u.abs 0x001E#16) (hpa : pa = basedEA b (BitVec.ofNat 16 u.cfg.procId))
    (hidle : u.cfg.hasXmr = false ∨ (u.sound (absolute 0x001E#16) = true
      ∧ (b = 0#16 ∨ (u.sound pa = true ∧ readWord u.mem pa ≠ 0x8000#16)))) : serveAbox2 u = .ok false u := by
  subst hb
  by_cases ho : u.cfg.hasXmr = true
  · obtain hno | ⟨hword, hidle⟩ := hidle
    · exact serveAbox2_lacking hno
    · by_cases hempty : u.abs 0x001E#16 = 0#16
      · exact serveAbox2_empty ho hword hempty
      · obtain ⟨hsound, hne⟩ := hidle.resolve_left hempty
        rw [serveAbox2_box ho hword hempty hpa hsound, if_neg hne]
  · exact serveAbox2_lacking (Bool.eq_false_iff.mpr ho)

/-! The mailbox. -/

section
variable (hc : t.calm [0x000E#16, box]) (hbox : box = t.abs 0x000E#16 + BitVec.ofNat 16 t.cfg.procId)
include hc hbox

/-- The mailbox is read; an empty one is left (45_system.md R303). -/
theorem serveMailbox_eq : serveMailbox t = if t.abs box = 0#16 then .ok false t
    else (physRead (t.abs box) t).bind fun w s =>
      if w = 0x8000#16 then (physWrite box 0#16 s).bind fun _ s => .ok true s
      else (channelCommand (t.abs box) s).bind fun _ s => (physWrite box 0#16 s).bind fun _ s => .ok false s := by
  rw [serveMailbox, physRead_ok (hc _ List.mem_cons_self), Res.bind_ok, ← hbox, serveBox,
    physRead_ok (hc _ (List.mem_cons_of_mem _ List.mem_cons_self)), Res.bind_ok]

theorem serveMailbox_empty (hm : t.abs box = 0#16) : serveMailbox t = .ok false t := by
  rw [serveMailbox_eq hc hbox, if_pos hm]

variable (hm : t.abs box ≠ 0#16) (hsound : t.sound (absolute (t.abs box)) = true)
include hm hsound

theorem serveMailbox_wakeUp (hw : t.abs (t.abs box) = 0x8000#16) :
    serveMailbox t = .ok true (t.store (absolute box) 0#16) := by
  have hstorable : t.storable (absolute box) = true := sound_storable (hc _ (List.mem_cons_of_mem _ List.mem_cons_self))
  rw [serveMailbox_eq hc hbox, if_neg hm, physRead_ok hsound, Res.bind_ok, if_pos hw, physWrite_ok hstorable, Res.bind_ok]

theorem serveMailbox_command (hw : t.abs (t.abs box) ≠ 0x8000#16) (hcommand : channelCommand (t.abs box) t = .ok () v)
    (hstorable : v.storable (absolute box) = true) : serveMailbox t = .ok false (v.store (absolute box) 0#16) := by
  rw [serveMailbox_eq hc hbox, if_neg hm, physRead_ok hsound, Res.bind_ok, if_neg hw, hcommand, Res.bind_ok,
    physWrite_ok hstorable, Res.bind_ok]

end

/-! The service. -/

/-- Both boxes are examined; a wake-up is lost in the alarm task, and does not exist on a 04/05 (60_exceptions.md R468). -/
theorem serveIpi_eq {wake wake' : Bool} (h2 : serveAbox2 { s with ipiRequest := false } = .ok wake t)
    (h : serveMailbox t = .ok wake' v) :
    serveIpi s = if (wake || wake') && !v.inAlarmTask && !v.cfg.is0405 then .alarm .wakeUp v else .ok () v := by
  rw [serveIpi, h2, Res.bind_ok, h, Res.bind_ok]

/-- A machine that runs serves an inter-processor interrupt in its next step, no HALT being in progress. -/
structure State.ServesIpi (s : State) : Prop where
  noInput : s.inputs = []
  running : s.st.STOP = false ∧ s.alarmStop = false
  noHalt : s.haltLeft = 0
  noBreak : s.breakSeen = false
  elected : s.electable = .ipi

theorem State.ServesIpi.step (h : s.ServesIpi) : step s = ipiStep s := by
  rw [step_running h.noInput h.running.1 h.running.2, runningStep, h.elected]
  exact if_neg (h.noBreak ▸ Bool.false_ne_true)

/-- The service without an alarm ends the step. -/
theorem step_ipi_ok (h : s.ServesIpi) (hserve : serveIpi s = .ok () v) (hb : v.breakSeen = false) : step s = .next v := by
  rw [h.step, ipiStep, hserve]
  exact congrArg Res.outcome (actOnBreak_ok hb)

/-- Where no long instruction is cut, an alarm from outside is an alarm and nothing more. -/
theorem raiseOutside_eq (hhalt : v.haltLeft = 0) (hheld : v.held = []) (n : Alarm) : raiseOutside n v = raiseAlarm n v := by
  have hend : v.endHalt = v := by rw [State.endHalt, if_pos hhalt]
  rw [raiseOutside, hend, hhalt, hheld]
  simp

/-- The wake-up is alarm 6 (60_exceptions.md R468). -/
theorem step_ipi_wakeUp (h : s.ServesIpi) (hserve : serveIpi s = .alarm .wakeUp v) (hhalt : v.haltLeft = 0) (hheld : v.held = [])
    (hready : v.AlarmReady) : step s = .next (v.alarmTaken .wakeUp) := by
  rw [h.step, ipiStep, hserve]
  dsimp only
  rw [if_neg (fun e => e h.noHalt), raiseOutside_eq hhalt hheld, raiseAlarm_ok hready]; rfl

/-- A service that wakes the processor and leaves the state `v`. -/
theorem step_woken (h : s.ServesIpi) {wake wake' : Bool} (h2 : serveAbox2 { s with ipiRequest := false } = .ok wake t)
    (hbox : serveMailbox t = .ok wake' v) (hwake : (wake || wake') = true) (hcfg : v.cfg = s.cfg) (hHV : v.HV = s.HV)
    (hheld : v.held = []) (hhalt : v.haltLeft = 0) (hb : v.breakSeen = false) :
    (bit s.HV 0 = true ∨ s.cfg.is0405 = true → step s = .next v)
    ∧ (bit s.HV 0 = false → s.cfg.is0405 = false → v.AlarmReady → step s = .next (v.alarmTaken .wakeUp)) := by
  have hserve := serveIpi_eq h2 hbox
  rw [State.inAlarmTask, hwake, hcfg, hHV] at hserve
  refine ⟨fun hlost => step_ipi_ok h ?_ hb, fun hHV0 h04 hready => step_ipi_wakeUp h ?_ hhalt hheld hready⟩
  · rw [hserve]; rcases hlost with e | e <;> simp [e]
  · rw [hserve, hHV0, h04]; rfl

/-- A service that does not wake the processor. -/
theorem step_not_woken (h : s.ServesIpi) (h2 : serveAbox2 { s with ipiRequest := false } = .ok false t)
    (hbox : serveMailbox t = .ok false v) (hb : v.breakSeen = false) : step s = .next v :=
  step_ipi_ok h (serveIpi_eq h2 hbox) hb

/-- Settles O45: ABOX2 leaves `t`, the mailbox is examined there, and the step ends with the wake-up if one of them asks for it. -/
theorem ipiService : Obligations.IpiService := by
  intro s hin hst ha hhalt hb hheld he u b pa hu hbase hpa wake t habox box m woken hbox hm hcalm hwoken
  have hs : s.ServesIpi := ⟨hin, ⟨hst, ha⟩, hhalt, hb, he⟩
  have h2 : serveAbox2 { s with ipiRequest := false } = .ok wake t := by
    subst hu
    obtain ⟨rfl, rfl, hidle⟩ | ⟨rfl, rfl, ho, hword, hne, hsound, hwake⟩ := habox
    · exact serveAbox2_idle hbase hpa hidle
    · subst hbase
      exact (serveAbox2_box (u := { s with ipiRequest := false }) ho hword hne hpa hsound).trans (if_pos hwake)
  have hsame : t.cfg = s.cfg ∧ t.HV = s.HV ∧ t.held = [] ∧ t.haltLeft = 0 ∧ t.breakSeen = false := by
    rcases habox with ⟨-, rfl, -⟩ | ⟨-, rfl, -⟩ <;> rw [hu] <;> exact ⟨rfl, rfl, hheld, hhalt, hb⟩
  obtain ⟨hcfg, hHV, htheld, hthalt, htb⟩ := hsame
  have hbox' : box = t.abs 0x000E#16 + BitVec.ofNat 16 t.cfg.procId := by rw [hcfg]; exact hbox
  subst hm
  refine ⟨fun hm => ⟨?_, ?_⟩, fun hm hsound => ⟨fun hw => ?_, fun hw v hcommand hvb hstorable => ⟨?_, ?_⟩⟩⟩
  · rintro rfl; exact step_not_woken hs h2 (serveMailbox_empty hcalm hbox' hm) htb
  · rintro rfl
    exact (hwoken t).mpr (step_woken hs h2 (serveMailbox_empty hcalm hbox' hm) rfl hcfg hHV htheld hthalt htb)
  · exact (hwoken _).mpr (step_woken hs h2 (serveMailbox_wakeUp hcalm hbox' hm hsound hw) (Bool.or_true _) hcfg hHV htheld hthalt htb)
  · rintro rfl; exact step_not_woken hs h2 (serveMailbox_command hcalm hbox' hm hsound hw hcommand hstorable) hvb
  · rintro rfl hvcfg hvHV hvheld hvhalt
    exact (hwoken _).mpr (step_woken hs h2 (serveMailbox_command hcalm hbox' hm hsound hw hcommand hstorable) rfl hvcfg hvHV
      hvheld hvhalt hvb)

end Sys2Proof.Machine
end

section
/-! SUPPORT. The numbers of the floating-point operator: packing, the rounding of an exact quotient, comparison and FIX, by
rational value (46_float.md R341, R344, R355). -/

namespace Sys2Proof.Machine

variable {x y : Word × Word} {m e k : Int}

/-! Mantissa, exponent and packing. -/

theorem append_extracts (v : BitVec 24) : v.extractLsb' 16 8 ++ v.extractLsb' 0 16 = v := by
  have hv := v.isLt
  apply BitVec.eq_of_toNat_eq
  rw [toNat_join, toNat_extract, toNat_extract]
  omega

theorem mant_bounds (a b : Word) : -8388608 ≤ mant a b ∧ mant a b < 8388608 :=
  ⟨BitVec.le_toInt (hi a ++ b), BitVec.toInt_lt (x := hi a ++ b)⟩

theorem mant_pack (e : Int) (hlo : -8388608 ≤ m) (hhi : m < 8388608) : mant (pack m e).1 (pack m e).2 = m := by
  rw [mant, pack, hi_ofBytes, append_extracts, BitVec.toInt_ofInt]
  exact Int.bmod_eq_of_le hlo hhi

@[simp] theorem lo_pack (m e : Int) : lo (pack m e).1 = BitVec.ofInt 8 e := lo_ofBytes _ _

/-- Packing the mantissa and the exponent of a number gives the number back. -/
theorem pack_mant_expo (x : Word × Word) : pack (mant x.1 x.2) (expo x.1) = x := by
  have hx : (hi x.1 ++ x.2).extractLsb' 16 8 = hi x.1 ∧ (hi x.1 ++ x.2).extractLsb' 0 16 = x.2 := by
    have hb := x.2.isLt
    have ha := (hi x.1).isLt
    constructor <;> apply BitVec.eq_of_toNat_eq <;> rw [toNat_extract, toNat_join] <;> omega
  rw [pack, mant, expo, BitVec.ofInt_toInt, BitVec.ofInt_toInt, hx.1, hx.2, ofBytes_hi_lo]

/-! The opposite (R342). -/

theorem lo_floatNeg (x : Word × Word) : lo (floatNeg x).1 = lo x.1 := by
  rw [floatNeg, lo_pack, expo, BitVec.ofInt_toInt]

theorem floatValue_floatNeg (h : mant x.1 x.2 ≠ -8388608) : floatValue (floatNeg x) = -floatValue x := by
  have hb := mant_bounds x.1 x.2
  have hm : mant (floatNeg x).1 (floatNeg x).2 = -mant x.1 x.2 := mant_pack _ (by omega) (by omega)
  have he : expo (floatNeg x).1 = expo x.1 := congrArg BitVec.toInt (lo_floatNeg x)
  rw [floatValue, floatValue, hm, he, Int.cast_neg, neg_mul]

/-- A mantissa of -1 has no opposite and stays (R342). -/
theorem floatNeg_minusOne (h : mant x.1 x.2 = -8388608) : floatNeg x = x := by
  have hwrap : BitVec.ofInt 24 8388608 = BitVec.ofInt 24 (-8388608) := rfl
  calc floatNeg x = pack (-8388608) (expo x.1) := by rw [floatNeg, h, pack, pack, neg_neg, hwrap]
    _ = x := by rw [← h, pack_mant_expo]

/-! The sign and the zero of a value are those of the mantissa. -/

theorem zpow_two_pos (k : Int) : (0 : ℚ) < 2 ^ k := zpow_pos two_pos k

theorem floatValue_eq_zero : floatValue x = 0 ↔ mant x.1 x.2 = 0 := by
  rw [floatValue, mul_eq_zero, or_iff_left (zpow_two_pos _).ne', Int.cast_eq_zero]

theorem floatValue_nonneg : 0 ≤ floatValue x ↔ 0 ≤ mant x.1 x.2 := by
  rw [floatValue, mul_nonneg_iff_of_pos_right (zpow_two_pos _), Int.cast_nonneg_iff]

/-! Comparisons (R347, R355). -/

/-- Integers in units of the same power of two compare as the values. -/
theorem realFlags_compareInts (m n k : Int) :
    realFlags (m * 2 ^ k) (n * 2 ^ k) (compareInts m n).1 (compareInts m n).2 := by
  obtain ⟨hv, hc⟩ := comparisonFlags_compareInts m n
  have hpos := zpow_two_pos k
  refine ⟨hv.trans ?_, hc.trans ?_⟩
  · rw [mul_left_inj' hpos.ne', Int.cast_inj]
  · rw [mul_lt_mul_iff_left₀ hpos, Int.cast_lt]

theorem realFlags_zero (x : Word × Word) :
    realFlags (floatValue x) 0 (compareInts (mant x.1 x.2) 0).1 (compareInts (mant x.1 x.2) 0).2 := by
  simpa [floatValue] using realFlags_compareInts (mant x.1 x.2) 0 (expo x.1 - 23)

/-- A mantissa shifted to the unit of a lesser exponent keeps its value. -/
theorem cast_aligned (m : Int) (h : k ≤ e) : ((m * 2 ^ (e - k).toNat : Int) : ℚ) * 2 ^ (k - 23) = m * 2 ^ (e - 23) := by
  have he : e - 23 = ((e - k).toNat : Int) + (k - 23) := by omega
  rw [he, zpow_add₀ two_ne_zero, zpow_natCast]
  push_cast
  ring

theorem realFlags_floatCompare (x y : Word × Word) :
    realFlags (floatValue x) (floatValue y) (floatCompare x y).1 (floatCompare x y).2 := by
  have hflags := realFlags_compareInts (mant x.1 x.2 * 2 ^ (expo x.1 - min (expo x.1) (expo y.1)).toNat)
    (mant y.1 y.2 * 2 ^ (expo y.1 - min (expo x.1) (expo y.1)).toNat) (min (expo x.1) (expo y.1) - 23)
  rw [cast_aligned _ (min_le_left _ _), cast_aligned _ (min_le_right _ _)] at hflags
  exact hflags

/-! The integer part (R344). -/

/-- A power of two as the quotient of its two integer parts. -/
theorem two_pow_toNat_div (t : Int) : (2 : ℚ) ^ t.toNat / 2 ^ (-t).toNat = 2 ^ t := by
  obtain ⟨n, rfl | rfl⟩ := t.eq_nat_or_neg <;> simp

/-- The quotient towards zero, by value. -/
theorem tdiv_spec (n : Int) {d : Int} (hd : 0 < d) :
    |((n.tdiv d : Int) : ℚ)| ≤ |(n : ℚ) / d| ∧ |(n : ℚ) / d| < |((n.tdiv d : Int) : ℚ)| + 1
      ∧ 0 ≤ ((n.tdiv d : Int) : ℚ) * (n / d) := by
  have hd' : (0 : ℚ) < d := Int.cast_pos.mpr hd
  have habs : |n.tdiv d| = |n| / d := calc
    |n.tdiv d| = ((n.natAbs / d.natAbs : Nat) : Int) := by rw [Int.abs_eq_natAbs, Int.natAbs_tdiv]; rfl
    _ = |n| / d := by rw [Int.natCast_ediv, ← Int.abs_eq_natAbs, Int.natAbs_of_nonneg hd.le]
  have hlo : |n.tdiv d| * d ≤ |n| := habs ▸ Int.ediv_mul_le _ hd.ne'
  have hhi : |n| < (|n.tdiv d| + 1) * d := habs ▸ Int.lt_ediv_add_one_mul_self _ hd
  have hsign : 0 ≤ n.tdiv d * n := by
    rcases le_total 0 n with hn | hn
    · exact mul_nonneg (Int.tdiv_nonneg hn hd.le) hn
    · exact mul_nonneg_of_nonpos_of_nonpos (by simpa using Int.tdiv_nonneg (neg_nonneg.mpr hn) hd.le) hn
  rw [abs_div, abs_of_pos hd', le_div_iff₀ hd', div_lt_iff₀ hd', ← mul_div_assoc]
  exact ⟨by exact_mod_cast hlo, by exact_mod_cast hhi, div_nonneg (by exact_mod_cast hsign) hd'.le⟩

/-- The value as the quotient that FIX truncates. -/
theorem floatValue_eq_div (x : Word × Word) : floatValue x
    = ((mant x.1 x.2 * 2 ^ (expo x.1 - 23).toNat : Int) : ℚ) / ((2 ^ (23 - expo x.1).toNat : Int) : ℚ) := by
  rw [floatValue, ← two_pow_toNat_div, neg_sub]
  push_cast
  rw [mul_div_assoc]

/-- FIX compares the value with its bounds (D30). -/
theorem floatFix_eq (x : Word × Word) : floatFix x = if floatValue x < -32768 ∨ 32767 < floatValue x then none
    else some (u16 ((mant x.1 x.2 * 2 ^ (expo x.1 - 23).toNat).tdiv (2 ^ (23 - expo x.1).toNat))) := by
  have hd : (0 : ℚ) < ((2 ^ (23 - expo x.1).toNat : Int) : ℚ) := by positivity
  refine if_congr (or_congr ?_ ?_) rfl rfl
  · rw [floatValue_eq_div, div_lt_iff₀ hd]; norm_cast
  · rw [floatValue_eq_div, lt_div_iff₀ hd]; norm_cast

/-- A quotient within the bounds of a word is truncated to a word. -/
theorem s16_u16_tdiv {n d : Int} (hd : 0 < d) (hlo : -32768 ≤ (n : ℚ) / d) (hhi : (n : ℚ) / d ≤ 32767) :
    s16 (u16 (n.tdiv d)) = n.tdiv d := by
  have hd' : (0 : ℚ) < d := Int.cast_pos.mpr hd
  rw [le_div_iff₀ hd'] at hlo
  rw [div_le_iff₀ hd'] at hhi
  have hmono : n.tdiv d ≤ (32767 * d).tdiv d := Int.tdiv_le_tdiv hd (by exact_mod_cast hhi)
  rw [Int.mul_tdiv_cancel _ hd.ne'] at hmono
  exact s16_u16 (Int.le_tdiv_of_mul_le hd (by exact_mod_cast hlo)) hmono

/-- Within the bounds FIX delivers the integer part towards zero. -/
theorem floatFix_some (hlo : -32768 ≤ floatValue x) (hhi : floatValue x ≤ 32767) : ∃ w, floatFix x = some w
    ∧ |(s16 w : ℚ)| ≤ |floatValue x| ∧ |floatValue x| < |(s16 w : ℚ)| + 1 ∧ 0 ≤ (s16 w : ℚ) * floatValue x := by
  have hd : (0 : Int) < 2 ^ (23 - expo x.1).toNat := by positivity
  refine ⟨_, (floatFix_eq x).trans (if_neg (by simp [hlo, hhi])), ?_⟩
  rw [floatValue_eq_div] at hlo hhi ⊢
  rw [s16_u16_tdiv hd hlo hhi]
  exact tdiv_spec _ hd

end Sys2Proof.Machine
end

section
/-! SUPPORT. The rounding of an exact quotient (46_float.md R341, D29): the power of two below it, the nearest integer, the carry
out of the mantissa; then the exact results of the operations. -/

namespace Sys2Proof.Machine

variable {x y : Word × Word} {n d q : Nat} {neg : Bool} {k : Int}

/-! The power of two below a quotient. -/

theorem two_pow_log2_le (hn : 0 < n) : (2 : ℚ) ^ (n.log2 : Int) ≤ n := by
  rw [zpow_natCast]; exact_mod_cast Nat.log2_self_le hn.ne'

theorem lt_two_pow_log2 (n : Nat) : (n : ℚ) < 2 ^ ((n.log2 : Int) + 1) := by
  exact_mod_cast (Nat.lt_log2_self : n < 2 ^ (n.log2 + 1))

/-- A quotient times a power of two, as a quotient of integers. -/
theorem cast_scaled (n d : Nat) (t : Int) :
    ((n * 2 ^ t.toNat : Nat) : ℚ) / ((d * 2 ^ (-t).toNat : Nat) : ℚ) = n / d * 2 ^ t := by
  rw [← two_pow_toNat_div t]
  push_cast
  rw [mul_div_mul_comm]

/-- The test of `logQuotient`: a power of two is compared with the quotient. -/
theorem two_pow_le_quotient (hd : 0 < d) (l : Int) :
    (if 0 ≤ l then d * 2 ^ l.toNat ≤ n else d ≤ n * 2 ^ (-l).toNat) ↔ (2 : ℚ) ^ l ≤ n / d := by
  have hd' : (0 : ℚ) < d := Nat.cast_pos.mpr hd
  rw [le_div_iff₀ hd', ← two_pow_toNat_div l]
  split
  · next h =>
    have hneg : (-l).toNat = 0 := by omega
    rw [hneg, pow_zero, div_one, mul_comm]
    exact_mod_cast Iff.rfl
  · next h =>
    have hneg : l.toNat = 0 := by omega
    rw [hneg, pow_zero, one_div, inv_mul_le_iff₀ (by positivity), mul_comm]
    exact_mod_cast Iff.rfl

theorem logQuotient_eq (hd : 0 < d) : logQuotient n d = if (2 : ℚ) ^ ((n.log2 : Int) - d.log2) ≤ n / d
    then (n.log2 : Int) - d.log2 else (n.log2 : Int) - d.log2 - 1 :=
  if_congr (two_pow_le_quotient hd _) rfl rfl

/-- The quotient lies between the power of two of its logarithm and the next one. -/
theorem logQuotient_spec (hn : 0 < n) (hd : 0 < d) :
    (2 : ℚ) ^ logQuotient n d ≤ n / d ∧ (n : ℚ) / d < 2 ^ (logQuotient n d + 1) := by
  have hd' : (0 : ℚ) < d := Nat.cast_pos.mpr hd
  rw [logQuotient_eq hd]
  split
  · next h =>
    refine ⟨h, ?_⟩
    calc (n : ℚ) / d < 2 ^ ((n.log2 : Int) + 1) / d := div_lt_div_of_pos_right (lt_two_pow_log2 n) hd'
      _ ≤ 2 ^ ((n.log2 : Int) + 1) / 2 ^ (d.log2 : Int) :=
        div_le_div_of_nonneg_left (zpow_two_pos _).le (zpow_two_pos _) (two_pow_log2_le hd)
      _ = 2 ^ ((n.log2 : Int) - d.log2 + 1) := by rw [← zpow_sub₀ two_ne_zero]; ring_nf
  · next h =>
    refine ⟨?_, by rw [sub_add_cancel]; exact not_le.mp h⟩
    calc (2 : ℚ) ^ ((n.log2 : Int) - d.log2 - 1) = 2 ^ (n.log2 : Int) / 2 ^ ((d.log2 : Int) + 1) := by
          rw [← zpow_sub₀ two_ne_zero]; ring_nf
      _ ≤ n / 2 ^ ((d.log2 : Int) + 1) := div_le_div_of_nonneg_right (two_pow_log2_le hn) (zpow_two_pos _).le
      _ ≤ n / d := div_le_div_of_nonneg_left (Nat.cast_nonneg n) hd' (lt_two_pow_log2 d).le

/-! The nearest integer. -/

/-- The sign of a number, from the mark of a negative one. -/
def signOf (neg : Bool) : Int := if neg then -1 else 1

theorem signOf_natAbs (m : Int) : signOf (decide (m < 0)) * m.natAbs = m := by
  by_cases h : m < 0
  · rw [decide_eq_true h, signOf, if_pos rfl]; omega
  · rw [decide_eq_false h, signOf, if_neg nofun]; omega

@[simp] theorem natAbs_signOf (neg : Bool) : (signOf neg).natAbs = 1 := by cases neg <;> rfl

/-- The integer below the opposite of a quotient plus a half, with a truncation of positive numbers. -/
theorem neg_add_half_ediv (n : Nat) (hd : 0 < d) :
    (-(2 * n) + d : Int) / (2 * d) = -(((2 * n + d - 1) / (2 * d) : Nat) : Int) := by
  have hdiv := congrArg (Nat.cast : Nat → Int) (Nat.div_add_mod (2 * n + d - 1) (2 * d))
  have hmod := Nat.mod_lt (2 * n + d - 1) (show 0 < 2 * d by omega)
  generalize (2 * n + d - 1) / (2 * d) = q at hdiv ⊢
  generalize (2 * n + d - 1) % (2 * d) = r at hdiv hmod
  push_cast [show 1 ≤ 2 * n + d by omega] at hdiv
  exact ((Int.ediv_emod_unique (r := 2 * d - 1 - r) (by omega)).mpr ⟨by linarith, by omega, by omega⟩).1

/-- `roundQuotient` adds a half and takes the integer below, for both signs (D29). -/
theorem floor_add_half (neg : Bool) (n : Nat) (hd : 0 < d) :
    ⌊(signOf neg : ℚ) * (n / d) + 1 / 2⌋ = signOf neg * roundQuotient neg n d := by
  have hd' : (d : ℚ) ≠ 0 := (Nat.cast_pos.mpr hd).ne'
  have hquot : (signOf neg : ℚ) * (n / d) + 1 / 2 = ((signOf neg * (2 * n) + d : Int) : ℚ) / ((2 * d : Nat) : ℚ) := by
    push_cast
    field_simp
  rw [hquot, Rat.floor_intCast_div_natCast]
  cases neg with
  | false => simp [signOf, roundQuotient]
  | true => simpa [signOf, roundQuotient] using neg_add_half_ediv n hd

/-- A quotient of 23 bits rounds to 23 bits, or carries out. -/
theorem roundQuotient_bounds (neg : Bool) (hd : 0 < d) (hlo : 2 ^ 22 * d ≤ n) (hhi : n < 2 ^ 23 * d) :
    2 ^ 22 ≤ roundQuotient neg n d ∧ roundQuotient neg n d ≤ 2 ^ 23 := by
  have h2 : 0 < 2 * d := by omega
  have hround : ∀ a : Nat, 2 * n ≤ a → a < 2 * n + 2 * d → 2 ^ 22 ≤ a / (2 * d) ∧ a / (2 * d) ≤ 2 ^ 23 := fun a ha ha' =>
    ⟨(Nat.le_div_iff_mul_le h2).mpr (by omega), Nat.le_of_lt_succ ((Nat.div_lt_iff_lt_mul h2).mpr (by omega))⟩
  cases neg with
  | false => exact hround _ (by omega) (by omega)
  | true => exact hround _ (by omega) (by omega)

/-- The rounded mantissa is normalised, with the next exponent where it carried out (R341). -/
theorem carryOut_spec (neg : Bool) (hlo : 2 ^ 22 ≤ q) (hhi : q ≤ 2 ^ 23) (e : Int) : ∃ m f : Int,
    (m : ℚ) * 2 ^ (f - 23) = ((signOf neg * q : Int) : ℚ) * 2 ^ (e - 23) ∧ 2 ^ 22 ≤ m.natAbs ∧ m.natAbs < 2 ^ 23
      ∧ carryOut neg q e = boundExponent m f := by
  by_cases hq : q < 2 ^ 23
  · refine ⟨signOf neg * q, e, rfl, ?_, ?_, ?_⟩
    · rwa [Int.natAbs_mul, natAbs_signOf, one_mul, Int.natAbs_natCast]
    · rwa [Int.natAbs_mul, natAbs_signOf, one_mul, Int.natAbs_natCast]
    · rw [carryOut, if_pos hq]; cases neg <;> simp [signOf]
  · have hq' : q = 2 ^ 23 := le_antisymm hhi (not_lt.mp hq)
    refine ⟨signOf neg * 2 ^ 22, e + 1, ?_, ?_, ?_, ?_⟩
    · rw [hq', show e + 1 - 23 = (e - 23) + 1 by ring, zpow_add_one₀ two_ne_zero]; push_cast; ring
    · cases neg <;> decide
    · cases neg <;> decide
    · rw [carryOut, if_neg hq]; cases neg <;> rfl

/-- The quotient scaled to 23 bits, as `roundFloat` scales it. -/
theorem scaled_bounds (hn : 0 < n) (hd : 0 < d) {t : Int} (ht : t = 22 - logQuotient n d) :
    2 ^ 22 * (d * 2 ^ (-t).toNat) ≤ n * 2 ^ t.toNat ∧ n * 2 ^ t.toNat < 2 ^ 23 * (d * 2 ^ (-t).toNat) := by
  have hpos : (0 : ℚ) < ((d * 2 ^ (-t).toNat : Nat) : ℚ) := Nat.cast_pos.mpr (Nat.mul_pos hd (Nat.two_pow_pos _))
  obtain ⟨hlo, hhi⟩ := logQuotient_spec hn hd
  have hlo' : (2 : ℚ) ^ 22 ≤ n / d * 2 ^ t := calc
    (2 : ℚ) ^ 22 = 2 ^ logQuotient n d * 2 ^ t := by rw [← zpow_add₀ two_ne_zero, ht, add_sub_cancel]; norm_num
    _ ≤ n / d * 2 ^ t := mul_le_mul_of_nonneg_right hlo (zpow_two_pos t).le
  have hhi' : (n : ℚ) / d * 2 ^ t < 2 ^ 23 := calc
    (n : ℚ) / d * 2 ^ t < 2 ^ (logQuotient n d + 1) * 2 ^ t := mul_lt_mul_of_pos_right hhi (zpow_two_pos t)
    _ = 2 ^ 23 := by rw [← zpow_add₀ two_ne_zero, ht, show logQuotient n d + 1 + (22 - logQuotient n d) = 23 by ring]; norm_num
  rw [← cast_scaled, le_div_iff₀ hpos] at hlo'
  rw [← cast_scaled, div_lt_iff₀ hpos] at hhi'
  exact ⟨by exact_mod_cast hlo', by exact_mod_cast hhi'⟩

/-- `FResult` of an exact quotient (R341). -/
theorem rounded_roundFloat (m : Int) (hd : 0 < d) (k : Int) : rounded ((m : ℚ) / d * 2 ^ k) (roundFloat m d k) := by
  by_cases hm : m = 0
  · exact .inl ⟨by simp [hm], if_pos hm⟩
  have hn : 0 < m.natAbs := Int.natAbs_pos.mpr hm
  have hsigned : (m : ℚ) = (signOf (decide (m < 0)) : ℚ) * m.natAbs := by
    rw [← Int.cast_natCast, ← Int.cast_mul, signOf_natAbs]
  have habs : |(m : ℚ) / d * 2 ^ k| = m.natAbs / d * 2 ^ k := by
    rw [abs_mul, abs_div, abs_of_pos (zpow_two_pos k), Nat.abs_cast, Nat.cast_natAbs, Int.cast_abs]
  obtain ⟨hlog, hlog'⟩ := logQuotient_spec hn hd
  obtain ⟨t, ht⟩ : ∃ t, t = 22 - logQuotient m.natAbs d := ⟨_, rfl⟩
  have hunit : 0 < d * 2 ^ (-t).toNat := Nat.mul_pos hd (Nat.two_pow_pos _)
  obtain ⟨hnlo, hnhi⟩ := scaled_bounds hn hd ht
  obtain ⟨hqlo, hqhi⟩ := roundQuotient_bounds (decide (m < 0)) hunit hnlo hnhi
  obtain ⟨p, f, hp, hplo, hphi, hcarry⟩ := carryOut_spec (decide (m < 0)) hqlo hqhi (k - t + 23)
  refine .inr ⟨k - t + 23, f, p, ?_, ?_, ?_, ⟨hplo, hphi⟩, ?_⟩
  · rw [habs, show k - t + 23 - 1 = logQuotient m.natAbs d + k by omega, zpow_add₀ two_ne_zero]
    exact mul_le_mul_of_nonneg_right hlog (zpow_two_pos k).le
  · rw [habs, show k - t + 23 = logQuotient m.natAbs d + 1 + k by omega, zpow_add₀ two_ne_zero]
    exact mul_lt_mul_of_pos_right hlog' (zpow_two_pos k)
  · have hscaled : (m : ℚ) / d * 2 ^ k * 2 ^ (23 - (k - t + 23)) = signOf (decide (m < 0)) * (m.natAbs / d * 2 ^ t) := by
      rw [mul_assoc, ← zpow_add₀ two_ne_zero, show k + (23 - (k - t + 23)) = t by ring, hsigned]
      ring
    rw [hp, hscaled, ← cast_scaled, floor_add_half _ _ hunit]
  · rw [roundFloat, if_neg hm, ← ht]
    exact hcarry

/-! The exact results. -/

/-- An integer in units of a power of two. -/
theorem rounded_integer (m k : Int) : rounded ((m : ℚ) * 2 ^ k) (roundFloat m 1 k) := by
  simpa using rounded_roundFloat m Nat.one_pos k

theorem rounded_floatSum (m₁ e₁ m₂ e₂ : Int) :
    rounded ((m₁ : ℚ) * 2 ^ (e₁ - 23) + m₂ * 2 ^ (e₂ - 23)) (floatSum m₁ e₁ m₂ e₂) := by
  rw [← cast_aligned m₁ (min_le_left e₁ e₂), ← cast_aligned m₂ (min_le_right e₁ e₂), ← add_mul, ← Int.cast_add]
  exact rounded_integer _ _

theorem rounded_floatAdd (x y : Word × Word) : rounded (floatValue x + floatValue y) (floatAdd x y) :=
  rounded_floatSum _ _ _ _

theorem rounded_floatSub (x y : Word × Word) : rounded (floatValue x - floatValue y) (floatSub x y) := by
  have hsub : floatValue x - floatValue y
      = (mant x.1 x.2 : ℚ) * 2 ^ (expo x.1 - 23) + ((-mant y.1 y.2 : Int) : ℚ) * 2 ^ (expo y.1 - 23) := by
    rw [floatValue, floatValue, Int.cast_neg, neg_mul, sub_eq_add_neg]
  rw [hsub]
  exact rounded_floatSum _ _ _ _

theorem rounded_floatMul (x y : Word × Word) : rounded (floatValue x * floatValue y) (floatMul x y) := by
  have hmul : floatValue x * floatValue y = ((mant x.1 x.2 * mant y.1 y.2 : Int) : ℚ) * 2 ^ (expo x.1 + expo y.1 - 46) := by
    rw [floatValue, floatValue, mul_mul_mul_comm, ← zpow_add₀ two_ne_zero, Int.cast_mul]
    ring_nf
  rw [hmul]
  exact rounded_integer _ _

/-- A quotient of signed mantissas, with a positive divisor. -/
theorem div_eq_div_natAbs (m n : Int) : (m : ℚ) / n = ((if n < 0 then -m else m : Int) : ℚ) / n.natAbs := by
  rw [Nat.cast_natAbs, Int.cast_abs]
  split
  · next h => rw [abs_of_neg (Int.cast_lt_zero.mpr h), Int.cast_neg, neg_div_neg_eq]
  · next h => rw [abs_of_nonneg (Int.cast_nonneg_iff.mpr (not_lt.mp h))]

theorem rounded_floatDiv (hy : floatValue y ≠ 0) : rounded (floatValue x / floatValue y) (floatDiv x y) := by
  have hm : mant y.1 y.2 ≠ 0 := mt floatValue_eq_zero.mpr hy
  have hdiv : floatValue x / floatValue y = (mant x.1 x.2 : ℚ) / mant y.1 y.2 * 2 ^ (expo x.1 - expo y.1) := by
    rw [floatValue, floatValue, mul_div_mul_comm, ← zpow_sub₀ two_ne_zero, sub_sub_sub_cancel_right]
  rw [hdiv, div_eq_div_natAbs, floatDiv, if_neg hm]
  exact rounded_roundFloat _ (Int.natAbs_pos.mpr hm) _

theorem floatDiv_zero (hy : floatValue y = 0) : floatDiv x y = .divideByZero :=
  if_pos (floatValue_eq_zero.mp hy)

theorem rounded_floatNorm (x : Word × Word) : rounded (floatValue x) (floatNorm x) := rounded_integer _ _

theorem rounded_floatOf (a : Word) : rounded (s16 a) (floatOf a) := by
  have h := rounded_integer (s16 a) 0
  rwa [zpow_zero, mul_one] at h

end Sys2Proof.Machine
end

section
/-! SUPPORT. The obligations on the floating-point instructions (46_float.md R340 to R355): who executes them, what an operation
delivers, and the memory operand. -/

namespace Sys2Proof.Machine

variable {s t : State} {m : MemRef} {ucode : Bool} {body : State → Res Unit}

/-! Execution (R340). -/

/-- The processor executes the floating-point instruction itself; `ucode` says that it is one of the partial microcode. -/
def State.executesFloat (s : State) (ucode : Bool) : Prop :=
  s.cfg.hasFfp16 = true ∨ ucode = true ∧ s.cfg.hasFfpPartial = true

theorem executesFloat_wired (ho : s.cfg.hasFfp16 = true) : s.executesFloat ucode := .inl ho

theorem executesFloat_microcode (ho : s.cfg.hasFfp16 = true ∨ s.cfg.hasFfpPartial = true) : s.executesFloat true :=
  ho.imp_right fun h => ⟨rfl, h⟩

/-- A part that the processor executes itself. -/
theorem execute_float (ho : s.executesFloat ucode)
    (h : body s.completed = .ok () t) : execute (floatDispatch ucode body) s = .next t := by
  refine execute_ok ((if_pos ?_).trans h)
  simpa [State.executesFloat] using ho

/-- An instruction that changes registers and flags only. -/
theorem execute_float_finish {f : State → State} (ho : s.executesFloat ucode)
    (hf : f s.completed = (f s).completed) : execute (floatDispatch ucode fun s => finish2 (f s)) s = .next ((f s).ends 2) :=
  execute_float ho (by rw [hf]; rfl)

/-! What an operation delivers (R341). -/

/-- The event is recorded in CW. -/
theorem recordEvent_ok (h : t.canRead t.relocated (t.r.C - 128#16) = true) (mask : Word) :
    recordEvent mask t = .ok () (t.flagged mask) := by
  rw [recordEvent, memRead_ok h, Res.bind_ok, memWrite_ok (canRead_canWrite h), State.flagged]

theorem recordEvent_finish2 (h : t.canRead t.relocated (t.r.C - 128#16) = true) (mask : Word) :
    (recordEvent mask t.completed).bind (fun _ s => finish2 s) = .ok () ((t.flagged mask).ends 2) := by
  rw [recordEvent_ok (t := t.completed) h]; rfl

theorem openResult_completed (s : State) : ∃ (a b : Word) (n : Nat),
    openResult s.completed = ({ (s.setPair (a, b)).setVC true false with freeCount := n } : State).completed :=
  ⟨s.fresh.1, s.fresh.2.fresh.1, s.freeCount + 2, rfl⟩

/-- A result without meaning, with its event. -/
theorem meaningless_execute (ho : s.executesFloat ucode) {mask : Word}
    (hb : body s.completed = (recordEvent mask (openResult s.completed)).bind fun _ s => finish2 s) :
    s.meaningless mask (execute (floatDispatch ucode body) s) := by
  intro hcw
  obtain ⟨a, b, n, hopen⟩ := openResult_completed s
  rw [hopen] at hb
  exact ⟨a, b, n, execute_float ho (hb.trans
    (recordEvent_finish2 (t := { (s.setPair (a, b)).setVC true false with freeCount := n }) hcw mask))⟩

/-- An instruction that delivers a result: A, B, V, Cf and CW. -/
theorem floated_execute (ho : s.executesFloat ucode) {r : FloatResult}
    (hb : body s.completed = deliver r s.completed) : s.floated r (execute (floatDispatch ucode body) s) := by
  cases r with
  | value w => exact execute_float ho hb
  | underflow =>
    exact fun hcw => execute_float ho
      (hb.trans (recordEvent_finish2 (t := (s.setPair fzero).setVC false true) hcw 0x8000#16))
  | overflow | divideByZero | fixImpossible => exact meaningless_execute ho hb

/-! The memory operand. -/

/-- Both words of the operand are read (R348). -/
theorem readPair_ok (h : s.pairOk m = true) : readPair m s.completed = .ok (s.pair m) s.completed := by
  simp only [State.pairOk, State.operandOk, Bool.and_eq_true] at h
  obtain ⟨⟨hrelay, hfirst⟩, hsecond⟩ := h
  rw [readPair, eaWord_ok (s := s.completed) hrelay, Res.bind_ok, State.effective_completed, memRead_ok (s := s.completed) hfirst,
    Res.bind_ok, memRead_ok (s := s.completed) hsecond]
  rfl

/-- The operator takes its operands, or hands the instruction to SVC 0 (R340, U10). -/
theorem floatBinary_eq (h : s.pairOk m = true) (op : Word × Word → Word × Word → State → Res Unit) :
    floatBinary op m s.completed = if s.operatorTakes m = true then op (s.r.A, s.r.B) (s.pair m) s.completed
      else absentExtension 0#8 s.completed := by
  have hcond : (s.cfg.ffpUnnormSvc && !(normalised (mant s.r.A s.r.B) (expo s.r.A)
      && normalised (mant (s.pair m).1 (s.pair m).2) (expo (s.pair m).1))) = !s.operatorTakes m := by
    rw [State.operatorTakes, Bool.not_or, Bool.not_not]
  rw [floatBinary, readPair_ok h, Res.bind_ok, State.completed_cfg, State.completed_r, hcond]
  cases s.operatorTakes m <;> rfl

/-- An unnormalised operand that the operator does not take. -/
theorem execute_floatBinary_handed (ho : s.cfg.hasFfp16 = true) (h : s.pairOk m = true) (ht : s.operatorTakes m = false)
    (hok : s.absentOk = true) (op : Word × Word → Word × Word → State → Res Unit) :
    execute (floatDispatch false (floatBinary op m)) s = .next (s.absentDone 0#8) :=
  execute_float (executesFloat_wired ho) ((floatBinary_eq h op).trans ((if_neg (by rw [ht]; nofun)).trans (absentExtension_ok hok)))

/-- An operation on A::B and the memory operand, by its result. -/
theorem floated_floatBinary (ho : s.cfg.hasFfp16 = true) (h : s.pairOk m = true) (ht : s.operatorTakes m = true)
    (op : Word × Word → Word × Word → FloatResult) :
    s.floated (op (s.r.A, s.r.B) (s.pair m))
      (execute (floatDispatch false (floatBinary (fun x y s => deliver (op x y) s) m)) s) :=
  floated_execute (executesFloat_wired ho) ((floatBinary_eq h _).trans (if_pos ht))

/-- Settles O25: each operation delivers its exact result rounded once, on operands that the operator takes. -/
theorem floatArithmetic : Obligations.FloatArithmetic := fun s m ho h ht => by
  have hop := floated_floatBinary ho h ht
  refine ⟨⟨_, rounded_floatAdd _ _, hop floatAdd⟩, ⟨_, rounded_floatSub _ _, hop floatSub⟩,
    ⟨_, rounded_floatMul _ _, hop floatMul⟩, fun hy => ⟨_, rounded_floatDiv hy, hop floatDiv⟩, fun hy => ?_⟩
  have hdiv := hop floatDiv
  rwa [floatDiv_zero hy] at hdiv

/-! Transfers and comparisons. -/

theorem execFld_ok (ho : s.cfg.hasFfp16 = true ∨ s.cfg.hasFfpPartial = true) (h : s.pairOk m = true) :
    execFld m s = .next (((s.setPair (s.pair m)).setVC false false).ends 2) := by
  simp only [State.pairOk, State.operandOk, Bool.and_eq_true] at h
  obtain ⟨⟨hrelay, hfirst⟩, hsecond⟩ := h
  refine execute_float (executesFloat_microcode ho) ?_
  rw [floatLoad, eaWord_ok (s := s.completed) hrelay, Res.bind_ok, State.effective_completed, memRead_ok (s := s.completed) hfirst,
    Res.bind_ok, memRead_ok (s := s.completed.setReg .a _) hsecond]
  rfl

theorem execFst_ok (ho : s.cfg.hasFfp16 = true ∨ s.cfg.hasFfpPartial = true) (hrelay : s.relayOk m = true)
    (hfirst : s.canWrite s.relocated (s.effective m) = true) (hsecond : s.canWrite s.relocated (s.effective m + 1#16) = true) :
    execFst m s = .next ((((s.put s.relocated (s.effective m) s.r.A).put s.relocated (s.effective m + 1#16)
      s.r.B).setVC false false).ends 2) := by
  have hsecond' := canWrite_store (s := s.completed) hsecond (s.place s.relocated (s.effective m)) s.completed.r.A
  refine execute_float (executesFloat_microcode ho) ?_
  rw [floatStore, eaWord_ok (s := s.completed) hrelay, Res.bind_ok, State.effective_completed,
    memWrite_ok (s := s.completed) hfirst, Res.bind_ok, memWrite_ok (s := s.completed.put s.completed.relocated _ _) hsecond']
  rfl

theorem execFcmz_ok (ho : s.cfg.hasFfp16 = true ∨ s.cfg.hasFfpPartial = true) (h : s.pairOk m = true) :
    execFcmz m s = .next ((signFlags (mant (s.pair m).1 (s.pair m).2) s).ends 2) :=
  execute_float (executesFloat_microcode ho) (by rw [readPair_ok h]; rfl)

theorem execFcam_ok (ho : s.cfg.hasFfp16 = true) (h : s.pairOk m = true) (ht : s.operatorTakes m = true) :
    execFcam m s = .next ((s.setVC (floatCompare (s.r.A, s.r.B) (s.pair m)).1 (floatCompare (s.r.A, s.r.B) (s.pair m)).2).ends 2) :=
  execute_float (executesFloat_wired ho) ((floatBinary_eq h _).trans (if_pos ht))

/-- Settles O24: two words loaded or stored, the sign of the mantissa or the order of the values, and SVC 0 for every operation on
an operand that the operator does not take. -/
theorem floatTransfers : Obligations.FloatTransfers := fun s m => by
  refine ⟨fun ho => ⟨fun h => ⟨execFld_ok ho h, _, _, realFlags_zero _, execFcmz_ok ho h⟩, execFst_ok ho⟩,
    fun ho h => ⟨fun ht => ⟨_, _, realFlags_floatCompare _ _, execFcam_ok ho h ht⟩, fun ht hok => ?_⟩⟩
  have hx := execute_floatBinary_handed ho h ht hok
  simp only [List.forall_mem_cons]
  unfold exec
  exact ⟨hx _, hx _, hx _, hx _, hx _, fun _ hi => absurd hi List.not_mem_nil⟩

/-! Instructions on A::B. -/

/-- What FABS leaves in A::B (R343). -/
def floatAbs (x : Word × Word) : Word × Word := if mant x.1 x.2 < 0 then floatNeg x else x

theorem floatValue_floatAbs {x : Word × Word} (h : mant x.1 x.2 ≠ -8388608) : floatValue (floatAbs x) = |floatValue x| := by
  unfold floatAbs
  split
  · next hneg =>
    have hx : floatValue x < 0 := not_le.mp (mt floatValue_nonneg.mp (not_le.mpr hneg))
    rw [floatValue_floatNeg h, abs_of_neg hx]
  · next hpos => rw [abs_of_nonneg (floatValue_nonneg.mpr (not_lt.mp hpos))]

theorem floatAbs_minusOne {x : Word × Word} (h : mant x.1 x.2 = -8388608) : floatAbs x = x := by
  rw [floatAbs, floatNeg_minusOne h, ite_self]

theorem lo_floatAbs (x : Word × Word) : lo (floatAbs x).1 = lo x.1 := by
  unfold floatAbs
  split
  · exact lo_floatNeg x
  · rfl

section
variable (ho : s.cfg.hasFfp16 = true ∨ s.cfg.hasFfpPartial = true)
include ho

theorem execFneg_ok : execFneg s = .next (((s.setPair (floatNeg (s.r.A, s.r.B))).setVC false false).ends 2) :=
  execute_float_finish (f := fun s => (s.setPair (floatNeg (s.r.A, s.r.B))).setVC false false)
    (executesFloat_microcode ho) rfl

theorem execFabs_ok : execFabs s = .next (((s.setPair (floatAbs (s.r.A, s.r.B))).setVC false false).ends 2) := by
  refine execute_float (executesFloat_microcode ho) ?_
  by_cases hneg : mant s.r.A s.r.B < 0
  · rw [floatAbs, if_pos hneg, State.completed_r, if_pos hneg]; rfl
  · rw [floatAbs, if_neg hneg, State.completed_r, if_neg hneg]; rfl

theorem execFix_some {w : Word} (h : floatFix (s.r.A, s.r.B) = some w) :
    execFix s = .next (((s.setPair (w, 0#16)).setVC false false).ends 2) :=
  execute_float (executesFloat_microcode ho) (by rw [State.completed_r, h]; rfl)

theorem execFix_impossible (h : floatFix (s.r.A, s.r.B) = none) : s.floated .fixImpossible (execFix s) :=
  floated_execute (executesFloat_microcode ho) (by rw [State.completed_r, h])

theorem execFcaz_ok : execFcaz s = .next ((signFlags (mant s.r.A s.r.B) s).ends 2) :=
  execute_float_finish (f := fun s => signFlags (mant s.r.A s.r.B) s) (executesFloat_microcode ho) rfl

end

/-- Settles O23: each instruction on A::B by the value of its result, the bounds of FIX being those of the value itself. -/
theorem floatRegisters : Obligations.FloatRegisters := fun s => by
  refine ⟨fun ho => ⟨⟨_, _, fun h => ⟨floatValue_floatNeg h, floatValue_floatAbs h⟩,
    fun h => ⟨floatNeg_minusOne h, floatAbs_minusOne h⟩, lo_floatNeg _, lo_floatAbs _, execFneg_ok ho, execFabs_ok ho⟩,
    fun hlo hhi => ?_, fun hout => ?_, ?_⟩, fun ho => ⟨?_, ?_⟩⟩
  · obtain ⟨w, hw, hvalue⟩ := floatFix_some hlo hhi
    exact ⟨w, hvalue, execFix_some ho hw⟩
  · exact execFix_impossible ho ((floatFix_eq _).trans (if_pos hout))
  · exact ⟨_, _, realFlags_zero _, execFcaz_ok ho⟩
  · exact ⟨_, rounded_floatOf _, floated_execute (executesFloat_wired ho) rfl⟩
  · exact ⟨_, rounded_floatNorm _, floated_execute (executesFloat_wired ho) rfl⟩

end Sys2Proof.Machine
end

section
/-! SUPPORT. The obligations on the scheduler instructions: ARM, QUIT, RQST, RLSE, WAIT and ACT, each as its effect on the queues
followed by the epilogue (47_scheduler.md R373 to R383). -/

namespace Sys2Proof.Machine

variable {s u : State} {m : MemRef}

/-! The frame of a scheduler instruction. -/

/-- Where the option, the mode and the level allow the instruction, its prologue does nothing (47_scheduler.md R383). -/
theorem schedPrologue_ok {p d : Bool} (ho : s.cfg.hasSched = true) (hs : p = true → s.slave = false)
    (hi : d = true → s.inImmediate = false) : schedPrologue p d s = .ok () s := by
  have hpriv : (if p then privCheck s else .ok () s) = .ok () s := by
    cases p with
    | false => rfl
    | true => rw [if_pos rfl, privCheck_eq, hs rfl]; rfl
  have hlevel : ¬(d && s.inImmediate) = true := by
    cases d with
    | false => nofun
    | true => rw [hi rfl]; nofun
  rw [schedPrologue, ho, if_neg nofun, hpriv, Res.bind_ok, if_neg hlevel]

section
variable {p d : Bool} {body : State → Res Unit} (ho : s.cfg.hasSched = true) (hs : p = true → s.slave = false)
  (hi : d = true → s.inImmediate = false)
include ho hs hi

/-- An instruction that comes to the epilogue in state `u`. -/
theorem execute_sched_epilogue (hb : body s.completed = schedEpilogue u.completed) (hu : u.schedulable) :
    ∃ v, execute (fun s => (schedPrologue p d s).bind fun _ s => body s) s = .next (u.epilogue v) := by
  obtain ⟨v, hv⟩ := schedEpilogue_ok hu
  refine ⟨v, execute_ok ?_⟩
  rw [schedPrologue_ok (s := s.completed) ho hs hi, Res.bind_ok, hb, hv]

theorem execute_sched_refuse {r : Refusal} (hb : body s.completed = .refuse r) :
    execute (fun s => (schedPrologue p d s).bind fun _ s => body s) s = .refused r :=
  execute_refuse (by rw [schedPrologue_ok (s := s.completed) ho hs hi, Res.bind_ok, hb])

end

/-! Queues and counters. -/

theorem sound_put {pa : PAddr} (h : s.sound pa = true) (r : Bool) (a v : Word) : (s.put r a v).sound pa = true :=
  State.sound_store h _ v

theorem canRead_put {r : Bool} {a : Word} (h : s.canRead r a = true) (r' : Bool) (a' v : Word) :
    (s.put r' a' v).canRead r a = true :=
  State.canRead_store h _ v

theorem readNS_ok (h : s.sound (absolute 0x0000#16) = true) : readNS s = .ok s.runningTask s := by
  rw [readNS, physRead_ok h]; rfl

theorem memQSet_ok {q : Word} {n : Nat} (h : s.canRead s.relocated (stringWord q n) = true) (b : Bool) : memQSet q n b s
    = .ok () (s.put s.relocated (stringWord q n) (setBit (s.wordAt s.relocated (stringWord q n)) (n % 16) b)) := by
  rw [memQSet, memRead_ok h, Res.bind_ok, memWrite_ok (canRead_canWrite h)]

/-- A task is masked or unmasked on a condition. -/
theorem qSet_when {c : Prop} [Decidable c] {q : Word} {n : Nat} (h : c → s.sound (absolute (stringWord q n)) = true) (b : Bool) :
    (if c then qSet q n b s else .ok () s) = .ok () (if c then s.withQueueBit q n b else s) := by
  split
  · next hc => exact qSet_ok (h hc) b
  · rfl

/-- The byte arithmetic of the counter is that of the integers modulo 256 (47_scheduler.md R380). -/
theorem counter_eq_counted (w : Word) (d : Int) : counter w (BitVec.ofInt 8 d) = counted w d := by
  have hlo : lo w = BitVec.ofInt 8 w.toNat := by
    apply BitVec.eq_of_toNat_eq
    rw [toNat_lo, BitVec.ofInt_natCast, BitVec.toNat_ofNat]
  rw [counter, counted, BitVec.ofInt_add, hlo]

theorem counter_down (w : Word) : counter w 0xFF#8 = counted w (-1) := by
  rw [← counter_eq_counted]; rfl

theorem counter_up (w : Word) : counter w 0x01#8 = counted w 1 := by
  rw [← counter_eq_counted]; rfl

/-- The operand word and its address, as the four semaphore instructions read them. -/
theorem semaphore_bind {α : Type} (h : s.operandOk m = true) (f : Word → Word → State → Res α) :
    ((eaWord m s).bind fun ea s => (memRead ea s).bind fun w s => f ea w s) = f (s.effective m) (s.operand m) s := by
  obtain ⟨hrelay, hword⟩ := Bool.and_eq_true_iff.mp h
  rw [eaWord_ok hrelay, Res.bind_ok, memRead_ok hword]; rfl

theorem canWrite_operand (h : s.operandOk m = true) : s.canWrite s.relocated (s.effective m) = true :=
  canRead_canWrite (Bool.and_eq_true_iff.mp h).2

/-! ARM and QUIT. -/

/-- QUIT after its checks (47_scheduler.md R374). -/
theorem quit_eq (hns : s.sound (absolute 0x0000#16) = true)
    (hq : s.sound (absolute (stringWord 0x0020#16 s.runningTask)) = true) :
    ((readNS s).bind fun n s => (qSet 0x0020#16 n false s).bind fun _ s => schedEpilogue s)
      = schedEpilogue (s.withQueueBit 0x0020#16 s.runningTask false) := by
  rw [readNS_ok hns, Res.bind_ok, qSet_ok hq, Res.bind_ok]

/-- Settles O46: the bit is set or cleared, then the epilogue. -/
theorem armAndQuit : Obligations.ArmAndQuit := by
  intro s ho
  refine ⟨fun hs ix n k u hk hsound hu hsched => ?_, fun hi hc u hu hsched => ?_⟩
  · subst hk hu
    refine execute_sched_epilogue ho (fun _ => hs) nofun ?_ hsched
    rw [State.completed_r, qSet_ok (s := s.completed) hsound]; rfl
  · subst hu
    obtain ⟨hns, hc⟩ := calm_cons.mp hc
    exact execute_sched_epilogue ho nofun (fun _ => hi) (quit_eq (s := s.completed) hns (calm_cons.mp hc).1) hsched

/-! RQST and RLSE. -/

/-- The semaphore of RQST or RLSE after a change of `d` in its counter, its left byte cleared (47_scheduler.md R375, R376). -/
def State.recounted (s : State) (m : MemRef) (d : Int) : State :=
  s.put s.relocated (s.effective m) (zext8 (counted (s.operand m) d))

theorem sound_recounted {pa : PAddr} (h : s.sound pa = true) (m : MemRef) (d : Int) : (s.recounted m d).sound pa = true :=
  sound_put h _ _ _

theorem canRead_recounted {r : Bool} {a : Word} (h : s.canRead r a = true) (m : MemRef) (d : Int) :
    (s.recounted m d).canRead r a = true :=
  canRead_put h _ _ _

@[simp] theorem relocated_recounted (s : State) (m : MemRef) (d : Int) : (s.recounted m d).relocated = s.relocated := rfl

/-- RQST writes the counter; what follows depends on its sign (47_scheduler.md R375). -/
theorem request_eq (h : s.operandOk m = true) : request m s
    = (if (counted (s.operand m) (-1)).toInt < 0 then
        (readNS (s.recounted m (-1))).bind fun n t =>
        (memQSet (s.effective m + 1#16) n true t).bind fun _ t => qSet 0x0028#16 n false t
      else .ok () (s.recounted m (-1))).bind fun _ s => schedEpilogue s := by
  rw [request, semaphore_bind h, memWrite_ok (canWrite_operand h), Res.bind_ok, counter_down]; rfl

/-- The access is granted. -/
theorem request_granted (h : s.operandOk m = true) (hc : 0 ≤ (counted (s.operand m) (-1)).toInt) :
    request m s = schedEpilogue (s.recounted m (-1)) := by
  rw [request_eq h, if_neg (not_lt.mpr hc), Res.bind_ok]

/-- The task waits: it enters the queue of the semaphore and is masked. -/
theorem request_waits {n : Nat} {q : Word} (h : s.operandOk m = true) (hc : (counted (s.operand m) (-1)).toInt < 0)
    (hcalm : s.calm [0x0000#16, stringWord 0x0028#16 n]) (hu : u = s.recounted m (-1)) (hn : n = u.runningTask)
    (hq : q = stringWord (s.effective m + 1#16) n) (hr : s.canRead s.relocated q = true) : request m s = schedEpilogue
      ((u.put s.relocated q (setBit (u.wordAt s.relocated q) (n % 16) true)).withQueueBit 0x0028#16 n false) := by
  subst hu hq
  obtain ⟨hns, hcalm⟩ := calm_cons.mp hcalm
  have hmask := (calm_cons.mp hcalm).1
  rw [request_eq h, if_pos hc, readNS_ok (sound_recounted hns _ _), Res.bind_ok, ← hn, memQSet_ok (canRead_recounted hr _ _),
    Res.bind_ok, relocated_recounted, qSet_ok (sound_put (sound_recounted hmask _ _) _ _ _), Res.bind_ok]

/-- RLSE writes the counter; what follows depends on its sign (47_scheduler.md R376). -/
theorem release_eq (h : s.operandOk m = true) : release m s
    = (if (counted (s.operand m) 1).toInt ≤ 0 then
        (takeWaiter (s.effective m + 1#16) 8 0 (s.recounted m 1)).bind fun n s => qSet 0x0028#16 n true s
      else .ok () (s.recounted m 1)).bind fun _ s => schedEpilogue s := by
  rw [release, semaphore_bind h, memWrite_ok (canWrite_operand h), Res.bind_ok, counter_up]; rfl

/-- No task waits. -/
theorem release_free (h : s.operandOk m = true) (hc : 0 < (counted (s.operand m) 1).toInt) :
    release m s = schedEpilogue (s.recounted m 1) := by
  rw [release_eq h, if_neg (not_le.mpr hc), Res.bind_ok]

section
variable {q : Word} {left i k b : Nat}

/-- Words without a waiter are passed over. -/
theorem takeWaiter_zero (hr : s.canRead s.relocated (q + BitVec.ofNat 16 i) = true)
    (hz : s.wordAt s.relocated (q + BitVec.ofNat 16 i) = 0#16) :
    takeWaiter q (left + 1) i s = takeWaiter q left (i + 1) s := by
  rw [takeWaiter, memRead_ok hr, Res.bind_ok, if_pos hz]

/-- The leftmost waiter, at bit `b` of word `k`, is taken out by a search from word `i` on (47_scheduler.md R376). -/
theorem takeWaiter_ok (hi : i ≤ k) (hk : k < i + left) (hb : b < 16)
    (hr : ∀ j ≤ k, s.canRead s.relocated (q + BitVec.ofNat 16 j) = true)
    (hz : ∀ j < k, s.wordAt s.relocated (q + BitVec.ofNat 16 j) = 0#16)
    (hone : bit (s.wordAt s.relocated (q + BitVec.ofNat 16 k)) b = true)
    (hleast : ∀ j < b, bit (s.wordAt s.relocated (q + BitVec.ofNat 16 k)) j = false) :
    takeWaiter q left i s = .ok (16 * k + b) (s.put s.relocated (q + BitVec.ofNat 16 k)
      (setBit (s.wordAt s.relocated (q + BitVec.ofNat 16 k)) b false)) := by
  induction left generalizing i with
  | zero => omega
  | succ left ih =>
    rcases Nat.lt_or_eq_of_le hi with hlt | rfl
    · rw [takeWaiter_zero (hr i hi) (hz i hlt)]
      exact ih hlt (by omega)
    · have hne : s.wordAt s.relocated (q + BitVec.ofNat 16 i) ≠ 0#16 := fun h => by
        rw [h, bit_zero] at hone; cases hone
      rw [takeWaiter, memRead_ok (hr i hi), Res.bind_ok, if_neg hne, leftmost_eq hb hone hleast,
        memWrite_ok (canRead_canWrite (hr i hi)), Res.bind_ok]

/-- An empty queue is outside the model (U15). -/
theorem takeWaiter_empty (hr : ∀ j < i + left, s.canRead s.relocated (q + BitVec.ofNat 16 j) = true)
    (hz : ∀ j < i + left, s.wordAt s.relocated (q + BitVec.ofNat 16 j) = 0#16) :
    takeWaiter q left i s = .refuse .rlseEmptyQueue := by
  induction left generalizing i with
  | zero => rfl
  | succ left ih =>
    rw [takeWaiter_zero (hr i (by omega)) (hz i (by omega))]
    exact ih (fun j hj => hr j (by omega)) fun j hj => hz j (by omega)

end

/-- The leftmost waiter leaves the queue and is unmasked. -/
theorem release_wakes {q : Nat → Word} {k b : Nat} (h : s.operandOk m = true) (hc : (counted (s.operand m) 1).toInt ≤ 0)
    (hu : u = s.recounted m 1) (hq : ∀ k, q k = s.effective m + 1#16 + BitVec.ofNat 16 k) (hk : k < 8) (hb : b < 16)
    (hr : ∀ j ≤ k, s.canRead s.relocated (q j) = true) (hz : ∀ j < k, u.wordAt s.relocated (q j) = 0#16)
    (hone : bit (u.wordAt s.relocated (q k)) b = true) (hleast : ∀ i < b, bit (u.wordAt s.relocated (q k)) i = false)
    (hmask : s.sound (absolute (stringWord 0x0028#16 (16 * k + b))) = true) : release m s = schedEpilogue
      ((u.put s.relocated (q k) (setBit (u.wordAt s.relocated (q k)) b false)).withQueueBit 0x0028#16 (16 * k + b) true) := by
  obtain rfl : q = fun k => s.effective m + 1#16 + BitVec.ofNat 16 k := funext hq
  subst hu
  have htake := takeWaiter_ok (s := s.recounted m 1) (i := 0) (left := 8) (Nat.zero_le k) (by omega) hb
    (fun j hj => canRead_recounted (hr j hj) _ _) hz hone hleast
  rw [release_eq h, if_pos hc, htake, Res.bind_ok, qSet_ok (sound_put (sound_recounted hmask _ _) _ _ _), Res.bind_ok]; rfl

theorem release_empty {q : Nat → Word} (h : s.operandOk m = true) (hc : (counted (s.operand m) 1).toInt ≤ 0)
    (hq : ∀ k, q k = s.effective m + 1#16 + BitVec.ofNat 16 k) (hr : ∀ j < 8, s.canRead s.relocated (q j) = true)
    (hz : ∀ j < 8, (s.recounted m 1).wordAt s.relocated (q j) = 0#16) : release m s = .refuse .rlseEmptyQueue := by
  obtain rfl : q = fun k => s.effective m + 1#16 + BitVec.ofNat 16 k := funext hq
  have hempty := takeWaiter_empty (s := s.recounted m 1) (i := 0) (left := 8)
    (fun j hj => canRead_recounted (hr j (by omega)) _ _) fun j hj => hz j (by omega)
  rw [release_eq h, if_pos hc, hempty]; rfl

/-- Settles O47: the sign of the counter tells the branches of each instruction apart. -/
theorem mutualExclusion : Obligations.MutualExclusion := by
  intro s m ea ho hs hm hea
  subst hea
  refine ⟨fun hi c u n q hc hu hn hq => ⟨fun hpos hsched => ?_, fun hneg hcalm hr w hw hsched => ?_⟩,
    fun c u hc hu => ⟨fun hpos hsched => ?_, fun hle q hq => ⟨fun k b hk hb hr hz hone hleast hmask w hw hsched => ?_,
      fun hr hz => ?_⟩⟩⟩
  all_goals subst hc
  · subst hu
    exact execute_sched_epilogue ho (fun _ => hs) (fun _ => hi) (request_granted (s := s.completed) hm hpos) hsched
  · subst hw
    refine execute_sched_epilogue ho (fun _ => hs) (fun _ => hi) ?_ hsched
    exact request_waits (s := s.completed) (u := u.completed) hm hneg hcalm (by rw [hu]; rfl) hn hq hr
  · subst hu
    exact execute_sched_epilogue ho (fun _ => hs) nofun (release_free (s := s.completed) hm hpos) hsched
  · subst hw
    refine execute_sched_epilogue ho (fun _ => hs) nofun ?_ hsched
    exact release_wakes (s := s.completed) (u := u.completed) hm hle (by rw [hu]; rfl) hq hk hb hr hz hone hleast hmask
  · subst hu
    exact execute_sched_refuse (d := false) ho (fun _ => hs) nofun (release_empty (s := s.completed) hm hle hq hr hz)

/-! WAIT and ACT. -/

/-- The word WAIT writes (47_scheduler.md R377): its bit 0, the number of the task and the counter. -/
theorem waitWord_fields (w : Word) {n : Nat} (hn : n < 128) : bit (waitWord w n) 0 = bit w 0
    ∧ (hi (waitWord w n)).toNat % 128 = n ∧ lo (waitWord w n) = counted w (-1) := by
  have hhi : (hi (waitWord w n)).toNat = (bit w 0).toNat * 128 + n := by
    rw [waitWord, hi_ofBytes, toNat_join, BitVec.toNat_ofBool, BitVec.toNat_ofNat, Nat.mod_eq_of_lt hn]; rfl
  refine ⟨?_, by omega, by rw [waitWord, lo_ofBytes, counter_down]⟩
  rw [toNat_hi] at hhi
  rw [bit_first (waitWord w n)]
  cases hb : bit w 0 with
  | false => rw [hb, Bool.toNat_false] at hhi; exact decide_eq_false (by omega)
  | true => rw [hb, Bool.toNat_true] at hhi; exact decide_eq_true (by omega)

/-- WAIT writes the number of the running task and the counter, and masks the task when it has to wait (47_scheduler.md R377). -/
theorem waitFor_eq (h : s.operandOk m = true) (hns : s.sound (absolute 0x0000#16) = true)
    (hmask : (counted (s.operand m) (-1)).toInt < 0 → s.sound (absolute (stringWord 0x0028#16 s.runningTask)) = true)
    (hu : u = s.put s.relocated (s.effective m) (waitWord (s.operand m) s.runningTask)) : waitFor m s = schedEpilogue
      (if (counted (s.operand m) (-1)).toInt < 0 then u.withQueueBit 0x0028#16 s.runningTask false else u) := by
  subst hu
  rw [waitFor, semaphore_bind h, readNS_ok hns, Res.bind_ok, memWrite_ok (canWrite_operand h), Res.bind_ok, counter_down,
    qSet_when (fun hc => sound_put (hmask hc) _ _ _), Res.bind_ok]

/-- A parameter is posted on a call semaphore alone (47_scheduler.md R378, R382). -/
theorem postParameter_plain {w : Word} (h : bit w 0 = false) (q : Word) : postParameter w q s = .ok () s := by
  rw [postParameter, h]; rfl

theorem postParameter_call {w q : Word} (h : bit w 0 = true) (hy : s.r.Y.toNat < 32768)
    (hr : s.canRead s.relocated (stringWord q s.r.Y.toNat) = true) : postParameter w q s
    = .ok () (s.put s.relocated (stringWord q s.r.Y.toNat)
      (setBit (s.wordAt s.relocated (stringWord q s.r.Y.toNat)) (s.r.Y.toNat % 16) true)) := by
  have hrank : ¬bit s.r.Y 0 = true := by rw [bit_first, decide_eq_true_eq]; omega
  rw [postParameter, if_pos h, if_neg hrank, memQSet_ok hr]

theorem postParameter_refuse {w : Word} (h : bit w 0 = true) (hy : 32768 ≤ s.r.Y.toNat) (q : Word) :
    postParameter w q s = .refuse .actRankOutOfRange := by
  rw [postParameter, if_pos h, bit_first, if_pos (decide_eq_true hy)]

/-- What ACT does after the parameter is posted: the counter, and the task unmasked when it waits (47_scheduler.md R378). -/
def State.activated (s : State) (ea w : Word) : State :=
  if (counted w 1).toInt ≤ 0 then
    (s.put s.relocated ea (ofBytes (hi w) (counted w 1))).withQueueBit 0x0028#16 ((hi w).toNat % 128) true
  else s.put s.relocated ea (ofBytes (hi w) (counted w 1))

theorem activated_completed (s : State) (ea w : Word) : s.completed.activated ea w = (s.activated ea w).completed := by
  rw [State.activated, State.activated, apply_ite State.completed]; rfl

/-- ACT once its parameter is posted. -/
theorem activate_of_posted (h : s.operandOk m = true)
    (hp : postParameter (s.operand m) (s.effective m + 1#16) s = .ok () u) (hw : u.canWrite u.relocated (s.effective m) = true)
    (hmask : (counted (s.operand m) 1).toInt ≤ 0 →
      u.sound (absolute (stringWord 0x0028#16 ((hi (s.operand m)).toNat % 128))) = true) :
    activate m s = schedEpilogue (u.activated (s.effective m) (s.operand m)) := by
  rw [activate, semaphore_bind h, hp, Res.bind_ok, memWrite_ok hw, Res.bind_ok, counter_up,
    qSet_when (fun hc => sound_put (hmask hc) _ _ _), Res.bind_ok]; rfl

theorem activate_plain (h : s.operandOk m = true) (hb : bit (s.operand m) 0 = false)
    (hmask : (counted (s.operand m) 1).toInt ≤ 0 →
      s.sound (absolute (stringWord 0x0028#16 ((hi (s.operand m)).toNat % 128))) = true) :
    activate m s = schedEpilogue (s.activated (s.effective m) (s.operand m)) :=
  activate_of_posted h (postParameter_plain hb _) (canWrite_operand h) hmask

theorem activate_call {q : Word} (h : s.operandOk m = true) (hb : bit (s.operand m) 0 = true) (hy : s.r.Y.toNat < 32768)
    (hq : q = stringWord (s.effective m + 1#16) s.r.Y.toNat) (hr : s.canRead s.relocated q = true)
    (hu : u = s.put s.relocated q (setBit (s.wordAt s.relocated q) (s.r.Y.toNat % 16) true))
    (hmask : (counted (s.operand m) 1).toInt ≤ 0 →
      s.sound (absolute (stringWord 0x0028#16 ((hi (s.operand m)).toNat % 128))) = true) :
    activate m s = schedEpilogue (u.activated (s.effective m) (s.operand m)) := by
  subst hq hu
  exact activate_of_posted h (postParameter_call hb hy hr) (canWrite_store (canWrite_operand h) _ _)
    fun hc => sound_put (hmask hc) _ _ _

/-- A rank beyond the queue is outside the model (U16). -/
theorem activate_refuse (h : s.operandOk m = true) (hb : bit (s.operand m) 0 = true) (hy : 32768 ≤ s.r.Y.toNat) :
    activate m s = .refuse .actRankOutOfRange := by
  rw [activate, semaphore_bind h, postParameter_refuse hb hy]; rfl

/-- Settles O48: the word WAIT writes by its fields; ACT by what it posts, then the same end. -/
theorem privateSemaphores : Obligations.PrivateSemaphores := by
  intro s m ea w ho hs hm hea hw
  subst hea hw
  refine ⟨fun hi hns => ?_, fun q c z hq hc hmask hz => ?_⟩
  · obtain ⟨hfirst, htask, hcount⟩ := waitWord_fields (s.operand m) (n := s.runningTask) (Nat.mod_lt _ (by omega))
    refine ⟨_, hfirst, htask, hcount, fun u z hmask hu hz hsched => ?_⟩
    rw [hcount] at hmask hz
    refine execute_sched_epilogue ho (fun _ => hs) (fun _ => hi) ?_ hsched
    rw [hz, apply_ite State.completed]
    exact waitFor_eq (s := s.completed) (u := u.completed) hm hns hmask (by rw [hu]; rfl)
  · subst hc
    have hz' : ∀ p : State, p.relocated = s.relocated → z p = p.activated (s.effective m) (s.operand m) := fun p hp => by
      rw [hz, ← hp]; rfl
    refine ⟨fun hb hsched => ?_, fun hb hy hr p hp hsched => ?_, fun hb hy => ?_⟩
    · rw [hz' s rfl] at hsched ⊢
      refine execute_sched_epilogue ho (fun _ => hs) nofun ?_ hsched
      rw [← activated_completed]
      exact activate_plain (s := s.completed) hm hb hmask
    · rw [hz' p (by rw [hp]; rfl)] at hsched ⊢
      refine execute_sched_epilogue ho (fun _ => hs) nofun ?_ hsched
      rw [← activated_completed]
      exact activate_call (s := s.completed) hm hb hy hq hr (by rw [hp]; rfl) hmask
    · exact execute_sched_refuse (d := false) ho (fun _ => hs) nofun (activate_refuse (s := s.completed) hm hb hy)

end Sys2Proof.Machine
end

section
/-! SUPPORT. The obligations on the based and the CDA loads and stores: the accesses on physical addresses, then the displacement and
the limits (48_cda_lists.md R398, 49_isp16.md R411 to R419, R424 to R430). -/

namespace Sys2Proof.Machine

variable {s t : State} {o : IspArgs} {pa pb : PAddr} {w2 d : Word}

/-! Accesses on physical addresses. -/

theorem loadAt_completed (h : s.sound pa = true) :
    loadAt pa s.completed = .ok () (s.setReg .a (readWord s.mem pa)).completed :=
  Res.bind_of_ok (readAt_completed h) rfl

theorem storeAt_completed (h : s.storable pa = true) : storeAt pa s.completed = .ok () (s.store pa s.r.A).completed :=
  writeAt_completed h

theorem exchangeA_completed (h : s.sound pa = true) :
    exchangeA pa s.completed = .ok () ((s.store pa s.r.A).setReg .a (readWord s.mem pa)).completed :=
  exchangeA_ok (s := s.completed) h

/-- A first, then B (49_isp16.md R416). -/
theorem loadPairAt_completed (ha : s.sound pa = true) (hb : s.sound pb = true) :
    loadPairAt pa pb s.completed
      = .ok () ((s.setReg .a (readWord s.mem pa)).setReg .b (readWord s.mem pb)).completed :=
  Res.bind_of_ok (loadAt_completed ha)
    (Res.bind_of_ok (readAt_completed (s := s.setReg .a (readWord s.mem pa)) (a := pb) hb) rfl)

theorem storePairAt_completed (ha : s.storable pa = true) (hb : s.storable pb = true) :
    storePairAt pa pb s.completed = .ok () ((s.store pa s.r.A).store pb s.r.B).completed :=
  Res.bind_of_ok (writeAt_completed ha) (writeAt_completed (s := s.store pa s.r.A) (storable_store hb pa s.r.A))

/-- The byte of a word that X selects is the right one at an odd rank (49_isp16.md R418). -/
theorem loadByteAt_completed (h : s.sound pa = true) :
    loadByteAt pa s.completed
      = .ok () (s.setReg .a (zext8 (byteOf (readWord s.mem pa) (decide (s.r.X.toNat % 2 = 1))))).completed := by
  refine Res.bind_of_ok (readAt_completed h) ?_
  rw [State.completed_r, bit_last]; rfl

theorem storeByteAt_completed (h : s.sound pa = true) :
    storeByteAt pa s.completed
      = .ok () (s.store pa (withByte (readWord s.mem pa) (decide (s.r.X.toNat % 2 = 1)) (lo s.r.A))).completed := by
  refine Res.bind_of_ok (readAt_completed h) ?_
  rw [State.completed_r, bit_last]
  exact writeAt_completed (sound_storable h)

/-- The byte of an odd rank is the right one. -/
theorem halves_withByte_rank (w : Word) (n : Nat) (b : Byte) :
    if n % 2 = 1 then hi (withByte w (decide (n % 2 = 1)) b) = hi w ∧ lo (withByte w (decide (n % 2 = 1)) b) = b
    else hi (withByte w (decide (n % 2 = 1)) b) = b ∧ lo (withByte w (decide (n % 2 = 1)) b) = lo w := by
  have h := halves_withByte w (decide (n % 2 = 1)) b
  simpa only [decide_eq_true_eq] using h

/-- The word of the byte of rank X (49_isp16.md R411). -/
theorem half_eq (x : Word) : half x = u16 (s16 x / 2) := by
  apply BitVec.eq_of_toInt_eq
  have hb := s16_bounds x
  rw [toInt_half, u16, BitVec.toInt_ofInt, Int.bmod_eq_of_le_mul_two (by omega) (by omega)]

theorem byteDisp_eq (s : State) (p : Word) : s.byteDisp p = p + u16 (s16 s.r.X / 2) := by rw [State.byteDisp, half_eq]

/-! Based instructions. -/

/-- A based instruction does its access with the parameters, then ends (49_isp16.md R410, R411). -/
theorem execute_based (h : s.basedOk o = true) {act : Word → Word → State → Res Unit}
    (hact : act (s.params o).1 (s.params o).2 s.completed = .ok () t.completed) :
    execute (basedDispatch o fun p1 p2 s => (act p1 p2 s).bind fun _ s => finishBased o s) s
      = .next (t.ends (paramWords o)) :=
  execute_ok ((basedDispatch_ok h).trans (Res.bind_of_ok hact rfl))

/-- Settles O29: the address of each access is formed from the parameters, and the access is one of six. -/
theorem basedAccess : Obligations.BasedAccess := by
  intro s ix o d pa pb h
  refine ⟨?_, ?_⟩
  · intro hd hpa hpb
    obtain rfl := basedEA_eq hpa
    obtain rfl := basedEA_eq hpb
    have hix : s.completed.indexed ix (s.params o).2 = d := hd.symm
    refine ⟨fun ha => ⟨execute_based h ?_, execute_based h ?_⟩, fun ha => execute_based h ?_,
      fun ha hb => execute_based h ?_, fun ha hb => execute_based h ?_⟩ <;> rw [hix]
    · exact loadAt_completed ha
    · exact exchangeA_completed ha
    · exact storeAt_completed ha
    · exact loadPairAt_completed ha hb
    · exact storePairAt_completed ha hb
  · intro hd hpa ha
    obtain rfl := basedEA_eq hpa
    have hdisp : s.completed.byteDisp (s.params o).2 = d := (byteDisp_eq s.completed _).trans hd.symm
    exact ⟨_, _, (eq_zext8_byteOf_iff _ _).mp rfl, halves_withByte_rank _ _ _,
      execute_based h (by rw [hdisp]; exact loadByteAt_completed ha),
      execute_based h (by rw [hdisp]; exact storeByteAt_completed ha)⟩

/-! CDA instructions. -/

section
variable {disp : State → Word → Word} {f : (Word × Word) × Word → State → Res Unit}

/-- A displacement within the common data area: the instruction goes on with it (48_cda_lists.md R398, 49_isp16.md R412). -/
theorem cdaOperand_inside (h : s.cdaOperandOk w2 = true) (hd : disp s.completed (s.cdaD16 w2) = d)
    (hin : s.cdaLim.1.toNat * 16 + d.toNat ≤ s.cdaLim.2.toNat * 16 + 15) :
    ispDispatch (fun s => (cdaOperand w2 disp s).bind f) s.completed = f (s.cdaLim, d) s.completed := by
  have hisp : s.cfg.hasIsp16 = true := by
    simp only [State.cdaOperandOk, Bool.and_eq_true] at h
    exact h.1.1.1
  subst hd
  rw [ispDispatch_ok hisp, cdaOperand_eq h, if_pos hin, Res.bind_ok]

/-- A displacement beyond the area: alarm 1 (D37). -/
theorem cdaOperand_beyond (h : s.cdaOperandOk w2 = true) (hd : disp s.completed (s.cdaD16 w2) = d)
    (hout : s.cdaLim.2.toNat * 16 + 15 < s.cdaLim.1.toNat * 16 + d.toNat) :
    execute (ispDispatch fun s => (cdaOperand w2 disp s).bind f) s = (takeAlarm s.P .memoryProtection s.completed).outcome := by
  have hisp : s.cfg.hasIsp16 = true := by
    simp only [State.cdaOperandOk, Bool.and_eq_true] at h
    exact h.1.1.1
  subst hd
  refine execute_alarm ?_
  rw [ispDispatch_ok hisp, cdaOperand_eq h, if_neg (not_le.mpr hout), Res.bind_alarm]

/-- An access within the area, then the end of the instruction. -/
theorem execute_cda (h : s.cdaOperandOk w2 = true) (hd : disp s.completed (s.cdaD16 w2) = d)
    (hin : s.cdaLim.1.toNat * 16 + d.toNat ≤ s.cdaLim.2.toNat * 16 + 15)
    (hf : f (s.cdaLim, d) s.completed = finish2 t.completed) :
    execute (ispDispatch fun s => (cdaOperand w2 disp s).bind f) s = .next (t.ends 2) :=
  execute_ok ((cdaOperand_inside h hd hin).trans hf)

/-- The second word of a pair beyond the area: alarm 1 with nothing done (D38). -/
theorem execute_cdaPair_beyond (h : s.cdaOperandOk w2 = true) {ix : Bool} (hd : s.completed.indexed ix (s.cdaD16 w2) = d)
    (hin : s.cdaLim.1.toNat * 16 + d.toNat ≤ s.cdaLim.2.toNat * 16 + 15)
    (hout : s.cdaLim.2.toNat * 16 + 15 < s.cdaLim.1.toNat * 16 + (d + 1#16).toNat)
    (act : PAddr → PAddr → State → Res Unit) :
    execute (cdaPair ix w2 act) s = (takeAlarm s.P .memoryProtection s.completed).outcome :=
  execute_alarm ((cdaOperand_inside h hd hin).trans (if_neg (by simpa [cdaOk] using hout)))

/-- A pair within the area. -/
theorem execute_cdaPair (h : s.cdaOperandOk w2 = true) {ix : Bool} (hd : s.completed.indexed ix (s.cdaD16 w2) = d)
    (hin : s.cdaLim.1.toNat * 16 + d.toNat ≤ s.cdaLim.2.toNat * 16 + 15)
    (hin' : s.cdaLim.1.toNat * 16 + (d + 1#16).toNat ≤ s.cdaLim.2.toNat * 16 + 15)
    {act : PAddr → PAddr → State → Res Unit}
    (hact : act (basedEA s.cdaLim.1 d) (basedEA s.cdaLim.1 (d + 1#16)) s.completed = .ok () t.completed) :
    execute (cdaPair ix w2 act) s = .next (t.ends 2) :=
  execute_cda h hd hin ((if_pos (decide_eq_true hin')).trans (Res.bind_of_ok hact rfl))

end

/-- Settles O30: the displacement is within the area, where each access is that of a based instruction, or beyond it. -/
theorem cdaAccess : Obligations.CdaAccess := by
  rintro s ix w2 d pa pb _ h rfl
  refine ⟨?_, ?_⟩
  · intro hd hpa hpb
    obtain rfl := basedEA_eq hpa
    obtain rfl := basedEA_eq hpb
    have hix : s.completed.indexed ix (s.cdaD16 w2) = d := hd.symm
    refine ⟨fun hin => ⟨fun ha => ⟨?_, ?_⟩, fun ha => ?_, fun hin' => ⟨fun ha hb => ?_, fun ha hb => ?_⟩, fun hout => ?_⟩,
      fun hout => ?_⟩
    · exact execute_cda h hix hin (Res.bind_of_ok (loadAt_completed ha) rfl)
    · exact execute_cda h hix hin (Res.bind_of_ok (exchangeA_completed ha) rfl)
    · exact execute_cda h hix hin (Res.bind_of_ok (storeAt_completed ha) rfl)
    · exact execute_cdaPair h hix hin hin' (loadPairAt_completed ha hb)
    · exact execute_cdaPair h hix hin hin' (storePairAt_completed ha hb)
    · have halarm := execute_cdaPair_beyond h hix hin hout
      simpa only [List.forall_mem_cons] using ⟨halarm loadPairAt, halarm storePairAt, nofun⟩
    · have halarm {f} := cdaOperand_beyond (disp := fun s d => s.indexed ix d) (f := f) h hix hout
      simpa only [List.forall_mem_cons] using ⟨halarm, halarm, halarm, halarm, halarm, nofun⟩
  · intro hd hpa
    obtain rfl := basedEA_eq hpa
    have hdisp : s.completed.byteDisp (s.cdaD16 w2) = d := (byteDisp_eq s.completed _).trans hd.symm
    refine ⟨fun hin ha => ⟨_, _, (eq_zext8_byteOf_iff _ _).mp rfl, halves_withByte_rank _ _ _,
      execute_cda h hdisp hin (Res.bind_of_ok (loadByteAt_completed ha) rfl),
      execute_cda h hdisp hin (Res.bind_of_ok (storeByteAt_completed ha) rfl)⟩, fun hout => ?_⟩
    have halarm {f} := cdaOperand_beyond (disp := fun s d => s.byteDisp d) (f := f) h hdisp hout
    simpa only [List.forall_mem_cons] using ⟨halarm, halarm, nofun⟩

end Sys2Proof.Machine
end

section
/-! SUPPORT. The obligation on doubly linked lists: the writes of each instruction in order, then SUPQ after INSQ (48_cda_lists.md R395
to R400). -/

namespace Sys2Proof.Machine

variable {s t : State} {b : Bool} {a a' v : Word}

/-! Words at program addresses after a store. -/

theorem canWrite_put (h : s.canWrite b a = true) (b' : Bool) (a' v : Word) : (s.put b' a' v).canWrite b a = true :=
  canWrite_store h _ v

@[simp] theorem relocated_put (s : State) (b : Bool) (a v : Word) : (s.put b a v).relocated = s.relocated := rfl

@[simp] theorem put_cfg (s : State) (b : Bool) (a v : Word) : (s.put b a v).cfg = s.cfg := rfl

@[simp] theorem put_st (s : State) (b : Bool) (a v : Word) : (s.put b a v).st = s.st := rfl

@[simp] theorem put_P (s : State) (b : Bool) (a v : Word) : (s.put b a v).P = s.P := rfl

@[simp] theorem put_r (s : State) (b : Bool) (a v : Word) : (s.put b a v).r = s.r := rfl

@[simp] theorem place_put (s : State) (b b' : Bool) (a a' v : Word) : (s.put b a v).place b' a' = s.place b' a' := rfl

theorem put_wf (h : Memory.wf s.mem = true) (b : Bool) (a v : Word) : Memory.wf (s.put b a v).mem = true := store_wf h _ v

theorem wordAt_put_same (h : Memory.wf s.mem = true) (b : Bool) (a v : Word) : (s.put b a v).wordAt b a = v :=
  wordAt_store_same h

theorem wordAt_put_other (h : a ≠ a') (v : Word) : (s.put b a' v).wordAt b a = s.wordAt b a :=
  wordAt_store_other fun he => h (place_inj he)

/-- The bytes of a word are those of its value. -/
theorem readByte_of_wordAt {n : Nat} (hp : t.place b a = s.place b a) (hw : t.wordAt b a = s.wordAt b a)
    (hn : n / 2 = (s.place b a).toNat) : readByte t.mem n = readByte s.mem n := by
  simp only [State.wordAt, hp, readWord] at hw
  have hleft := congrArg hi hw
  have hright := congrArg lo hw
  rw [hi_ofBytes, hi_ofBytes] at hleft
  rw [lo_ofBytes, lo_ofBytes] at hright
  obtain rfl | rfl : n = 2 * (s.place b a).toNat ∨ n = 2 * (s.place b a).toNat + 1 := by omega
  · exact hleft
  · exact hright

/-! The instructions. -/

/-- The states INSQ goes through: the element at A is placed between the one at B and `n`, its successor. -/
def State.inserted (s : State) (n : Word) : State :=
  (((s.put s.relocated s.r.A n).put s.relocated (s.r.A + 1#16) s.r.B).put s.relocated s.r.B s.r.A).put s.relocated
    (n + 1#16) s.r.A

theorem execInsq_ok (hc : s.cfg.hasCda16 = true) (hB : s.canRead s.relocated s.r.B = true)
    (hA : s.canWrite s.relocated s.r.A = true) (hA1 : s.canWrite s.relocated (s.r.A + 1#16) = true)
    (hn : s.canWrite s.relocated (s.wordAt s.relocated s.r.B + 1#16) = true) :
    execInsq s = .next ((s.inserted (s.wordAt s.relocated s.r.B)).ends 2) := by
  refine execute_ok ((cdaDispatch_ok hc).trans (Res.bind_of_ok (memRead_completed hB) ?_))
  refine Res.bind_of_ok (memWrite_completed hA) (Res.bind_of_ok (memWrite_completed (canWrite_put hA1 _ _ _)) ?_)
  refine Res.bind_of_ok (memWrite_completed (canWrite_put (canWrite_put (canRead_canWrite hB) _ _ _) _ _ _)) ?_
  exact Res.bind_of_ok (memWrite_completed (canWrite_put (canWrite_put (canWrite_put hn _ _ _) _ _ _) _ _ _)) rfl

/-- An element alone in its list is its own successor, and stays (D36). -/
theorem execSupq_alone (hc : s.cfg.hasCda16 = true) (hA : s.canRead s.relocated s.r.A = true)
    (hA1 : s.canRead s.relocated (s.r.A + 1#16) = true) (he : s.wordAt s.relocated s.r.A = s.r.A) :
    execSupq s = .next (s.ends 2) :=
  execute_ok ((cdaDispatch_ok hc).trans
    (Res.bind_of_ok (memRead_completed hA) (Res.bind_of_ok (memRead_completed hA1) (if_pos he))))

/-- The two neighbours `n` and `p` of the element at `a` are linked to one another. -/
theorem execSupq_ok (hc : s.cfg.hasCda16 = true) (hb : s.relocated = b) (ha : s.r.A = a) (hA : s.canRead b a = true)
    (hA1 : s.canRead b (a + 1#16) = true) {n p : Word} (hn : s.wordAt b a = n) (hp : s.wordAt b (a + 1#16) = p)
    (hne : n ≠ a) (hwp : s.canWrite b p = true) (hwn : s.canWrite b (n + 1#16) = true) :
    execSupq s = .next (((s.put b p n).put b (n + 1#16) p).ends 2) := by
  subst hb ha hn hp
  refine execute_ok ((cdaDispatch_ok hc).trans
    (Res.bind_of_ok (memRead_completed hA) (Res.bind_of_ok (memRead_completed hA1) ((if_neg hne).trans ?_))))
  exact Res.bind_of_ok (memWrite_completed hwp) (Res.bind_of_ok (memWrite_completed (canWrite_put hwn _ _ _)) rfl)

theorem execSfq_alone (hc : s.cfg.hasCda16 = true) (hA1 : s.canRead s.relocated (s.r.A + 1#16) = true)
    (he : s.wordAt s.relocated (s.r.A + 1#16) = s.r.A) : execSfq s = .next (s.ends 2) :=
  execute_ok ((cdaDispatch_ok hc).trans (Res.bind_of_ok (memRead_completed hA1) (if_pos he)))

/-- The predecessor `e` leaves, and its own predecessor is linked to the element at A. -/
theorem execSfq_ok (hc : s.cfg.hasCda16 = true) (hA1 : s.canRead s.relocated (s.r.A + 1#16) = true) {e p : Word}
    (he : e = s.wordAt s.relocated (s.r.A + 1#16)) (hne : e ≠ s.r.A) (hr : s.canRead s.relocated (e + 1#16) = true)
    (hp : p = s.wordAt s.relocated (e + 1#16)) (hw : s.canWrite s.relocated p = true) :
    execSfq s = .next ((((s.put s.relocated (s.r.A + 1#16) p).put s.relocated p s.r.A).setReg .a e).ends 2) := by
  subst he hp
  refine execute_ok ((cdaDispatch_ok hc).trans
    (Res.bind_of_ok (memRead_completed hA1) ((if_neg hne).trans (Res.bind_of_ok (memRead_completed hr) ?_))))
  exact Res.bind_of_ok (memWrite_completed (canRead_canWrite hA1))
    (Res.bind_of_ok (memWrite_completed (canWrite_put hw _ _ _)) rfl)

theorem execSlq_alone (hc : s.cfg.hasCda16 = true) (hA : s.canRead s.relocated s.r.A = true)
    (he : s.wordAt s.relocated s.r.A = s.r.A) : execSlq s = .next (s.ends 2) :=
  execute_ok ((cdaDispatch_ok hc).trans (Res.bind_of_ok (memRead_completed hA) (if_pos he)))

/-- The successor `e` leaves, and its own successor is linked to the element at A. -/
theorem execSlq_ok (hc : s.cfg.hasCda16 = true) (hA : s.canRead s.relocated s.r.A = true) {e n : Word}
    (he : e = s.wordAt s.relocated s.r.A) (hne : e ≠ s.r.A) (hr : s.canRead s.relocated e = true)
    (hn : n = s.wordAt s.relocated e) (hw : s.canWrite s.relocated (n + 1#16) = true) :
    execSlq s = .next ((((s.put s.relocated s.r.A n).put s.relocated (n + 1#16) s.r.A).setReg .a e).ends 2) := by
  subst he hn
  refine execute_ok ((cdaDispatch_ok hc).trans
    (Res.bind_of_ok (memRead_completed hA) ((if_neg hne).trans (Res.bind_of_ok (memRead_completed hr) ?_))))
  exact Res.bind_of_ok (memWrite_completed (canRead_canWrite hA))
    (Res.bind_of_ok (memWrite_completed (canWrite_put hw _ _ _)) rfl)

/-! SUPQ after INSQ. -/

/-- The words INSQ leaves in a list where `n`, the successor of the element at B, is apart from the element at A. -/
theorem inserted_words {n : Word} (hwf : Memory.wf s.mem = true) (hnA : n ≠ s.r.A) (hnB : n + 1#16 ≠ s.r.B)
    (hAB : s.r.A ≠ s.r.B) (hAB1 : s.r.A + 1#16 ≠ s.r.B) (hAn : s.r.A ≠ n + 1#16) :
    (s.inserted n).wordAt s.relocated s.r.A = n ∧ (s.inserted n).wordAt s.relocated (s.r.A + 1#16) = s.r.B
    ∧ (s.inserted n).wordAt s.relocated s.r.B = s.r.A := by
  have hA1n : s.r.A + 1#16 ≠ n + 1#16 := fun h => hnA (add_right_cancel h).symm
  have hA1 : s.r.A ≠ s.r.A + 1#16 := (four_words_ne s.r.A).1
  have hwf1 := put_wf hwf s.relocated s.r.A n
  have hwf2 := put_wf hwf1 s.relocated (s.r.A + 1#16) s.r.B
  refine ⟨?_, ?_, ?_⟩
  · rw [State.inserted, wordAt_put_other hAn, wordAt_put_other hAB, wordAt_put_other hA1, wordAt_put_same hwf]
  · rw [State.inserted, wordAt_put_other hA1n, wordAt_put_other hAB1, wordAt_put_same hwf1]
  · rw [State.inserted, wordAt_put_other hnB.symm, wordAt_put_same hwf2]

/-- INSQ and SUPQ change nothing but memory. -/
theorem inserted_frame (s : State) (n : Word) : (s.inserted n).cfg = s.cfg ∧ (s.inserted n).r = s.r ∧ (s.inserted n).st = s.st
    ∧ (s.inserted n).P = s.P ∧ (s.inserted n).relocated = s.relocated := by
  simp [State.inserted]

theorem canRead_inserted (h : s.canRead b a = true) (n : Word) : (s.inserted n).canRead b a = true :=
  canRead_put (canRead_put (canRead_put (canRead_put h _ _ _) _ _ _) _ _ _) _ _ _

/-- The words of the two neighbours written back after an insertion. -/
def State.relinked (s : State) (n : Word) : State :=
  ((s.inserted n).put s.relocated s.r.B n).put s.relocated (n + 1#16) s.r.B

theorem place_relinked (s : State) (n : Word) (b : Bool) (a : Word) : (s.relinked n).place b a = s.place b a := by
  simp [State.relinked, State.inserted]

/-- SUPQ of the element just inserted writes the words of its two neighbours back as they were. -/
theorem readByte_relinked {n : Word} (hwf : Memory.wf s.mem = true) (hn : n = s.wordAt s.relocated s.r.B)
    (hback : s.wordAt s.relocated (n + 1#16) = s.r.B) (hnB : n + 1#16 ≠ s.r.B) {k : Nat}
    (hA : k / 2 ≠ (s.place s.relocated s.r.A).toNat) (hA1 : k / 2 ≠ (s.place s.relocated (s.r.A + 1#16)).toNat) :
    readByte (s.relinked n).mem k = readByte s.mem k := by
  have hwf1 : Memory.wf (s.inserted n).mem = true := put_wf (put_wf (put_wf (put_wf hwf _ _ _) _ _ _) _ _ _) _ _ _
  have hwordB : (s.relinked n).wordAt s.relocated s.r.B = s.wordAt s.relocated s.r.B := by
    rw [State.relinked, wordAt_put_other hnB.symm, wordAt_put_same hwf1, hn]
  have hwordN : (s.relinked n).wordAt s.relocated (n + 1#16) = s.wordAt s.relocated (n + 1#16) := by
    rw [State.relinked, wordAt_put_same (put_wf hwf1 _ _ _), hback]
  by_cases hB : k / 2 = (s.place s.relocated s.r.B).toNat
  · exact readByte_of_wordAt (place_relinked s n _ _) hwordB hB
  by_cases hN : k / 2 = (s.place s.relocated (n + 1#16)).toNat
  · exact readByte_of_wordAt (place_relinked s n _ _) hwordN hN
  · simp only [State.relinked, State.inserted, State.put, State.place_store]
    rw [readByte_store_other _ _ hN, readByte_store_other _ _ hB, readByte_store_other _ _ hN, readByte_store_other _ _ hB,
      readByte_store_other _ _ hA1, readByte_store_other _ _ hA]

/-- Settles O28: the writes of each instruction in order; SUPQ then writes back what INSQ wrote in the two neighbours. -/
theorem queues : Obligations.Queues := by
  refine ⟨?_, ?_⟩
  · rintro s hc _ ok st rfl hok hst
    simp only [hok, hst]
    refine ⟨execInsq_ok hc, fun hA hA1 => ⟨execSupq_alone hc hA hA1, execSupq_ok hc rfl rfl hA hA1 rfl rfl⟩, ?_, ?_⟩
    · exact fun hA1 e he => ⟨fun h => execSfq_alone hc hA1 (he ▸ h), fun hne hr => execSfq_ok hc hA1 he hne hr rfl⟩
    · exact fun hA e he => ⟨fun h => execSlq_alone hc hA (he ▸ h), fun hne hr => execSlq_ok hc hA he hne hr rfl⟩
  · intro s n hc hwf hn hok hback hnA hnB hAB hAB1 hAn
    simp only [List.forall_mem_cons] at hok
    obtain ⟨hA, hA1, hB, hn1, -⟩ := hok
    have hkept {a : Word} (h : s.canRead s.relocated a = true) : (s.inserted n).canRead s.relocated a = true :=
      canRead_inserted h n
    obtain ⟨hwA, hwA1, hwB⟩ := inserted_words hwf hnA hnB hAB hAB1 hAn
    have hfirst : exec .insq s = .next ((s.inserted n).ends 2) := by
      rw [hn] at hn1 ⊢
      exact execInsq_ok hc hB (canRead_canWrite hA) (canRead_canWrite hA1) (canRead_canWrite hn1)
    obtain ⟨hcfg, hr, hst, hP, hrel⟩ := inserted_frame s n
    have hbytes : ∀ k, k / 2 ≠ _ → k / 2 ≠ _ → readByte (s.relinked n).mem k = readByte s.mem k :=
      fun k => readByte_relinked hwf hn hback hnB
    rw [State.relinked] at hbytes
    generalize s.inserted n = t at *
    have hsecond := execSupq_ok (s := t.ends 2) (hcfg ▸ hc) hrel (congrArg Regs.A hr) (hkept hA) (hkept hA1) hwA hwA1 hnA
      (canRead_canWrite (hkept hB)) (canRead_canWrite (hkept hn1))
    refine ⟨_, _, hfirst, hsecond, hr, hst, ?_, hbytes, hwB, hwA⟩
    calc t.P + 2#16 + 2#16 = s.P + 2#16 + 2#16 := by rw [hP]
      _ = s.P + 4#16 := BitVec.add_assoc _ _ _

end Sys2Proof.Machine
end

section
/-! SUPPORT. The obligations on bit strings: a rank as a word offset and a position, the bit written, the bit searched
(48_cda_lists.md R391 to R394, 49_isp16.md R421 to R423). -/

namespace Sys2Proof.Machine

variable {s t : State} {o : IspArgs} {w : Word} {x y q : Int}

/-! Ranks. -/

theorem rankBit_lt (r : Int) : rankBit r < 16 := by unfold rankBit; omega

/-- The bit of rank r set, position by position. -/
theorem bit_set_rank (w : Word) (r : Int) (i : Nat) :
    bit (setBit w (rankBit r) true) i = (bit w i || decide (i = rankBit r)) := by
  rw [bit_setBit _ _ _ _ (rankBit_lt r)]
  split <;> simp [*]

/-- The bit of rank r reset, position by position. -/
theorem bit_reset_rank (w : Word) (r : Int) (i : Nat) :
    bit (setBit w (rankBit r) false) i = (bit w i && decide (i ≠ rankBit r)) := by
  rw [bit_setBit _ _ _ _ (rankBit_lt r)]
  split <;> simp [*]

/-- An indexed rank is a 16-bit sum, read as signed (D36). -/
theorem bitRank_eq (ix : Bool) (n : BitVec 15) (s : State) :
    bitRank ix n s = if ix then s16 (BitVec.ofNat 16 n.toNat + s.r.X) else (n.toNat : Int) := by
  rw [bitRank, BitVec.ofNat_toNat]

/-! Bits written. -/

theorem writeBit_ok {r : Int} {a : Word} (ha : a = s.r.A + u16 (r / 16)) (h : s.canRead s.relocated a = true) (b : Bool) :
    writeBit r b s.completed
      = .ok () ((s.put s.relocated a (setBit (s.wordAt s.relocated a) (rankBit r) b)).ends 2) := by
  subst ha
  exact Res.bind_of_ok (memRead_completed h) (Res.bind_of_ok (memWrite_completed (canRead_canWrite h)) rfl)

theorem writeBasedBit_ok {p1 p2 : Word} {pa : PAddr} (hpa : pa = basedEA p1 (p2 + u16 (s16 s.r.X / 16)))
    (h : s.sound pa = true) (b : Bool) :
    writeBasedBit p1 p2 b s.completed
      = .ok () (s.store pa (setBit (readWord s.mem pa) (rankBit (s16 s.r.X)) b)).completed := by
  subst hpa
  exact Res.bind_of_ok (readAt_completed h) (writeAt_completed (sound_storable h))

/-- Settles O27: one bit of the word of the rank is written, at the position of the rank. -/
theorem bitWrites : Obligations.BitWrites := by
  refine fun s => ⟨fun hc ix n r a hr ha h => ?_, fun ix o pa hok hpa h => ?_⟩
  · obtain rfl : bitRank ix n s.completed = r := (bitRank_eq ix n s.completed).trans hr.symm
    exact ⟨_, _, fun i _ => bit_set_rank _ _ i, fun i _ => bit_reset_rank _ _ i,
      execute_ok ((cdaDispatch_ok hc).trans (writeBit_ok ha h true)),
      execute_ok ((cdaDispatch_ok hc).trans (writeBit_ok ha h false))⟩
  · exact ⟨_, _, fun i _ => bit_set_rank _ _ i, fun i _ => bit_reset_rank _ _ i,
      execute_based hok (writeBasedBit_ok hpa h true), execute_based hok (writeBasedBit_ok hpa h false)⟩

/-! Bits searched. -/

/-- The ranks of a word are 16 times its rank plus their positions. -/
theorem rank_position {x : Int} (hx : x ≤ q) (hq : q < nextWordRank x) :
    q = 16 * (x / 16) + rankBit q ∧ rankBit x ≤ rankBit q ∧ q / 16 = x / 16 := by
  unfold nextWordRank at hq
  unfold rankBit
  omega

theorem firstOne_eq_some {i j p : Nat} : firstOne w i j = some p
    ↔ (i ≤ p ∧ p < j ∧ bit w p = true) ∧ p < 16 ∧ ∀ k < p, ¬(i ≤ k ∧ k < j ∧ bit w k = true) := by
  simp only [firstOne, List.find?_range_eq_some, List.mem_range, Bool.not_eq_true', ← Bool.not_eq_true, Bool.and_eq_true,
    decide_eq_true_eq, and_assoc]

theorem firstOne_eq_none {i j : Nat} : firstOne w i j = none ↔ ∀ k < 16, ¬(i ≤ k ∧ k < j ∧ bit w k = true) := by
  simp [firstOne, and_assoc]

/-- A first bit at one among the ranks left in the word of rank x is found. -/
theorem findBit_some (hx : x ≤ q) (hy : q < y) (hq : q < nextWordRank x) (hone : bit w (rankBit q) = true)
    (hfirst : ∀ p, x ≤ p → p < q → bit w (rankBit p) = false) : findBit w x y = some q := by
  obtain ⟨hrank, hpos, -⟩ := rank_position hx hq
  have hlt := rankBit_lt q
  have hfound : firstOne w (rankBit x) (min 16 (y - 16 * (x / 16))).toNat = some (rankBit q) := by
    refine firstOne_eq_some.mpr ⟨⟨hpos, by omega, hone⟩, hlt, fun k hk ⟨hxk, _, hbit⟩ => ?_⟩
    have hkx : x ≤ 16 * (x / 16) + k := by unfold rankBit at hxk; omega
    have hkbit : rankBit (16 * (x / 16) + k) = k := by unfold rankBit; omega
    have hzero := hfirst (16 * (x / 16) + k) hkx (by omega)
    rw [hkbit, hbit] at hzero
    exact Bool.noConfusion hzero
  rw [findBit, hfound]; exact congrArg some hrank.symm

/-- No bit at one among the ranks left in the word of rank x. -/
theorem findBit_none (hzero : ∀ q, x ≤ q → q < y → q < nextWordRank x → bit w (rankBit q) = false) :
    findBit w x y = none := by
  have hnone : firstOne w (rankBit x) (min 16 (y - 16 * (x / 16))).toNat = none := by
    refine firstOne_eq_none.mpr fun k hk ⟨hxk, hky, hbit⟩ => ?_
    have hkx : x ≤ 16 * (x / 16) + k := by unfold rankBit at hxk; omega
    have hkbit : rankBit (16 * (x / 16) + k) = k := by unfold rankBit; omega
    have hk := hzero (16 * (x / 16) + k) hkx (by omega) (by unfold nextWordRank; omega)
    rw [hkbit, hbit] at hk
    exact Bool.noConfusion hk
  rw [findBit, hnone]; rfl

/-! DRBM. -/

/-- No rank is left: X takes Y and Cf is 1. -/
theorem detectReset_end (h : s16 s.r.Y ≤ s16 s.r.X) :
    detectReset s.completed = .ok () (((s.setReg .x s.r.Y).setVC false true).ends 2) := if_pos h

section
variable {a : Word} (ha : a = s.r.A + u16 (s16 s.r.X / 16)) (h : s.canRead s.relocated a = true)
  (hlt : s16 s.r.X < s16 s.r.Y)
include ha h hlt

/-- A bit at one is found, and reset. -/
theorem detectReset_found (hx : s16 s.r.X ≤ q) (hq : q < nextWordRank (s16 s.r.X))
    (hf : findBit (s.wordAt s.relocated a) (s16 s.r.X) (s16 s.r.Y) = some q) :
    detectReset s.completed = .ok () ((((s.put s.relocated a (setBit (s.wordAt s.relocated a) (rankBit q) false)).setReg .x
      (u16 q)).setVC false false).ends 2) := by
  obtain ⟨-, -, hword⟩ := rank_position hx hq
  have hwrite (v : Word) : memWrite (bitWord s.r.A q) v s.completed = .ok () (s.put s.relocated a v).completed := by
    rw [bitWord, rankWord, hword, ← ha]
    exact memWrite_completed (canRead_canWrite h)
  rw [detectReset, State.completed_r, if_neg (not_le.mpr hlt), bitWord, rankWord, ← ha, memRead_completed h, Res.bind_ok,
    State.completed_r, hf]
  exact Res.bind_of_ok (hwrite _) rfl

/-- No bit at one in the word: the search goes on in the next one, if ranks are left there. -/
theorem detectReset_none (hf : findBit (s.wordAt s.relocated a) (s16 s.r.X) (s16 s.r.Y) = none) :
    detectReset s.completed
      = if s16 s.r.Y ≤ nextWordRank (s16 s.r.X) then .ok () (((s.setReg .x s.r.Y).setVC false true).ends 2)
        else .ok () (s.setReg .x (u16 (nextWordRank (s16 s.r.X)))).paused := by
  rw [detectReset, State.completed_r, if_neg (not_le.mpr hlt), bitWord, rankWord, ← ha, memRead_completed h, Res.bind_ok,
    State.completed_r, hf]
  rfl

end

/-! BDBTM. -/

theorem execBdbtm_eq (hl : s.longOk o = true) (ix : Bool) {u : State}
    (hd : discoverBit o (s.paramsHeld o).1 (s.paramsHeld o).2 s.completed = .ok () u) :
    execBdbtm ix o s = .next (u.keeps (if u.phase = .interrupted then some (s.paramsHeld o) else none)) :=
  execute_ok ((longDispatch_ok hl).trans (by rw [hd, keeping_ok]))

variable {p1 p2 : Word}

theorem discoverBit_end (h : s16 s.r.Y ≤ s16 s.r.X) :
    discoverBit o p1 p2 s.completed = .ok () (((s.setReg .x s.r.Y).setVC false true).ends (paramWords o)) := if_pos h

section
variable {pa : PAddr} (hpa : pa = basedEA p1 (p2 + u16 (s16 s.r.X / 16))) (h : s.sound pa = true)
  (hlt : s16 s.r.X < s16 s.r.Y)
include hpa h hlt

/-- A bit at one is found, and left. -/
theorem discoverBit_found (hf : findBit (readWord s.mem pa) (s16 s.r.X) (s16 s.r.Y) = some q) :
    discoverBit o p1 p2 s.completed = .ok () (((s.setReg .x (u16 q)).setVC false false).ends (paramWords o)) := by
  rw [discoverBit, State.completed_r, if_neg (not_le.mpr hlt), basedBitAddr, rankWord, ← hpa, readAt_completed h, Res.bind_ok,
    State.completed_r, hf]
  rfl

theorem discoverBit_none (hf : findBit (readWord s.mem pa) (s16 s.r.X) (s16 s.r.Y) = none) :
    discoverBit o p1 p2 s.completed
      = if s16 s.r.Y ≤ nextWordRank (s16 s.r.X) then .ok () (((s.setReg .x s.r.Y).setVC false true).ends (paramWords o))
        else .ok () (s.setReg .x (u16 (nextWordRank (s16 s.r.X)))).paused := by
  rw [discoverBit, State.completed_r, if_neg (not_le.mpr hlt), basedBitAddr, rankWord, ← hpa, readAt_completed h, Res.bind_ok,
    State.completed_r, hf]
  rfl

end

/-- Settles O26: the ranks left are compared first, then the first bit at one of the word of rank X, if it has one. -/
theorem bitSearch : Obligations.BitSearch := by
  rintro s _ _ _ rfl rfl rfl
  refine ⟨fun hc => ?_, ?_⟩
  · have hexec {u : State} (hd : detectReset s.completed = .ok () u) : exec .drbm s = .next u :=
      execute_ok ((cdaDispatch_ok hc).trans hd)
    refine ⟨fun h => hexec (detectReset_end h), ?_⟩
    rintro hlt a _ ha h rfl
    refine ⟨fun q hx hy hq hone hfirst => ?_, fun hzero => ?_⟩
    · have hf := findBit_some hx hy hq hone hfirst
      exact ⟨_, bit_reset_rank _ q, hexec (detectReset_found ha h hlt hx hq hf)⟩
    · have hd := detectReset_none ha h hlt (findBit_none hzero)
      exact ⟨fun hy => hexec (hd.trans (if_neg hy.not_ge)), fun hy => hexec (hd.trans (if_pos hy))⟩
  · rintro ix o _ hl rfl
    refine ⟨fun h => execBdbtm_eq hl ix (discoverBit_end h), ?_⟩
    rintro hlt pa _ hpa h rfl
    refine ⟨fun q hx hy hq hone hfirst => ?_, fun hzero => ?_⟩
    · exact execBdbtm_eq hl ix (discoverBit_found hpa h hlt (findBit_some hx hy hq hone hfirst))
    · have hd := discoverBit_none (o := o) hpa h hlt (findBit_none hzero)
      exact ⟨fun hy => execBdbtm_eq hl ix (hd.trans (if_neg hy.not_ge)),
        fun hy => execBdbtm_eq hl ix (hd.trans (if_pos hy))⟩

end Sys2Proof.Machine
end

section
/-! SUPPORT. The obligations on the election and on the tasks it starts (60_exceptions.md R452 to R456, R475). -/

namespace Sys2Proof.Machine

variable {s : State} {j : Nat}

/-! The election. -/

/-- The levels elect a level or nothing (60_exceptions.md R453). -/
theorem electLevel_eq_level_iff : s.electLevel = .level j ↔ s.st.IOM = false ∧ s.wantedLevel = some j ∧ j < leftmost s.HV := by
  rw [State.electLevel]
  cases s.st.IOM
  · cases s.wantedLevel with
    | none => simp
    | some i =>
      by_cases hi : i < leftmost s.HV
      · simp only [if_pos hi, Election.level.injEq, Option.some.injEq, Bool.false_eq_true, if_false, true_and]
        exact ⟨fun h => ⟨h, h ▸ hi⟩, And.left⟩
      · simp only [if_neg hi, Option.some.injEq, Bool.false_eq_true, if_false, true_and, reduceCtorEq, false_iff]
        rintro ⟨rfl, hj⟩
        exact hi hj
  · simp

theorem electLevel_idle_or_level (s : State) : s.electLevel = .idle ∨ ∃ j, s.electLevel = .level j := by
  rw [State.electLevel]
  split
  · exact .inl rfl
  · split
    · split
      · exact .inr ⟨_, rfl⟩
      · exact .inl rfl
    · exact .inl rfl

/-- The level elected, in the words of R453. -/
theorem electLevel_eq_level_spec : s.electLevel = .level j ↔ s.st.IOM = false ∧ 1 ≤ j ∧ j ≤ 15 ∧ s.pending j = true
    ∧ bit s.IM j = false ∧ (∀ k, 1 ≤ k → k < j → s.pending k = true → bit s.IM k = true) ∧ ∀ k ≤ j, bit s.HV k = false := by
  rw [electLevel_eq_level_iff, wantedLevel_eq_some]
  constructor
  · rintro ⟨hm, ⟨h1, h15, hp, hmask, hleast⟩, hlt⟩
    exact ⟨hm, h1, h15, hp, hmask, hleast, (leftmost_lt h15).mp hlt⟩
  · rintro ⟨hm, h1, h15, hp, hmask, hleast, hfree⟩
    exact ⟨hm, ⟨h1, h15, hp, hmask, hleast⟩, (leftmost_lt h15).mpr hfree⟩

/-- The mask IPM is not on a 04/05 (10_state.md R22). -/
theorem ipm_iff : s.ipm = true ↔ s.cfg.is0405 = false ∧ s.st.IPM = true := by
  simp [State.ipm, Config.hasIpm]

/-- The machine neither stands still nor runs the power-fail task. -/
def State.electsFrom (s : State) : Prop := s.stopped = false ∧ s.powerFailActive = false

theorem electable_not_free (h : ¬s.electsFrom) : s.electable = .idle := by
  refine if_pos ?_
  by_contra hc
  simp only [Bool.or_eq_true, not_or, Bool.not_eq_true] at hc
  exact h hc

theorem electable_free (h : s.electsFrom) : s.electable = if s.powerFailPending = true ∧ s.st.IOM = false then .powerFail
    else if s.ipiRequest = true ∧ s.ipm = false then .ipi else s.electLevel := by
  obtain ⟨hs, hp⟩ := h
  simp [State.electable, hs, hp]

/-- Settles O43: the three sources are looked at in order. -/
theorem electionOrder : Obligations.ElectionOrder := by
  intro s free masked hfree hmasked
  have hfree' : free ↔ s.electsFrom := hfree
  rw [← ipm_iff] at hmasked
  simp only [hfree', hmasked, Bool.not_eq_true]
  by_cases h : s.electsFrom
  · rw [electable_free h]
    by_cases hpf : s.powerFailPending = true ∧ s.st.IOM = false
    · simp [h, hpf]
    rw [if_neg hpf]
    have hlater : s.powerFailPending = false ∨ s.st.IOM = true := by
      cases hp : s.powerFailPending <;> simp_all
    by_cases hipi : s.ipiRequest = true ∧ s.ipm = false
    · simp [h, hpf, hipi, hlater]
    rw [if_neg hipi]
    have hmask : s.ipiRequest = false ∨ s.ipm = true := by
      cases hr : s.ipiRequest <;> simp_all
    have hlevel : s.electLevel ≠ .powerFail ∧ s.electLevel ≠ .ipi := by
      rcases electLevel_idle_or_level s with he | ⟨j, he⟩ <;> simp [he]
    refine ⟨iff_of_false hlevel.1 fun hc => hpf hc.2, iff_of_false hlevel.2 fun hc => hipi hc.2.2, fun j => ?_⟩
    rw [electLevel_eq_level_spec]
    constructor
    · rintro ⟨hm, hspec⟩
      exact ⟨h, hlater.resolve_right (by simp [hm]), hm, hmask, hspec⟩
    · rintro ⟨-, -, hm, -, hspec⟩
      exact ⟨hm, hspec⟩
  · simp [electable_not_free h, h]

/-! The tasks. -/

/-- `PowerFailSequence()` (60_exceptions.md R475). -/
theorem powerFailSequence_ok (h : s.calm (0x0006#16 :: contextAt (s.abs 0x0006#16))) : powerFailSequence s
    = .ok () (({ s with powerFailPending := false, powerFailActive := true
                        st := { s.st with IOM := true, IPM := s.cfg.hasIpm, LCM := true } } : State).exchanged
      (s.abs 0x0006#16)) := by
  obtain ⟨hword, hcontext⟩ := calm_cons.mp h
  rw [powerFailSequence, physRead_ok (by exact hword), Res.bind_ok]
  exact exchangePartial_ok hcontext

/-- Settles O44: the task elected is started with its context. -/
theorem tasksStarted : Obligations.TasksStarted := fun _ hi hst ha hh hb =>
  ⟨fun j he hc hm => step_started hi hst ha hh hb (.inr ⟨j, he, rfl⟩) (launch_ok hc hm) hb,
    fun he hc => step_started hi hst ha hh hb (.inl ⟨he, rfl⟩) (powerFailSequence_ok hc) hb⟩

end Sys2Proof.Machine
end

section
/-! SUPPORT. The obligations on alarms: the state after one is taken, the stop in the alarm task, and ACQ after ACTD
(60_exceptions.md R455, R456, R465, R466, R470, 45_system.md R302, R310). -/

namespace Sys2Proof.Machine

variable {s : State} {n : Alarm} {p : Word}

/-! The state after an alarm. -/

theorem readByte_exchanged (s : State) {a : Word} {b : Nat}
    (h : ∀ k < 4, b / 2 ≠ (absolute (a + BitVec.ofNat 16 k)).toNat) : readByte (s.exchanged a).mem b = readByte s.mem b := by
  have h0 : b / 2 ≠ (absolute a).toNat := by simpa using h 0 (by decide)
  rw [exchanged_mem, readByte_store_other _ _ (h 3 (by decide)), readByte_store_other _ _ (h 2 (by decide)),
    readByte_store_other _ _ (h 1 (by decide)), readByte_store_other _ _ h0]

theorem readByte_alarmTaken {b : Nat} (h : ∀ k < 4, b / 2 ≠ (absolute (s.psthOf 0 + BitVec.ofNat 16 k)).toNat) :
    readByte (s.alarmTaken n).mem b = readByte s.mem b :=
  (readByte_store_other _ _ (h 3 (by decide))).trans (readByte_exchanged _ h)

/-- The words of the context after an alarm, the number of the alarm in that of S, and the words outside it. -/
theorem alarmTaken_words (hw : Memory.wf s.mem = true) {a : Word} (ha : a = s.psthOf 0) : (s.alarmTaken n).abs a = s.r.C
    ∧ (s.alarmTaken n).abs (a + 1#16) = s.r.K ∧ (s.alarmTaken n).abs (a + 2#16) = s.P
    ∧ (s.alarmTaken n).abs (a + 3#16) = ofBytes (hi s.st.sWord) n.number
    ∧ ∀ b, b ≠ a → b ≠ a + 1#16 → b ≠ a + 2#16 → b ≠ a + 3#16 → (s.alarmTaken n).abs b = s.abs b := by
  subst ha
  have hexchanged := exchanged_words (s := { s with HV := setBit s.HV 0 true, breakSeen := false }) hw (s.psthOf 0)
  have hwf := exchanged_wf (s := { s with HV := setBit s.HV 0 true, breakSeen := false }) hw (s.psthOf 0)
  obtain ⟨hC, hK, hP, -, hother⟩ := hexchanged
  obtain ⟨-, -, h03, -, h13, h23⟩ := four_words_ne (s.psthOf 0)
  refine ⟨(abs_store_other _ _ h03).trans hC, (abs_store_other _ _ h13).trans hK, (abs_store_other _ _ h23).trans hP,
    abs_store_same hwf _ _, fun b h0 h1 h2 h3 => (abs_store_other _ _ h3).trans (hother b h0 h1 h2 h3)⟩

/-- An alarm of the instruction at P, where it is taken by the alarm task. -/
theorem takeAlarm_ok (h : s.AlarmReady) (n : Alarm) (p0 : Word) :
    takeAlarm p0 n s = .ok () (s.abandonedBy n (if n.abandons then p0 else s.P)) :=
  raiseAlarm_ok
    (s := { s with P := if n.abandons then p0 else s.P, phase := .abandoned, breakSeen := false })
    ⟨h.calm, h.canonical, h.running, h.apart, h.master⟩ n

theorem State.AlarmReady.completed (h : s.AlarmReady) : s.completed.AlarmReady :=
  ⟨h.calm, h.canonical, h.running, h.apart, h.master⟩

theorem execActd_eq (s : State) : execActd s = (takeAlarm s.P .actd (s.completed.advance 1)).outcome := execute_alarm rfl

/-- ACTD is alarm 9, with the address after it saved (45_system.md R310). -/
theorem execActd_ok (h : s.AlarmReady) : execActd s = .next (s.abandonedBy .actd (s.P + 1#16)) := by
  have hready : (s.completed.advance 1).AlarmReady := ⟨h.calm, h.canonical, h.running, h.apart, h.master⟩
  rw [execActd_eq, takeAlarm_ok hready]; rfl

/-! Alarms that are not taken. -/

theorem raiseAlarm_inPowerFail (h : s.powerFailActive = true) :
    raiseAlarm n s = .ok () { s.alarmHalt with autoRestartInhibited := true } := if_pos h

/-- In the alarm task alarms 6 and 8 are ignored, the others stop the machine (60_exceptions.md R465, R470). -/
theorem raiseAlarm_inAlarmTask (hp : s.powerFailActive = false) (h : bit s.HV 0 = true) :
    raiseAlarm n s = if n = .wakeUp ∨ n = .breakpoint then .ok () s else .ok () s.alarmHalt := by
  simp [raiseAlarm, hp, State.inAlarmTask, h]

/-- Settles O40: the exchange of the context, then the number; no exchange in the alarm task or the power-fail task. -/
theorem alarmTaken : Obligations.AlarmTaken := by
  refine ⟨?_, fun s n => ⟨raiseAlarm_inPowerFail, fun hp hHV => ⟨fun hn => ?_, fun h6 h8 => ?_, ?_⟩⟩⟩
  · rintro s h a ha
    refine ⟨fun n hn => ?_, execActd_ok h, ?_⟩
    · rw [takeAlarm_ok h.completed, if_pos hn]; rfl
    · rintro n p t rfl
      obtain ⟨hC, hK, hP, hS, -⟩ := alarmTaken_words (n := n)
        (s := { s with P := p, phase := .abandoned, breakSeen := false }) h.canonical ha
      subst ha
      exact ⟨rfl, rfl, rfl, rfl, rfl, rfl, rfl, rfl, rfl, rfl, hC, hK, hP, (congrArg hi hS).trans (hi_ofBytes _ _),
        (congrArg lo hS).trans (lo_ofBytes _ _), fun b hb => readByte_alarmTaken
          (s := { s with P := p, phase := .abandoned, breakSeen := false }) hb⟩
  · rw [raiseAlarm_inAlarmTask hp hHV, if_pos hn]
  · rw [raiseAlarm_inAlarmTask hp hHV, if_neg (by simp [h6, h8])]; rfl
  · have hraise := raiseAlarm_inAlarmTask (n := .actd)
      (s := { s.completed.advance 1 with phase := .abandoned, breakSeen := false }) hp hHV
    rw [if_neg (by decide)] at hraise
    exact (execActd_eq s).trans (congrArg Res.outcome hraise)

/-! ACQ after ACTD. -/

/-- The five bits of S lie in the left byte of its word. -/
theorem bit_eq_hi (w : Word) {i : Nat} (h : i < 8) : bit w i = (hi w).getLsbD (7 - i) := by
  rw [bit, if_pos (by omega), hi, BitVec.getLsbD_extractLsb', decide_eq_true (by omega), Bool.true_and]
  congr 1; omega

/-- The bits of S read back from a word with the left byte of their own. -/
theorem loadS_of_hi {t u : Status} {w : Word} (h : hi w = hi t.sWord) :
    u.loadS w = { u with MS := t.MS, SVCS := t.SVCS, PR := t.PR, V := t.V, Cf := t.Cf } := by
  have hbit {i : Nat} (hi8 : i < 8) : bit w i = bit t.sWord i := by rw [bit_eq_hi _ hi8, bit_eq_hi _ hi8, h]
  rw [Status.loadS, hbit (by decide), hbit (by decide), hbit (by decide), hbit (by decide), hbit (by decide)]
  simp [bit_sWord]

/-- Words with the same bits are equal. -/
theorem eq_of_bit {v w : Word} (h : ∀ i < 16, bit v i = bit w i) : v = w := by
  apply BitVec.eq_of_getLsbD_eq
  intro i hi
  have hbit := h (15 - i) (by omega)
  rwa [bit, bit, if_pos (by omega), if_pos (by omega), show 15 - (15 - i) = i by omega] at hbit

/-- A bit at zero set and then cleared. -/
theorem setBit_undone {w : Word} {k : Nat} (hk : k < 16) (h : bit w k = false) : setBit (setBit w k true) k false = w := by
  refine eq_of_bit fun i hi => ?_
  rw [bit_setBit _ _ _ _ hk, bit_setBit _ _ _ _ hk]
  split
  · next he => rw [he, h]
  · rfl

/-- The registers and the modes of the task that ACQ resumes are those of its context (45_system.md R302). -/
theorem acquitted_resumes {t : State} {a : Word} (ha : t.psthOf 0 = a) :
    (t.acquitted 0).r = { t.r with C := t.abs a, K := t.abs (a + 1#16) }
    ∧ (t.acquitted 0).P = t.abs (a + 2#16) ∧ (t.acquitted 0).HV = setBit t.HV 0 false
    ∧ (t.acquitted 0).st = ({ t.st with IOM := false, IPM := false } : Status).loadS (t.abs (a + 3#16))
    ∧ (t.acquitted 0).SLO = t.SLO ∧ (t.acquitted 0).SLE = t.SLE ∧ (t.acquitted 0).IM = t.IM := by
  simp [State.acquitted, State.exchanged, State.ends, State.unmask, State.abs, ha]

/-- What is pending and what masks it stay as they were. -/
theorem acquitted_pending (t : State) : (t.acquitted 0).powerFailPending = t.powerFailPending
    ∧ (t.acquitted 0).ipiRequest = t.ipiRequest ∧ (∀ l, (t.acquitted 0).pending l = t.pending l)
    ∧ (t.acquitted 0).IM = t.IM ∧ (t.acquitted 0).HV = setBit t.HV 0 false := by
  simp [State.acquitted, State.exchanged, State.ends, State.unmask, State.pending]

/-- ACQ in the alarm task, where nothing else is to be started: the task interrupted goes on. -/
theorem execAcq_alarmTask {t : State} (hs : t.slave = false) (hp : t.powerFailActive = false) (hb : bit t.HV 0 = true)
    (hc : t.calm (0x0002#16 :: contextAt (t.psthOf 0))) (hpf : t.powerFailPending = false) (hipi : t.ipiRequest = false)
    (hlevels : ∀ l, 1 ≤ l → l < 16 → t.pending l = true → bit t.IM l = true) (hHV : setBit t.HV 0 false ≠ 0#16) :
    exec .acq t = .next (t.acquitted 0) := by
  obtain ⟨hpf', hipi', hpend, hIM, hHV'⟩ := acquitted_pending t
  have hidle : (t.acquitted 0).electLevel = .idle := electLevel_eq_idle fun l h1 h16 hl =>
    .inl ((congrArg (bit · l) hIM).trans (hlevels l h1 h16 ((hpend l).symm.trans hl)))
  have helect : electAfterAcq (t.acquitted 0) = .ok () (t.acquitted 0) :=
    (electAfterAcq_level (hpf'.trans hpf) (hipi'.trans hipi)).trans (electLevelAfterAcq_resumes hidle (.inl (hHV'.symm ▸ hHV)))
  exact (exec_acq_step hs hp (HV_ne_zero hb)
    ((acquit_eq (by decide) hb (fun k hk => absurd hk k.not_lt_zero) hc).trans helect)).1

/-- What an alarm out of the alarm task leaves for the ACQ of the alarm task. -/
theorem abandonedBy_entry (h : s.AlarmReady) (n : Alarm) (p : Word) : ∃ a, (s.abandonedBy n p).psthOf 0 = a
    ∧ (s.abandonedBy n p).abs a = s.r.C ∧ (s.abandonedBy n p).abs (a + 1#16) = s.r.K ∧ (s.abandonedBy n p).abs (a + 2#16) = p
    ∧ hi ((s.abandonedBy n p).abs (a + 3#16)) = hi s.st.sWord ∧ (s.abandonedBy n p).calm (0x0002#16 :: contextAt a)
    ∧ bit (s.abandonedBy n p).HV 0 = true ∧ setBit (s.abandonedBy n p).HV 0 false = s.HV := by
  obtain ⟨hC, hK, hP, hS, hother⟩ := alarmTaken_words (n := n) (a := s.psthOf 0)
    (s := { s with P := p, phase := .abandoned, breakSeen := false }) h.canonical rfl
  obtain ⟨h0, h1, h2, h3⟩ := h.apart
  have hbase := hother 0x0002#16 h0.symm h1.symm h2.symm h3.symm
  have hleft := (congrArg hi hS).trans (hi_ofBytes _ _)
  refine ⟨s.psthOf 0, congrArg (· + BitVec.ofNat 16 (4 * 0)) hbase, hC, hK, hP, hleft, ?_, ?_,
    setBit_undone (by decide) h.running.2⟩
  · exact State.calm_store (exchanged_calm (s := { s with P := p, phase := .abandoned, breakSeen := false
                                                          HV := setBit s.HV 0 true }) h.calm (s.psthOf 0)) _ _
  · exact (bit_setBit s.HV 0 0 true (by decide)).trans (if_pos rfl)

/-- Settles O42: the alarm task finds in its entry the context that ACTD has put there. -/
theorem alarmThenAcq : Obligations.AlarmThenAcq := by
  intro s h hHV hpf hipi hlevels hMS
  obtain ⟨a, ha, hC, hK, hP, hS, hcalm, hbit, hback⟩ := abandonedBy_entry h .actd (s.P + 1#16)
  have hmaster : (s.abandonedBy .actd (s.P + 1#16)).st.MS = true := hMS
  have hslave : (s.abandonedBy .actd (s.P + 1#16)).slave = false := by simp [State.slave, hmaster]
  obtain ⟨hr, hP', hHV', hst, hSLO, hSLE, hIM⟩ := acquitted_resumes ha
  refine ⟨_, _, execActd_ok h, execAcq_alarmTask hslave h.running.1 hbit (ha ▸ hcalm) hpf hipi hlevels (hback.symm ▸ hHV), ?_,
    hP'.trans hP, hHV'.trans hback, ?_, hSLO, hSLE, hIM⟩
  · rw [hr, hC, hK]; rfl
  · rw [hst, loadS_of_hi hS]; rfl

end Sys2Proof.Machine
end

section
/-! SUPPORT. The obligations on the step of an instruction: the fetch, the words decoded and run, the end of an instruction and the
breakpoints (30_encoding.md R118, R123, R125, 60_exceptions.md R454, R466, R469, 45_system.md R311, 70_reset_and_hazards.md R556, R558). -/

namespace Sys2Proof.Machine

variable {s : State} {ws rest : List Word} {w : Word}

/-! The words at P. -/

/-- The words that follow the first one. -/
theorem fetchMore_ok {a : Word} (h : ∀ j < rest.length, s.canRead s.relocated (a + BitVec.ofNat 16 j) = true
    ∧ rest[j]? = some (s.wordAt s.relocated (a + BitVec.ofNat 16 j))) : fetchMore rest.length a s = .ok rest s := by
  induction rest generalizing a with
  | nil => rfl
  | cons v rest ih =>
    have hnext (j : Nat) : a + 1#16 + BitVec.ofNat 16 j = a + BitVec.ofNat 16 (j + 1) := by
      rw [BitVec.add_assoc, Nat.add_comm j 1, BitVec.ofNat_add]
    obtain ⟨hread, hword⟩ : s.canRead s.relocated a = true ∧ v = s.wordAt s.relocated a := by
      simpa using h 0 (Nat.succ_pos _)
    have hrest := ih (a := a + 1#16) fun j hj => by
      rw [hnext]
      simpa using h (j + 1) (Nat.succ_lt_succ hj)
    rw [List.length_cons, fetchMore, memRead_ok hread, Res.bind_ok, hrest, ← hword]; rfl

theorem fetchFirst_ok (h : s.canRead s.relocated s.P = true) : fetchFirst s = .ok (s.wordAt s.relocated s.P) s := by
  have hsound := canRead_sound h
  have hgood : s.badWord (s.place s.relocated s.P) = false := by
    simp only [State.sound, Bool.and_eq_true, Bool.not_eq_true'] at hsound
    exact hsound.2
  rw [fetchFirst, resolve_allowed (canRead_allowed h), Res.bind_ok, hgood]
  exact (if_neg (by simp)).trans (readAt_sound hsound)

/-- The words at P, the first one being `w`, where nothing stops the fetch but the alarm 4 of an ISP16 instruction. -/
structure State.Fetched (s : State) (w : Word) (rest : List Word) : Prop where
  first : s.canRead s.relocated s.P = true
  word : w = s.wordAt s.relocated s.P
  count : (w :: rest).length = fetchCount s.cfg w
  more : ∀ j < rest.length, s.canRead s.relocated (s.P + 1#16 + BitVec.ofNat 16 j) = true
    ∧ rest[j]? = some (s.wordAt s.relocated (s.P + 1#16 + BitVec.ofNat 16 j))

theorem fetchWords_eq (h : s.Fetched w rest) : fetchWords s = (fetchCheck w s).bind fun _ s =>
    (fetchMore (fetchCount s.cfg w - 1) (s.P + 1#16) s).bind fun ws s => .ok (w :: ws) s := by
  rw [fetchWords, fetchFirst_ok h.first, Res.bind_ok, ← h.word]

theorem fetchWords_ok (h : s.Fetched w rest) (hc : fetchCheck w s = .ok () s) : fetchWords s = .ok (w :: rest) s := by
  have hcount : fetchCount s.cfg w - 1 = rest.length := by rw [← h.count]; rfl
  rw [fetchWords_eq h, hc, Res.bind_ok, hcount, fetchMore_ok h.more]; rfl

/-! The alarm 4 of an ISP16 instruction at its fetch (49_isp16.md R410, 60_exceptions.md R467). -/

/-- A based instruction is so whatever its operands. -/
theorem basedInstr_of_isSome {op : IspOp} (h : (basedInstr op false (.regs 0#16)).isSome = true) (ix : Bool) (w2 : Word) :
    pointerInstr op ix w2 = none ∧ ∀ o, ∃ i, basedInstr op ix o = some i := by
  cases op with
  | cla | csta | cxm | cdld | cdst | clby | cstby | xent | xsor | xctx => exact absurd h nofun
  | _ => exact ⟨rfl, fun o => ⟨_, rfl⟩⟩

/-- The based instructions are privileged where ISP16 is present (60_exceptions.md R490). -/
theorem privileged_basedInstr {op : IspOp} {ix : Bool} {o : IspArgs} {i : Instr} (h : basedInstr op ix o = some i)
    (c : Config) : Instr.privileged c i = c.hasIsp16 := by
  cases op <;> cases h <;> rfl

theorem decode_isp_words (k : IspCoding) (h : hi w = 0x3C#8) : decodeWords k (w :: rest) = decodeIsp k (lo w) rest := by
  rw [decode_ext k _ (by rw [h]; decide) (by rw [h]; decide), h]; rfl

/-- How many words are read of an ISP16 instruction that is present. -/
theorem fetchCount_isp {c : Config} {r : IspRow} (h : hi w = 0x3C#8) (ho : c.hasIsp16 = true) (hf : c.isp.find (lo w) = some r) :
    fetchCount c w = if r.form = .memory && (basedInstr r.op false (.regs 0#16)).isSome then 3 else 2 := by
  have hw : w ≠ 0x3E58#16 := fun he => absurd h (by rw [he]; decide)
  have hext : w.extractLsb' 11 5 = 0b00111#5 := by rw [top5, h]; rfl
  have hfour : w.extractLsb' 8 3 = 4#3 := by rw [low3, h]; rfl
  simp [fetchCount, wordCount, ho, hf, hw, hext, hfour]

/-- XCTX out of the master mode, where it exists. -/
theorem decode_xctx {r : IspRow} {c : Config} (h : hi w = 0x3C#8) (ho : c.hasIsp16 = true) (hf : c.isp.find (lo w) = some r)
    (hx : r.op = .xctx) (hcount : (w :: rest).length = fetchCount c w) :
    ∃ ix w2 l, decodeWords c.isp (w :: rest) = .instr (.xctx ix w2) l := by
  rw [fetchCount_isp h ho hf, hx] at hcount
  cases rest with
  | nil => simp [basedInstr] at hcount
  | cons w2 rest => exact ⟨(lo w).getLsbD 4, w2, rest, by rw [decode_isp_words _ h, decodeIsp, hf]; simp only [hx, pointerInstr]⟩

/-- A based instruction of which all the words are read. -/
theorem decode_basedInstr {r : IspRow} {c : Config} (h : hi w = 0x3C#8) (ho : c.hasIsp16 = true)
    (hf : c.isp.find (lo w) = some r) (hb : (basedInstr r.op false (.regs 0#16)).isSome = true)
    (hcount : (w :: rest).length = fetchCount c w) :
    ∃ i l, decodeWords c.isp (w :: rest) = .instr i l ∧ Instr.privileged c i = true := by
  rw [fetchCount_isp h ho hf, hb] at hcount
  rw [decode_isp_words _ h, decodeIsp, hf]
  cases hform : r.form with
  | registers =>
    obtain ⟨w2, rfl⟩ : ∃ w2, rest = [w2] := List.length_eq_one_iff.mp (by simpa [hform] using hcount)
    obtain ⟨hp, hi⟩ := basedInstr_of_isSome hb ((lo w).getLsbD 4) w2
    obtain ⟨i, hi⟩ := hi (.regs w2)
    exact ⟨i, [], by simp only [hp, hform, hi], (privileged_basedInstr hi c).trans ho⟩
  | memory =>
    obtain ⟨w2, w3, rfl⟩ : ∃ w2 w3, rest = [w2, w3] := List.length_eq_two.mp (by simpa [hform] using hcount)
    obtain ⟨hp, hi⟩ := basedInstr_of_isSome hb ((lo w).getLsbD 4) w2
    obtain ⟨i, hi⟩ := hi (.mem w2 w3)
    exact ⟨i, [], by simp only [hp, hform, hi], (privileged_basedInstr hi c).trans ho⟩

/-- The check of an ISP16 instruction, by its row. -/
theorem fetchCheck_isp {r : IspRow} (h : hi w = 0x3C#8) (ho : s.cfg.hasIsp16 = true) (hf : s.cfg.isp.find (lo w) = some r) :
    fetchCheck w s = if r.op = .xctx then (if s.cfg.hasXctx && !s.st.MS then .alarm .privileged s else .ok () s)
      else if (basedInstr r.op false (.regs 0#16)).isSome then privCheck s else .ok () s := by
  rw [fetchCheck, if_pos (by simp [h, ho]), hf]

/-- The check at the fetch lets the instruction through, or meets the alarm that its execution would meet. -/
theorem fetchCheck_cases (hcount : (w :: rest).length = fetchCount s.cfg w) : fetchCheck w s = .ok () s
    ∨ (fetchCheck w s = .alarm .privileged s ∧ ∃ i l, decodeWords s.cfg.isp (w :: rest) = .instr i l
      ∧ exec i s = (takeAlarm s.P .privileged s).outcome) := by
  by_cases hisp : hi w = 0x3C#8 ∧ s.cfg.hasIsp16 = true
  · obtain ⟨hw, ho⟩ := hisp
    cases hf : s.cfg.isp.find (lo w) with
    | none => left; rw [fetchCheck, if_pos (by simp [hw, ho]), hf]
    | some r =>
      rw [fetchCheck_isp hw ho hf]
      by_cases hx : r.op = .xctx
      · rw [if_pos hx]
        by_cases hm : s.cfg.hasXctx = true ∧ s.st.MS = false
        · obtain ⟨ix, w2, l, hd⟩ := decode_xctx hw ho hf hx hcount
          exact .inr ⟨if_pos (by simpa using hm), _, l, hd, execXctx_privileged hm.1 hm.2 ix w2⟩
        · exact .inl (if_neg (by simpa using hm))
      · rw [if_neg hx]
        by_cases hb : (basedInstr r.op false (.regs 0#16)).isSome = true
        · rw [if_pos hb, privCheck_eq]
          cases hs : s.slave with
          | false => exact .inl rfl
          | true =>
            obtain ⟨i, l, hd, hp⟩ := decode_basedInstr hw ho hf hb hcount
            exact .inr ⟨rfl, i, l, hd, exec_privileged_slave hs hp⟩
        · exact .inl (if_neg hb)
  · exact .inl (if_neg (by simpa using hisp))

/-! The end of an instruction. -/

theorem holding_of_ne {t : State} (h : t.phase ≠ .interrupted) (ws : List Word) : t.holding ws = t.released :=
  if_neg (by simp [h])

/-- An instruction that ends in an alarm leaves none of its words held, whatever they are. -/
theorem endOfInstruction_takeAlarm (armed : Bool) (ws : List Word) (p : Word) (n : Alarm) (s : State) :
    endOfInstruction armed ws (takeAlarm p n s).outcome = endOfInstruction armed [] (takeAlarm p n s).outcome := by
  have h := takeAlarm_abandoned p n s
  cases ht : takeAlarm p n s with
  | ok _ t =>
    rw [ht] at h
    have habandoned : t.phase = .abandoned := h
    simp only [Res.outcome, endOfInstruction_abandoned habandoned]
  | alarm _ t =>
    rw [ht] at h
    have habandoned : t.phase = .abandoned := h
    simp only [Res.outcome, endOfInstruction_abandoned habandoned]
  | refuse r => rfl
  | stuck r => rfl

/-! The step. -/

/-- The instruction at P is executed with the words fetched; an alarm 4 met at the fetch is that of the execution. -/
theorem fetchStep_eq (h : s.Fetched w rest) :
    fetchStep exec s = endOfInstruction s.stepArmed (w :: rest) (runWords exec (w :: rest) s) := by
  rw [fetchStep]
  rcases fetchCheck_cases h.count with hc | ⟨hc, i, l, hd, he⟩
  · rw [fetchWords_ok h hc]
  · have hrun : runWords exec (w :: rest) s = (takeAlarm s.P .privileged s).outcome := by rw [runWords, hd]; exact he
    rw [fetchWords_eq h, hc, hrun, endOfInstruction_takeAlarm]; rfl

/-- A step of a machine that runs, where nothing comes before the instruction (60_exceptions.md R454). -/
theorem step_ready (h : s.ready) :
    (s.st.STOP = false → step s = instructionStep exec s) ∧ (s.st.STOP = true → step s = tickOutcome (instructionStep exec s)) := by
  obtain ⟨hi, hs, hh, he⟩ := h
  have hrun : runningStep exec s = instructionStep exec s := by
    rw [runningStep, he]; exact if_neg (by simp [hh])
  have hstep : step s = processorStep exec s := by
    show machineStep exec s = _
    rw [machineStep, hi]
  constructor
  · intro hst; rw [hstep, processorStep, hs, hst, hrun]; rfl
  · intro hst; rw [hstep, processorStep, hs, hst, hrun]; rfl

theorem instructionStep_fetches (h : s.held = []) : instructionStep exec s = fetchStep exec s := by
  rw [instructionStep, h]

theorem instructionStep_held (h : s.held ≠ []) :
    instructionStep exec s = endOfInstruction s.stepArmed s.held (runWords exec s.held s) := by
  rw [instructionStep]
  split
  · next he => exact absurd he h
  · next he => rw [he]

/-! The words run. -/

theorem runWords_instr {i : Instr} {l : List Word} (h : decodeWords s.cfg.isp ws = .instr i l) :
    runWords exec ws s = exec i s := by
  rw [runWords, h]

theorem execute_absentExtension (h : s.absentOk = true) (n : Byte) :
    execute (absentExtension n) s = .next (s.absentDone n) :=
  execute_ok (absentExtension_ok h)

/-- '3F00 is a word of family 7 (30_encoding.md R115). -/
theorem family_of_3F00 {k : IspCoding} {n : BitVec 3} (h : decodeWords k (0x3F00#16 :: rest) = .unassigned (some n)) :
    n = 7#3 := by
  have hext : decodeWords k (0x3F00#16 :: rest) = decodeExtension k 7#3 0#8 rest := decode_ext k _ (by decide) (by decide)
  rw [hext] at h
  cases rest with
  | nil => exact nomatch h
  | cons w2 rest =>
    have hcda : decodeExtension k 7#3 0#8 (w2 :: rest) = match cdaInstr 0#8 w2 with
        | some i => .instr i rest
        | none => .unassigned (some 7#3) := rfl
    rw [hcda] at h
    split at h
    · exact nomatch h
    · cases h; rfl

/-- No unit executes the word (30_encoding.md R113, R118; log 34). -/
theorem lacksUnit_iff {n : BitVec 3} (h : decodeWords s.cfg.isp (w :: rest) = .unassigned (some n)) : s.lacksUnit n w
    ↔ (Config.lacksFamily s.cfg n && !(s.cfg.hasCdaRwOnly && (w :: rest).head? = some 0x3F00#16)) = true := by
  have h7 : w = 0x3F00#16 → n = 7#3 := fun he => family_of_3F00 (he ▸ h)
  by_cases hseven : n = 7#3
  · subst hseven
    simp [State.lacksUnit, Config.lacksFamily, imp_iff_not_or]
  · have hw : w ≠ 0x3F00#16 := fun he => hseven (h7 he)
    by_cases hzero : n = 0#3
    · subst hzero; simp [State.lacksUnit, Config.lacksFamily, hw]
    by_cases hfour : n = 4#3
    · subst hfour; simp [State.lacksUnit, Config.lacksFamily, hw]
    have hother : Config.lacksFamily s.cfg n = true := by
      rw [Config.lacksFamily]
      split
      · next h0 => exact absurd (BitVec.eq_of_toNat_eq h0) hzero
      · next h4 => exact absurd (BitVec.eq_of_toNat_eq h4) hfour
      · next h7 => exact absurd (BitVec.eq_of_toNat_eq h7) hseven
      · rfl
    simp [State.lacksUnit, hother, hseven, hzero, hfour, hw]

/-- An encoding without an instruction is SVC n where no unit executes it, and refused elsewhere (D15). -/
theorem runWords_unassigned {n : BitVec 3} (h : decodeWords s.cfg.isp (w :: rest) = .unassigned (some n)) :
    (s.lacksUnit n w → s.absentOk = true → runWords exec (w :: rest) s = .next (s.absentDone (n.setWidth 8)))
    ∧ (¬s.lacksUnit n w →
      runWords exec (w :: rest) s = .refused (if n = 4#3 then .ispCodeNotSupplied else .unassignedEncoding)) := by
  rw [runWords, h, lacksUnit_iff h]
  exact ⟨fun hl hok => (if_pos hl).trans (execute_absentExtension hok _), fun hl => if_neg hl⟩

theorem fetchCount_pos (c : Config) (w : Word) : 0 < fetchCount c w := by
  unfold fetchCount wordCount
  repeat' split
  all_goals decide

/-- The words at P in the terms of the obligation. -/
theorem fetched_of_words (hread : s.canRead s.relocated s.P = true)
    (hlen : ws.length = fetchCount s.cfg (s.wordAt s.relocated s.P))
    (hws : ∀ j, j < ws.length → s.canRead s.relocated (s.P + BitVec.ofNat 16 j) = true
      ∧ ws[j]? = some (s.wordAt s.relocated (s.P + BitVec.ofNat 16 j))) :
    ∃ rest, ws = s.wordAt s.relocated s.P :: rest ∧ s.Fetched (s.wordAt s.relocated s.P) rest := by
  cases ws with
  | nil => exact absurd hlen (fetchCount_pos _ _).ne
  | cons w rest =>
    obtain rfl : w = s.wordAt s.relocated s.P := by simpa using (hws 0 (Nat.succ_pos _)).2
    refine ⟨rest, rfl, hread, rfl, hlen, fun j hj => ?_⟩
    have hnext : s.P + 1#16 + BitVec.ofNat 16 j = s.P + BitVec.ofNat 16 (j + 1) := by
      rw [BitVec.add_assoc, Nat.add_comm j 1, BitVec.ofNat_add]
    rw [hnext]
    simpa using hws (j + 1) (Nat.succ_lt_succ hj)

/-- The end of an instruction that has met no breakpoint, of one that pauses, and of one that an alarm has cut. -/
theorem endOfInstruction_cases (armed : Bool) (ws : List Word) (t : State) :
    (t.phase = .completed → t.breakSeen = false → endOfInstruction armed ws (.next t)
      = if armed then (raiseAlarm .singleStep { t.released with stepArmed := false }).outcome else .next t.released)
    ∧ (t.phase = .interrupted → endOfInstruction armed ws (.next t)
      = .next (if t.haltLeft = 0 then { t with held := ws } else t.released)) := by
  refine ⟨fun hp hb => ?_, fun hp => ?_⟩
  · have hend : endOfInstruction armed ws (.next t) = (endCompleted armed t.released).outcome := by
      rw [endOfInstruction, hp, holding_of_ne (by simp [hp])]
    cases armed
    · rw [hend, endCompleted_ok (s := t.released) rfl hb]; rfl
    · rw [hend, endCompleted_step (s := t.released) rfl hb]; rfl
  · simp [endOfInstruction, State.holding, hp]

/-- Settles O51: the words fetched are those held, and an alarm 4 met at the fetch of an ISP16 instruction is that of its
execution. -/
theorem stepRunsDecoded : Obligations.StepRunsDecoded := by
  refine ⟨fun s ws hf hread hlen hws => ?_, fun s i n hready hheld hd => ?_, fun armed ws t u hu => ?_⟩
  · obtain ⟨hready, hheld⟩ := hf
    obtain ⟨rest, rfl, hfetched⟩ := fetched_of_words hread hlen hws
    obtain ⟨hrun, hlast⟩ := step_ready hready
    rw [instructionStep_fetches hheld, fetchStep_eq hfetched] at hrun hlast
    refine ⟨fun i n hd => ?_, fun hd hst => ?_, fun n hd hst => ?_, fun hd hst hok => ?_⟩
    · rw [runWords_instr hd] at hrun hlast
      exact ⟨hrun, hlast⟩
    · rw [hrun hst, runWords, hd]; rfl
    · obtain ⟨hlacking, hpresent⟩ := runWords_unassigned hd
      rw [hrun hst]
      exact ⟨fun hl hok => congrArg _ (hlacking hl hok), fun hl => congrArg _ (hpresent hl)⟩
    · rw [hrun hst, runWords, hd]; exact congrArg _ (execute_absentExtension hok _)
  · obtain ⟨hrun, hlast⟩ := step_ready hready
    rw [instructionStep_held hheld, runWords_instr hd] at hrun hlast
    exact ⟨hrun, hlast⟩
  · subst hu
    obtain ⟨hcompleted, hinterrupted⟩ := endOfInstruction_cases armed ws t
    exact ⟨hcompleted, hinterrupted, endOfInstruction_abandoned⟩

/-! Breakpoints. -/

theorem seeBreak_eq (s : State) : s.seeBreak = { s with breakSeen := s.breakSeen || !bit s.HV 0 } := by
  rw [State.seeBreak, State.inAlarmTask]
  cases bit s.HV 0 <;> simp

section
variable {a v : Word} {pa : PAddr} (ha : s.allowed s.relocated a = true) (hpa : pa = s.place s.relocated a)
  (he : s.cfg.exists pa = true) (hb : s.badWord pa = true) (hd : s.st.DEBUG = true)
include ha hpa he hb hd

/-- A word in bad parity is read in DEBUG mode, and the breakpoint remembered (60_exceptions.md R469). -/
theorem memRead_break : memRead a s = .ok (s.wordAt s.relocated a) s.seeBreak := by
  rw [memRead, resolve_allowed ha, Res.bind_ok, ← hpa, readAt, he, hb, hd, State.wordAt, ← hpa]; rfl

/-- It is written, which repairs it. -/
theorem memWrite_break : memWrite a v s = .ok () (s.seeBreak.store pa v) := by
  rw [memWrite, resolve_allowed ha, Res.bind_ok, ← hpa, writeAt, he, hb, hd]; rfl

end

/-- A breakpoint on an operand at the end of the instruction (60_exceptions.md R469, D24). -/
theorem endOfInstruction_break {armed : Bool} {t : State} (hp : t.phase = .completed) (hb : t.breakSeen = true)
    (ws : List Word) : (t.st.POP = false → endOfInstruction armed ws (.next t)
      = (raiseAlarm .breakpoint { t.released with breakSeen := false, stepArmed := t.stepArmed && !armed }).outcome)
    ∧ (t.st.POP = true → armed = false → endOfInstruction armed ws (.next t)
      = .next { t.released with breakSeen := false, st := { t.st with STOP := true }, stopDelay := 0 }) := by
  have hend : endOfInstruction armed ws (.next t) = (endCompleted armed t.released).outcome := by
    rw [endOfInstruction, hp, holding_of_ne (by simp [hp])]
  have hseen : (!t.released.breakSeen) = false := by simp [hb]
  rw [hend, endCompleted, hseen]
  refine ⟨fun hpop => ?_, fun hpop ha => ?_⟩
  · rw [State.released_st, hpop]; rfl
  · rw [State.released_st, hpop, ha]; rfl

/-- A breakpoint on the first word stops the fetch. -/
theorem fetchWords_break (ha : s.allowed s.relocated s.P = true) (he : s.cfg.exists (s.place s.relocated s.P) = true)
    (hb : s.badWord (s.place s.relocated s.P) = true) (hd : s.st.DEBUG = true) (hHV : bit s.HV 0 = false) :
    fetchWords s = .alarm .breakpoint s := by
  rw [fetchWords, fetchFirst, resolve_allowed ha, Res.bind_ok, he, hb, hd, State.inAlarmTask, hHV]; rfl

/-- Nothing is executed: the machine stops there, or alarm 8 is raised. -/
theorem fetchStep_break (h : fetchWords s = .alarm .breakpoint s) :
    (s.st.POP = true → fetchStep exec s = .next s.breakStop)
    ∧ (s.st.POP = false → fetchStep exec s = endOfInstruction s.stepArmed [] (takeAlarm s.P .breakpoint s).outcome) := by
  rw [fetchStep, h]
  exact ⟨fun hpop => if_pos (by simp [hpop]), fun hpop => if_neg (by simp [hpop])⟩

theorem abandonedBy_held (s : State) (n : Alarm) (p : Word) : (s.abandonedBy n p).phase = .abandoned
    ∧ (s.abandonedBy n p).held = [] ∧ (s.abandonedBy n p).heldOperands = none
    ∧ (s.abandonedBy n p).stepArmed = s.stepArmed := by
  simp [State.abandonedBy, State.alarmTaken, State.exchanged]

/-- Alarm 8 at the first word drops the alarm 7 that was pending (D24). -/
theorem endOfInstruction_abandonedBy (s : State) (n : Alarm) (p : Word) (ws : List Word) :
    endOfInstruction s.stepArmed ws (.next (s.abandonedBy n p)) = .next { s.abandonedBy n p with stepArmed := false } := by
  obtain ⟨hp, hheld, hoperands, harmed⟩ := abandonedBy_held s n p
  rw [endOfInstruction_abandoned hp, harmed, Bool.and_not_self, State.released, ← hheld, ← hoperands]

/-- Where something is electable a breakpoint remembered is acted on first (log 19). -/
theorem runningStep_break (hb : s.breakSeen = true) (he : s.electable ≠ .idle) :
    runningStep exec s = (actOnBreak s).outcome := by
  rw [runningStep]
  split
  · exact if_pos hb
  · exact if_pos hb
  · exact if_pos hb
  · next hidle => exact absurd hidle he

/-- An alarm from outside the instructions, no HALT being in progress: it drops the alarm 7 of a long instruction (log 39). -/
theorem raiseOutside_noHalt (h : s.haltLeft = 0) (n : Alarm) :
    raiseOutside n s = raiseAlarm n { s with stepArmed := s.stepArmed && s.held.isEmpty } := by
  rw [raiseOutside, State.endHalt, if_pos h]
  simp [h]

/-- Settles O52: a breakpoint is remembered with the access, and acted on at the end of the instruction, at its first word, or
before a task starts. -/
theorem breakpointsMet : Obligations.BreakpointsMet := by
  refine ⟨?_, fun armed ws t u hp hb hu => ?_, fun s hf hst ha he hb hd hHV => ?_, fun s hi hst halarm hb he => ?_⟩
  · intro s m pa hind hpa ha he hb hd b hbreak
    have hea : s.effective m = s.direct m := by simp [State.effective, hind]
    rw [hea] at hpa ha
    have hbreak' : b = (s.completed.breakSeen || !bit s.completed.HV 0) := hbreak
    refine ⟨execute_ok ?_, execute_ok ?_, badWord_store_same s pa s.r.A⟩
    · rw [loadReg, readOperand, eaWord_direct (s := s.completed) hind, Res.bind_ok,
        State.direct_completed, memRead_break (s := s.completed) ha hpa he hb hd, Res.bind_ok, seeBreak_eq, ← hbreak',
        State.operand, hea]
      rfl
    · rw [storeReg, writeOperand, eaWord_direct (s := s.completed) hind, Res.bind_ok,
        State.direct_completed, memWrite_break (s := s.completed) ha hpa he hb hd, Res.bind_ok, seeBreak_eq, ← hbreak']
      rfl
  · subst hu
    exact endOfInstruction_break hp hb ws
  · obtain ⟨hready, hheld⟩ := hf
    have hstep : step s = fetchStep exec s := ((step_ready hready).1 hst).trans (instructionStep_fetches hheld)
    obtain ⟨hstops, hraises⟩ := fetchStep_break (fetchWords_break ha he hb hd hHV)
    refine ⟨fun hpop => ?_, fun hpop halarm => ?_⟩
    · rw [hstep, hstops hpop, hheld]; rfl
    · rw [hstep, hraises hpop, takeAlarm_ok halarm]
      exact endOfInstruction_abandonedBy s .breakpoint s.P []
  · have hstep : step s = (actOnBreak s).outcome := (step_running hi hst halarm).trans (runningStep_break hb he)
    rw [hstep, actOnBreak, hb]
    refine ⟨fun hpop => ?_, fun hpop hhalt => ?_⟩
    · rw [hpop]; rfl
    · rw [hpop]
      exact congrArg Res.outcome (raiseOutside_noHalt (s := { s with breakSeen := false }) hhalt .breakpoint)

end Sys2Proof.Machine
end

section
/-! SUPPORT. The obligation on initialisation: the state cleared, then word '0008 and ABOX2 (70_reset_and_hazards.md R550,
60_exceptions.md R476). -/

namespace Sys2Proof.Machine

variable {s t : State} {kind : InitKind} {rest : List Input}

/-! Events. -/

/-- A step on an event of the outside world. -/
theorem step_event {e : Input} (h : s.inputs = e :: rest) (he : e ≠ .cpu) :
    step s = (outsideEvent e { s with inputs := rest }).outcome := by
  show machineStep exec s = _
  rw [machineStep, h]
  cases e with
  | cpu => exact absurd rfl he
  | _ => rfl

/-! The state cleared. -/

/-- What an initialisation of `s` leaves in `t`, P and word '001E aside. -/
def State.initialised (s t : State) (kind : InitKind) (rest : List Input) : Prop :=
  t.st = ⟨true, false, false, false, false, false, true, s.cfg.hasIpm, true, false, false, kind ≠ .autoRestart, false⟩
    ∧ t.IM = 0#16 ∧ t.HV = 0#16 ∧ t.ipiRequest = false ∧ t.powerFailPending = false ∧ t.powerFailActive = false
    ∧ t.alarmStop = false ∧ t.autoRestartInhibited = false ∧ t.stepArmed = false ∧ t.breakSeen = false ∧ t.haltLeft = 0
    ∧ t.held = [] ∧ t.heldOperands = none ∧ (∀ c ∈ t.channels, c.active = false) ∧ t.cfg = s.cfg ∧ t.inputs = rest
    ∧ ∀ a, a ≠ 0x0001E#20 → readWord t.mem a = readWord s.mem a

theorem initialised_cleared (s : State) (kind : InitKind) (rest : List Input) :
    s.initialised (({ s with inputs := rest } : State).cleared kind) kind rest := by
  refine ⟨rfl, rfl, rfl, rfl, rfl, rfl, rfl, rfl, rfl, rfl, rfl, rfl, rfl, fun c hc => ?_, rfl, rfl, fun _ _ => rfl⟩
  obtain ⟨d, -, rfl⟩ := List.mem_map.mp hc
  rfl

theorem State.initialised.setP (h : s.initialised t kind rest) (p : Word) : s.initialised { t with P := p } kind rest := h

/-- ABOX2 zeroed. -/
theorem State.initialised.clearAbox2 (h : s.initialised t kind rest) (v : Word) :
    s.initialised (t.store 0x0001E#20 v) kind rest := by
  obtain ⟨hst, hIM, hHV, hipi, hpend, hact, hstop, hinh, harm, hbreak, hhalt, hheld, hops, hch, hcfg, hin, hmem⟩ := h
  exact ⟨hst, hIM, hHV, hipi, hpend, hact, hstop, hinh, harm, hbreak, hhalt, hheld, hops, hch, hcfg, hin,
    fun a ha => (readWord_writeWord_other _ _ ha).trans (hmem a ha)⟩

/-! The words '0008 and '001E. -/

theorem badWord_cleared (s : State) (kind : InitKind) (pa : PAddr) :
    (s.cleared kind).badWord pa = (s.cfg.parity && s.badParity.contains pa.toNat) := by
  simp [State.badWord, State.cleared, State.clearHidden, State.forgetRegisters, initialStatus]

/-- The state after an initialisation that reads `p` in word '0008. -/
def State.startsAt (s : State) (kind : InitKind) (p : Word) : State :=
  if kind ≠ .autoRestart ∧ s.cfg.hasXmr = true then ({ s.cleared kind with P := p } : State).store 0x0001E#20 0#16
  else { s.cleared kind with P := p }

/-- ABOX2 is zeroed where the rule says so. -/
theorem clearAbox2_ok (habox : kind ≠ .autoRestart → s.cfg.hasXmr = true → s.cfg.exists 0x0001E#20 = true) (p : Word) :
    clearAbox2 kind { s.cleared kind with P := p } = .ok () (s.startsAt kind p) := by
  have hcfg : (s.cleared kind).cfg = s.cfg := rfl
  rw [clearAbox2, State.startsAt, hcfg]
  by_cases hx : kind ≠ .autoRestart ∧ s.cfg.hasXmr = true
  · have hstorable : ({ s.cleared kind with P := p } : State).storable (absolute 0x001E#16) = true :=
      Bool.and_eq_true_iff.mpr ⟨habox hx.1 hx.2, congrArg (!·) (Bool.and_false _)⟩
    rw [if_pos hx, if_pos (by simpa using hx)]
    exact physWrite_ok hstorable 0#16
  · rw [if_neg hx, if_neg (by simpa using hx)]

/-- Word '0008 is read, then ABOX2 zeroed. -/
theorem initialise_ok (he : s.cfg.exists 0x00008#20 = true) (hb : s.cfg.parity = false ∨ 8 ∉ s.badParity)
    (habox : kind ≠ .autoRestart → s.cfg.hasXmr = true → s.cfg.exists 0x0001E#20 = true) :
    initialise kind s = .ok () (s.startsAt kind (s.abs 0x0008#16)) := by
  have hgood : (s.cleared kind).badWord 0x00008#20 = false := by
    rw [badWord_cleared]
    rcases hb with h | h <;> simp [h]
  have hsound : (s.cleared kind).sound (absolute 0x0008#16) = true :=
    Bool.and_eq_true_iff.mpr ⟨he, congrArg (!·) hgood⟩
  have habs : (s.cleared kind).abs 0x0008#16 = s.abs 0x0008#16 := abs_of_mem rfl _
  rw [initialise, physRead_ok hsound, Res.bind_ok, habs, clearAbox2_ok habox]

/-- An alarm at word '0008 is taken on the state cleared (log 49). -/
theorem initialise_alarm {n : Alarm} (h : readAt 0x00008#20 (s.cleared kind) = .alarm n (s.cleared kind)) :
    initialise kind s = raiseAlarm n (s.cleared kind) := by
  have hread : physRead 0x0008#16 (s.cleared kind) = .alarm n (s.cleared kind) := h
  rw [initialise, hread]; rfl

/-- An initialisation is refused to an automatic restart of a machine stopped or inhibited only (60_exceptions.md R476). -/
theorem step_initialise (h : s.inputs = .initialise kind :: rest)
    (hr : kind = .autoRestart → s.autoRestartInhibited = false ∧ s.stopped = false) :
    step s = (initialise kind { s with inputs := rest }).outcome := by
  have hrestarts : ({ s with inputs := rest } : State).restarts kind = true := by
    have hstopped : ({ s with inputs := rest } : State).stopped = s.stopped := rfl
    rw [State.restarts, hstopped]
    by_cases hk : kind = .autoRestart
    · simp [hr hk]
    · simp [hk]
  rw [step_event h nofun]
  exact congrArg Res.outcome (if_pos hrestarts)

/-- The state an initialisation ends in, P and word '001E included. -/
theorem initialised_startsAt (h : s.initialised (t.cleared kind) kind rest) (hcfg : t.cfg = s.cfg) (hmem : t.mem = s.mem) (p : Word) :
    s.initialised (t.startsAt kind p) kind rest ∧ (t.startsAt kind p).P = p
    ∧ (Memory.wf s.mem = true → readWord (t.startsAt kind p).mem 0x0001E#20
      = if kind ≠ .autoRestart ∧ s.cfg.hasXmr = true then 0#16 else readWord s.mem 0x0001E#20) := by
  rw [State.startsAt, hcfg]
  split
  · refine ⟨(h.setP p).clearAbox2 0#16, rfl, fun hwf => ?_⟩
    exact readWord_writeWord_same (m := t.mem) (hmem ▸ hwf) _ _
  · exact ⟨h.setP p, rfl, fun _ => congrArg (readWord · _) hmem⟩

end Sys2Proof.Machine

namespace Sys2Proof

open Machine

/-- Settles O53: the state is cleared, then word '0008 gives P or an alarm. -/
theorem initialise : Obligations.Initialise := by
  refine ⟨?_, rfl, rfl, rfl, rfl, rfl, rfl, rfl, rfl, rfl, rfl, rfl, fun _ hc => absurd hc List.not_mem_nil, fun _ => rfl⟩
  intro s kind rest clear hin hr hclear
  have hclear' (t : State) (ht : s.initialised t kind rest) : clear t := (hclear t).mpr ht
  have hstep := step_initialise hin hr
  have hcleared := initialised_cleared s kind rest
  refine ⟨fun he hb habox => ?_, fun he hp hb => ⟨_, hclear' _ hcleared, rfl, ?_⟩,
    fun he h04 => ⟨_, hclear' _ hcleared, rfl, ?_⟩⟩
  · obtain ⟨hdone, hP, habox'⟩ := initialised_startsAt hcleared rfl rfl (s.abs 0x0008#16)
    have hok := initialise_ok (s := { s with inputs := rest }) he hb habox
    exact ⟨_, hstep.trans (congrArg Res.outcome hok), hclear' _ hdone, hP, habox'⟩
  · exact hstep.trans (congrArg Res.outcome (initialise_alarm (s := { s with inputs := rest })
      (readAt_parityError he hp hb rfl rfl)))
  · exact hstep.trans (congrArg Res.outcome (initialise_alarm (s := { s with inputs := rest }) (readAt_absent he h04)))

end Sys2Proof
end

section
/-! SUPPORT. The couplers and the channels by their names: what is found after one is put in its place (61_io_debug.md R511, R523). -/

namespace Sys2Proof.Machine

variable {s t : State} {key : BitVec 14}

/-! Couplers. -/

/-- The coupler put in is found. -/
theorem find_putCoupler_same (d : Coupler) (l : List Coupler) :
    (putCoupler d l).find? (fun c => c.key = d.key) = some d := by
  induction l with
  | nil => simp [putCoupler]
  | cons e l ih =>
    rw [putCoupler]
    split
    · simp
    · next h => simpa [h] using ih

/-- The others are found as before. -/
theorem find_putCoupler_other {d : Coupler} (l : List Coupler) (h : key ≠ d.key) :
    (putCoupler d l).find? (fun c => c.key = key) = l.find? fun c => c.key = key := by
  induction l with
  | nil => simp [putCoupler, h.symm]
  | cons e l ih =>
    rw [putCoupler]
    split
    · next he => simp [he, h.symm]
    · simp only [List.find?_cons, ih]

theorem coupler?_key {d : Coupler} (h : s.coupler? key = some d) : d.key = key := by
  simpa using List.find?_some h

/-- A coupler changed by an operation that leaves its key. -/
theorem coupler?_updateCoupler {f : Coupler → Coupler} (hf : ∀ d, (f d).key = d.key) :
    (s.updateCoupler key f).coupler? key = (s.coupler? key).map f := by
  cases h : s.coupler? key with
  | none => rw [updateCoupler_none h, h]; rfl
  | some d =>
    have hkey : (f d).key = key := (hf d).trans (coupler?_key h)
    rw [updateCoupler_some h, State.coupler?, ← hkey]
    exact find_putCoupler_same (f d) s.couplers

theorem coupler?_of_couplers (h : t.couplers = s.couplers) (key : BitVec 14) : t.coupler? key = s.coupler? key := by
  rw [State.coupler?, h, State.coupler?]

/-! Channels. -/

/-- The channel put in is found. -/
theorem find_putChannel (c : Channel) (l : List Channel) :
    (putChannel c l).find? (fun e => e.kind = c.kind && e.set = c.set) = some c := by
  induction l with
  | nil => simp [putChannel]
  | cons e l ih =>
    rw [putChannel]
    split
    · simp
    · next h => rw [List.find?_cons_of_neg (by simpa using h)]; exact ih

theorem channel_setChannel (s : State) (c : Channel) : (s.setChannel c).channel c.kind c.set = c :=
  congrArg (·.getD (blankChannel c.kind c.set)) (find_putChannel c s.channels)

theorem channel_of_channels (h : t.channels = s.channels) (k : ChannelKind) (n : Nat) : t.channel k n = s.channel k n := by
  rw [State.channel, h, State.channel]

/-- A channel has the name it is found by. -/
theorem channel_name (s : State) (k : ChannelKind) (n : Nat) : (s.channel k n).kind = k ∧ (s.channel k n).set = n := by
  rw [State.channel]
  cases h : s.channels.find? fun c => c.kind = k && c.set = n with
  | none => exact ⟨rfl, rfl⟩
  | some c => simpa using List.find?_some h

end Sys2Proof.Machine
end

section
/-! SUPPORT. The obligation on the events of devices, of other processors and of the console (61_io_debug.md R512, R514, R541,
60_exceptions.md R475, 45_system.md R303, 70_reset_and_hazards.md R554). -/

namespace Sys2Proof.Machine

variable {s t u : State} {a v : Word} {pa : PAddr} {n : Alarm}

/-- A step on an event that raises nothing. -/
theorem step_event_ok {e : Input} {rest : List Input} (hin : s.inputs = e :: rest) (he : e ≠ .cpu)
    (h : outsideEvent e { s with inputs := rest } = .ok () t) : step s = .next t := by
  rw [step_event hin he, h]; rfl

/-- The coupler a device leaves keeps its routing (61_io_debug.md R512, R521). -/
theorem find_deviceActs (u : State) (d : Coupler) :
    ((u.deviceActs d).couplers.find? fun c => c.key = d.key)
      = some { d with toChannel := ((u.coupler? d.key).map (·.toChannel)).getD false }
    ∧ ∀ k, k ≠ d.key → ((u.deviceActs d).couplers.find? fun c => c.key = k) = u.coupler? k :=
  ⟨find_putCoupler_same { d with toChannel := ((u.coupler? d.key).map (·.toChannel)).getD false } u.couplers,
    fun _ hk => find_putCoupler_other u.couplers hk⟩

/-! Whether the console is heard. -/

theorem consoleHeard_iff : u.consoleHeard = true ↔ u.stopped = true ∨ (u.st.IOM = false ∧ bit u.IM 0 = false) := by
  simp [State.consoleHeard]

/-- A key pressed while it is masked is dropped (log 23). -/
theorem outsideEvent_unheard (h : u.consoleHeard = false) {e : Input}
    (he : e ∈ [.consoleRun, .consoleStop, .consoleRead a, .consoleWrite a v, .consoleDB a, .consoleRB a, .consoleREC]) :
    outsideEvent e u = .ok () u := by
  simp only [List.mem_cons, List.not_mem_nil, or_false] at he
  rcases he with rfl | rfl | rfl | rfl | rfl | rfl | rfl <;>
    simp [outsideEvent, consoleKey, State.consoleRun, State.consoleStop, h]

theorem consoleKey_ok {act : State → Res Unit} (hh : u.consoleHeard = true) (h : act u = .ok () t) :
    consoleKey act u = .ok () t := by
  rw [consoleKey, if_pos hh, h]

theorem consoleKey_alarm {act : State → Res Unit} (hh : u.consoleHeard = true) (h : act u = .alarm n t) :
    consoleKey act u = raiseOutside n t := by
  rw [consoleKey, if_pos hh, h]

/-! The accesses of the console. -/

theorem outsideEvent_consoleRead (a : Word) (u : State) :
    outsideEvent (.consoleRead a) u = consoleKey (fun s => (consoleAddress a s).bind consoleAccess) u := rfl

theorem outsideEvent_consoleWrite (a v : Word) (u : State) : outsideEvent (.consoleWrite a v) u
    = consoleKey (fun s => (consoleAddress a s).bind fun pa s => (consoleAccess pa s).bind fun _ s =>
      .ok () (s.consoleStore pa v)) u := rfl

theorem outsideEvent_consoleDB (a : Word) (u : State) : outsideEvent (.consoleDB a) u
    = consoleKey (fun s => (consoleAddress a s.consoleDebug).bind fun pa s => .ok () (s.setParity pa true)) u := rfl

theorem outsideEvent_consoleRB (a : Word) (u : State) : outsideEvent (.consoleRB a) u
    = consoleKey (fun s => (consoleAddress a s).bind fun pa s => .ok () (s.setParity pa false)) u := rfl

/-- In DEBUG mode, or on a word in good parity, an access raises nothing. -/
theorem consoleAccess_ok (he : u.cfg.exists pa = true) (h : u.st.DEBUG = true ∨ u.badWord pa = false) :
    consoleAccess pa u = .ok () u := by
  rw [consoleAccess, he]
  rcases h with h | h <;> simp [h]

section
variable {rel : Bool} (hrel : rel = (u.stopped && u.relocated)) (hpa : pa = u.place rel a)
include hrel hpa

theorem consoleAddress_ok (ha : u.allowed rel a = true) : consoleAddress a u = .ok pa u := by
  rw [consoleAddress, Bool.and_comm, ← hrel, resolve_allowed ha, hpa]

/-- The alarms of a display or a store: that of the protection, then those of the word out of DEBUG (R541). -/
theorem consoleAccess_alarms (h : (n = .memoryProtection ∧ rel = true ∧ u.limit < a.toNat)
    ∨ (n = .nonExistentMemory ∧ u.allowed rel a = true ∧ u.cfg.exists pa = false ∧ u.cfg.is0405 = false ∧ u.st.DEBUG = false)
    ∨ (n = .parityError ∧ u.allowed rel a = true ∧ u.cfg.exists pa = true ∧ u.badWord pa = true ∧ u.st.DEBUG = false)) :
    consoleAddress a u = .alarm n u ∨ (consoleAddress a u = .ok pa u ∧ consoleAccess pa u = .alarm n u) := by
  rcases h with ⟨rfl, hr, hl⟩ | ⟨rfl, ha, he, hm, hd⟩ | ⟨rfl, ha, he, hb, hd⟩
  · left
    rw [consoleAddress, Bool.and_comm, ← hrel, hr]
    exact resolve_refused (by simpa [State.allowed] using hl)
  · exact .inr ⟨consoleAddress_ok hrel hpa ha, by simp [consoleAccess, he, hm, hd]⟩
  · exact .inr ⟨consoleAddress_ok hrel hpa ha, by simp [consoleAccess, he, hb, hd]⟩

variable (hh : u.consoleHeard = true)
include hh

theorem outsideEvent_consoleAccess (ha : u.allowed rel a = true) (he : u.cfg.exists pa = true)
    (hok : u.st.DEBUG = true ∨ u.badWord pa = false) :
    outsideEvent (.consoleRead a) u = .ok () u ∧ outsideEvent (.consoleWrite a v) u = .ok () (u.store pa v) := by
  have haddress := consoleAddress_ok hrel hpa ha
  have haccess := consoleAccess_ok he hok
  rw [outsideEvent_consoleRead, outsideEvent_consoleWrite]
  refine ⟨consoleKey_ok hh (Res.bind_of_ok haddress haccess),
    consoleKey_ok hh (Res.bind_of_ok haddress (Res.bind_of_ok haccess ?_))⟩
  rw [State.consoleStore, if_pos he]

/-- Keys DB and RB mark the word, and clear its mark (R541). -/
theorem outsideEvent_consoleParity (ha : u.allowed rel a = true) (he : u.cfg.exists pa = true) (hp : u.cfg.parity = true) :
    outsideEvent (.consoleDB a) u = .ok () { u.consoleDebug with badParity := insertNat pa.toNat u.badParity }
    ∧ outsideEvent (.consoleRB a) u = .ok () { u with badParity := removeNat pa.toNat u.badParity } := by
  have haddress := consoleAddress_ok hrel hpa ha
  have hdebug : consoleAddress a u.consoleDebug = .ok pa u.consoleDebug := consoleAddress_ok (u := u.consoleDebug) hrel hpa ha
  rw [outsideEvent_consoleDB, outsideEvent_consoleRB]
  refine ⟨consoleKey_ok hh (Res.bind_of_ok hdebug ?_), consoleKey_ok hh (Res.bind_of_ok haddress ?_)⟩
  · exact congrArg _ (if_pos (by simp [State.consoleDebug, hp, he]))
  · exact congrArg _ (if_pos (by simp [hp, he]))

end

/-- An access of the console that meets an alarm (R541). -/
theorem outsideEvent_consoleAlarm (hh : u.consoleHeard = true)
    (h : consoleAddress a u = .alarm n u ∨ (consoleAddress a u = .ok pa u ∧ consoleAccess pa u = .alarm n u)) {e : Input}
    (he : e = .consoleRead a ∨ e = .consoleWrite a v) : outsideEvent e u = raiseOutside n u := by
  rcases he with rfl | rfl
  · rw [outsideEvent_consoleRead]
    refine consoleKey_alarm hh ?_
    rcases h with h | ⟨h, h'⟩
    · rw [h, Res.bind_alarm]
    · rw [h, Res.bind_ok, h']
  · rw [outsideEvent_consoleWrite]
    refine consoleKey_alarm hh ?_
    rcases h with h | ⟨h, h'⟩
    · rw [h, Res.bind_alarm]
    · rw [h, Res.bind_ok, h', Res.bind_alarm]

theorem consoleRun_eq (hh : u.consoleHeard = true) : u.consoleRun
    = if u.alarmStop = true then u else { u.released with st := { u.st with STOP := false } } := by
  rw [State.consoleRun, hh]
  cases u.alarmStop <;> rfl

/-- What RUN, the stop key and REC do where the console is heard (70_reset_and_hazards.md R554). -/
theorem outsideEvent_consoleKeys (hh : u.consoleHeard = true) :
    outsideEvent .consoleRun u
      = .ok () (if u.alarmStop = true then u else { u.released with st := { u.st with STOP := false } })
    ∧ outsideEvent .consoleStop u = .ok () { u.released with st := { u.st with STOP := true }, stopDelay := 0 }
    ∧ outsideEvent .consoleREC u = .ok () { u with st := { u.st with DEBUG := false } } :=
  ⟨congrArg (Res.ok ()) (consoleRun_eq hh), congrArg (Res.ok ()) (if_pos hh), congrArg (Res.ok ()) (if_pos hh)⟩

/-- A load of a register from the console: only when the machine is stopped (R541). -/
theorem outsideEvent_consoleLoad (r : ConsoleReg) (v : Word) :
    (u.stopped = false → outsideEvent (.consoleLoad r v) u = .ok () u)
    ∧ (u.stopped = true → outsideEvent (.consoleLoad r v) u = .ok () (u.released.consoleSet r v)) :=
  ⟨fun h => congrArg (Res.ok ()) (if_neg (by simp [h])), fun h => congrArg (Res.ok ()) (if_pos h)⟩

/-- Settles O54: what each event does, then what stops a key and an access of the console. -/
theorem outsideEvents : Obligations.OutsideEvents := by
  intro s u e rest hin hu heard hheard
  subst hu
  have hstep {t : State} (he : e ≠ .cpu) (h : outsideEvent e { s with inputs := rest } = .ok () t) : step s = .next t :=
    step_event_ok hin he h
  have hheard' : heard ↔ ({ s with inputs := rest } : State).consoleHeard = true := hheard.trans consoleHeard_iff.symm
  refine ⟨?_, ?_, ?_, ?_, ?_, ?_, ?_, ?_⟩
  · rintro rfl; exact hstep nofun rfl
  · rintro rfl; exact hstep nofun rfl
  · rintro q rfl; exact ⟨_, fun n => mem_removeNat, hstep nofun rfl⟩
  · rintro d rfl
    obtain ⟨hsame, hother⟩ := find_deviceActs { s with inputs := rest } d
    exact ⟨_, hstep nofun rfl, hsame, hother⟩
  · rintro pa v rfl he
    exact hstep nofun (congrArg (Res.ok ()) (if_pos he))
  · intro hno a v he
    have hunheard : ({ s with inputs := rest } : State).consoleHeard = false := by simpa using mt hheard'.mpr hno
    refine hstep ?_ (outsideEvent_unheard hunheard he)
    rintro rfl
    simp at he
  · intro h
    have hh := hheard'.mp h
    obtain ⟨hrun, hstop, hrec⟩ := outsideEvent_consoleKeys hh
    refine ⟨?_, ?_, ?_, ?_, fun a v rel pa hrel hpa => ⟨fun ha he hok => ?_, fun ha he hp => ?_, fun n hn he hhalt => ?_⟩⟩
    · rintro rfl halarm; exact hstep nofun (hrun.trans (congrArg (Res.ok ()) (if_pos halarm)))
    · rintro rfl halarm; exact hstep nofun (hrun.trans (congrArg (Res.ok ()) (if_neg (by simp [halarm]))))
    · rintro rfl; exact hstep nofun hstop
    · rintro rfl; exact hstep nofun hrec
    · obtain ⟨hread, hwrite⟩ := outsideEvent_consoleAccess (u := { s with inputs := rest }) (v := v) hrel hpa hh ha he hok
      constructor
      · rintro rfl; exact hstep nofun hread
      · rintro rfl; exact hstep nofun hwrite
    · obtain ⟨hset, hreset⟩ := outsideEvent_consoleParity (u := { s with inputs := rest }) hrel hpa hh ha he hp
      constructor
      · rintro rfl; exact ⟨_, fun n => mem_insertNat, hstep nofun hset⟩
      · rintro rfl; exact ⟨_, fun n => mem_removeNat.trans and_comm, hstep nofun hreset⟩
    · have halarm := outsideEvent_consoleAlarm (v := v) hh
        (consoleAccess_alarms (u := { s with inputs := rest }) (n := n) hrel hpa hn) he
      have hne : e ≠ .cpu := by rcases he with rfl | rfl <;> nofun
      rw [step_event hin hne, halarm, raiseOutside_noHalt (s := { s with inputs := rest }) hhalt]
  · rintro r v rfl
    obtain ⟨hruns, hloads⟩ := outsideEvent_consoleLoad (u := { s with inputs := rest }) r v
    refine ⟨fun hs => hstep nofun (hruns hs), fun hs => ⟨?_, ?_, ?_, fun hd => ⟨?_, ?_⟩⟩⟩
    · rintro q rfl; exact hstep nofun (hloads hs)
    · rintro rfl; exact hstep nofun (hloads hs)
    · rintro rfl; exact hstep nofun (hloads hs)
    · rintro rfl; exact hstep nofun ((hloads hs).trans (congrArg (Res.ok ()) (if_pos hd)))
    · rintro rfl; exact hstep nofun ((hloads hs).trans (congrArg (Res.ok ()) (if_pos hd)))

end Sys2Proof.Machine
end


section
/-! SUPPORT. The obligation on the commands of a channel: the words of a CCB, the start of an exchange, the report of one
(61_io_debug.md R522, R523, R525). -/

namespace Sys2Proof.Machine

variable {s : State} {m : Word} {f : Ccb} {k : ChannelKind} {n : Nat} {c : Channel}

/-- Where no LDC works, no working zone is written (R527, log 42). -/
theorem scribbleZone_self (h : k = .ldc → s.cfg.model = .m70) : s.scribbleZone k = s := by
  rw [State.scribbleZone, if_neg]
  by_cases hk : k = .ldc
  · simp [h hk]
  · simp [hk]

/-- The words of a CCB are read, and its fields name a channel (61_io_debug.md R522, R523). -/
theorem channelCommand_named (hc : s.calm [m, m + 1#16, m + 2#16, m + 3#16, m + 4#16, m + 5#16]) (hne : s.abs m ≠ 0x4000#16)
    (hf : f = ccbFields s.cfg.ccb (s.abs m) (s.abs (m + 1#16))) (hn : channelOf s.cfg.model s.hdcConnected f = some (k, n)) :
    (f.cs = true → channelCommand m s = channelReport (s.channel k n) m s)
    ∧ (f.cs = false → ∀ micro, microprogramOf s.cfg f (s.abs (m + 3#16)) (s.abs (m + 5#16)) = some micro →
      channelCommand m s = startChannel (startedChannel s.cfg.model f (k, n) micro (s.abs (m + 2#16)) (s.abs (m + 3#16))
        (s.abs (m + 4#16)) (s.abs (m + 5#16))) s) := by
  simp only [calm_cons] at hc
  obtain ⟨h0, h1, h2, h3, h4, h5, -⟩ := hc
  subst hf
  simp only [channelCommand, physRead_ok h0, physRead_ok h1, physRead_ok h2, physRead_ok h3, physRead_ok h4, physRead_ok h5,
    Res.bind_ok, if_neg hne, hn]
  exact ⟨fun hcs => if_pos hcs, fun hcs micro hmicro => by simp [hcs, hmicro]⟩

/-! The start of an exchange. -/

/-- The channel a CCB without special microprogram starts (61_io_debug.md R522). -/
theorem startedChannel_standard (hsp : f.sp = false) (w2 w3 w4 w5 : Word) :
    startedChannel s.cfg.model f (k, n) .standard w2 w3 w4 w5
      = { kind := k, set := n, active := true, addr := (if s.cfg.is0405 then 0#4 else BitVec.ofNat 4 f.mae) ++ w2
          rightNext := false, crossed := false, count := w3, da := w4, isByte := f.isByte, dk := f.dk, sp := false, ci := w5
          itn := f.itn, buffered := none, micro := .standard, ended := false } := by
  unfold startedChannel Config.is0405
  rw [hsp, Bool.or_false]
  cases s.cfg.model <;> rfl

theorem toNat_addr_low (a : BitVec 4) (w : Word) : ((a ++ w).extractLsb' 0 16).toNat = w.toNat := by
  have hw := w.isLt
  rw [BitVec.extractLsb'_toNat, BitVec.toNat_append, Nat.shiftRight_zero, Nat.or_mod_two_pow,
    Nat.shiftLeft_eq, Nat.mul_mod_left, Nat.zero_or, Nat.mod_eq_of_lt hw]

theorem channel_updateCoupler (s : State) (key : BitVec 14) (f : Coupler → Coupler) (k : ChannelKind) (n : Nat) :
    (s.updateCoupler key f).channel k n = s.channel k n :=
  channel_of_channels (congrArg State.channels (updateCoupler_frame s key f)) k n

/-- An exchange whose buffer stays in its 64K starts (61_io_debug.md R522). -/
theorem startChannel_ok (hw : (c.addr.extractLsb' 0 16).toNat + c.bufferWords ≤ 65536) (hk : c.kind = .ldc → s.cfg.model = .m70) :
    startChannel c s = .ok () ((s.setChannel c).updateCoupler c.coupler fun d => { d with toChannel := true }) := by
  rw [startChannel, if_neg (Nat.not_lt.mpr hw), scribbleZone_self]
  intro h
  rw [updateCoupler_frame]
  exact hk h

/-! The report of an exchange. -/

theorem servedElsewhere_eq_true {c : Channel} : s.servedElsewhere c = true
    ↔ ∃ e ∈ s.channels, e.active = true ∧ e.coupler = c.coupler ∧ ¬(e.kind = c.kind ∧ e.set = c.set) := by
  simp only [State.servedElsewhere, List.any_eq_true, Bool.and_eq_true, Bool.not_eq_true', Bool.and_eq_false_iff,
    decide_eq_true_eq, decide_eq_false_iff_not, and_assoc, not_and_or]
  exact exists_congr fun e => and_congr_right fun _ => and_congr_right fun _ => and_comm

/-- The report of a standard channel that holds no datum back (61_io_debug.md R525). -/
theorem channelReport_ok (hb : c.buffered = none) (hmicro : c.micro = .standard) (hk : c.kind = .ldc → s.cfg.model = .m70)
    (hs : s.storable (absolute (m + 3#16)) = true) : channelReport c m s
      = .ok () (((s.store (absolute (m + 3#16)) c.count).unrouted c).setChannel { c with active := false }) := by
  have hoverruns : c.overruns = false := by rw [Channel.overruns, hb, Option.isSome_none, Bool.and_false]
  have hflush : flushBuffer c s = (c, none, s) := by rw [flushBuffer, hb]
  have hword : reportWord c s = (c.count, s) := by rw [reportWord, hmicro]
  rw [channelReport, hoverruns, hflush]
  simp only [Bool.false_eq_true, if_false, hword]
  rw [physWrite_ok hs, Res.bind_ok, scribbleZone_self]
  intro h
  rw [unrouted_frame]
  exact hk h

/-- The coupler of a channel that was its only server goes back to the program (61_io_debug.md R525, log 41). -/
theorem coupler?_unrouted (ha : c.active = true) (hs : s.servedElsewhere c = false) :
    (s.unrouted c).coupler? c.coupler = (s.coupler? c.coupler).map fun d => { d with toChannel := false } := by
  rw [State.unrouted, ha, hs]
  exact coupler?_updateCoupler fun _ => rfl

/-- Settles O55: the start of an exchange, then the report of one. -/
theorem channelCommands : Obligations.ChannelCommands := by
  intro s m f k n hc hne hf hn hk
  obtain ⟨hreports, hstarts⟩ := channelCommand_named hc hne hf hn
  have hzone : k = .ldc → s.cfg.model = .m70 := fun h => hk.resolve_left (not_not_intro h)
  refine ⟨fun hcs hsp w key hw hkey => ?_, fun hcs c hcc hb hmicro => ?_⟩
  · have hmicro : microprogramOf s.cfg f (s.abs (m + 3#16)) (s.abs (m + 5#16)) = some .standard := by
      rw [microprogramOf, hsp]; rfl
    have hstart := hstarts hcs _ hmicro
    rw [startedChannel_standard hsp] at hstart
    generalize hst : Channel.mk k n _ _ _ _ _ _ _ _ _ _ _ _ _ _ = c at hstart ⊢
    have hlow : (c.addr.extractLsb' 0 16).toNat = (s.abs (m + 2#16)).toNat := by rw [← hst]; exact toNat_addr_low _ _
    have hwords : c.bufferWords = w := by rw [← hst, hw]; rfl
    have hcoupler : c.coupler = key := by rw [← hst, hkey]; rfl
    rw [hstart]
    refine ⟨fun hover => if_pos (by rwa [hlow, hwords]), fun hfits => ⟨_, startChannel_ok (by rwa [hlow, hwords])
      (by rw [← hst]; exact hzone), ?_, ?_, ?_⟩⟩
    · rw [channel_updateCoupler, ← hst]; exact channel_setChannel _ _
    · rw [hcoupler]; exact coupler?_updateCoupler fun _ => rfl
    · rw [updateCoupler_frame]; rfl
  · obtain ⟨hkind, hset⟩ : c.kind = k ∧ c.set = n := hcc ▸ channel_name s k n
    have hstorable : s.storable (absolute (m + 3#16)) = true := sound_storable (hc _ (by simp))
    have hreport := channelReport_ok (m := m) hb hmicro (hkind ▸ hzone) hstorable
    have hrun := hreports hcs
    rw [← hcc, hreport] at hrun
    refine ⟨_, hrun, ?_, fun ha halone => ?_, fun h => ?_, ?_⟩
    · rw [← hkind, ← hset]; exact channel_setChannel _ { c with active := false }
    · have hserved : (s.store (absolute (m + 3#16)) c.count).servedElsewhere c = false := by
        rw [Bool.eq_false_iff, ne_eq, servedElsewhere_eq_true]
        rintro ⟨e, he, hea, hec, hne⟩
        exact hne (by rw [hkind, hset]; exact halone e he hea hec)
      exact coupler?_unrouted ha hserved
    · have hkept : (s.store (absolute (m + 3#16)) c.count).unrouted c = s.store (absolute (m + 3#16)) c.count := by
        refine unrouted_kept (h.imp id fun he => ?_)
        rw [servedElsewhere_eq_true, hkind, hset]
        exact he
      rw [hkept]; rfl
    · rw [unrouted_frame]; rfl

end Sys2Proof.Machine
end


section
/-! SUPPORT. The obligation on the calls of a channel: the datum that is moved, the count, the end of the exchange (61_io_debug.md
R524, R525, R529 to R532). -/

namespace Sys2Proof.Machine

variable {s t u : State} {c : Channel} {d : Coupler} {v w : Word} {k : ChannelKind} {n : Nat} {rest : List Input}

/-! States that differ in their channels and couplers only. -/

/-- `t` is `u` with other channels and couplers. -/
def State.SameButIo (u t : State) : Prop := ∃ cs ds, t = { u with channels := cs, couplers := ds }

theorem State.SameButIo.eq (h : u.SameButIo t) : t = { u with channels := t.channels, couplers := t.couplers } := by
  obtain ⟨cs, ds, rfl⟩ := h; rfl

theorem State.SameButIo.kept (h : u.SameButIo t) : t.P = u.P ∧ t.mem = u.mem ∧ t.cfg = u.cfg ∧ t.haltLeft = u.haltLeft
    ∧ t.stepArmed = u.stepArmed ∧ t.breakSeen = u.breakSeen := by
  obtain ⟨cs, ds, rfl⟩ := h; exact ⟨rfl, rfl, rfl, rfl, rfl, rfl⟩

theorem sameButIo_updateCoupler (h : u.SameButIo t) (key : BitVec 14) (f : Coupler → Coupler) :
    u.SameButIo (t.updateCoupler key f) := by
  obtain ⟨cs, ds, rfl⟩ := h; exact ⟨_, _, updateCoupler_frame _ key f⟩

theorem sameButIo_self (u : State) : u.SameButIo u := ⟨u.channels, u.couplers, rfl⟩

theorem sameButIo_setChannel (h : u.SameButIo t) (c : Channel) : u.SameButIo (t.setChannel c) := by
  obtain ⟨cs, ds, rfl⟩ := h; exact ⟨_, ds, rfl⟩

theorem sameButIo_store (h : u.SameButIo t) (pa : PAddr) (v : Word) : (u.store pa v).SameButIo (t.store pa v) := by
  obtain ⟨cs, ds, rfl⟩ := h; exact ⟨cs, ds, rfl⟩

theorem sameButIo_countDatum (h : u.SameButIo t) (c : Channel) (v : Word) : u.SameButIo (countDatum c v t) := by
  unfold countDatum
  split
  · exact sameButIo_updateCoupler (sameButIo_setChannel h _) _ _
  · exact sameButIo_setChannel h _

/-! The count of a datum, and the end of the exchange. -/

theorem sub_one_eq_zero_iff : w - 1#16 = 0#16 ↔ w = 1#16 := by
  constructor <;> intro h <;> bv_omega

/-- A count changes nothing else in the channel. -/
theorem counted_frame (c : Channel) : c.counted = { c with count := c.counted.count } := by
  unfold Channel.counted; split <;> rfl

/-- What is counted depends on the microprogram and the count alone. -/
theorem counted_congr {c' : Channel} (hm : c'.micro = c.micro) (hc : c'.count = c.count) :
    c'.counted.count = c.counted.count ∧ ∀ v, c'.counted.endsOn v = c.counted.endsOn v := by
  unfold Channel.counted
  rw [hm]
  cases h : c.micro <;> simp [Channel.endsOn, hc, hm, h]

theorem counted_standard (h : c.micro = .standard) :
    c.counted.count = c.count - 1#16 ∧ c.counted.endsOn v = decide (c.count = 1#16) := by
  simp [Channel.counted, Channel.endsOn, h, sub_one_eq_zero_iff]

theorem counted_stopCode {sc : Byte} (h : c.micro = .stopCode sc) :
    c.counted.count = c.count - 1#16 ∧ (c.counted.endsOn v = true ↔ c.count = 1#16 ∨ lo v = sc) := by
  simp [Channel.counted, Channel.endsOn, h, sub_one_eq_zero_iff]

theorem counted_extendedStop {sc : Byte} (h : c.micro = .extendedStop sc) :
    c.counted.count = c.count + 1#16 ∧ (c.counted.endsOn v = true ↔ lo v = sc) := by
  simp [Channel.counted, Channel.endsOn, h]

/-- The channel after a datum (61_io_debug.md R524). -/
theorem countDatum_channel (he : c.ended = false) (v : Word) (s : State) : (countDatum c v s).channel c.kind c.set
    = { c with count := c.counted.count, ended := c.counted.endsOn v } := by
  unfold countDatum
  generalize hx : c.counted.count = x
  have hcounted : c.counted = { c with count := x } := hx ▸ counted_frame c
  rw [hcounted]
  cases hend : ({ c with count := x } : Channel).endsOn v with
  | true =>
    rw [if_pos rfl, writeCommand, channel_updateCoupler]
    exact channel_setChannel s { c with count := x, ended := true }
  | false =>
    rw [if_neg Bool.false_ne_true, ← he]
    exact channel_setChannel s { c with count := x }

/-- A coupler told "fin de bloc" when `last` says so (61_io_debug.md R524). -/
def Coupler.told (d : Coupler) (last : Bool) (code : Word) : Coupler :=
  if last then { d with command := d.command.map fun _ => code } else d

theorem countDatum_coupler (c : Channel) (v : Word) (s : State) : (countDatum c v s).coupler? c.coupler
    = (s.coupler? c.coupler).map fun d => d.told (c.counted.endsOn v) s.cfg.endOfBlock := by
  unfold countDatum
  cases hend : c.counted.endsOn v with
  | true => exact coupler?_updateCoupler fun _ => rfl
  | false => exact Option.map_id'.symm

/-! The address after a datum. -/

theorem advanced_frame (c : Channel) : c.advanced
    = { c with addr := c.advanced.addr, rightNext := c.advanced.rightNext, crossed := c.advanced.crossed } := by
  unfold Channel.advanced; split <;> rfl

/-- The next word, on the 16 low bits of the address (61_io_debug.md R522). -/
theorem toNat_nextAddr (a : PAddr) : (a.extractLsb' 16 4 ++ (a.extractLsb' 0 16 + 1#16) : BitVec 20).toNat
    = if a.toNat % 65536 = 65535 then a.toNat - 65535 else a.toNat + 1 := by
  have ha := a.isLt
  rw [BitVec.toNat_append, ← Nat.shiftLeft_add_eq_or_of_lt (BitVec.isLt _), Nat.shiftLeft_eq, BitVec.toNat_add,
    BitVec.extractLsb'_toNat, BitVec.extractLsb'_toNat, Nat.shiftRight_eq_div_pow, Nat.shiftRight_zero]
  simp only [BitVec.toNat_ofNat]
  split <;> omega

theorem follows_advanced {c' : Channel} (ha : c'.addr = c.advanced.addr) (hr : c'.rightNext = c.advanced.rightNext) :
    c.follows c' := by
  unfold Channel.follows
  split
  · next h => rw [ha, hr, Channel.advanced, if_pos (by simp [h])]; exact ⟨rfl, rfl⟩
  · next h =>
    rw [ha, hr, Channel.advanced, if_neg (by simpa using h)]
    exact ⟨rfl, toNat_nextAddr c.addr⟩

/-! The datum and its coupler. -/

theorem lo_useful (d : Coupler) (v : Word) : lo (d.useful v) = lo v := by
  unfold Coupler.useful
  split
  · rw [zext8, lo, BitVec.extractLsb'_setWidth_of_le (by decide)]; simp
  · rfl

/-- The coupler of `c` once its DataIn has been read (61_io_debug.md R512). -/
def State.dataRead (s : State) (c : Channel) : State := s.updateCoupler c.coupler fun d => d.served d.dataIn

section
variable (hd : u.coupler? c.coupler = some d)
include hd

theorem readData_eq : readData c.coupler u = (d.delivers d.dataIn, u.dataRead c) := by
  rw [readData, hd]; rfl

theorem coupler?_updated {f : Coupler → Coupler} (hf : ∀ d, (f d).key = d.key) :
    (u.updateCoupler c.coupler f).coupler? c.coupler = some (f d) :=
  (coupler?_updateCoupler hf).trans (congrArg (Option.map f) hd)

theorem coupler?_dataRead (hv : d.dataIn = some v) :
    (u.dataRead c).coupler? c.coupler = some { d with normalPending := none } := by
  refine (coupler?_updated hd (f := fun d => d.served d.dataIn) fun _ => rfl).trans ?_
  rw [Coupler.served, hv]; rfl

theorem coupler?_writeData {o : Word} (ho : d.dataOut = some o) (v : Word) : (writeData c.coupler v u).coupler? c.coupler
    = some { d with normalPending := none, dataOut := some (d.useful v) } := by
  refine (coupler?_updated hd (f := fun d => { d.served d.dataOut with dataOut := d.dataOut.map fun _ => d.useful v })
    fun _ => rfl).trans ?_
  simp only [Coupler.served, ho]; rfl

end

end Sys2Proof.Machine
end


section
/-! SUPPORT. The obligation on the calls of a channel: a step that serves one, by microprogram and direction (61_io_debug.md R524,
R525, R529 to R532, 45_system.md R306). -/

namespace Sys2Proof.Machine

variable {s t u x : State} {c c' : Channel} {d : Coupler} {v w : Word} {k : ChannelKind} {n : Nat} {rest : List Input}

/-! The words of memory. -/

theorem channelWord_ok {pa : PAddr} (he : u.cfg.exists pa = true) (h : u.badWord pa = false ∨ u.st.DEBUG = true) :
    channelWord pa u = (readWord u.mem pa, none, u) := by
  rw [channelWord, he]
  rcases h with h | h <;> simp [h]

theorem channelWord_bad {pa : PAddr} (he : u.cfg.exists pa = true) (hb : u.badWord pa = true) (hd : u.st.DEBUG = false) :
    channelWord pa u = (readWord u.mem pa, some .parityError, u) := by
  rw [channelWord, he, hb, hd]; rfl

/-- The datum is put in the word, where the word exists (61_io_debug.md R524). -/
theorem channelStore_ok (he : u.cfg.exists c.addr = true) (v : Word) : ∃ x,
    putDatum c.isByte c.rightNext (readWord u.mem c.addr) v x ∧ channelStore c v u = (none, u.store c.addr x) := by
  rw [channelStore, he]
  cases hb : c.isByte with
  | false => exact ⟨v, by rw [putDatum, if_pos rfl], rfl⟩
  | true => exact ⟨_, by rw [putDatum, if_neg (by decide)]; exact halves_withByte _ c.rightNext (lo v), rfl⟩

theorem channelStore_absent (he : u.cfg.exists c.addr = false) (hm : u.cfg.is0405 = false) (v : Word) :
    channelStore c v u = (some .nonExistentMemory, u) := by
  rw [channelStore, he, hm]; rfl

theorem flushBuffer_none (hb : c.buffered = none) (s : State) : flushBuffer c s = (c, none, s) := by
  rw [flushBuffer, hb]

theorem flushBuffer_some (hb : c.buffered = some w) (s : State) :
    flushBuffer c s = ({ c.advanced with buffered := none }, channelStore c w s) := by
  rw [flushBuffer, hb]

theorem sameButIo_dataRead (u : State) (c : Channel) : u.SameButIo (u.dataRead c) :=
  sameButIo_updateCoupler (sameButIo_self u) _ _

/-! The exchange goes on. -/

/-- `c'` is in the exchange of `c`, at some place of its buffer. -/
def Channel.SameExchange (c c' : Channel) : Prop :=
  ∃ a r o b, c' = { c with addr := a, rightNext := r, crossed := o, buffered := b }

/-- The channel and its coupler after a datum counted at another place (61_io_debug.md R524). -/
theorem countDatum_of (hx : c.SameExchange c') (he : c.ended = false) (hd : t.coupler? c.coupler = some d) (v : Word) :
    (countDatum c' v t).channel c.kind c.set = { c' with count := c.counted.count, ended := c.counted.endsOn v }
    ∧ (countDatum c' v t).coupler? c.coupler = some (d.told (c.counted.endsOn v) t.cfg.endOfBlock) := by
  obtain ⟨a, r, o, b, rfl⟩ := hx
  obtain ⟨hcount, hends⟩ :=
    counted_congr (c := c) (c' := { c with addr := a, rightNext := r, crossed := o, buffered := b }) rfl rfl
  rw [← hcount, ← hends]
  refine ⟨countDatum_channel (c := { c with addr := a, rightNext := r, crossed := o, buffered := b }) he v t, ?_⟩
  exact (countDatum_coupler _ v t).trans (congrArg (Option.map _) hd)

theorem told_dataOut (d : Coupler) (o : Option Word) (last : Bool) (code : Word) :
    ({ d with dataOut := o } : Coupler).told last code = { d.told last code with dataOut := o } := by
  unfold Coupler.told; split <;> rfl

/-! What a call does. -/

/-- An input, when the flush of the datum held back is known (61_io_debug.md R524). -/
theorem channelInput_of {a : Option Alarm} (hd : u.coupler? c.coupler = some d)
    (hf : flushBuffer c (u.dataRead c) = (c', a, t)) : channelInput c u
      = (a, countDatum { c' with buffered := some (d.delivers d.dataIn) } (d.delivers d.dataIn) t) := by
  rw [channelInput, readData_eq hd]
  simp only [hf]

theorem channelOutput_of {a : Option Alarm} (hw : channelWord c.addr u = (w, a, t)) :
    channelOutput c u = (a, countDatum c.advanced 0#16 (writeData c.coupler (c.takes w) t)) := by
  rw [channelOutput, hw]

theorem reflectAlarm_none (h : t.haltLeft = 0) (k : ChannelKind) : reflectAlarm k (none, t) = .ok () t := by
  have hends : haltEnds t = .ok () t := if_pos h
  rw [reflectAlarm, hends, ite_self]

/-- An LDC call ends a HALT in progress (45_system.md R306). -/
theorem reflectAlarm_halt (hk : k = .ldc) (h : t.haltLeft ≠ 0) (ha : t.stepArmed = false) (hb : t.breakSeen = false) :
    (reflectAlarm k (none, t)).outcome = .next (t.haltEnded (BitVec.ofNat 16 t.haltLeft)) := by
  have hends : haltEnds t = endCompleted t.stepArmed (t.haltEnded (BitVec.ofNat 16 t.haltLeft)) := by
    rw [haltEnds, if_neg h, State.endHalt, if_neg h]; rfl
  rw [reflectAlarm, if_pos hk, hends]
  exact (endCompleted_haltEnded hb _).1 ha

/-! A step that serves a channel. -/

/-- The step of `s` serves the channel `c`, that its coupler `d` calls, on the state `u` (61_io_debug.md R524). -/
structure State.Calls (s u : State) (c : Channel) (d : Coupler) : Prop where
  serves : c.overruns = false → step s = (channelServe c d u).outcome
  coupler : u.coupler? c.coupler = some d
  running : c.ended = false

theorem channelStep_idle (hc : c = u.channel k n) (h : u.coupler? c.coupler = none ∨ u.channelReady c = false) :
    channelStep k n u = .ok () u := by
  rw [channelStep, ← hc]
  cases hd : u.coupler? c.coupler with
  | none => rfl
  | some d =>
    have hr : u.channelReady c = false := h.resolve_left (by rw [hd]; exact Option.some_ne_none d)
    simp [hr]

theorem channelStep_serves (hc : c = u.channel k n) (hd : u.coupler? c.coupler = some d) (hr : u.channelReady c = true)
    (ho : c.overruns = false) (hz : k = .ldc → u.cfg.model = .m70) : channelStep k n u = channelServe c d u := by
  rw [channelStep, ← hc]
  simp [hd, hr, ho, scribbleZone_self hz]

theorem channelReady_eq_false (hk : c.kind = k) (h : c.active = false ∨ u.powerFailActive = true ∨ (k = .ldc ∧ u.st.LCM = true)
    ∨ c.ended = true) : u.channelReady c = false := by
  subst hk
  rcases h with h | h | ⟨h, h'⟩ | h
  · simp [State.channelReady, h]
  · simp [State.channelReady, h]
  · simp [State.channelReady, h, h']
  · simp [State.channelReady, Channel.unfinished, h]

theorem unfinished_of (he : c.ended = false) (h : c.count ≠ 0#16 ∨ c.micro = .byteAccess ∨ ∃ sc, c.micro = .extendedStop sc) :
    c.unfinished = true := by
  rw [Channel.unfinished, he]
  rcases h with h | h | ⟨sc, h⟩
  · cases c.micro <;> simp [h]
  · simp [h]
  · simp [h]

theorem overruns_eq_false (h : c.crossed = false ∨ c.buffered = none) : c.overruns = false := by
  rw [Channel.overruns]; rcases h with h | h <;> simp [h]

theorem calls_of (hin : s.inputs = .channel k n :: rest) (hc : c = s.channel k n) (hd : s.coupler? c.coupler = some d)
    (hr : s.channelReady c = true) (hz : k = .ldc → s.cfg.model = .m70) (he : c.ended = false) :
    s.Calls { s with inputs := rest } c d where
  serves ho := (step_event hin nofun).trans (congrArg Res.outcome
    (channelStep_serves (u := { s with inputs := rest }) hc hd hr ho hz))
  coupler := hd
  running := he

section
variable (h : s.Calls u c d)
include h

/-- An input that meets no alarm: the datum held back is stored, if any, and the one of the coupler is held (61_io_debug.md R524). -/
theorem State.Calls.input (hv : d.dataIn = some v) (hserve : channelServe c d u = reflectAlarm c.kind (channelInput c u))
    (ho : c.overruns = false) (hf : flushBuffer c (u.dataRead c) = (c', none, t)) (hx : c.SameExchange c')
    (ht : t.couplers = (u.dataRead c).couplers) (hio : x.SameButIo t) (hcfg : x.cfg = u.cfg) (hh : x.haltLeft = 0) :
    ∃ y, step s = .next y
      ∧ y.channel c.kind c.set = { c' with
          buffered := some (d.useful v), count := c.counted.count, ended := c.counted.endsOn (d.useful v) }
      ∧ y.coupler? c.coupler
        = some (({ d with normalPending := none } : Coupler).told (c.counted.endsOn (d.useful v)) u.cfg.endOfBlock)
      ∧ x.SameButIo y := by
  have hdelivers : d.delivers d.dataIn = d.useful v := by rw [hv]; rfl
  have hinput := channelInput_of h.coupler hf
  rw [hdelivers] at hinput
  have hx' : c.SameExchange { c' with buffered := some (d.useful v) } := by
    obtain ⟨a, r, o, b, rfl⟩ := hx; exact ⟨a, r, o, _, rfl⟩
  have hd : t.coupler? c.coupler = some { d with normalPending := none } :=
    (coupler?_of_couplers ht _).trans (coupler?_dataRead h.coupler hv)
  obtain ⟨hchannel, hcoupler⟩ := countDatum_of hx' h.running hd (d.useful v)
  have hy := sameButIo_countDatum hio { c' with buffered := some (d.useful v) } (d.useful v)
  obtain ⟨-, -, -, hhalt, -, -⟩ := hy.kept
  obtain ⟨-, -, hcfgt, -, -, -⟩ := hio.kept
  refine ⟨_, ?_, hchannel, ?_, hy⟩
  · rw [h.serves ho, hserve, hinput, reflectAlarm_none (hhalt.trans hh)]; rfl
  · rw [hcoupler, hcfgt, hcfg]

/-- An input with no datum held back yet. -/
theorem State.Calls.input_first (hv : d.dataIn = some v) (hserve : channelServe c d u = reflectAlarm c.kind (channelInput c u))
    (hb : c.buffered = none) (hh : u.haltLeft = 0) :
    ∃ y, step s = .next y
      ∧ y.channel c.kind c.set = { c with
          buffered := some (d.useful v), count := c.counted.count, ended := c.counted.endsOn (d.useful v) }
      ∧ y.coupler? c.coupler
        = some (({ d with normalPending := none } : Coupler).told (c.counted.endsOn (d.useful v)) u.cfg.endOfBlock)
      ∧ u.SameButIo y :=
  h.input hv hserve (overruns_eq_false (.inr hb)) (flushBuffer_none hb _) ⟨_, _, _, _, rfl⟩ rfl (sameButIo_dataRead u c) rfl hh

/-- An input that stores the datum held back in a word that exists. -/
theorem State.Calls.input_next (hv : d.dataIn = some v) (hserve : channelServe c d u = reflectAlarm c.kind (channelInput c u))
    (hb : c.buffered = some w) (hx : c.crossed = false) (he : u.cfg.exists c.addr = true) (hh : u.haltLeft = 0) :
    ∃ (y : State) (q : Word), step s = .next y
      ∧ y.channel c.kind c.set = { c.advanced with
          buffered := some (d.useful v), count := c.counted.count, ended := c.counted.endsOn (d.useful v) }
      ∧ y.coupler? c.coupler
        = some (({ d with normalPending := none } : Coupler).told (c.counted.endsOn (d.useful v)) u.cfg.endOfBlock)
      ∧ putDatum c.isByte c.rightNext (readWord u.mem c.addr) w q ∧ (u.store c.addr q).SameButIo y := by
  have hio := sameButIo_dataRead u c
  obtain ⟨-, hmem, hcfg, -, -, -⟩ := hio.kept
  obtain ⟨q, hput, hstore⟩ := channelStore_ok (u := u.dataRead c) (by rw [hcfg]; exact he) w
  have hflush := (flushBuffer_some hb (u.dataRead c)).trans (congrArg _ hstore)
  have hsame : c.SameExchange { c.advanced with buffered := none } := by rw [advanced_frame]; exact ⟨_, _, _, _, rfl⟩
  obtain ⟨y, hstep, hchannel, hcoupler, hsio⟩ := h.input hv hserve (overruns_eq_false (.inl hx)) hflush hsame rfl
    (sameButIo_store hio c.addr q) rfl hh
  exact ⟨y, q, hstep, hchannel, hcoupler, hmem ▸ hput, hsio⟩

/-- An input of an LDC during a HALT ends it (45_system.md R306). -/
theorem State.Calls.input_halt (hserve : channelServe c d u = reflectAlarm c.kind (channelInput c u)) (hk : c.kind = .ldc)
    (hb : c.buffered = none) (hh : u.haltLeft ≠ 0) (ha : u.stepArmed = false) (hbreak : u.breakSeen = false) :
    ∃ y, u.SameButIo y ∧ step s = .next (y.haltEnded (BitVec.ofNat 16 u.haltLeft)) := by
  have hy := sameButIo_countDatum (sameButIo_dataRead u c) { c with buffered := some (d.delivers d.dataIn) } (d.delivers d.dataIn)
  obtain ⟨-, -, -, hhalt, harmed, hseen⟩ := hy.kept
  have hends := reflectAlarm_halt hk (by rw [hhalt]; exact hh) (harmed.trans ha) (hseen.trans hbreak)
  rw [hhalt] at hends
  refine ⟨_, hy, ?_⟩
  rw [h.serves (overruns_eq_false (.inr hb)), hserve, channelInput_of h.coupler (flushBuffer_none hb _), hends]

/-- An input whose datum held back finds no word in memory: alarm 0, and the channel goes on (61_io_debug.md R529). -/
theorem State.Calls.input_absent (hserve : channelServe c d u = reflectAlarm c.kind (channelInput c u))
    (hb : c.buffered = some w) (hx : c.crossed = false) (ha : c.active = true) (he : u.cfg.exists c.addr = false)
    (hm : u.cfg.is0405 = false) : ∃ y, (y.channel c.kind c.set).active = true ∧ y.P = u.P ∧ y.mem = u.mem
      ∧ step s = (raiseOutside .nonExistentMemory y).outcome := by
  obtain ⟨-, -, hcfg, -, -, -⟩ := (sameButIo_dataRead u c).kept
  have hstore : channelStore c w (u.dataRead c) = (some .nonExistentMemory, u.dataRead c) :=
    channelStore_absent (by rw [hcfg]; exact he) (by rw [hcfg]; exact hm) w
  have hinput := channelInput_of h.coupler ((flushBuffer_some hb _).trans (congrArg _ hstore))
  have hy := sameButIo_countDatum (sameButIo_dataRead u c)
    { c.advanced with buffered := some (d.delivers d.dataIn) } (d.delivers d.dataIn)
  obtain ⟨hP, hmem, -, -, -, -⟩ := hy.kept
  refine ⟨_, ?_, hP, hmem, ?_⟩
  · have hcoupler : (u.dataRead c).coupler? c.coupler = some (d.served d.dataIn) :=
      coupler?_updated h.coupler (f := fun d => d.served d.dataIn) fun _ => rfl
    have hsame : c.SameExchange { c.advanced with buffered := some (d.delivers d.dataIn) } := by
      rw [advanced_frame]; exact ⟨_, _, _, _, rfl⟩
    rw [(countDatum_of hsame h.running hcoupler _).1, advanced_frame]
    exact ha
  · rw [h.serves (overruns_eq_false (.inl hx)), hserve, hinput]; rfl

/-- An output: the datum at the address goes to the coupler, and the alarm of the word, if any, is reflected (61_io_debug.md R524,
R529). -/
theorem State.Calls.output {o : Word} {a : Option Alarm} (ho : d.dataOut = some o)
    (hserve : channelServe c d u = reflectAlarm c.kind (channelOutput c u)) (hb : c.buffered = none)
    (hw : channelWord c.addr u = (w, a, u)) :
    ∃ y, step s = (reflectAlarm c.kind (a, y)).outcome
      ∧ y.channel c.kind c.set = { c.advanced with count := c.counted.count, ended := c.counted.endsOn 0#16 }
      ∧ y.coupler? c.coupler = some { ({ d with normalPending := none } : Coupler).told (c.counted.endsOn 0#16) u.cfg.endOfBlock with
          dataOut := some (d.useful (c.takes w)) }
      ∧ u.SameButIo y := by
  have hio : u.SameButIo (writeData c.coupler (c.takes w) u) := sameButIo_updateCoupler (sameButIo_self u) _ _
  obtain ⟨-, -, hcfg, -, -, -⟩ := hio.kept
  have hsame : c.SameExchange c.advanced := by rw [advanced_frame]; exact ⟨_, _, _, _, rfl⟩
  obtain ⟨hchannel, hcoupler⟩ := countDatum_of hsame h.running (coupler?_writeData h.coupler ho (c.takes w)) 0#16
  refine ⟨_, ?_, hchannel, ?_, sameButIo_countDatum hio _ _⟩
  · rw [h.serves (overruns_eq_false (.inr hb)), hserve, channelOutput_of hw]
  · rw [hcoupler, hcfg, ← told_dataOut]

end

end Sys2Proof.Machine
end


section
/-! SUPPORT. The obligation on the calls of a channel: the special microprograms, and the calls put together (61_io_debug.md R530 to
R532). -/

namespace Sys2Proof.Machine

variable {s t u : State} {c : Channel} {d : Coupler} {v : Word} {pa : PAddr}

/-! The microprograms. -/

theorem channelServe_standard (hm : c.micro = .standard) (d : Coupler) (s : State) :
    ((sioDecode c.da).1 = .dataIn → channelServe c d s = reflectAlarm c.kind (channelInput c s))
    ∧ ((sioDecode c.da).1 = .dataOut → channelServe c d s = reflectAlarm c.kind (channelOutput c s)) := by
  rw [channelServe, hm]
  exact ⟨fun h => by simp only [h], fun h => by simp only [h]⟩

theorem channelServe_stopCodes {sc : Byte} (hm : c.micro = .stopCode sc ∨ c.micro = .extendedStop sc) (d : Coupler) (s : State) :
    channelServe c d s = reflectAlarm c.kind (channelInput c s) := by
  rw [channelServe]; rcases hm with hm | hm <;> rw [hm]

theorem channelServe_byteAccess (hm : c.micro = .byteAccess) (d : Coupler) (s : State) :
    channelServe c d s = reflectAlarm c.kind (channelByte c d s) := by
  rw [channelServe, hm]

/-! A byte direct memory access. -/

/-- The word of byte offset `ao` (61_io_debug.md R532). -/
theorem atOffset_addr {ao : Word} (h : pa.toNat = (c.addr.toNat + ao.toNat / 2) % 1048576) : (c.atOffset ao).addr = pa := by
  have hao := ao.isLt
  apply BitVec.eq_of_toNat_eq
  rw [h, Channel.atOffset, BitVec.toNat_add, BitVec.toNat_setWidth, BitVec.toNat_ushiftRight, Nat.shiftRight_eq_div_pow]
  omega

theorem atOffset_rightNext (c : Channel) (ao : Word) : (c.atOffset ao).rightNext = decide (ao.toNat % 2 = 1) := by
  rw [Channel.atOffset, getLsbD_eq, Nat.pow_zero, Nat.div_one]

theorem takes_atOffset (hb : c.isByte = true) (ao w : Word) :
    (c.atOffset ao).takes w = if ao.toNat % 2 = 1 then zext8 (lo w) else zext8 (hi w) := by
  have hbyte : (c.atOffset ao).isByte = true := hb
  rw [Channel.takes, if_pos hbyte, byteOf, atOffset_rightNext, apply_ite zext8]
  simp only [decide_eq_true_eq]

section
variable (h : s.Calls u c d) (hm : c.micro = .byteAccess) (hb : c.buffered = none) (hh : u.haltLeft = 0)
  (hpa : (c.atOffset d.byteOffset).addr = pa) (hs : u.sound pa = true)
include h hm hb hh hpa hs

theorem State.Calls.byteOut (hd : d.dmaOut = true) :
    step s = .next (writeData c.coupler ((c.atOffset d.byteOffset).takes (readWord u.mem pa)) u) := by
  simp only [State.sound, Bool.and_eq_true, Bool.not_eq_true'] at hs
  obtain ⟨he, hbad⟩ := hs
  have hbyte : channelByte c d u
      = (none, writeData c.coupler ((c.atOffset d.byteOffset).takes (readWord u.mem pa)) u) := by
    simp only [channelByte, hd, hpa, channelWord_ok he (.inl hbad), if_true]; rfl
  have hhalt : (writeData c.coupler ((c.atOffset d.byteOffset).takes (readWord u.mem pa)) u).haltLeft = 0 := by
    rw [writeData, updateCoupler_frame]; exact hh
  rw [h.serves (overruns_eq_false (.inr hb)), channelServe_byteAccess hm, hbyte, reflectAlarm_none hhalt]; rfl

theorem State.Calls.byteIn (hd : d.dmaOut = false) (hv : d.dataIn = some v) (hbyte : c.isByte = true) :
    ∃ x, putDatum true (decide (d.byteOffset.toNat % 2 = 1)) (readWord u.mem pa) v x
      ∧ step s = .next ((u.dataRead c).store pa x) := by
  simp only [State.sound, Bool.and_eq_true, Bool.not_eq_true'] at hs
  obtain ⟨he, -⟩ := hs
  obtain ⟨-, hmem, hcfg, hhalt, -, -⟩ := (sameButIo_dataRead u c).kept
  obtain ⟨x, hput, hstore⟩ := channelStore_ok (u := u.dataRead c) (c := c.atOffset d.byteOffset)
    (by rw [hcfg, hpa]; exact he) (d.useful v)
  have hbyte' : (c.atOffset d.byteOffset).isByte = true := hbyte
  rw [hbyte', atOffset_rightNext, hpa, hmem] at hput
  rw [hpa] at hstore
  have hread : readData (c.atOffset d.byteOffset).coupler u = (d.useful v, u.dataRead c) := by
    refine (readData_eq h.coupler).trans ?_
    rw [hv]; rfl
  have hdone : channelByte c d u = (none, (u.dataRead c).store pa x) := by
    simp only [channelByte, hd, hread, hstore, Bool.false_eq_true, if_false]
  refine ⟨x, ?_, ?_⟩
  · simpa [putDatum, lo_useful] using hput
  · have hhalt' : ((u.dataRead c).store pa x).haltLeft = 0 := hhalt.trans hh
    rw [h.serves (overruns_eq_false (.inr hb)), channelServe_byteAccess hm, hdone, reflectAlarm_none hhalt']; rfl

end

/-- Settles O56: a channel that may not act, then a call by direction and microprogram. -/
theorem channelCalls : Obligations.ChannelCalls := by
  intro s k n rest c u hin hc hu
  have hkind : c.kind = k := hc ▸ (channel_name s k n).1
  have hset : c.set = n := hc ▸ (channel_name s k n).2
  subst hu
  refine ⟨fun h => ?_, fun ha hpf hldc he hcount d hd hto hnp e hE => ?_⟩
  · refine step_event_ok hin nofun (channelStep_idle (u := { s with inputs := rest }) hc ?_)
    rcases h with h | h | h | h | h
    · exact .inr (channelReady_eq_false hkind (.inl h))
    · exact .inr (channelReady_eq_false hkind (.inr (.inl h)))
    · exact .inr (channelReady_eq_false hkind (.inr (.inr (.inl h))))
    · exact .inr (channelReady_eq_false hkind (.inr (.inr (.inr h))))
    · exact .inl h
  · have hready : s.channelReady c = true := by
      have hlcm : (decide (c.kind = .ldc) && s.st.LCM) = false := by
        by_cases hk : c.kind = .ldc
        · rw [(hldc (hkind ▸ hk)).1, Bool.and_false]
        · rw [decide_eq_false hk, Bool.false_and]
      rw [State.channelReady, ha, hpf, hlcm, unfinished_of he hcount, hd, Option.any_some, hto, Option.isSome_iff_ne_none.mpr hnp]
      rfl
    have hcalls := calls_of hin hc hd hready (fun hk => (hldc hk).2) he
    have htold : e = ({ d with normalPending := none } : Coupler).told (decide (c.count = 1#16)) s.cfg.endOfBlock := by
      simp only [hE, Coupler.told, decide_eq_true_eq]
    subst hkind hset
    refine ⟨fun v hv hop hm hh => ⟨fun hb => ?_, fun w hb hx hex => ?_, fun w hb hx hex h04 => ?_⟩,
      fun o ho hop hm hh hx hb hex => ⟨fun hok => ?_, fun hbad hdebug => ?_⟩, fun v hv hb hh sc => ⟨fun hm => ?_, fun hm => ?_⟩,
      fun hm hb hbyte hh pa hpa hs => ⟨fun o hout ho => ?_, fun v hout hv => ?_⟩, fun hk hh harm hbreak hb hm hop => ?_⟩
    · obtain ⟨t, hstep, hchannel, hcoupler, hio⟩ := hcalls.input_first hv ((channelServe_standard hm d _).1 hop) hb hh
      rw [(counted_standard hm).2] at hcoupler
      rw [(counted_standard hm).2, (counted_standard (v := v) hm).1] at hchannel
      exact ⟨t, hstep, hchannel, htold ▸ hcoupler, hio.eq⟩
    · obtain ⟨t, x, hstep, hchannel, hcoupler, hput, hio⟩ :=
        hcalls.input_next hv ((channelServe_standard hm d _).1 hop) hb hx hex hh
      rw [(counted_standard hm).2] at hcoupler hchannel
      refine ⟨t, x, hstep, ?_, ?_, ?_, ?_, htold ▸ hcoupler, hput, hio.eq⟩
      · rw [hchannel]
      · rw [hchannel]; exact (counted_standard (v := v) hm).1
      · rw [hchannel]; exact follows_advanced rfl rfl
      · rw [hchannel]; exact decide_eq_true_iff
    · exact hcalls.input_absent ((channelServe_standard hm d _).1 hop) hb hx ha hex h04
    · obtain ⟨t, hstep, hchannel, hcoupler, hio⟩ := hcalls.output ho ((channelServe_standard hm d _).2 hop) hb
        (channelWord_ok (u := { s with inputs := rest }) hex hok)
      rw [(counted_standard hm).2] at hcoupler hchannel
      obtain ⟨-, -, -, hhalt, -, -⟩ := hio.kept
      rw [reflectAlarm_none (hhalt.trans hh)] at hstep
      refine ⟨t, hstep, ?_, ?_, ?_, htold ▸ hcoupler, hio.eq⟩
      · rw [hchannel]; exact (counted_standard (v := 0#16) hm).1
      · rw [hchannel]; exact follows_advanced rfl rfl
      · rw [hchannel]; exact decide_eq_true_iff
    · obtain ⟨t, hstep, hchannel, hcoupler, hio⟩ := hcalls.output ho ((channelServe_standard hm d _).2 hop) hb
        (channelWord_bad (u := { s with inputs := rest }) hex hbad hdebug)
      obtain ⟨hP, hmem, -, -, -, -⟩ := hio.kept
      refine ⟨t, ?_, hP, hmem, hstep⟩
      rw [hchannel, advanced_frame]; exact ha
    · obtain ⟨t, hstep, hchannel, -, -⟩ := hcalls.input_first hv (channelServe_stopCodes (.inl hm) d _) hb hh
      obtain ⟨hleft, hends⟩ := counted_stopCode (v := d.useful v) hm
      rw [lo_useful] at hends
      exact ⟨t, hstep, by rw [hchannel], by rw [hchannel, hleft], by rw [hchannel]; exact hends⟩
    · obtain ⟨t, hstep, hchannel, -, -⟩ := hcalls.input_first hv (channelServe_stopCodes (.inr hm) d _) hb hh
      obtain ⟨hleft, hends⟩ := counted_extendedStop (v := d.useful v) hm
      rw [lo_useful] at hends
      exact ⟨t, hstep, by rw [hchannel], by rw [hchannel, hleft], by rw [hchannel]; exact hends⟩
    · have hcoupler := coupler?_writeData hcalls.coupler ho
        ((c.atOffset d.byteOffset).takes (readWord s.mem pa))
      refine ⟨_, hcalls.byteOut hm hb hh (atOffset_addr hpa) hs hout, ?_, updateCoupler_frame _ _ _⟩
      rw [hcoupler, takes_atOffset hbyte]
    · obtain ⟨x, hput, hstep⟩ := hcalls.byteIn hm hb hh (atOffset_addr hpa) hs hout hv hbyte
      refine ⟨_, x, hstep, coupler?_dataRead hcalls.coupler hv, hput, ?_⟩
      rw [State.dataRead, updateCoupler_frame]; rfl
    · obtain ⟨y, hio, hstep⟩ := hcalls.input_halt ((channelServe_standard hm d _).1 hop) hk hb hh harm hbreak
      obtain ⟨hP, -, -, -, -, -⟩ := hio.kept
      exact ⟨_, hstep, rfl, rfl, hP⟩

end Sys2Proof.Machine
end
